-- ==== Sys2Proof/Word.lean ====
section
/-! DEFINITION. The word types of the machine, with the widths of `00_scope.md` R8 and R9. -/

namespace Sys2Proof

/-- The smallest addressable unit of physical memory (R70 (a): byte-addressed). -/
abbrev Byte := BitVec 8

/-- An interrupt vector, 8 bits (R8, R105). -/
abbrev IntVector := BitVec 8

/-- A virtual APIC ID, 32 bits (R8). -/
abbrev ApicId := BitVec 32

/-- A 64-bit physical-address field of the VMCS (R31, R32). -/
abbrev PhysAddr := BitVec 64

/-- An offset within a 4-KByte page (R70 (d)). -/
abbrev PageOff := BitVec 12

/-- A general register's number. The source names RCX, RSI, RDI, ECX, EAX, EDX only (R48).
PRESUMED (log 24, unsafe): the family's file of sixteen 64-bit registers, numbered as the family numbers
them (0 = RAX, 1 = RCX, 2 = RDX, 6 = RSI, 7 = RDI). -/
abbrev Reg := Fin 16

abbrev Reg.rax : Reg := 0
abbrev Reg.rcx : Reg := 1
abbrev Reg.rdx : Reg := 2
abbrev Reg.rsi : Reg := 6
abbrev Reg.rdi : Reg := 7

/-- The instruction pointer `CS:RIP` (R47). PRESUMED (log 24, unsafe): a 16-bit selector and a 64-bit RIP. -/
structure InstrPtr where
  cs  : BitVec 16
  rip : BitVec 64
  deriving DecidableEq, Repr

/-- The null instruction pointer. -/
def InstrPtr.zero : InstrPtr := { cs := 0, rip := 0 }

end Sys2Proof
end

