-- ==== Sys2Proof/Syntax.lean ====
section
/-! DEFINITION. The operations and events of the machine (`30_encoding.md` R100 to R104, R112): the selector
formats a step presents, and `Instr`, one constructor for each row of spec/opcode_table.json. -/

namespace Sys2Proof

/-- The kind of a memory access (R102). -/
inductive AccessKind where
  | read
  | write
  | fetch
  deriving DecidableEq, Repr

/-- What the translation of a linear address gives, supplied by the environment (R80, R197). -/
inductive Xlat where
  | ok
  | pageFault
  | eptViolation
  deriving DecidableEq, Repr

/-- What the environment says of one access to the APIC-access page. -/
structure AccessEnv where
  /-- the outcome of the translation (R80, R197) -/
  xlat : Xlat
  /-- the access is a linear access (R196) -/
  linear : Bool
  /-- the write is eligible for sub-page write permissions and the processor treats it as if
  "virtualize APIC accesses" were 0 (R192) -/
  subPage : Bool
  /-- the access belongs to the operation of the access before it (R205) -/
  cont : Bool
  /-- the operation makes a further access after this one -/
  more : Bool
  deriving DecidableEq, Repr

/-- A linear access that is alone in its operation and meets no fault. -/
def AccessEnv.plain : AccessEnv :=
  { xlat := .ok, linear := true, subPage := false, cont := false, more := false }

/-- Format `PAGE` (R102): an access to the APIC-access page, by the offset of its first byte. A write carries
its bytes, so that its size is their number. -/
inductive PageReq where
  | read (off : PageOff) (size : Nat) (env : AccessEnv)
  | write (off : PageOff) (data : List Byte) (env : AccessEnv)
  | fetch (off : PageOff) (size : Nat) (env : AccessEnv)
  deriving DecidableEq, Repr

/-- One linear access of a string iteration, by the physical address its translation gives (R80, R190). -/
inductive LinearAccess where
  | read (pa : PhysAddr) (size : Nat) (xlat : Xlat)
  | write (pa : PhysAddr) (data : List Byte) (xlat : Xlat) (subPage : Bool)
  | fetch (pa : PhysAddr) (size : Nat) (xlat : Xlat)
  deriving DecidableEq, Repr

/-- One iteration of a `REP`-prefixed string instruction (R138): its accesses in the order the instruction
makes them (R200), the registers after it, which the environment supplies (D1), and whether further
iterations remain. -/
structure RepIter where
  accs : List LinearAccess
  rcx  : BitVec 64
  rsi  : BitVec 64
  rdi  : BitVec 64
  more : Bool
  deriving DecidableEq, Repr

/-- The direction of format `MSR` (R101). -/
inductive MsrDir where
  | rdmsr
  | wrmsr
  deriving DecidableEq, Repr

/-- The direction of format `CR8` (R103). -/
inductive Cr8Dir where
  | toCr8
  | fromCr8
  deriving DecidableEq, Repr

/-- Format `EVENT` (R104): its members, with the operands the environment supplies. -/
inductive EventOp where
  | senduipi (v : IntVector) (t : ApicId)
  | sti (ifAfter block : Bool)
  | movSs (block : Bool)
  | popSs (block : Bool)
  | hlt
  | mwait
  | repStringIteration (it : RepIter)
  | vmEntry
  | instructionBoundary (higher : Bool)
  | externalInterrupt (pv : IntVector) (aexFirst : Bool)
  | tprVirtualization
  | pprVirtualization
  | eoiVirtualization
  | selfIpiVirtualization (v : IntVector)
  | ipiVirtualization (v : IntVector) (t : ApicId)
  | evaluatePendingVirtualInterrupts
  | virtualInterruptDelivery
  | postedInterruptProcessing (pv : IntVector) (aexFirst : Bool)
  deriving DecidableEq, Repr

/-- A (format, selector) pair with its operands (R100): what the decoder reads. -/
inductive Selector where
  | msr (dir : MsrDir) (ecx : BitVec 32)
  | page (req : PageReq)
  | cr8 (dir : Cr8Dir) (reg : Reg)
  | event (ev : EventOp)
  deriving DecidableEq, Repr

/-- What the guest program's input sequence holds for one step (D1): a selector, but for the MSR index, which
the instruction takes from `ECX` (R101). -/
inductive Carrier where
  | msr (dir : MsrDir)
  | page (req : PageReq)
  | cr8 (dir : Cr8Dir) (reg : Reg)
  | event (ev : EventOp)
  deriving DecidableEq, Repr

/-- The selector a carrier presents while `ECX` holds `ecx`. -/
def Carrier.selector (ecx : BitVec 32) : Carrier → Selector
  | .msr dir => .msr dir ecx
  | .page req => .page req
  | .cr8 dir reg => .cr8 dir reg
  | .event ev => .event ev

/-- The operations of the machine: one constructor for each row of spec/opcode_table.json. -/
inductive Instr where
  | movToCr8 (src : Reg)
  | movFromCr8 (dst : Reg)
  | wrmsrTpr
  | wrmsrEoi
  | wrmsrSelfIpi
  | wrmsrIcr
  /-- `idx` is the low byte of the MSR index 0x800 + idx -/
  | wrmsrApicOther (idx : BitVec 8)
  | rdmsrApic (idx : BitVec 8)
  | pageWriteTpr (data : List Byte) (env : AccessEnv)
  | pageWriteEoi (data : List Byte) (env : AccessEnv)
  | pageWriteIcrLo (data : List Byte) (env : AccessEnv)
  | pageWriteOther (off : PageOff) (data : List Byte) (env : AccessEnv)
  | pageRead (off : PageOff) (size : Nat) (env : AccessEnv)
  | pageFetch (off : PageOff) (size : Nat) (env : AccessEnv)
  | senduipi (v : IntVector) (t : ApicId)
  | sti (ifAfter block : Bool)
  | movSs (block : Bool)
  | popSs (block : Bool)
  | hlt
  | mwait
  | repStringIteration (it : RepIter)
  | vmEntry
  | instructionBoundary (higher : Bool)
  | externalInterrupt (pv : IntVector) (aexFirst : Bool)
  | tprVirtualization
  | pprVirtualization
  | eoiVirtualization
  | selfIpiVirtualization (v : IntVector)
  | ipiVirtualization (v : IntVector) (t : ApicId)
  | evaluatePendingVirtualInterrupts
  | virtualInterruptDelivery
  | postedInterruptProcessing (pv : IntVector) (aexFirst : Bool)
  deriving DecidableEq, Repr

/-- The instructions of the byte table `30_encoding.md` R110. PRESUMED (log 1): the table is general knowledge
and no rule depends on it, and no step of the machine reads bytes. A register is a ModRM number. -/
inductive GkInstr where
  | wrmsr
  | rdmsr
  | movToCr8 (r : Fin 8)
  | movFromCr8 (r : Fin 8)
  | senduipi (r : Fin 8)
  | sti
  | hlt
  | mwait
  | popSs
  | movSs (r : Fin 8)
  | ins (rep wide : Bool)
  | outs (rep wide : Bool)
  | movEcxImm (imm : BitVec 32)
  | movEaxImm (imm : BitVec 32)
  | movEdxImm (imm : BitVec 32)
  | xorEaxEax
  | xorEdxEdx
  deriving DecidableEq, Repr

end Sys2Proof
end

