-- ==== Sys2Proof/WellFormed.lean ====
section
/-! DEFINITION. The well-formed operations: those a selector can stand for. -/

namespace Sys2Proof

/-- An access moves at least one byte. -/
def LinearAccess.wf : LinearAccess → Bool
  | .read _ size _ => decide (0 < size)
  | .write _ data _ _ => !data.isEmpty
  | .fetch _ size _ => decide (0 < size)

/-- Every access of an iteration moves at least one byte. -/
def RepIter.wf (it : RepIter) : Bool := it.accs.all LinearAccess.wf

/-- The four MSR indices that have rows of their own (R101), by their low byte. -/
def isNamedMsr (idx : BitVec 8) : Bool :=
  idx == 0x08 || idx == 0x0B || idx == 0x30 || idx == 0x3F

/-- The three page offsets whose writes have rows of their own (R102). -/
def isTriggerOff (off : PageOff) : Bool :=
  off == 0x080 || off == 0x0B0 || off == 0x300

/-- The checks: the rows with an exact selector take precedence over the default row of their format
(opcode_table.json WRMSR_APIC_OTHER, PAGE_WRITE_OTHER), and an access is not empty. -/
def Instr.wf : Instr → Bool
  | .wrmsrApicOther idx => !isNamedMsr idx
  | .pageWriteTpr data _ => !data.isEmpty
  | .pageWriteEoi data _ => !data.isEmpty
  | .pageWriteIcrLo data _ => !data.isEmpty
  | .pageWriteOther off data _ => !isTriggerOff off && !data.isEmpty
  | .pageRead _ size _ => decide (0 < size)
  | .pageFetch _ size _ => decide (0 < size)
  | .repStringIteration it => it.wf
  | .movToCr8 _ | .movFromCr8 _ | .wrmsrTpr | .wrmsrEoi | .wrmsrSelfIpi | .wrmsrIcr | .rdmsrApic _
  | .senduipi _ _ | .sti _ _ | .movSs _ | .popSs _ | .hlt | .mwait | .vmEntry | .instructionBoundary _
  | .externalInterrupt _ _ | .tprVirtualization | .pprVirtualization | .eoiVirtualization
  | .selfIpiVirtualization _ | .ipiVirtualization _ _ | .evaluatePendingVirtualInterrupts
  | .virtualInterruptDelivery | .postedInterruptProcessing _ _ => true

end Sys2Proof
end

