-- ==== Sys2Proof/Decode.lean ====
section
/-! DEFINITION. The decoder from selectors to operations (`30_encoding.md` R100 to R104, R107, R112), the encoder
back, the host's reading of a table word, and the byte table R110. -/

namespace Sys2Proof

/-- Why a selector names no operation. -/
inductive DecodeError where
  /-- the MSR index is outside 0x800 to 0x8FF, where format `MSR` does not apply (R101) -/
  | notApicMsr (ecx : BitVec 32)
  /-- an access of no bytes -/
  | emptyAccess
  deriving DecidableEq, Repr

/-- `WRMSR` by its index: the four exact rows first, then the rest of the range (R101, R112). -/
def decodeWrmsr (ecx : BitVec 32) : Except DecodeError Instr :=
  if ecx = 0x808 then .ok .wrmsrTpr
  else if ecx = 0x80B then .ok .wrmsrEoi
  else if ecx = 0x83F then .ok .wrmsrSelfIpi
  else if ecx = 0x830 then .ok .wrmsrIcr
  else if ecx.extractLsb' 8 24 = 8 then .ok (.wrmsrApicOther (ecx.extractLsb' 0 8))
  else .error (.notApicMsr ecx)

/-- `RDMSR` by its index (R101, R127). -/
def decodeRdmsr (ecx : BitVec 32) : Except DecodeError Instr :=
  if ecx.extractLsb' 8 24 = 8 then .ok (.rdmsrApic (ecx.extractLsb' 0 8))
  else .error (.notApicMsr ecx)

/-- A write by its page offset: the three exact rows first, then the default (R102, R112). -/
def decodePageWrite (off : PageOff) (data : List Byte) (env : AccessEnv) : Except DecodeError Instr :=
  if data.isEmpty then .error .emptyAccess
  else if off = 0x080 then .ok (.pageWriteTpr data env)
  else if off = 0x0B0 then .ok (.pageWriteEoi data env)
  else if off = 0x300 then .ok (.pageWriteIcrLo data env)
  else .ok (.pageWriteOther off data env)

/-- Format `PAGE` (R102). -/
def decodePage : PageReq → Except DecodeError Instr
  | .read off size env => if size = 0 then .error .emptyAccess else .ok (.pageRead off size env)
  | .write off data env => decodePageWrite off data env
  | .fetch off size env => if size = 0 then .error .emptyAccess else .ok (.pageFetch off size env)

/-- Format `EVENT` (R104): the member is the operation. -/
def decodeEvent : EventOp → Except DecodeError Instr
  | .senduipi v t => .ok (.senduipi v t)
  | .sti ifAfter block => .ok (.sti ifAfter block)
  | .movSs block => .ok (.movSs block)
  | .popSs block => .ok (.popSs block)
  | .hlt => .ok .hlt
  | .mwait => .ok .mwait
  | .repStringIteration it => if it.wf then .ok (.repStringIteration it) else .error .emptyAccess
  | .vmEntry => .ok .vmEntry
  | .instructionBoundary higher => .ok (.instructionBoundary higher)
  | .externalInterrupt pv aexFirst => .ok (.externalInterrupt pv aexFirst)
  | .tprVirtualization => .ok .tprVirtualization
  | .pprVirtualization => .ok .pprVirtualization
  | .eoiVirtualization => .ok .eoiVirtualization
  | .selfIpiVirtualization v => .ok (.selfIpiVirtualization v)
  | .ipiVirtualization v t => .ok (.ipiVirtualization v t)
  | .evaluatePendingVirtualInterrupts => .ok .evaluatePendingVirtualInterrupts
  | .virtualInterruptDelivery => .ok .virtualInterruptDelivery
  | .postedInterruptProcessing pv aexFirst => .ok (.postedInterruptProcessing pv aexFirst)

/-- The decoder: total on every (format, selector) pair (R100). -/
def decode : Selector → Except DecodeError Instr
  | .msr .wrmsr ecx => decodeWrmsr ecx
  | .msr .rdmsr ecx => decodeRdmsr ecx
  | .page req => decodePage req
  | .cr8 .toCr8 reg => .ok (.movToCr8 reg)
  | .cr8 .fromCr8 reg => .ok (.movFromCr8 reg)
  | .event ev => decodeEvent ev

/-- The APIC MSR with low byte `idx` (R101: 0x800 to 0x8FF). -/
def apicMsr (idx : BitVec 8) : BitVec 32 := (0x8 : BitVec 24) ++ idx

/-- The encoder: the selector that names an operation, from the selector table R112. -/
def encode : Instr → Selector
  | .movToCr8 src => .cr8 .toCr8 src
  | .movFromCr8 dst => .cr8 .fromCr8 dst
  | .wrmsrTpr => .msr .wrmsr 0x808
  | .wrmsrEoi => .msr .wrmsr 0x80B
  | .wrmsrSelfIpi => .msr .wrmsr 0x83F
  | .wrmsrIcr => .msr .wrmsr 0x830
  | .wrmsrApicOther idx => .msr .wrmsr (apicMsr idx)
  | .rdmsrApic idx => .msr .rdmsr (apicMsr idx)
  | .pageWriteTpr data env => .page (.write 0x080 data env)
  | .pageWriteEoi data env => .page (.write 0x0B0 data env)
  | .pageWriteIcrLo data env => .page (.write 0x300 data env)
  | .pageWriteOther off data env => .page (.write off data env)
  | .pageRead off size env => .page (.read off size env)
  | .pageFetch off size env => .page (.fetch off size env)
  | .senduipi v t => .event (.senduipi v t)
  | .sti ifAfter block => .event (.sti ifAfter block)
  | .movSs block => .event (.movSs block)
  | .popSs block => .event (.popSs block)
  | .hlt => .event .hlt
  | .mwait => .event .mwait
  | .repStringIteration it => .event (.repStringIteration it)
  | .vmEntry => .event .vmEntry
  | .instructionBoundary higher => .event (.instructionBoundary higher)
  | .externalInterrupt pv aexFirst => .event (.externalInterrupt pv aexFirst)
  | .tprVirtualization => .event .tprVirtualization
  | .pprVirtualization => .event .pprVirtualization
  | .eoiVirtualization => .event .eoiVirtualization
  | .selfIpiVirtualization v => .event (.selfIpiVirtualization v)
  | .ipiVirtualization v t => .event (.ipiVirtualization v t)
  | .evaluatePendingVirtualInterrupts => .event .evaluatePendingVirtualInterrupts
  | .virtualInterruptDelivery => .event .virtualInterruptDelivery
  | .postedInterruptProcessing pv aexFirst => .event (.postedInterruptProcessing pv aexFirst)

/-! ### The table's words (log 2)

opcode_table.json gives `match` and `mask` on the selector: 32 bits of `ECX` for format `MSR`, 12 bits of page
offset for format `PAGE` (R111). It gives no bits for the direction: a word of 32 bits is read as `WRMSR`'s
`ECX`, a word of 12 bits (16 in whole bytes) as the offset of a 4-byte write of zeros. -/

/-- The carrier a table word stands for. -/
def carrierOfTableWord (nbits w : Nat) : Option Carrier :=
  if nbits = 32 ∧ w < 2 ^ 32 then some (.msr .wrmsr)
  else if (nbits = 16 ∨ nbits = 12) ∧ w < 2 ^ 12 then
    some (.page (.write (BitVec.ofNat 12 w) [0, 0, 0, 0] AccessEnv.plain))
  else none

/-- The operation the decoder reads from a table word. -/
def decodeTableWord (nbits w : Nat) : Option Instr :=
  match carrierOfTableWord nbits w with
  | none => none
  | some c =>
    match decode (c.selector (BitVec.ofNat 32 w)) with
    | .ok i => some i
    | .error _ => none

/-! ### The byte table R110 (general knowledge; no step reads it) -/

/-- A ModRM byte with mod = 11 and the given reg field. -/
def modRmReg (reg : BitVec 3) (r : Fin 8) : Byte := (0b11 : BitVec 2) ++ reg ++ BitVec.ofNat 3 r.val

/-- The register of a ModRM byte whose mod is 11 and whose reg field is as given. -/
def regOfModRm (reg : BitVec 3) (b : Byte) : Option (Fin 8) :=
  if b.extractLsb' 3 5 = (0b11 : BitVec 2) ++ reg then some (Fin.ofNat 8 (b.extractLsb' 0 3).toNat) else none

/-- A 32-bit immediate from its four bytes, least significant first. -/
def imm32 (b0 b1 b2 b3 : Byte) : BitVec 32 := b3 ++ b2 ++ b1 ++ b0

/-- The bytes of R110 in memory order. -/
def GkInstr.bytes : GkInstr → List Byte
  | .wrmsr => [0x0F, 0x30]
  | .rdmsr => [0x0F, 0x32]
  | .movToCr8 r => [0x44, 0x0F, 0x22, modRmReg 0 r]
  | .movFromCr8 r => [0x44, 0x0F, 0x20, modRmReg 0 r]
  | .senduipi r => [0xF3, 0x0F, 0xC7, modRmReg 6 r]
  | .sti => [0xFB]
  | .hlt => [0xF4]
  | .mwait => [0x0F, 0x01, 0xC9]
  | .popSs => [0x17]
  | .movSs r => [0x8E, modRmReg 2 r]
  | .ins rep wide => (if rep then [0xF3] else []) ++ [if wide then 0x6D else 0x6C]
  | .outs rep wide => (if rep then [0xF3] else []) ++ [if wide then 0x6F else 0x6E]
  | .movEcxImm i => [0xB9, i.extractLsb' 0 8, i.extractLsb' 8 8, i.extractLsb' 16 8, i.extractLsb' 24 8]
  | .movEaxImm i => [0xB8, i.extractLsb' 0 8, i.extractLsb' 8 8, i.extractLsb' 16 8, i.extractLsb' 24 8]
  | .movEdxImm i => [0xBA, i.extractLsb' 0 8, i.extractLsb' 8 8, i.extractLsb' 16 8, i.extractLsb' 24 8]
  | .xorEaxEax => [0x31, 0xC0]
  | .xorEdxEdx => [0x31, 0xD2]

/-- The string instructions `INS` and `OUTS` by their opcode byte. -/
def stringOfByte (rep : Bool) (b : Byte) : Option GkInstr :=
  if b = 0x6C then some (.ins rep false)
  else if b = 0x6D then some (.ins rep true)
  else if b = 0x6E then some (.outs rep false)
  else if b = 0x6F then some (.outs rep true)
  else none

/-- The instruction of R110 that a list of bytes begins with, and the bytes after it; none for any other
bytes. DESIGN CHOICE: `MOV SS` by its register form only, since R110 gives no bytes after a ModRM whose mod is not 11
(log 50). -/
def decodeBytes : List Byte → Option (GkInstr × List Byte)
  | 0x0F#8 :: 0x30#8 :: rest => some (.wrmsr, rest)
  | 0x0F#8 :: 0x32#8 :: rest => some (.rdmsr, rest)
  | 0x0F#8 :: 0x01#8 :: 0xC9#8 :: rest => some (.mwait, rest)
  | 0x44#8 :: 0x0F#8 :: 0x22#8 :: m :: rest => (regOfModRm 0 m).map fun r => (.movToCr8 r, rest)
  | 0x44#8 :: 0x0F#8 :: 0x20#8 :: m :: rest => (regOfModRm 0 m).map fun r => (.movFromCr8 r, rest)
  | 0xF3#8 :: 0x0F#8 :: 0xC7#8 :: m :: rest => (regOfModRm 6 m).map fun r => (.senduipi r, rest)
  | 0xF3#8 :: b :: rest => (stringOfByte true b).map fun i => (i, rest)
  | 0xFB#8 :: rest => some (.sti, rest)
  | 0xF4#8 :: rest => some (.hlt, rest)
  | 0x17#8 :: rest => some (.popSs, rest)
  | 0x8E#8 :: m :: rest => (regOfModRm 2 m).map fun r => (.movSs r, rest)
  | 0xB9#8 :: b0 :: b1 :: b2 :: b3 :: rest => some (.movEcxImm (imm32 b0 b1 b2 b3), rest)
  | 0xB8#8 :: b0 :: b1 :: b2 :: b3 :: rest => some (.movEaxImm (imm32 b0 b1 b2 b3), rest)
  | 0xBA#8 :: b0 :: b1 :: b2 :: b3 :: rest => some (.movEdxImm (imm32 b0 b1 b2 b3), rest)
  | 0x31#8 :: 0xC0#8 :: rest => some (.xorEaxEax, rest)
  | 0x31#8 :: 0xD2#8 :: rest => some (.xorEdxEdx, rest)
  | b :: rest => (stringOfByte false b).map fun i => (i, rest)
  | [] => none

end Sys2Proof
end

