-- ==== Sys2Proof/Config.lean ====
section
/-! DEFINITION. What is fixed for a machine: the names and fixed offsets of the source, and the operand
mappings of the absent sections, which stay open. -/

namespace Sys2Proof

/-- The 1-bit VM-execution controls read by the rules (`10_state.md` R33; `00_scope.md` R3). -/
structure Controls where
  /-- `ctl.VID`, "virtual-interrupt delivery" -/
  vid : Bool
  /-- `ctl.TPR_SHADOW`, "use TPR shadow" -/
  tprShadow : Bool
  /-- `ctl.VIRT_APIC_ACCESSES`, "virtualize APIC accesses" -/
  virtApicAccesses : Bool
  /-- `ctl.VIRT_X2APIC`, "virtualize x2APIC mode" -/
  virtX2apic : Bool
  /-- `ctl.APIC_REG_VIRT`, "APIC-register virtualization" -/
  apicRegVirt : Bool
  /-- `ctl.POSTED_INTR`, "process posted interrupts" -/
  postedIntr : Bool
  /-- `ctl.IPI_VIRT`, "IPI virtualization" -/
  ipiVirt : Bool
  /-- `ctl.INTR_WINDOW_EXITING`, "interrupt-window exiting" -/
  intrWindowExiting : Bool
  /-- `ctl.EXT_INTR_EXITING`, "external-interrupt exiting" -/
  extIntrExiting : Bool
  deriving DecidableEq, Repr

/-- All nine controls at one value. -/
def Controls.all (b : Bool) : Controls :=
  { vid := b, tprShadow := b, virtApicAccesses := b, virtX2apic := b, apicRegVirt := b, postedIntr := b,
    ipiVirt := b, intrWindowExiting := b, extIntrExiting := b }

/-- The mode of the physical local APIC (`00_scope.md` R7 `ApicMode`, OPEN, D23). -/
inductive ApicMode where
  | xapic
  | x2apic
  deriving DecidableEq, Repr

/-- Which form of write gives the new VTPR (R121, R123). -/
inductive TprForm where
  | cr8
  | msr
  deriving DecidableEq, Repr

/-- What a write to page offset 0x300 causes (R130, D13). -/
inductive IcrAction where
  | selfIpi (v : IntVector)
  | ipi (v : IntVector) (t : ApicId)
  | exit
  deriving DecidableEq, Repr, Inhabited

/-! ### Fixed page offsets (`20_memory.md` R79) -/

abbrev offTpr : Nat := 0x080
abbrev offPpr : Nat := 0x0A0
abbrev offEoi : Nat := 0x0B0
abbrev offIsr : Nat := 0x100
abbrev offIrr : Nat := 0x200
abbrev offIcrLo : Nat := 0x300
abbrev offIcrHi : Nat := 0x310

/-! ### Open operand mappings (`00_scope.md` R7, D12, D13)

The sections that define these are absent from the source (N4, N5, N6). Each is a constant without a body, so
that no proof can see a value of it: a free value that depends on the operands only (log 12, log 13; safe). -/

/-- `TprWriteValue`: how the operand of `MOV` to `CR8` or the data of `WRMSR` 0x808 becomes the new VTPR. -/
opaque Config.tprWriteValue : TprForm → BitVec 64 → BitVec 32

/-- `TprReadValue`: how VTPR becomes the destination of `MOV` from `CR8`. -/
opaque Config.tprReadValue : BitVec 32 → BitVec 64

/-- `EoiWriteValue`: what `WRMSR` 0x80B stores in VEOI. -/
opaque Config.eoiWriteValue : BitVec 64 → BitVec 32

/-- `SelfIpiVector`: the vector `WRMSR` 0x83F provides. -/
opaque Config.selfIpiVector : BitVec 64 → IntVector

/-- `IcrLoDispatch(MSRform, EDX:EAX)`: the pair `(V, T)` of R126. -/
opaque Config.icrMsrOperands : BitVec 64 → IntVector × ApicId

/-- `IcrLoDispatch(PAGEform, VICR_LO, VICR_HI, ctl)` of R130. -/
opaque Config.icrPageDispatch : BitVec 32 → BitVec 32 → Controls → IcrAction

end Sys2Proof
end

