-- ==== Sys2Proof/Machine/State.lean ====
section
/-! DEFINITION. The state of the machine as plain data (`10_state.md` R20 to R55), the ways a step can stop, and
the state before the first VM entry. -/

namespace Sys2Proof.Machine

/-- Physical memory: pairs of an address and a byte (log 22 gives the form). -/
abbrev Memory := List Host.Cell

/-- VMX operation (R254): the VMM's mode, and the guest's mode, in which the rules of the spec happen. -/
inductive Mode where
  | vmxRoot
  | vmxNonRoot
  deriving DecidableEq, Repr

/-- The activity state of the logical processor (R43). -/
inductive Activity where
  | active
  | hlt
  | mwait
  | shutdown
  | waitForSipi
  deriving DecidableEq, Repr

/-- The VM exits (R240), each with what the spec says it records: EOI-induced its vector, APIC-write its page
offset, APIC-access the offset and kind (D26), external interrupt its vector. -/
inductive VmExit where
  | tprBelowThreshold
  | eoiInduced (vector : IntVector)
  | apicWrite (off : PageOff)
  | apicAccess (off : PageOff) (kind : AccessKind)
  | externalInterrupt (vector : IntVector)
  deriving DecidableEq, Repr

/-- How a notification IPI leaves the processor (R161): the addresses of ICR_HI and ICR_LO in xAPIC mode, or the
ICR MSR in x2APIC mode. -/
inductive IpiRoute where
  | xapic (icrHi icrLo : PhysAddr)
  | x2apic
  deriving DecidableEq, Repr

/-- The outward events a model records in its history (R17, D16), and the paging events of R197 to R199. -/
inductive Event where
  | deliverThroughIdt (vector : IntVector)
  | userInterruptNotification
  | abortTransaction
  | aex
  | sendIpi (dest : BitVec 32) (vector : IntVector) (route : IpiRoute)
  | localApicEoi
  | localApicAck (vector : IntVector)
  /-- accessed flags, and for a write dirty flags, were set (R198, R199); `paging` is CR0.PG -/
  | pagingFlagsSet (paging dirty : Bool)
  | pageFault
  | eptViolation
  deriving DecidableEq, Repr

/-- The implementation parameters of `00_scope.md` R7 that are data, fixed for a run. -/
structure Params where
  /-- `PAW`, the physical-address width in bits (D21) -/
  paw : Nat
  /-- `SupportedControls` (D15) -/
  supported : Controls
  /-- `ApicMode` (D23) -/
  apicMode : ApicMode
  /-- `SN_BIT`, the position of `NotifyInfo.SN` (D19) -/
  snBit : Fin 64
  /-- `ApicRegVirtReadRanges`: first and last offset of each range (D14) -/
  readRanges : List (PageOff × PageOff)
  /-- the ranges whose writes "APIC-register virtualization" directs to the virtual-APIC page (R131; the list is
  in the absent §30.4.3; log 27) -/
  writeRanges : List (PageOff × PageOff)
  /-- the sizes in bytes of a write to a trigger offset that is virtualized (absent §30.4.3; log 26) -/
  writeSizes : List Nat
  /-- `PirGroups`, in the order they are exchanged (D20) -/
  pirGroups : List (BitVec 256)
  deriving DecidableEq, Repr

/-- The VMCS guest-state area, as far as the spec says what it holds (R254, R250, R281). -/
structure GuestArea where
  ip  : InstrPtr
  rvi : IntVector
  svi : IntVector
  deriving DecidableEq, Repr

/-- The VMCS fields read by the rules (R31 to R39): set by the VMM, constant during a run. -/
structure Vmcs where
  ctl            : Controls
  /-- `VAPIC_ADDR` (R31) -/
  vapicAddr      : PhysAddr
  /-- `APIC_ACCESS_ADDR` (R32) -/
  apicAccessAddr : PhysAddr
  /-- `TPR_THRESHOLD`, 4 bits (R34, D22) -/
  tprThreshold   : BitVec 4
  /-- `EOI_exit_bitmap` (R35) -/
  eoiExitBitmap  : BitVec 256
  /-- `PID_TABLE_ADDR` (R36) -/
  pidTableAddr   : PhysAddr
  /-- `LAST_PID_INDEX`, an unsigned integer (R36) -/
  lastPidIndex   : Nat
  /-- `PI_NV` (R37) -/
  piNv           : IntVector
  /-- `PI_DESC_ADDR` (R37) -/
  piDescAddr     : PhysAddr
  /-- `UINV` (R39) -/
  uinv           : IntVector
  /-- the guest-state area -/
  guest          : GuestArea
  deriving DecidableEq, Repr

/-- One atomic read-modify-write of a byte by another agent (R77): the new byte is `(old &&& keep) ||| set`. -/
structure AgentRmw where
  addr : PhysAddr
  keep : Byte
  set  : Byte
  deriving DecidableEq, Repr

/-- What the environment supplies before an operation (D1): the effects of the guest's other instructions, and,
in VMX root operation only, what the VMM does (R20 (d), D11). -/
inductive EnvUpdate where
  | ip (ip next : InstrPtr)
  | gpr (r : Reg) (v : BitVec 64)
  | rflagsIf (b : Bool)
  | rflagsRf (b : Bool)
  | blockingBySti (b : Bool)
  | blockingByMovSs (b : Bool)
  | activity (a : Activity)
  | cr0Pg (b : Bool)
  | cr4Uintr (b : Bool)
  | cr8 (v : BitVec 64)
  | eferLma (b : Bool)
  | apicBase (v : BitVec 64)
  | transactional (b : Bool)
  | enclave (b : Bool)
  | midRep (b : Bool)
  | vmmVmcs (v : Vmcs)
  | vmmMemory (addr : PhysAddr) (data : List Byte)
  deriving DecidableEq, Repr

/-- One step of the guest's input sequence (D1): what the environment supplies, then the operation. -/
structure StepInput where
  env : List EnvUpdate
  op  : Carrier
  deriving DecidableEq, Repr

/-- The state. VTPR, VPPR, VEOI, VISR, VIRR, VICR_LO and VICR_HI are bytes of `mem` at fixed offsets from
`VAPIC_ADDR` (R21 to R28), read and written by the accessors of Machine/Ops.lean. -/
structure State where
  /-- VMX root or non-root operation (R254) -/
  mode            : Mode
  /-- the general registers (R48) -/
  gpr             : Vector (BitVec 64) 16
  /-- `CS:RIP` of the current instruction, supplied by the environment (R47, D1) -/
  ip              : InstrPtr
  /-- `CS:RIP` of the next instruction, supplied by the environment (R47, D1) -/
  nextIp          : InstrPtr
  /-- `RFLAGS.IF` (R41) -/
  rflagsIf        : Bool
  /-- `RFLAGS.RF` (R41) -/
  rflagsRf        : Bool
  /-- blocking by STI (R42) -/
  blockingBySti   : Bool
  /-- blocking by MOV SS / POP SS (R42) -/
  blockingByMovSs : Bool
  /-- the activity state (R43) -/
  activity        : Activity
  /-- `CR0.PG` (R44) -/
  cr0Pg           : Bool
  /-- `CR4.UINTR` (R44) -/
  cr4Uintr        : Bool
  /-- `CR8` (R44): no rule reads or writes it, since the accesses of file 40 go to VTPR -/
  cr8             : BitVec 64
  /-- `IA32_EFER.LMA` (R44) -/
  eferLma         : Bool
  /-- `IA32_APIC_BASE` (R49) -/
  apicBase        : BitVec 64
  /-- `IA32_VMX_BASIC` (R49): bits 53:50 are `VapicMemType` -/
  vmxBasic        : BitVec 64
  /-- transactional execution is in effect (R46) -/
  transactional   : Bool
  /-- the logical processor is in enclave mode (R46) -/
  enclave         : Bool
  /-- `RVI` (R40) -/
  rvi             : IntVector
  /-- `SVI` (R40) -/
  svi             : IntVector
  /-- `PendingVirtIntr` (R45) -/
  pending         : Bool
  /-- `WriteVirtualizedEarlierInThisOperation` (R205) -/
  wroteVirt       : Bool
  /-- execution stands between two iterations of a `REP`-prefixed instruction (R227) -/
  midRep          : Bool
  /-- the delivery took the user-interrupt branch, whose continuation is absent (R178) -/
  userNotified    : Bool
  /-- the bytes the last read returned to the reading instruction (R48, R204) -/
  loaded          : List Byte
  /-- the last VM exit, if there has been one (R250) -/
  lastExit        : Option VmExit
  /-- the VMCS (R31 to R39) -/
  vmcs            : Vmcs
  /-- the parameters (R7) -/
  params          : Params
  /-- physical memory (R14, R70) -/
  mem             : Memory
  /-- the outward events so far, oldest first (R17) -/
  history         : List Event
  /-- the steps of other agents: at each point where they may act, one entry is taken and performed as one
  atomic step (R20 (c), D5) -/
  agents          : List (List AgentRmw)
  /-- the guest's input sequence (D1) -/
  inputs          : List StepInput
  deriving DecidableEq, Repr

/-- The end of a run (R289): the machine has nothing more to do. -/
inductive Fault where
  /-- `step`: the guest's input sequence is exhausted (R289). Safe: nothing is claimed past the end. -/
  | inputExhausted
  /-- a guest operation or event in VMX root operation: a run ends at its VM exit and the next begins with VM
  entry (R250, R289). Safe: nothing is claimed past the exit. -/
  | notInGuest
  deriving DecidableEq, Repr

/-- A step the model gives no meaning to. Each is safe: nothing can be proved of what follows. -/
inductive Refusal where
  /-- an instruction without a meaning yet -/
  | notModelled (mnemonic : String)
  /-- `step`: the selector names no operation (R101) -/
  | undecodable
  /-- the enabling condition of the operation's rule is false (R120, R150, R170): what the instruction then does
  is outside the source -/
  | notVirtualized
  /-- `RDMSR` and the other `WRMSR` of the APIC range (R127): section 30.5 is absent -/
  | absentMsrSection
  /-- a page write that section 30.4.3, absent, would govern (R131, U17; logs 27 and 28): safe -/
  | absentWriteSection
  /-- a non-linear access to the APIC-access page (R196): section 30.4.6 is absent -/
  | nonLinearAccess
  /-- an access to the APIC-access page in enclave mode (R196, U15): section 39.5.3 is absent -/
  | enclaveAccess
  /-- an access that begins before the APIC-access page and ends in it (N14) -/
  | straddlesApicPage
  /-- an address beyond the physical-address width (R86, D17) -/
  | unplaceable
  /-- an instruction of a processor that is not in the active state (R43) -/
  | notActive
  /-- an external interrupt with "external-interrupt exiting" 0 (R223) -/
  | externalInterruptOutside
  /-- an external interrupt in the shutdown or wait-for-SIPI state (R228) -/
  | externalInterruptInactive
  /-- posted-interrupt processing with "virtual-interrupt delivery" 0 (R224 (d), N32) -/
  | postedWithoutVid
  /-- the user-interrupt branch of delivery was taken (R178): section 30.2.3 is absent -/
  | userInterruptSection
  /-- a VM-entry check failed (R38, R281) -/
  | vmEntryCheck
  /-- a premise of every run does not hold: at VM entry (D15, U22, U23), or of a target descriptor in IPI
  virtualization (D15, U23) -/
  | runPremise
  /-- VM entry inside VMX non-root operation -/
  | vmEntryInGuest
  /-- the VMM acts during a run (R284 (3), D11) -/
  | vmmInGuest
  /-- an agent or a plain write modifies a live field of the virtual-APIC page (R30, U3) -/
  | liveFieldWrite
  /-- a write to the own posted-interrupt descriptor that is not a locked read-modify-write (R77, U4) -/
  | unlockedDescriptorWrite
  /-- an agent or a plain write modifies the PID-pointer table during a run (R284 (3), U6) -/
  | pidTableWrite
  deriving DecidableEq, Repr

/-- A 4-byte range of page offsets. -/
def slot (off : Nat) : PageOff × PageOff := (BitVec.ofNat 12 off, BitVec.ofNat 12 (off + 3))

/-- The suggested default of `ApicRegVirtReadRanges` (R204, D14). PRESUMED (log 14, unsafe as a reset value). -/
def defaultReadRanges : List (PageOff × PageOff) :=
  [0x020, 0x030, 0x080, 0x0B0, 0x0D0, 0x0E0, 0x0F0].map slot
    ++ (List.range 8).map (fun k => slot (0x100 + 16 * k))
    ++ (List.range 8).map (fun k => slot (0x180 + 16 * k))
    ++ (List.range 8).map (fun k => slot (0x200 + 16 * k))
    ++ [0x280, 0x300, 0x310].map slot
    ++ (List.range 6).map (fun k => slot (0x320 + 16 * k))
    ++ [0x380, 0x3E0].map slot

/-- The parameters before the first VM entry. The source gives none: DESIGN CHOICE or PRESUMED (log 19). -/
def Params.reset : Params :=
  { paw := 52, supported := Controls.all true, apicMode := .xapic, snBit := 1,
    readRanges := defaultReadRanges, writeRanges := [], writeSizes := [4], pirGroups := [] }

/-- A VMCS with every field zero (log 23). -/
def Vmcs.reset : Vmcs :=
  { ctl := Controls.all false, vapicAddr := 0, apicAccessAddr := 0, tprThreshold := 0, eoiExitBitmap := 0,
    pidTableAddr := 0, lastPidIndex := 0, piNv := 0, piDescAddr := 0, uinv := 0,
    guest := { ip := InstrPtr.zero, rvi := 0, svi := 0 } }

/-- `CS:RIP` as the family resets it. PRESUMED (log 24, unsafe). -/
def InstrPtr.reset : InstrPtr := { cs := 0xF000, rip := 0xFFF0 }

/-- The general registers as the family resets them: zero, but `RDX` the processor's signature. PRESUMED (log 24,
unsafe). -/
def gprReset : Vector (BitVec 64) 16 := (Vector.replicate 16 0).set Reg.rdx 0x600

/-- The state before the first VM entry. The source describes no reset (R280); the one start it describes is VM
entry (D6), and R54 lets every item be "any" there. The registers whose layout is the family's have the family's
values (log 24, PRESUMED, unsafe); all else is zero (log 23, DESIGN CHOICE, unsafe). -/
def State.reset : State :=
  { mode := .vmxRoot, gpr := gprReset, ip := InstrPtr.reset, nextIp := InstrPtr.reset,
    rflagsIf := false, rflagsRf := false, blockingBySti := false, blockingByMovSs := false,
    activity := .active, cr0Pg := false, cr4Uintr := false, cr8 := 0, eferLma := false, apicBase := 0xFEE00900,
    vmxBasic := 6 <<< 50, transactional := false, enclave := false, rvi := 0, svi := 0, pending := false,
    wroteVirt := false, midRep := false, userNotified := false, loaded := [], lastExit := none,
    vmcs := Vmcs.reset, params := Params.reset, mem := [], history := [], agents := [], inputs := [] }

end Sys2Proof.Machine
end

