-- ==== Sys2Proof/Machine/Ops.lean ====
section
/-! DEFINITION. The named operations over memory, registers, the virtual-APIC page, the event history and the
other agents; taking a VM exit, the one trap of this machine (R16, R250), and VM entry, the way back (R252). -/

namespace Sys2Proof.Machine

/-! ### Bytes (R14, R71: little-endian, D3) -/

/-- The unsigned value of a list of bytes, the first the least significant. -/
def leNat : List Byte → Nat
  | [] => 0
  | b :: bs => b.toNat + 256 * leNat bs

/-- The low `n` bytes of `v`, the least significant first. -/
def leBytes : Nat → Nat → List Byte
  | 0, _ => []
  | n + 1, v => BitVec.ofNat 8 v :: leBytes n (v / 256)

/-! ### Memory (log 22: a byte nothing has written reads as zero) -/

/-- What an unlisted address reads as. DESIGN CHOICE (log 22, unsafe). -/
def unlistedByte : Byte := 0

/-- The byte at `a`. -/
def Memory.read : Memory → Nat → Byte
  | [], _ => unlistedByte
  | (k, b) :: m, a => if k = a then b else Memory.read m a

/-- `m` with `(a, v)` put where the order of addresses wants it. -/
def Memory.insert : Memory → Nat → Byte → Memory
  | [], a, v => [(a, v)]
  | (k, b) :: m, a, v =>
    if a < k then (a, v) :: (k, b) :: m
    else if a = k then (a, v) :: m
    else (k, b) :: Memory.insert m a v

/-- `m` without an entry at `a`. -/
def Memory.erase (m : Memory) (a : Nat) : Memory := m.filter fun c => decide (c.1 ≠ a)

/-- `m` with the byte `v` at `a`, in canonical form. -/
def Memory.write (m : Memory) (a : Nat) (v : Byte) : Memory :=
  if v = unlistedByte then m.erase a else m.insert a v

/-- The canonical form from address `lo` on: addresses strictly rise, no entry is an unlisted byte. -/
def Memory.wfFrom : Nat → Memory → Bool
  | _, [] => true
  | lo, (k, b) :: m => decide (lo ≤ k) && decide (b ≠ unlistedByte) && Memory.wfFrom (k + 1) m

/-- The canonical form. -/
def Memory.wf (m : Memory) : Bool := Memory.wfFrom 0 m

/-- The `n` bytes from `a` on. -/
def Memory.readBytes (m : Memory) (a : Nat) : Nat → List Byte
  | 0 => []
  | n + 1 => m.read a :: Memory.readBytes m (a + 1) n

/-- `m` with the bytes stored from `a` on. -/
def Memory.writeBytes (m : Memory) (a : Nat) : List Byte → Memory
  | [] => m
  | b :: bs => Memory.writeBytes (m.write a b) (a + 1) bs

/-- `MemRead(a, n)` (R14). -/
def Memory.readLe (m : Memory) (a n : Nat) : Nat := leNat (m.readBytes a n)

/-- `MemWrite(a, n, v)` (R14). -/
def Memory.writeLe (m : Memory) (a n v : Nat) : Memory := m.writeBytes a (leBytes n v)

/-- The 4 bytes at `a` as a 32-bit field. -/
def Memory.read32 (m : Memory) (a : Nat) : BitVec 32 := BitVec.ofNat 32 (m.readLe a 4)

/-- The 8 bytes at `a`. -/
def Memory.read64 (m : Memory) (a : Nat) : BitVec 64 := BitVec.ofNat 64 (m.readLe a 8)

/-- The 32 bytes at `a`. -/
def Memory.read256 (m : Memory) (a : Nat) : BitVec 256 := BitVec.ofNat 256 (m.readLe a 32)

/-- The access lies in the physical address space, `PAW` bits wide (R70 (a), R86, D17). -/
def placed (s : State) (a n : Nat) : Bool := decide (a + n ≤ 2 ^ s.params.paw)

/-! ### Results of the internal operations -/

/-- How an internal operation ends: it goes on; it raised a VM exit, which ends it (R16); an event of the same
access ended it (R197, R200); the model gives it no meaning. -/
inductive Res where
  | done (s : State)
  | exit (e : VmExit) (s : State)
  | abort (s : State)
  | refuse (r : Refusal)
  deriving DecidableEq, Repr

/-- Go on only where the first part went on: a raise ends the operation (R16). -/
def Res.andThen (r : Res) (k : State → Res) : Res :=
  match r with
  | .done s => k s
  | .exit e s => .exit e s
  | .abort s => .abort s
  | .refuse x => .refuse x

/-- Append an event to the history (R17). -/
def emit (e : Event) (s : State) : State := { s with history := s.history ++ [e] }

/-! ### Registers -/

/-- Read a general register. -/
def getReg (s : State) (r : Reg) : BitVec 64 := s.gpr.get r

/-- Write a general register. -/
def setReg (r : Reg) (v : BitVec 64) (s : State) : State := { s with gpr := s.gpr.set r v }

/-- Write `RVI` (R40). -/
def setRvi (v : IntVector) (s : State) : State := { s with rvi := v }

/-- Write `SVI` (R40). -/
def setSvi (v : IntVector) (s : State) : State := { s with svi := v }

/-- Assign the recognition of a pending virtual interrupt (R45). -/
def setPending (b : Bool) (s : State) : State := { s with pending := b }

/-- Replace physical memory. -/
def setMem (m : Memory) (s : State) : State := { s with mem := m }

/-- `ECX`, the low half of `RCX`. PRESUMED (log 24, unsafe; R48's general knowledge). -/
def ecx (s : State) : BitVec 32 := (getReg s Reg.rcx).extractLsb' 0 32

/-- `EDX:EAX`, the data of `WRMSR` (R48, R101), from the low halves of `RDX` and `RAX` (log 24). -/
def edxEax (s : State) : BitVec 64 :=
  (getReg s Reg.rdx).extractLsb' 0 32 ++ (getReg s Reg.rax).extractLsb' 0 32

/-- `VapicMemType`: `IA32_VMX_BASIC` bits 53:50 (R49, R85). No rule depends on it. -/
def vapicMemType (s : State) : BitVec 4 := s.vmxBasic.extractLsb' 50 4

/-- The instruction completes: execution stands at the next instruction (R47, log 30), and its operation is over
(R205, log 53). -/
def retire (s : State) : State := { s with ip := s.nextIp, midRep := false, wroteVirt := false }

/-! ### Taking a VM exit and VM entry -/

/-- Trap-like: the causing instruction completes and the saved `CS:RIP` is that of the next instruction (R16,
R240; for APIC-write PRESUMED, log 29). -/
def VmExit.trapLike : VmExit → Bool
  | .tprBelowThreshold => true
  | .eoiInduced _ => true
  | .apicWrite _ => true
  | .apicAccess _ _ => false
  | .externalInterrupt _ => false

/-- The `CS:RIP` a VM exit saves: next instruction for trap-like exits, the current one for an APIC-access exit
(R250). DESIGN CHOICE: for an external-interrupt exit too, which no rule gives (log 49, unsafe). -/
def savedIp (e : VmExit) (s : State) : InstrPtr := if e.trapLike then s.nextIp else s.ip

/-- TAKING A VM EXIT (R16, R250, R254): the guest-state area receives `CS:RIP` and the guest interrupt status,
the exit's reason and qualification are recorded, and VMX non-root operation ends. DESIGN CHOICE: every other register
stays as it is (log 11, unsafe); that an external interrupt ends the HLT and MWAIT states (R259) is `interruptExit`'s. -/
def takeVmExit (e : VmExit) (s : State) : State :=
  { s with
    mode := .vmxRoot
    lastExit := some e
    vmcs := { s.vmcs with guest := { ip := savedIp e s, rvi := s.rvi, svi := s.svi } } }

/-- The loads of VM entry (R281): RVI and SVI from the guest interrupt status, `CS:RIP` from the guest-state
area (R54), no recognized virtual interrupt, VMX non-root operation. -/
def enterGuest (s : State) : State :=
  { s with
    mode := .vmxNonRoot
    ip := s.vmcs.guest.ip
    rvi := s.vmcs.guest.rvi
    svi := s.vmcs.guest.svi
    pending := false
    wroteVirt := false
    midRep := false }

/-- The two checks VM entry makes (R38, R281). -/
def vmEntryChecks (s : State) : Bool :=
  (!s.vmcs.ctl.tprShadow || s.vmcs.vapicAddr.extractLsb' 0 12 == 0)
    && (!s.vmcs.ctl.postedIntr || s.vmcs.ctl.extIntrExiting)

/-- Every control that is 1 is supported (D15, U22). -/
def controlsLe (a b : Controls) : Bool :=
  (!a.vid || b.vid) && (!a.tprShadow || b.tprShadow) && (!a.virtApicAccesses || b.virtApicAccesses)
    && (!a.virtX2apic || b.virtX2apic) && (!a.apicRegVirt || b.apicRegVirt) && (!a.postedIntr || b.postedIntr)
    && (!a.ipiVirt || b.ipiVirt) && (!a.intrWindowExiting || b.intrWindowExiting)
    && (!a.extIntrExiting || b.extIntrExiting)

/-- The virtual-APIC page is in use: some control directs accesses to it or makes one of its fields live (R29, R33,
R282). -/
def usesVapic (c : Controls) : Bool := c.tprShadow || c.vid || c.ipiVirt || c.apicRegVirt

/-- The structures other than descriptors that the VMCS places in memory while their control is 1: first address
and size (R282). -/
def vmcsTables (v : Vmcs) : List (Nat × Nat) :=
  (if usesVapic v.ctl then [(v.vapicAddr.toNat, 4096)] else [])
    ++ (if v.ctl.virtApicAccesses then [(v.apicAccessAddr.toNat, 4096)] else [])
    ++ (if v.ctl.ipiVirt then [(v.pidTableAddr.toNat, 8 * (v.lastPidIndex + 1))] else [])

/-- All of them, the own posted-interrupt descriptor first (R282). -/
def vmcsRegions (v : Vmcs) : List (Nat × Nat) :=
  (if v.ctl.postedIntr then [(v.piDescAddr.toNat, 64)] else []) ++ vmcsTables v

/-- Two byte ranges share no byte. -/
def disjoint (a n b m : Nat) : Bool := decide (a + n ≤ b) || decide (b + m ≤ a)

/-- No two regions of the list overlap. -/
def regionsDisjoint : List (Nat × Nat) → Bool
  | [] => true
  | r :: rs => rs.all (fun q => disjoint r.1 r.2 q.1 q.2) && regionsDisjoint rs

/-- The 64 bytes of a descriptor at `p` share no byte with those structures (D15, U23; log 15). -/
def pidApart (v : Vmcs) (p : Nat) : Bool := (vmcsTables v).all fun q => disjoint p 64 q.1 q.2

/-- The premises of every run that the VMCS alone decides (D15, U22, U23; log 15). -/
def runPremises (s : State) : Bool :=
  controlsLe s.vmcs.ctl s.params.supported
    && (!s.vmcs.ctl.virtApicAccesses || s.vmcs.apicAccessAddr.extractLsb' 0 12 == 0)
    && (!s.vmcs.ctl.postedIntr || s.vmcs.piDescAddr.extractLsb' 0 6 == 0)
    && (!s.vmcs.ctl.ipiVirt || s.vmcs.pidTableAddr.extractLsb' 0 3 == 0)
    && regionsDisjoint (vmcsRegions s.vmcs)

/-! ### Outcomes of a step -/

/-- The outcome of a meaning. -/
abbrev Out := Host.Outcome State Fault Refusal

/-- The outcome of an operation: a raised VM exit is taken here, and nowhere else. -/
def finish : Res → Out
  | .done s => .next s
  | .exit e s => .next (takeVmExit e s)
  | .abort s => .next s
  | .refuse r => .refused r

/-- An event or internal operation happens in VMX non-root operation only (R19, R289). -/
def inGuest (k : State → Res) (s : State) : Out :=
  if s.mode = .vmxNonRoot then finish (k s) else .fault .notInGuest

/-- An instruction is executed by a processor in the active state (R43, log 31). -/
def whenActive (k : State → Res) (s : State) : Res :=
  if s.activity = .active then k s else .refuse .notActive

/-- The enabling condition of a rule (R120: with it false the model refuses the step). -/
def enabledBy (c : Bool) (k : State → Res) (s : State) : Res :=
  if c then k s else .refuse .notVirtualized

/-! ### The virtual-APIC page (R21 to R28) -/

/-- The physical address of a page offset of the virtual-APIC page. -/
def vapicAt (s : State) (off : Nat) : Nat := s.vmcs.vapicAddr.toNat + off

/-- `VAPIC32(off)` (R14). -/
def vapic32 (s : State) (off : Nat) : BitVec 32 := s.mem.read32 (vapicAt s off)

/-- `VAPIC32(off) <- v` (R14). -/
def setVapic32 (off : Nat) (v : BitVec 32) (s : State) : State :=
  setMem (s.mem.writeLe (vapicAt s off) 4 v.toNat) s

/-- VTPR (R22). -/
def vtpr (s : State) : BitVec 32 := vapic32 s offTpr
/-- VPPR (R23). -/
def vppr (s : State) : BitVec 32 := vapic32 s offPpr
/-- VEOI (R24). -/
def veoi (s : State) : BitVec 32 := vapic32 s offEoi
/-- VICR_LO (R27). -/
def vicrLo (s : State) : BitVec 32 := vapic32 s offIcrLo
/-- VICR_HI (R28). -/
def vicrHi (s : State) : BitVec 32 := vapic32 s offIcrHi

/-- The offset of the 32-bit field that holds bit `x` of VISR or VIRR (R25, R26, R106 (a)):
`base | ((x & 0xE0) >> 1)`. -/
def fieldOff (base : Nat) (x : IntVector) : Nat := base ||| ((x &&& 0xE0) >>> 1).toNat

/-- The place of bit `x` within its field: `x & 0x1F` (R25, R26). -/
def fieldBit (x : IntVector) : Nat := (x &&& 0x1F).toNat

/-- Bit `x` of the 256-bit register at page offset `base` (R25, R26). -/
def vregBit (s : State) (base : Nat) (x : IntVector) : Bool :=
  (vapic32 s (fieldOff base x)).getLsbD (fieldBit x)

/-- The 256-bit register at page offset `base`: eight 32-bit fields, 16 bytes apart, the first the least
significant (R25, R26). -/
def vreg (s : State) (base : Nat) : BitVec 256 :=
  vapic32 s (base + 0x70) ++ vapic32 s (base + 0x60) ++ vapic32 s (base + 0x50) ++ vapic32 s (base + 0x40)
    ++ vapic32 s (base + 0x30) ++ vapic32 s (base + 0x20) ++ vapic32 s (base + 0x10) ++ vapic32 s base

/-- VISR (R25). -/
def visr (s : State) : BitVec 256 := vreg s offIsr
/-- VIRR (R26). -/
def virr (s : State) : BitVec 256 := vreg s offIrr

/-- Set or clear bit `x`: a read-modify-write of the 4-byte field that holds it (R73). -/
def setVregBit (base : Nat) (x : IntVector) (v : Bool) (s : State) : State :=
  let w := vapic32 s (fieldOff base x)
  let bit := BitVec.twoPow 32 (fieldBit x)
  setVapic32 (fieldOff base x) (if v then w ||| bit else w &&& ~~~bit) s

/-- OR the low `32 * n` bits of `x` into the register's first `n` fields, field by field (R73, R224). -/
def orFields (base : Nat) (x : BitVec 256) : Nat → State → State
  | 0, s => s
  | n + 1, s =>
    let s1 := orFields base x n s
    setVapic32 (base + 16 * n) (vapic32 s1 (base + 16 * n) ||| x.extractLsb' (32 * n) 32) s1

/-- OR a 256-bit value into VIRR. -/
def orVirr (x : BitVec 256) (s : State) : State := orFields offIrr x 8 s

/-- The virtual-APIC page lies in the physical address space (R86, D17). -/
def vapicPlaced (s : State) : Bool := placed s s.vmcs.vapicAddr.toNat 4096

/-- An operation on the virtual-APIC page. -/
def onVapicPage (k : State → Res) (s : State) : Res :=
  if vapicPlaced s then k s else .refuse .unplaceable

/-! ### Live fields and referenced structures (R29, R30, R284) -/

/-- The page offsets of the 32-bit fields that are live under the controls (R29). -/
def liveOffsets (c : Controls) : List Nat :=
  (if c.tprShadow then [offTpr] else [])
    ++ (if c.vid then [offPpr, offEoi] ++ (List.range 8).map (fun k => offIsr + 16 * k)
          ++ (List.range 8).map (fun k => offIrr + 16 * k) else [])
    ++ (if c.vid || c.ipiVirt then [offIcrLo, offIcrHi] else [])

/-- Some byte of `[a, a + n)` is part of a live field of the virtual-APIC page. -/
def touchesLive (s : State) (a n : Nat) : Bool :=
  (liveOffsets s.vmcs.ctl).any fun off => !disjoint a n (vapicAt s off) 4

/-- Some byte of `[a, a + n)` is part of the PID-pointer table in use. -/
def touchesPidTable (s : State) (a n : Nat) : Bool :=
  s.vmcs.ctl.ipiVirt && !disjoint a n s.vmcs.pidTableAddr.toNat (8 * (s.vmcs.lastPidIndex + 1))

/-- Some byte of `[a, a + n)` is part of the own posted-interrupt descriptor in use. -/
def touchesOwnPid (s : State) (a n : Nat) : Bool :=
  s.vmcs.ctl.postedIntr && !disjoint a n s.vmcs.piDescAddr.toNat 64

/-! ### Other agents (R20 (c), R77, R81, D5) -/

/-- One atomic read-modify-write by another agent. It may modify a posted-interrupt descriptor or plain memory,
not a live field (R30) nor the PID-pointer table (R284 (3)) of a guest that is running. -/
def agentStep (a : AgentRmw) (s : State) : Res :=
  let k := a.addr.toNat
  if !placed s k 1 then .refuse .unplaceable
  else if s.mode = .vmxNonRoot && touchesLive s k 1 then .refuse .liveFieldWrite
  else if s.mode = .vmxNonRoot && touchesPidTable s k 1 then .refuse .pidTableWrite
  else .done (setMem (s.mem.write k ((s.mem.read k &&& a.keep) ||| a.set)) s)

/-- Several, one after the other with nothing between them. -/
def agentSteps : List AgentRmw → State → Res
  | [], s => .done s
  | a :: as, s => (agentStep a s).andThen (agentSteps as)

/-- A point where other agents may act (R81): one entry of their schedule is performed. -/
def agentGap (s : State) : Res :=
  match s.agents with
  | [] => .done s
  | e :: rest => agentSteps e { s with agents := rest }

/-! ### The environment (D1, D11) -/

/-- The VMM acts only in VMX root operation (D11, R284 (3)). -/
def byVmm (k : State → State) (s : State) : Res :=
  if s.mode = .vmxRoot then .done (k s) else .refuse .vmmInGuest

/-- One thing the environment supplies. -/
def applyEnv (u : EnvUpdate) (s : State) : Res :=
  match u with
  | .ip ip next => .done { s with ip := ip, nextIp := next }
  | .gpr r v => .done (setReg r v s)
  | .rflagsIf b => .done { s with rflagsIf := b }
  | .rflagsRf b => .done { s with rflagsRf := b }
  | .blockingBySti b => .done { s with blockingBySti := b }
  | .blockingByMovSs b => .done { s with blockingByMovSs := b }
  | .activity a => .done { s with activity := a }
  | .cr0Pg b => .done { s with cr0Pg := b }
  | .cr4Uintr b => .done { s with cr4Uintr := b }
  | .cr8 v => .done { s with cr8 := v }
  | .eferLma b => .done { s with eferLma := b }
  | .apicBase v => .done { s with apicBase := v }
  | .transactional b => .done { s with transactional := b }
  | .enclave b => .done { s with enclave := b }
  | .midRep b => .done { s with midRep := b }
  | .vmmVmcs v => byVmm (fun s => { s with vmcs := v }) s
  | .vmmMemory addr data =>
    if placed s addr.toNat data.length then
      byVmm (fun s => setMem (s.mem.writeBytes addr.toNat data) s) s
    else .refuse .unplaceable

/-- All the environment supplies for one step, in order. -/
def applyEnvs : List EnvUpdate → State → Res
  | [], s => .done s
  | u :: us, s => (applyEnv u s).andThen (applyEnvs us)

/-- What precedes an operation: other agents may act, then the environment supplies its part (R20, D1). -/
def prepare (env : List EnvUpdate) (s : State) : Res := (agentGap s).andThen (applyEnvs env)

end Sys2Proof.Machine
end

