-- ==== Sys2Proof/Machine/Operands.lean ====
section
/-! DEFINITION. Operand and address assembly (`30_encoding.md` R105, R106), the predicates on accesses to the
APIC-access page (R203, R204, R131), and the fields of the structures in memory (R50 to R52). -/

namespace Sys2Proof.Machine

/-- `highest(X)`, the largest index of a set bit, and 0 where no bit is set, as every rule that uses it assigns
(R12, R156, R175). -/
def highest (x : BitVec 256) : IntVector := if x = 0 then 0 else BitVec.ofNat 8 (Nat.log2 x.toNat)

/-- The greater of two vectors, unsigned (R11, R158). -/
def maxVector (a b : IntVector) : IntVector := if a.toNat < b.toNat then b else a

/-! ### Accesses to the APIC-access page (R190, R203, R204) -/

/-- `within(off, size, b)`: the access lies in the 4 bytes from `b` on (R204). -/
def within (off size b : Nat) : Bool := decide (b ≤ off) && decide (off + size - 1 ≤ b + 3)

/-- The access lies entirely in one of the ranges (R204 (c)). -/
def inSomeRange (off size : Nat) (rs : List (PageOff × PageOff)) : Bool :=
  rs.any fun r => decide (r.1.toNat ≤ off) && decide (off + size - 1 ≤ r.2.toNat)

/-- Bits 3:2 of an address are 0. -/
def lowSlot (a : Nat) : Bool := decide (a / 4 % 4 = 0)

/-- The access is not in the low 4 bytes of a naturally aligned 16-byte region (R203 (e), C6). -/
def outsideSlot (off size : Nat) : Bool :=
  !lowSlot off || !lowSlot (off + size - 1) || decide (off / 16 ≠ (off + size - 1) / 16)

/-- `ReadMustExit` (R203). -/
def readMustExit (s : State) (kind : AccessKind) (off size : Nat) : Bool :=
  !s.vmcs.ctl.tprShadow || decide (kind = .fetch) || decide (4 < size) || s.wroteVirt || outsideSlot off size

/-- Which reads that need not exit are virtualized (R204). -/
def readVirtualized (s : State) (off size : Nat) : Bool :=
  within off size offTpr
    || (s.vmcs.ctl.vid && (within off size offEoi || within off size offIcrLo))
    || (s.vmcs.ctl.apicRegVirt && inSomeRange off size s.params.readRanges)

/-- The size of a write to a trigger offset is one that is virtualized (absent §30.4.3; log 26): it is one of
the open list and lies in the 32-bit field (R8). -/
def sizeQualifies (s : State) (size : Nat) : Bool := s.params.writeSizes.contains size && decide (size ≤ 4)

/-- A virtualization control beyond "virtualize APIC accesses" and APIC-register virtualization is 1, so that it may
apply to a write at an offset without a row of its own (R131, U17). DESIGN CHOICE: which controls count; "process posted
interrupts" does not (log 28, unsafe). -/
def writeControlApplies (s : State) : Bool :=
  s.vmcs.ctl.vid || s.vmcs.ctl.tprShadow || s.vmcs.ctl.ipiVirt || s.vmcs.ctl.virtX2apic

/-- A byte of the virtual-APIC page that no directed write may reach: VPPR, which PPR virtualization and delivery alone
write (R23, R154), and bytes 4 to 15 of the slots of VISR and VIRR, which the processor never writes (R25, R26). DESIGN
CHOICE: bytes 0 to 3 of those slots are not among them, though R247 names no guest write where it lists what sets and
clears their bits (log 27, unsafe). -/
def neverDirected (a : Nat) : Bool :=
  (decide (offPpr ≤ a) && decide (a < offPpr + 4))
    || ((decide (a / 128 = offIsr / 128) || decide (a / 128 = offIrr / 128)) && decide (4 ≤ a % 16))

/-- A write that APIC-register virtualization directs to the virtual-APIC page: in one of the open ranges, and clear
of the bytes that no such write may reach (log 27). -/
def writeDirected (s : State) (off size : Nat) : Bool :=
  inSomeRange off size s.params.writeRanges && (List.range size).all fun i => !neverDirected (off + i)

/-- The physical address lies in the APIC-access page: `pa[63:12] = APIC_ACCESS_ADDR[63:12]` (R190). -/
def onApicPage (s : State) (pa : PhysAddr) : Bool :=
  pa.extractLsb' 12 52 == s.vmcs.apicAccessAddr.extractLsb' 12 52

/-- The page offset of a physical address: `pa[11:0]` (R190). -/
def pageOff (pa : PhysAddr) : PageOff := pa.extractLsb' 0 12

/-- The physical address of a page offset of the APIC-access page (R190). -/
def apicPageAddr (s : State) (off : PageOff) : PhysAddr := s.vmcs.apicAccessAddr.extractLsb' 12 52 ++ off

/-- The access begins before the APIC-access page and ends in it (N14). -/
def straddles (s : State) (pa : PhysAddr) (size : Nat) : Bool :=
  !onApicPage s pa && !disjoint pa.toNat size (apicPageAddr s 0).toNat 4096

/-- The case of a write to page offset 0x300 (R130), from VICR_LO and VICR_HI as stored and the controls. Self-IPI
virtualization exists only with `ctl.VID = 1` (R157) and IPI virtualization only with `ctl.IPI_VIRT = 1` (R159);
a value that would select the other is an exit (log 13). -/
def icrAction (s : State) : IcrAction :=
  match Config.icrPageDispatch (vicrLo s) (vicrHi s) s.vmcs.ctl with
  | .selfIpi v => if s.vmcs.ctl.vid then .selfIpi v else .exit
  | .ipi v t => if s.vmcs.ctl.ipiVirt then .ipi v t else .exit
  | .exit => .exit

/-! ### The PID-pointer table and the posted-interrupt descriptor (R36, R50 to R52) -/

/-- `PID_TABLE_ADDR + (T << 3)`, computed without truncation (R106 (b), R86). -/
def pidEntryAddr (s : State) (t : ApicId) : Nat := s.vmcs.pidTableAddr.toNat + t.toNat * 8

/-- The 8-byte table entry of `T` (R160). -/
def pidEntry (s : State) (t : ApicId) : BitVec 64 := s.mem.read64 (pidEntryAddr s t)

/-- `PID_ADDR[63:PAW] = 0` and `PID_ADDR[5:0] = 000001b` (R51, R160). -/
def pidEntryValid (s : State) (e : BitVec 64) : Bool :=
  decide (e.toNat < 2 ^ s.params.paw) && e.extractLsb' 0 6 == 1

/-- The descriptor's address: the entry with bits 5:0 cleared (R51, D8). -/
def pidAddr (e : BitVec 64) : Nat := e.toNat / 64 * 64

/-- PIR, the low 32 bytes of the descriptor at `p` (R50). -/
def pirAt (m : Memory) (p : Nat) : BitVec 256 := m.read256 p

/-- `NotifyInfo`, the 8 bytes at descriptor offset 32 (R52). -/
def notifyInfoAt (m : Memory) (p : Nat) : BitVec 64 := m.read64 (p + 32)

/-- `NotifyInfo.ON` (R52). -/
def niOn (ni : BitVec 64) : Bool := ni.getLsbD 0
/-- `NotifyInfo.SN`, at the open position `SN_BIT` (R52, D19). -/
def niSn (s : State) (ni : BitVec 64) : Bool := ni.getLsbD s.params.snBit.val
/-- `NotifyInfo.NV` (R52). -/
def niNv (ni : BitVec 64) : IntVector := ni.extractLsb' 16 8
/-- `NotifyInfo.NDST` (R52). -/
def niNdst (ni : BitVec 64) : BitVec 32 := ni.extractLsb' 32 32

/-- The destination of the notification IPI (R161, D23): `NDST[15:8]` in xAPIC mode, `NDST` in x2APIC mode. -/
def ipiDest (s : State) (ni : BitVec 64) : BitVec 32 :=
  match s.params.apicMode with
  | .xapic => ((niNdst ni).extractLsb' 8 8).setWidth 32
  | .x2apic => niNdst ni

/-- The route of the notification IPI (R161): ICR_HI and ICR_LO on the page frame of `IA32_APIC_BASE` (R53 (a)),
or the ICR MSR. PRESUMED: the frame's base is bits 63:12 of that MSR, whose layout the spec does not give (log 51,
unsafe). -/
def ipiRoute (s : State) : IpiRoute :=
  match s.params.apicMode with
  | .xapic => .xapic (s.apicBase.extractLsb' 12 52 ++ (0x310 : PageOff)) (s.apicBase.extractLsb' 12 52 ++ (0x300 : PageOff))
  | .x2apic => .x2apic

/-- The groups of `PirGroups` as a partition: each without the bits of those before it, and last the bits that
are in none (R76, D20; log 20). -/
def pirPasses (left : BitVec 256) : List (BitVec 256) → List (BitVec 256)
  | [] => [left]
  | g :: gs => (g &&& left) :: pirPasses (left &&& ~~~g) gs

end Sys2Proof.Machine
end

