-- ==== Sys2Proof/Machine/Flags.lean ====
section
/-! DEFINITION. The computed conditions of the machine: priority classes, the value of VPPR, recognition of a
pending virtual interrupt, and the gate of delivery. No virtualization operation computes an `RFLAGS` flag
(R41, R150); `RFLAGS.RF` is set by one rule (R227). -/

namespace Sys2Proof.Machine

/-- The priority class of a vector: bits 7:4, unsigned (R10, R11). -/
def cls (v : IntVector) : Nat := v.toNat / 16

/-- The priority class of a 32-bit field: bits 7:4 (R22, R23). -/
def fieldCls (f : BitVec 32) : Nat := cls (f.extractLsb' 0 8)

/-- `zext_32(v & 0xF0)` (R106 (e)). -/
def classBase (v : IntVector) : BitVec 32 := (v &&& 0xF0).setWidth 32

/-- The value PPR virtualization stores (R153). -/
def pprValue (tpr : BitVec 32) (svi : IntVector) : BitVec 32 :=
  if cls svi ≤ fieldCls tpr then tpr &&& 0xFF else classBase svi

/-- `VTPR[7:4] < TPR_THRESHOLD` (R152). -/
def tprBelow (s : State) : Bool := decide (fieldCls (vtpr s) < s.vmcs.tprThreshold.toNat)

/-- The condition of evaluation (R171). -/
def recognizes (s : State) : Bool :=
  !s.vmcs.ctl.intrWindowExiting && decide (fieldCls (vppr s) < cls s.rvi)

/-- The activity states from which delivery wakes the processor, or in which it runs (R173, R176). -/
def wakeable : Activity → Bool
  | .active => true
  | .hlt => true
  | .mwait => true
  | .shutdown => false
  | .waitForSipi => false

/-- `DeliverNow` (R173), with `higher` the environment's choice of a higher-priority event (R174, D18). Delivery
exists only with `ctl.VID = 1` (R170, R112). -/
def deliverNow (higher : Bool) (s : State) : Bool :=
  s.vmcs.ctl.vid && s.pending && s.rflagsIf && !s.blockingBySti && !s.blockingByMovSs
    && !s.vmcs.ctl.intrWindowExiting && !higher && wakeable s.activity

/-- The user-interrupt branch of delivery (R175, R178). -/
def userBranch (s : State) (v : IntVector) : Bool := s.cr4Uintr && s.eferLma && v == s.vmcs.uinv

/-- `RFLAGS.RF` after posted-interrupt processing: 1 between two iterations of a `REP`-prefixed instruction
(R227), unchanged otherwise. -/
def rfAfterPosted (s : State) : Bool := s.rflagsRf || s.midRep

/-- The activity state after posted-interrupt processing (R228): MWAIT becomes active. -/
def activityAfterPosted : Activity → Activity
  | .mwait => .active
  | a => a

end Sys2Proof.Machine
end

