-- ==== Sys2Proof/Machine/VirtualInterrupts.lean ====
section
/-! DEFINITION. Evaluation and delivery of virtual interrupts (`42_virtual_interrupts.md`). -/

namespace Sys2Proof.Machine

/-- Evaluation of pending virtual interrupts (R171): the latch is assigned (D7, log 8). -/
def evaluate (s : State) : State := setPending (recognizes s) s

/-- Transactional execution, if in effect, is aborted (R175). -/
def abortTransaction (s : State) : State :=
  if s.transactional then emit .abortTransaction { s with transactional := false } else s

/-- An asynchronous enclave exit, if in enclave mode (R175, R229). -/
def enclaveExit (s : State) : State :=
  if s.enclave then emit .aex { s with enclave := false } else s

/-- The event that ends delivery (R175, R178; log 33): in the user-interrupt branch the run is refused from
the next step on. -/
def deliverEvent (v : IntVector) (s : State) : State :=
  if userBranch s v then emit .userInterruptNotification { s with userNotified := true }
  else emit (.deliverThroughIdt v) s

/-- RVI becomes the highest requesting vector, or 0 (R175). -/
def refreshRvi (s : State) : State := setRvi (highest (virr s)) s

/-- The updates of the virtual-APIC page and the guest interrupt status at delivery, in the order of R175: VISR,
SVI, VPPR (D10), VIRR, RVI, the latch. -/
def acceptVector (s : State) : State :=
  setPending false (refreshRvi (setVregBit offIrr s.rvi false (setVapic32 offPpr (classBase s.rvi)
    (setSvi s.rvi (setVregBit offIsr s.rvi true s)))))

/-- The processor runs (R176), execution no longer stands between two iterations, and an operation begins, the
delivery (R196, R205). -/
def wake (s : State) : State := { s with activity := .active, midRep := false, wroteVirt := false }

/-- Virtual-interrupt delivery (R175), which leaves the processor active (R176). -/
def deliver (s : State) : State :=
  deliverEvent s.rvi (enclaveExit (abortTransaction (wake (acceptVector s))))

/-- An instruction boundary (R173): delivery if `DeliverNow` holds; otherwise nothing happens, and the latch is
kept. -/
def boundary (higher : Bool) (s : State) : Res :=
  if deliverNow higher s then onVapicPage (fun s => .done (deliver s)) s else .done s

/-- `EvaluatePendingVirtualInterrupts` (R171). -/
def execEvaluatePendingVirtualInterrupts (s : State) : Out :=
  inGuest (enabledBy s.vmcs.ctl.vid (onVapicPage fun s => .done (evaluate s))) s

/-- `VirtualInterruptDelivery` (R175). DESIGN CHOICE: as a step of its own it is what an instruction boundary without
an event of higher priority does, so that every condition of R173 and R176 bars it (R33, R41), and where one does the
latch is kept (log 52). -/
def execVirtualInterruptDelivery (s : State) : Out :=
  inGuest (enabledBy s.vmcs.ctl.vid (boundary false)) s

/-- `InstructionBoundary` (R173, R176). -/
def execInstructionBoundary (higher : Bool) (s : State) : Out := inGuest (boundary higher) s

end Sys2Proof.Machine
end

