-- ==== Sys2Proof/Machine/VirtualApic.lean ====
section
/-! DEFINITION. TPR, PPR, EOI, self-IPI and IPI virtualization (`41_virtual_apic_operations.md`), and VM entry
(`70_reset_and_hazards.md` R281). -/

namespace Sys2Proof.Machine

/-- PPR virtualization (R153): all 32 bits of VPPR are stored. -/
def pprVirtualization (s : State) : State := setVapic32 offPpr (pprValue (vtpr s) s.svi) s

/-- TPR virtualization (R152). -/
def tprVirtualization (s : State) : Res :=
  if s.vmcs.ctl.vid then .done (evaluate (pprVirtualization s))
  else if tprBelow s then .exit .tprBelowThreshold s
  else .done s

/-- SVI becomes the highest vector in service, or 0 (R156). -/
def refreshSvi (s : State) : State := setSvi (highest (visr s)) s

/-- The updates of EOI virtualization before the EOI-exit bitmap is consulted (R156): VISR, SVI, VPPR. -/
def retireInService (s : State) : State := pprVirtualization (refreshSvi (setVregBit offIsr s.svi false s))

/-- EOI virtualization (R156): `Vector` is the old SVI. -/
def eoiVirtualization (s : State) : Res :=
  let s1 := retireInService s
  if s.vmcs.eoiExitBitmap.getLsbD s.svi.toNat then .exit (.eoiInduced s.svi) s1 else .done (evaluate s1)

/-- RVI becomes the greater of itself and a new vector (R158, R224). -/
def raiseRvi (v : IntVector) (s : State) : State := setRvi (maxVector s.rvi v) s

/-- Self-IPI virtualization (R158). -/
def selfIpiVirtualization (v : IntVector) (s : State) : State :=
  evaluate (raiseRvi v (setVregBit offIrr v true s))

/-- The first lock scope of IPI virtualization (R74, R160): PIR bit `V` is set, the 32 bytes stored back. -/
def postInPir (p : Nat) (v : IntVector) (s : State) : State :=
  setMem (s.mem.writeLe p 32 (pirAt s.mem p ||| BitVec.twoPow 256 v.toNat).toNat) s

/-- The second lock scope and the notification (R74, R160, R161): ON is set and an IPI sent if ON and SN were
0; the 8 bytes are stored back in either case. -/
def notifyPid (p : Nat) (s : State) : State :=
  let ni := notifyInfoAt s.mem p
  if !niOn ni && !niSn s ni then
    emit (.sendIpi (ipiDest s ni) (niNv ni) (ipiRoute s)) (setMem (s.mem.writeLe (p + 32) 8 (ni ||| 1).toNat) s)
  else setMem (s.mem.writeLe (p + 32) 8 ni.toNat) s

/-- The posting part of IPI virtualization, with other agents between its atomic steps (R74, R81). -/
def postInterrupt (p : Nat) (v : IntVector) (s : State) : Res :=
  (agentGap s).andThen fun s1 => (agentGap (postInPir p v s1)).andThen fun s2 => .done (notifyPid p s2)

/-- IPI virtualization (R160, R162). -/
def ipiVirtualization (v : IntVector) (t : ApicId) (s : State) : Res :=
  if v.toNat < 16 then .exit (.apicWrite 0x300) s
  else if t.toNat ≤ s.vmcs.lastPidIndex then
    if placed s (pidEntryAddr s t) 8 then
      let e := pidEntry s t
      if pidEntryValid s e then
        if !placed s (pidAddr e) 64 then .refuse .unplaceable
        else if !pidApart s.vmcs (pidAddr e) then .refuse .runPremise
        else postInterrupt (pidAddr e) v s
      else .exit (.apicWrite 0x300) s
    else .refuse .unplaceable
  else .exit (.apicWrite 0x300) s

/-- `TPRVirtualization` (R152; R150: the trigger needs "use TPR shadow"). -/
def execTprVirtualization (s : State) : Out :=
  inGuest (enabledBy s.vmcs.ctl.tprShadow (onVapicPage tprVirtualization)) s

/-- `PPRVirtualization` (R153; R150: with `ctl.VID = 1`). -/
def execPprVirtualization (s : State) : Out :=
  inGuest (enabledBy s.vmcs.ctl.vid (onVapicPage fun s => .done (pprVirtualization s))) s

/-- `EOIVirtualization` (R156; R155: only if `ctl.VID = 1`). -/
def execEoiVirtualization (s : State) : Out :=
  inGuest (enabledBy s.vmcs.ctl.vid (onVapicPage eoiVirtualization)) s

/-- `SelfIPIVirtualization` (R158; R157: only if `ctl.VID = 1`). -/
def execSelfIpiVirtualization (v : IntVector) (s : State) : Out :=
  inGuest (enabledBy s.vmcs.ctl.vid (onVapicPage fun s => .done (selfIpiVirtualization v s))) s

/-- `IPIVirtualization` (R160; R159: only if `ctl.IPI_VIRT = 1`). -/
def execIpiVirtualization (v : IntVector) (t : ApicId) (s : State) : Out :=
  inGuest (enabledBy s.vmcs.ctl.ipiVirt (ipiVirtualization v t)) s

/-! ### VM entry (R281, R252) -/

/-- What VM entry does once its checks have passed (R281, D6): the loads, then, with `ctl.VID = 1`, PPR
virtualization and evaluation. -/
def vmEntry (s : State) : State :=
  let s1 := enterGuest s
  if s1.vmcs.ctl.vid then evaluate (pprVirtualization s1) else s1

/-- `VMEntry` (R281). -/
def execVmEntry (s : State) : Out :=
  if s.mode = .vmxNonRoot then .refused .vmEntryInGuest
  else if !vmEntryChecks s then .refused .vmEntryCheck
  else if !runPremises s then .refused .runPremise
  else if s.vmcs.ctl.vid && !vapicPlaced s then .refused .unplaceable
  else .next (vmEntry s)

end Sys2Proof.Machine
end

