-- ==== Sys2Proof/Machine/PostedInterrupts.lean ====
section
/-! DEFINITION. Posted-interrupt processing and external interrupts (`44_posted_interrupts.md`). -/

namespace Sys2Proof.Machine

/-- Step 3 (R224, R75): ON is cleared, the rest of the descriptor left as it is. -/
def clearOn (p : Nat) (s : State) : State :=
  setMem (s.mem.write (p + 32) (s.mem.read (p + 32) &&& 0xFE)) s

/-- The atomic exchange of one group of PIR bits (R76): what they held, and the state with them clear. -/
def exchangeGroup (p : Nat) (g : BitVec 256) (s : State) : BitVec 256 × State :=
  (pirAt s.mem p &&& g, setMem (s.mem.writeLe p 32 (pirAt s.mem p &&& ~~~g).toNat) s)

/-- Steps 5 to 7 from the bits taken from PIR (R224): OR into VIRR, RVI the maximum, evaluation. -/
def acceptPosted (got : BitVec 256) (s : State) : State :=
  evaluate (if got = 0 then orVirr got s else raiseRvi (highest got) (orVirr got s))

/-- Step 5 over the groups in order, other agents between the exchanges (R76, R81), then the rest. -/
def drainPir (p : Nat) : List (BitVec 256) → BitVec 256 → State → Res
  | [], got, s => .done (acceptPosted got s)
  | g :: gs, got, s =>
    (agentGap (exchangeGroup p g s).2).andThen (drainPir p gs (got ||| (exchangeGroup p g s).1))

/-- The state after step 7 (R227, R228). -/
def afterPosted (s : State) : State :=
  { s with activity := activityAfterPosted s.activity, rflagsRf := rfAfterPosted s }

/-- Steps 3 to 7 (R224), when the physical vector is the notification vector. -/
def processPosted (s : State) : Res :=
  let p := s.vmcs.piDescAddr.toNat
  (agentGap (emit .localApicEoi (clearOn p s))).andThen fun s1 =>
    (drainPir p (pirPasses (BitVec.allOnes 256) s1.params.pirGroups) 0 s1).andThen fun s2 => .done (afterPosted s2)

/-- An AEX before step 1, where the environment chooses it (R229, U1). -/
def aexBefore (aexFirst : Bool) (s : State) : State := if aexFirst then enclaveExit s else s

/-- An external interrupt ends the HLT and MWAIT states (R259). -/
def activate (s : State) : State := { s with activity := .active }

/-- An external-interrupt VM exit: in enclave mode an AEX comes first (R245, R229), and the interrupt ends the HLT and
MWAIT states (R259). -/
def interruptExit (pv : IntVector) (s : State) : Res :=
  .exit (.externalInterrupt pv) (activate (enclaveExit s))

/-- Posted-interrupt processing (R224, R229). -/
def postedInterruptProcessing (pv : IntVector) (aexFirst : Bool) (s : State) : Res :=
  let s1 := emit (.localApicAck pv) (aexBefore aexFirst s)
  if pv ≠ s.vmcs.piNv then interruptExit pv s1
  else if !s.vmcs.ctl.vid then .refuse .postedWithoutVid
  else if placed s s.vmcs.piDescAddr.toNat 64 then onVapicPage processPosted s1
  else .refuse .unplaceable

/-- The event is refused in the states R228 does not mention. -/
def interruptible (k : State → Res) (s : State) : Res :=
  if wakeable s.activity then k s else .refuse .externalInterruptInactive

/-- An external interrupt under the controls (R223, R224, R245). -/
def externalInterrupt (pv : IntVector) (aexFirst : Bool) (s : State) : Res :=
  if !s.vmcs.ctl.extIntrExiting then .refuse .externalInterruptOutside
  else if s.vmcs.ctl.postedIntr then postedInterruptProcessing pv aexFirst s
  else interruptExit pv s

/-- A deliverable virtual interrupt goes before an external interrupt at the same boundary (R174, D18). -/
def afterDelivery (k : State → Res) (s : State) : Res :=
  if deliverNow false s then
    onVapicPage (fun s => if (deliver s).userNotified then .done (deliver s) else k (deliver s)) s
  else k s

/-- `ExternalInterrupt(pv)` (R223, R224, R174, R228). -/
def execExternalInterrupt (pv : IntVector) (aexFirst : Bool) (s : State) : Out :=
  inGuest (interruptible (afterDelivery (externalInterrupt pv aexFirst))) s

/-- `PostedInterruptProcessing` (R224). DESIGN CHOICE: as a step of its own it handles the physical vector, an exit
included, without the delivery of a deliverable virtual interrupt that comes before an external interrupt (R174, R249;
log 55). -/
def execPostedInterruptProcessing (pv : IntVector) (aexFirst : Bool) (s : State) : Out :=
  inGuest (enabledBy (s.vmcs.ctl.extIntrExiting && s.vmcs.ctl.postedIntr)
    (interruptible (postedInterruptProcessing pv aexFirst))) s

end Sys2Proof.Machine
end

