-- ==== Sys2Proof/Machine/ApicPage.lean ====
section
/-! DEFINITION. Memory-mapped accesses to the APIC-access page (`43_apic_access_page.md`; `40_trigger_instructions.md`
R128 to R132), and the accesses of string iterations (R138, R200 to R202). -/

namespace Sys2Proof.Machine

/-- The paging-structure flags are set before the APIC-access decision (R198, R199). -/
def setPagingFlags (kind : AccessKind) (s : State) : State :=
  emit (.pagingFlagsSet s.cr0Pg (decide (kind = .write))) s

/-- The flag of R205 is cleared where an operation begins, unless the access continues one. -/
def beginAccess (cont : Bool) (s : State) : State := { s with wroteVirt := cont && s.wroteVirt }

/-- The order of events of one access (R197 to R200): page fault or EPT violation first, then the paging flags,
then the access itself. A fault ends the operation and the source says nothing more of it (R246; log 38). -/
def translated (x : Xlat) (kind : AccessKind) (k : State → Res) (s : State) : Res :=
  match x with
  | .pageFault => .abort (emit .pageFault (beginAccess false s))
  | .eptViolation => .abort (emit .eptViolation (beginAccess false s))
  | .ok => k (setPagingFlags kind s)

/-- The treatment of this family is not given for enclave mode (R196, U15). -/
def outsideEnclave (k : State → Res) (s : State) : Res := if s.enclave then .refuse .enclaveAccess else k s

/-! ### Reads (R203, R204) -/

/-- A virtualized read: the bytes at the same offset of the virtual-APIC page go to the reading instruction, and
nothing else changes (R204, R78). -/
def virtualRead (off size : Nat) (s : State) : State :=
  { s with loaded := s.mem.readBytes (vapicAt s off) size }

/-- The read path `PageRead(kind, off, size)` (R204). -/
def pageRead (kind : AccessKind) (off : PageOff) (size : Nat) (s : State) : Res :=
  if readMustExit s kind off.toNat size then .exit (.apicAccess off kind) s
  else if readVirtualized s off.toNat size then onVapicPage (fun s => .done (virtualRead off.toNat size s)) s
  else .exit (.apicAccess off kind) s

/-! ### Writes (R128 to R131) -/

/-- A virtualized write: the bytes go to the same offset of the virtual-APIC page (R194), and the operation has
virtualized a write (R205). -/
def virtualWrite (off : Nat) (data : List Byte) (s : State) : State :=
  { setMem (s.mem.writeBytes (vapicAt s off) data) s with wroteVirt := true }

/-- A write that no row virtualizes. With `ctl.APIC_REG_VIRT = 1` it is directed to the virtual-APIC page and followed
by an APIC-write VM exit (R131, R33, R206) where `writeDirected` has it, and refused elsewhere (R131; log 27);
otherwise the default of R193. -/
def pageWriteDefault (off : PageOff) (data : List Byte) (s : State) : Res :=
  if s.vmcs.ctl.apicRegVirt then
    if writeDirected s off.toNat data.length then
      onVapicPage (fun s => .exit (.apicWrite off) (virtualWrite off.toNat data s)) s
    else .refuse .absentWriteSection
  else .exit (.apicAccess off .write) s

/-- A write that no trigger takes, while a control of whose part in it the absent section 30.4.3 may speak `applies`:
refused (R131, U17), unless APIC-register virtualization directs it. -/
def pageWriteUntaken (applies : Bool) (off : PageOff) (data : List Byte) (s : State) : Res :=
  if !s.vmcs.ctl.apicRegVirt && applies then .refuse .absentWriteSection else pageWriteDefault off data s

/-- Write to page offset 0x080 (R128: one that does not qualify causes an APIC-access VM exit). -/
def pageWriteTpr (data : List Byte) (s : State) : Res :=
  if s.vmcs.ctl.tprShadow && sizeQualifies s data.length then
    onVapicPage (fun s => tprVirtualization (virtualWrite offTpr data s)) s
  else pageWriteDefault 0x080 data s

/-- Write to page offset 0x0B0 (R129, R131). -/
def pageWriteEoi (data : List Byte) (s : State) : Res :=
  if s.vmcs.ctl.vid && sizeQualifies s data.length then
    onVapicPage (fun s => eoiVirtualization (virtualWrite offEoi data s)) s
  else pageWriteUntaken s.vmcs.ctl.vid 0x0B0 data s

/-- What a virtualized write to page offset 0x300 causes once VICR_LO is stored (R130). -/
def icrVirtualization (s : State) : Res :=
  match icrAction s with
  | .selfIpi v => .done (selfIpiVirtualization v s)
  | .ipi v t => ipiVirtualization v t s
  | .exit => .exit (.apicWrite 0x300) s

/-- Write to page offset 0x300 (R130, R131). -/
def pageWriteIcrLo (data : List Byte) (s : State) : Res :=
  if (s.vmcs.ctl.vid || s.vmcs.ctl.ipiVirt) && sizeQualifies s data.length then
    onVapicPage (fun s => icrVirtualization (virtualWrite offIcrLo data s)) s
  else pageWriteUntaken (s.vmcs.ctl.vid || s.vmcs.ctl.ipiVirt) 0x300 data s

/-- Write that begins at any other page offset (R131, U17; log 28). -/
def pageWriteOther (off : PageOff) (data : List Byte) (s : State) : Res :=
  pageWriteUntaken (writeControlApplies s) off data s

/-- A write by its page offset (R102). -/
def pageWrite (off : PageOff) (data : List Byte) (s : State) : Res :=
  if off = 0x080 then pageWriteTpr data s
  else if off = 0x0B0 then pageWriteEoi data s
  else if off = 0x300 then pageWriteIcrLo data s
  else pageWriteOther off data s

/-! ### Accesses outside the treatment (log 36) -/

/-- A plain read of physical memory. -/
def plainRead (pa : PhysAddr) (size : Nat) (s : State) : Res :=
  if placed s pa.toNat size then .done { s with loaded := s.mem.readBytes pa.toNat size }
  else .refuse .unplaceable

/-- A plain write of physical memory: software may not so modify a live field (R30), its own descriptor (R77) or
the PID-pointer table (R284 (3)). DESIGN CHOICE: a plain store to the descriptor that an entry of the table names is
performed, though R77 asks for a locked read-modify-write and U4 would refuse it (log 36, unsafe). -/
def plainWrite (pa : PhysAddr) (data : List Byte) (s : State) : Res :=
  if !placed s pa.toNat data.length then .refuse .unplaceable
  else if touchesLive s pa.toNat data.length then .refuse .liveFieldWrite
  else if touchesOwnPid s pa.toNat data.length then .refuse .unlockedDescriptorWrite
  else if touchesPidTable s pa.toNat data.length then .refuse .pidTableWrite
  else .done (setMem (s.mem.writeBytes pa.toNat data) s)

/-- An access is treated specially iff its physical address lies in the APIC-access page (R190, R191); one that
begins before the page and ends in it is refused (N14). -/
def special (pa : PhysAddr) (size : Nat) (onPage plain : State → Res) (s : State) : Res :=
  if s.vmcs.ctl.virtApicAccesses then
    if onApicPage s pa then outsideEnclave onPage s
    else if straddles s pa size then .refuse .straddlesApicPage
    else plain s
  else plain s

/-- One linear access (R190 to R204). A write the processor treats as if "virtualize APIC accesses" were 0 (R192)
is plain. DESIGN CHOICE: in enclave mode and where it straddles the page's beginning or its end too (log 37). -/
def linearAccess (a : LinearAccess) (s : State) : Res :=
  match a with
  | .read pa size x =>
    translated x .read (special pa size (pageRead .read (pageOff pa) size) (plainRead pa size)) s
  | .fetch pa size x =>
    translated x .fetch (special pa size (pageRead .fetch (pageOff pa) size) (plainRead pa size)) s
  | .write pa data x subPage =>
    translated x .write
      (if subPage then plainWrite pa data
       else special pa data.length (pageWrite (pageOff pa) data) (plainWrite pa data)) s

/-- The accesses of an operation in order; the first event ends it (R200). -/
def linearAccesses : List LinearAccess → State → Res
  | [], s => .done s
  | a :: as, s => (linearAccess a s).andThen (linearAccesses as)

/-! ### The rows of format PAGE -/

/-- One access of the page as a step: the instruction completes with its last access. DESIGN CHOICE: an instruction
with several accesses is a sequence of such steps (`more`, `cont`), other steps of the processor are accepted between
them, and a VM exit ends the instruction at the access that raises it; a trap-like one saves next_rip also where accesses
were to come (R16, R18, R102; log 54, unsafe). -/
def pageStep (env : AccessEnv) (kind : AccessKind) (k : State → Res) (s : State) : Res :=
  if !env.linear then .refuse .nonLinearAccess
  else
    (translated env.xlat kind k (beginAccess env.cont s)).andThen fun s1 =>
      .done (if env.more then s1 else retire s1)

/-- A write step; a write treated by R192 as plain goes to the APIC-access page's own memory. DESIGN CHOICE: in
enclave mode too, and one that runs past the page's end is stored contiguously past it (N14; log 37, unsafe). -/
def pageWriteStep (off : PageOff) (data : List Byte) (env : AccessEnv) (k : State → Res) (s : State) : Res :=
  pageStep env .write (if env.subPage then plainWrite (apicPageAddr s off) data else outsideEnclave k) s

/-- `PAGE_WRITE_TPR` (R128). -/
def execPageWriteTpr (data : List Byte) (env : AccessEnv) (s : State) : Out :=
  inGuest (whenActive (enabledBy s.vmcs.ctl.virtApicAccesses
    (pageWriteStep 0x080 data env (pageWriteTpr data)))) s

/-- `PAGE_WRITE_EOI` (R129). -/
def execPageWriteEoi (data : List Byte) (env : AccessEnv) (s : State) : Out :=
  inGuest (whenActive (enabledBy s.vmcs.ctl.virtApicAccesses
    (pageWriteStep 0x0B0 data env (pageWriteEoi data)))) s

/-- `PAGE_WRITE_ICR_LO` (R130). -/
def execPageWriteIcrLo (data : List Byte) (env : AccessEnv) (s : State) : Out :=
  inGuest (whenActive (enabledBy s.vmcs.ctl.virtApicAccesses
    (pageWriteStep 0x300 data env (pageWriteIcrLo data)))) s

/-- `PAGE_WRITE_OTHER` (R131). -/
def execPageWriteOther (off : PageOff) (data : List Byte) (env : AccessEnv) (s : State) : Out :=
  inGuest (whenActive (enabledBy s.vmcs.ctl.virtApicAccesses
    (pageWriteStep off data env (pageWriteOther off data)))) s

/-- `PAGE_READ` (R132, R203, R204). -/
def execPageRead (off : PageOff) (size : Nat) (env : AccessEnv) (s : State) : Out :=
  inGuest (whenActive (enabledBy s.vmcs.ctl.virtApicAccesses
    (pageStep env .read (outsideEnclave (pageRead .read off size))))) s

/-- `PAGE_FETCH` (R132, R203 (b)). -/
def execPageFetch (off : PageOff) (size : Nat) (env : AccessEnv) (s : State) : Out :=
  inGuest (whenActive (enabledBy s.vmcs.ctl.virtApicAccesses
    (pageStep env .fetch (outsideEnclave (pageRead .fetch off size))))) s

/-! ### String iterations (R138) -/

/-- The iteration completes: the registers reflect it, and `RIP` refers to the string instruction while iterations
remain (R47, R138, R227) and then to the next. Its operation is over (R205). -/
def completeIteration (it : RepIter) (s : State) : State :=
  { setReg Reg.rdi it.rdi (setReg Reg.rsi it.rsi (setReg Reg.rcx it.rcx s)) with
    ip := if it.more then s.ip else s.nextIp, midRep := it.more, wroteVirt := false }

/-- One iteration. A fault-like exit leaves the registers at the iterations before it (R202); a trap-like exit
comes after the iteration (R120; log 42). -/
def repIteration (it : RepIter) (s : State) : Res :=
  match linearAccesses it.accs (beginAccess false s) with
  | .done s1 => .done (completeIteration it s1)
  | .exit e s1 => .exit e (if e.trapLike then completeIteration it s1 else s1)
  | .abort s1 => .abort s1
  | .refuse r => .refuse r

/-- `REP_STRING_ITERATION` (R138, R202). -/
def execRepStringIteration (it : RepIter) (s : State) : Out :=
  inGuest (whenActive (repIteration it)) s

end Sys2Proof.Machine
end

