-- ==== Sys2Proof/Machine/Triggers.lean ====
section
/-! DEFINITION. The instructions that trigger virtualization by register or MSR, and those named for the state they
set (`40_trigger_instructions.md` R121 to R127, R133 to R137). -/

namespace Sys2Proof.Machine

/-- The instruction completes once its virtualization has gone on (R120). -/
def completing (k : State → Res) (s : State) : Res := (k s).andThen fun s1 => .done (retire s1)

/-- An instruction that runs in an active guest while its enabling condition holds. -/
def instruction (c : Bool) (k : State → Res) (s : State) : Out :=
  inGuest (whenActive (enabledBy c (completing k))) s

/-- `VTPR <- TprWriteValue(form, operand)`, then TPR virtualization (R121, R123). -/
def writeTpr (form : TprForm) (operand : BitVec 64) (s : State) : Res :=
  tprVirtualization (setVapic32 offTpr (Config.tprWriteValue form operand) s)

/-- `MOV` to `CR8` (R121). -/
def execMovToCr8 (src : Reg) (s : State) : Out :=
  instruction s.vmcs.ctl.tprShadow (onVapicPage (writeTpr .cr8 (getReg s src))) s

/-- `MOV` from `CR8` (R122). -/
def execMovFromCr8 (dst : Reg) (s : State) : Out :=
  instruction s.vmcs.ctl.tprShadow
    (onVapicPage fun s => .done (setReg dst (Config.tprReadValue (vtpr s)) s)) s

/-- `WRMSR` with `ECX = 0x808` (R123). -/
def execWrmsrTpr (s : State) : Out :=
  instruction (s.vmcs.ctl.virtX2apic && s.vmcs.ctl.tprShadow) (onVapicPage (writeTpr .msr (edxEax s))) s

/-- `WRMSR` with `ECX = 0x80B` (R124). -/
def execWrmsrEoi (s : State) : Out :=
  instruction (s.vmcs.ctl.virtX2apic && s.vmcs.ctl.vid)
    (onVapicPage fun s => eoiVirtualization (setVapic32 offEoi (Config.eoiWriteValue (edxEax s)) s)) s

/-- `WRMSR` with `ECX = 0x83F` (R125). -/
def execWrmsrSelfIpi (s : State) : Out :=
  instruction (s.vmcs.ctl.virtX2apic && s.vmcs.ctl.vid)
    (onVapicPage fun s => .done (selfIpiVirtualization (Config.selfIpiVector (edxEax s)) s)) s

/-- `WRMSR` with `ECX = 0x830` (R126). -/
def execWrmsrIcr (s : State) : Out :=
  instruction (s.vmcs.ctl.virtX2apic && s.vmcs.ctl.ipiVirt)
    (ipiVirtualization (Config.icrMsrOperands (edxEax s)).1 (Config.icrMsrOperands (edxEax s)).2) s

/-- `WRMSR` with any other index of the APIC range (R127: "The model refuses these forms"). -/
def execWrmsrApicOther (_idx : BitVec 8) (s : State) : Out :=
  instruction s.vmcs.ctl.virtX2apic (fun _ => .refuse .absentMsrSection) s

/-- `RDMSR` with an index of the APIC range (R127: "The model refuses these forms"). -/
def execRdmsrApic (_idx : BitVec 8) (s : State) : Out :=
  instruction s.vmcs.ctl.virtX2apic (fun _ => .refuse .absentMsrSection) s

/-- `SENDUIPI` (R133): `(V, T)` are the environment's (D13). -/
def execSenduipi (v : IntVector) (t : ApicId) (s : State) : Out :=
  instruction s.vmcs.ctl.ipiVirt (ipiVirtualization v t) s

/-- `STI` (R134): the environment supplies `RFLAGS.IF` after it and the blocking at the next boundary (D24). -/
def execSti (ifAfter block : Bool) (s : State) : Out :=
  instruction true (fun s => .done { s with rflagsIf := ifAfter, blockingBySti := block }) s

/-- `MOV SS` (R135): the environment supplies the blocking at the next boundary (D24). -/
def execMovSs (block : Bool) (s : State) : Out :=
  instruction true (fun s => .done { s with blockingByMovSs := block }) s

/-- `POP SS` (R135). -/
def execPopSs (block : Bool) (s : State) : Out :=
  instruction true (fun s => .done { s with blockingByMovSs := block }) s

/-- `HLT` (R136). -/
def execHlt (s : State) : Out := instruction true (fun s => .done { s with activity := .hlt }) s

/-- `MWAIT` (R137). -/
def execMwait (s : State) : Out := instruction true (fun s => .done { s with activity := .mwait }) s

end Sys2Proof.Machine
end

