-- ==== Sys2Proof/Machine/Dispatch.lean ====
section
/-! DEFINITION. The dispatch from operations to their meanings: one arm for each row of spec/opcode_table.json. -/

namespace Sys2Proof.Machine

def exec (i : Instr) (s : State) : Host.Outcome State Fault Refusal :=
  match i with
  | .movToCr8 src => Sys2Proof.Machine.execMovToCr8 src s
  | .movFromCr8 dst => Sys2Proof.Machine.execMovFromCr8 dst s
  | .wrmsrTpr => Sys2Proof.Machine.execWrmsrTpr s
  | .wrmsrEoi => Sys2Proof.Machine.execWrmsrEoi s
  | .wrmsrSelfIpi => Sys2Proof.Machine.execWrmsrSelfIpi s
  | .wrmsrIcr => Sys2Proof.Machine.execWrmsrIcr s
  | .wrmsrApicOther idx => Sys2Proof.Machine.execWrmsrApicOther idx s
  | .rdmsrApic idx => Sys2Proof.Machine.execRdmsrApic idx s
  | .pageWriteTpr data env => Sys2Proof.Machine.execPageWriteTpr data env s
  | .pageWriteEoi data env => Sys2Proof.Machine.execPageWriteEoi data env s
  | .pageWriteIcrLo data env => Sys2Proof.Machine.execPageWriteIcrLo data env s
  | .pageWriteOther off data env => Sys2Proof.Machine.execPageWriteOther off data env s
  | .pageRead off size env => Sys2Proof.Machine.execPageRead off size env s
  | .pageFetch off size env => Sys2Proof.Machine.execPageFetch off size env s
  | .senduipi v t => Sys2Proof.Machine.execSenduipi v t s
  | .sti ifAfter block => Sys2Proof.Machine.execSti ifAfter block s
  | .movSs block => Sys2Proof.Machine.execMovSs block s
  | .popSs block => Sys2Proof.Machine.execPopSs block s
  | .hlt => Sys2Proof.Machine.execHlt s
  | .mwait => Sys2Proof.Machine.execMwait s
  | .repStringIteration it => Sys2Proof.Machine.execRepStringIteration it s
  | .vmEntry => Sys2Proof.Machine.execVmEntry s
  | .instructionBoundary higher => Sys2Proof.Machine.execInstructionBoundary higher s
  | .externalInterrupt pv aexFirst => Sys2Proof.Machine.execExternalInterrupt pv aexFirst s
  | .tprVirtualization => Sys2Proof.Machine.execTprVirtualization s
  | .pprVirtualization => Sys2Proof.Machine.execPprVirtualization s
  | .eoiVirtualization => Sys2Proof.Machine.execEoiVirtualization s
  | .selfIpiVirtualization v => Sys2Proof.Machine.execSelfIpiVirtualization v s
  | .ipiVirtualization v t => Sys2Proof.Machine.execIpiVirtualization v t s
  | .evaluatePendingVirtualInterrupts => Sys2Proof.Machine.execEvaluatePendingVirtualInterrupts s
  | .virtualInterruptDelivery => Sys2Proof.Machine.execVirtualInterruptDelivery s
  | .postedInterruptProcessing pv aexFirst => Sys2Proof.Machine.execPostedInterruptProcessing pv aexFirst s

end Sys2Proof.Machine
end

