-- ==== Sys2Proof/Machine/Fetch.lean ====
section
/-! DEFINITION. The placing of an operation as the machine's next input (log 3). -/

namespace Sys2Proof.Machine

/-- The controls under which the selector of an operation selects it: the "enabling controls" column of R112,
set in `c`. -/
def selectingControls (i : Instr) (c : Controls) : Controls :=
  match i with
  | .wrmsrTpr => { c with virtX2apic := true, tprShadow := true }
  | .wrmsrEoi => { c with virtX2apic := true, vid := true }
  | .wrmsrSelfIpi => { c with virtX2apic := true, vid := true }
  | .wrmsrIcr => { c with virtX2apic := true, ipiVirt := true }
  | .wrmsrApicOther _ => { c with virtX2apic := true }
  | .pageWriteTpr _ _ => { c with virtApicAccesses := true, tprShadow := true }
  | .pageWriteEoi _ _ => { c with virtApicAccesses := true, vid := true }
  | .pageWriteIcrLo _ _ => { c with virtApicAccesses := true, vid := true }
  | .pageWriteOther _ _ _ => { c with virtApicAccesses := true }
  | _ => c

/-- `s` with the carrier as its next input, nothing before it, in an active guest. -/
def placeCarrier (op : Carrier) (s : State) : State :=
  { s with mode := .vmxNonRoot, activity := .active, userNotified := false, agents := [],
           inputs := { env := [], op := op } :: s.inputs }

/-- `s` with the operation of a table word placed; unchanged where the word stands for none. -/
def placeWord (nbits w : Nat) (s : State) : State :=
  match carrierOfTableWord nbits w, decodeTableWord nbits w with
  | some op, some i =>
    let s1 := placeCarrier op s
    let s2 := if nbits = 32 then setReg Reg.rcx (BitVec.ofNat 64 w) s1 else s1
    { s2 with vmcs := { s2.vmcs with ctl := selectingControls i s2.vmcs.ctl } }
  | _, _ => s

end Sys2Proof.Machine
end

