-- ==== Sys2Proof/Machine/Step.lean ====
section
/-! DEFINITION. One step of the machine, and the placing of a table word as the next operation. -/

namespace Sys2Proof.Machine

/-- Decode what the input presents while `ECX` holds its value, and run it. -/
def runOp (op : Carrier) (s : State) : Out :=
  match decode (op.selector (ecx s)) with
  | .ok i => exec i s
  | .error _ => .refused .undecodable

/-- One step: the next entry of the input sequence is taken; other agents may act and the environment supplies
its part; the operation runs (R20, D1, D5). A run that took the user-interrupt branch is refused (R178, R289). -/
def step (s : State) : Out :=
  if s.userNotified then .refused .userInterruptSection
  else
    match s.inputs with
    | [] => .fault .inputExhausted
    | inp :: rest =>
      match prepare inp.env { s with inputs := rest } with
      | .done s1 => runOp inp.op s1
      | r => finish r

/-- `s` with the operation of a table word as the next input of a guest in which that operation is selected
(log 3): VMX non-root operation, the active state, `ECX` for format `MSR`, and the enabling controls of R112. -/
def State.withFetchWord (s : State) (nbits w : Nat) : State := placeWord nbits w s

end Sys2Proof.Machine
end

