-- ==== Sys2Proof/Safety.lean ====
section
/-! DEFINITION. The terms claims are made in: the invariant of a guest that runs, the consistency of the interrupt
state (`70_reset_and_hazards.md` R283), the conditions under which an operation finds what it needs, and what a
safe run is. -/

namespace Sys2Proof.Machine

/-! ### Invariants -/

/-- What holds of every run (R38, R170, R283 (d)): memory is in canonical form, and in VMX non-root operation the
two relations VM entry enforces hold, nothing is recognized without "virtual-interrupt delivery", and nothing
is recognized under "interrupt-window exiting". -/
structure GuestInv (s : State) : Prop where
  memory  : s.mem.wf = true
  entered : s.mode = .vmxNonRoot → vmEntryChecks s = true
  novid   : s.mode = .vmxNonRoot → s.vmcs.ctl.vid = false → s.pending = false
  window  : s.mode = .vmxNonRoot → s.vmcs.ctl.intrWindowExiting = true → s.pending = false

/-- The consistency of the interrupt state (R283): (a), (b), (c) and (d). -/
structure Consistent (s : State) : Prop where
  svi     : s.svi = highest (visr s)
  rvi     : s.rvi = highest (virr s)
  ppr     : cls s.svi ≤ fieldCls (vppr s)
  pprHigh : (vppr s).extractLsb' 8 24 = 0
  latch   : s.pending = true → fieldCls (vppr s) < cls s.rvi ∧ s.vmcs.ctl.intrWindowExiting = false

/-- While VTPR is live its class is not above VPPR's. DEDUCED: no rule states it; R283 (d) needs it where EOI
virtualization exits without evaluating. -/
def TprCovered (s : State) : Prop := s.vmcs.ctl.tprShadow = true → fieldCls (vtpr s) ≤ fieldCls (vppr s)

/-- A guest with "virtual-interrupt delivery" whose interrupt state is consistent, under the run premises of D15. -/
structure ApicInv (s : State) : Prop where
  guest   : s.mode = .vmxNonRoot
  vid     : s.vmcs.ctl.vid = true
  apart   : regionsDisjoint (vmcsRegions s.vmcs) = true
  state   : Consistent s
  covered : TprCovered s

/-! ### What an operation needs -/

/-- A guest that runs: VMX non-root operation, with the virtual-APIC page in the physical address space (R86). -/
structure InGuest (s : State) : Prop where
  guest  : s.mode = .vmxNonRoot
  placed : vapicPlaced s = true

/-- A guest that executes instructions (R43). -/
structure Running (s : State) : Prop extends InGuest s where
  active : s.activity = .active

/-- An access to the APIC-access page that the rules of file 43 treat (R190, R192, R196, U15). -/
structure Treated (env : AccessEnv) (s : State) : Prop extends Running s where
  virtualized : s.vmcs.ctl.virtApicAccesses = true
  linear      : env.linear = true
  xlat        : env.xlat = .ok
  plain       : env.subPage = false
  outside     : s.enclave = false

/-- Nothing of another agent falls inside the operation (D5). -/
def Alone (s : State) : Prop := s.agents = []

/-- The descriptor at `p` can be used: it lies in the physical address space, apart from the other structures of
the run (R86, D15). -/
def PidUsable (s : State) (p : Nat) : Prop := placed s p 64 = true ∧ pidApart s.vmcs p = true

/-- Every entry of the PID-pointer table can be read, and every valid one names a usable descriptor. -/
def TableUsable (s : State) : Prop :=
  ∀ t : ApicId, t.toNat ≤ s.vmcs.lastPidIndex →
    placed s (pidEntryAddr s t) 8 = true ∧
      (pidEntryValid s (pidEntry s t) = true → PidUsable s (pidAddr (pidEntry s t)))

/-! ### Registers by group -/

/-- The control registers, the MSR bits and MSRs, which no rule of the source writes (R44, R49), the parameters
(R7) and every VMCS field but the guest-state area (R33). -/
def SameConfiguration (s t : State) : Prop :=
  t.cr0Pg = s.cr0Pg ∧ t.cr4Uintr = s.cr4Uintr ∧ t.cr8 = s.cr8 ∧ t.eferLma = s.eferLma ∧ t.apicBase = s.apicBase ∧
    t.vmxBasic = s.vmxBasic ∧ t.params = s.params ∧ { t.vmcs with guest := s.vmcs.guest } = s.vmcs

/-- The guest interrupt status and the recognition of a virtual interrupt (R40, R45). -/
def SameInterruptStatus (s t : State) : Prop := t.rvi = s.rvi ∧ t.svi = s.svi ∧ t.pending = s.pending

/-- The flags, blocking, activity and execution modes of the guest (R41, R42, R43, R46). -/
def SameProcessorState (s t : State) : Prop :=
  t.rflagsIf = s.rflagsIf ∧ t.rflagsRf = s.rflagsRf ∧ t.blockingBySti = s.blockingBySti ∧
    t.blockingByMovSs = s.blockingByMovSs ∧ t.activity = s.activity ∧ t.transactional = s.transactional ∧
    t.enclave = s.enclave ∧ t.userNotified = s.userNotified

/-- Every byte of memory outside the ranges (first address, size) reads as before. -/
def MemoryOutside (ranges : List (Nat × Nat)) (s t : State) : Prop :=
  ∀ a, (∀ r ∈ ranges, a < r.1 ∨ r.1 + r.2 ≤ a) → t.mem.read a = s.mem.read a

/-! ### What the rules say of the state after (from the rules' own words, not from the meanings) -/

/-- `v` is `highest(x)`, or 0 where no bit of `x` is set (R12, R156, R175). -/
def IsHighest (x : BitVec 256) (v : IntVector) : Prop :=
  (x = 0 ∧ v = 0) ∨ (x.getLsbD v.toNat = true ∧ ∀ n, x.getLsbD n = true → n ≤ v.toNat)

/-- PPR virtualization stores `ppr` (R153). -/
def PprRule (tpr : BitVec 32) (svi : IntVector) (ppr : BitVec 32) : Prop :=
  (svi.extractLsb' 4 4 ≤ tpr.extractLsb' 4 4 → ppr = (tpr.extractLsb' 0 8).setWidth 32) ∧
    (tpr.extractLsb' 4 4 < svi.extractLsb' 4 4 → ppr = (svi.extractLsb' 4 4 ++ (0 : BitVec 4)).setWidth 32)

/-- The latch is as evaluation assigns it (R171). -/
def EvaluationRule (t : State) : Prop :=
  t.pending = true ↔ t.vmcs.ctl.intrWindowExiting = false ∧ (vppr t).extractLsb' 4 4 < t.rvi.extractLsb' 4 4

/-- `t` is in the VMM after the VM exit `e`, which saved `ip` and the guest interrupt status (R250, R254). -/
def Exited (e : VmExit) (ip : InstrPtr) (t : State) : Prop :=
  t.mode = .vmxRoot ∧ t.lastExit = some e ∧ t.vmcs.guest = { ip := ip, rvi := t.rvi, svi := t.svi }

/-- `t` is in the guest still, without a VM exit since `s`. -/
def Still (s t : State) : Prop := t.mode = .vmxNonRoot ∧ t.lastExit = s.lastExit ∧ t.vmcs = s.vmcs

/-- TPR virtualization from `s` with the VTPR that `t` holds (R152). -/
def TprRule (s t : State) : Prop :=
  t.rvi = s.rvi ∧ t.svi = s.svi ∧
    if s.vmcs.ctl.vid = true then Still s t ∧ PprRule (vtpr t) s.svi (vppr t) ∧ EvaluationRule t
    else vppr t = vppr s ∧ t.pending = s.pending ∧
      if (vtpr t).extractLsb' 4 4 < s.vmcs.tprThreshold then Exited .tprBelowThreshold s.nextIp t else Still s t

/-- EOI virtualization from `s` to `t` (R156). -/
def EoiRule (s t : State) : Prop :=
  (∀ x, vregBit t offIsr x = (vregBit s offIsr x && decide (x ≠ s.svi))) ∧ IsHighest (visr t) t.svi ∧
    PprRule (vtpr s) t.svi (vppr t) ∧ vtpr t = vtpr s ∧ virr t = virr s ∧ t.rvi = s.rvi ∧
    if s.vmcs.eoiExitBitmap.getLsbD s.svi.toNat = true then
      Exited (.eoiInduced s.svi) s.nextIp t ∧ t.pending = s.pending
    else Still s t ∧ EvaluationRule t

/-- Self-IPI virtualization of `v` from `s` to `t` (R158). -/
def SelfIpiRule (v : IntVector) (s t : State) : Prop :=
  (∀ x, vregBit t offIrr x = (vregBit s offIrr x || decide (x = v))) ∧
    t.rvi.toNat = max s.rvi.toNat v.toNat ∧ EvaluationRule t ∧ t.svi = s.svi ∧ visr t = visr s ∧
    vppr t = vppr s ∧ vtpr t = vtpr s ∧ Still s t

/-- `V < 16`, `T` beyond the table, or an entry that is not valid (R160, R107, R162). -/
def IpiIllegal (v : IntVector) (t : ApicId) (s : State) : Prop :=
  v.toNat < 16 ∨ s.vmcs.lastPidIndex < t.toNat ∨
    ¬((s.mem.read64 (s.vmcs.pidTableAddr.toNat + 8 * t.toNat)).toNat < 2 ^ s.params.paw ∧
      (s.mem.read64 (s.vmcs.pidTableAddr.toNat + 8 * t.toNat)).extractLsb' 0 6 = 1)

/-- The descriptor an entry of the table names: its bits 5:0 cleared (R51, D8). -/
def targetPid (s : State) (t : ApicId) : Nat :=
  (s.mem.read64 (s.vmcs.pidTableAddr.toNat + 8 * t.toNat) &&& ~~~0x3F).toNat

/-- The notification IPI of a descriptor whose `NotifyInfo` is `ni` (R52, R161). -/
def notification (s : State) (ni : BitVec 64) : Event :=
  match s.params.apicMode with
  | .xapic => .sendIpi ((ni.extractLsb' 40 8).setWidth 32) (ni.extractLsb' 16 8)
      (.xapic ((s.apicBase &&& ~~~0xFFF) + 0x310) ((s.apicBase &&& ~~~0xFFF) + 0x300))
  | .x2apic => .sendIpi (ni.extractLsb' 32 32) (ni.extractLsb' 16 8) .x2apic

/-- A virtual interrupt with vector `v` is posted in the descriptor at `p` and notified (R160, R161). -/
def PostedIn (p : Nat) (v : IntVector) (s t : State) : Prop :=
  (∀ x : IntVector, (t.mem.read256 p).getLsbD x.toNat = ((s.mem.read256 p).getLsbD x.toNat || decide (x = v))) ∧
    if (s.mem.read64 (p + 32)).getLsbD 0 = false ∧ (s.mem.read64 (p + 32)).getLsbD s.params.snBit.val = false then
      t.mem.read64 (p + 32) = s.mem.read64 (p + 32) ||| 1 ∧
        t.history = s.history ++ [notification s (s.mem.read64 (p + 32))]
    else t.mem.read64 (p + 32) = s.mem.read64 (p + 32) ∧ t.history = s.history

/-- IPI virtualization of `(v, a)` from `s` to `t` (R160, R162, R163). -/
def IpiRule (v : IntVector) (a : ApicId) (s t : State) : Prop :=
  SameInterruptStatus s t ∧ (IpiIllegal v a s → Exited (.apicWrite 0x300) s.nextIp t ∧ t.history = s.history) ∧
    (¬IpiIllegal v a s → Still s t ∧ PostedIn (targetPid s a) v s t)

/-- The bytes that IPI virtualization of `(v, a)` stores to with another value (R160): the byte of PIR that holds bit `v`,
and the byte that holds ON. -/
def ipiStores (v : IntVector) (a : ApicId) (s : State) : List (Nat × Nat) :=
  [(targetPid s a + v.toNat / 8, 1), (targetPid s a + 32, 1)]

/-- The conditions of delivery but for the events of higher priority (R173, R176; R170). -/
structure Deliverable (s : State) : Prop where
  vid     : s.vmcs.ctl.vid = true
  pending : s.pending = true
  ifSet   : s.rflagsIf = true
  noSti   : s.blockingBySti = false
  noMovSs : s.blockingByMovSs = false
  window  : s.vmcs.ctl.intrWindowExiting = false
  state   : s.activity = .active ∨ s.activity = .hlt ∨ s.activity = .mwait

/-- The delivered vector takes the user-interrupt branch (R178). -/
def userDelivery (s : State) : Bool := s.cr4Uintr && s.eferLma && decide (s.rvi = s.vmcs.uinv)

/-- The events of a delivery from `s`, in order (R175, R178). -/
def deliveryEvents (s : State) : List Event :=
  (if s.transactional then [.abortTransaction] else []) ++ (if s.enclave then [.aex] else []) ++
    [if userDelivery s then .userInterruptNotification else .deliverThroughIdt s.rvi]

/-- Virtual-interrupt delivery from `s` to `t` (R175 to R178). -/
def DeliveryRule (s t : State) : Prop :=
  (∀ x, vregBit t offIsr x = (vregBit s offIsr x || decide (x = s.rvi))) ∧ t.svi = s.rvi ∧
    vppr t = (s.rvi.extractLsb' 4 4 ++ (0 : BitVec 4)).setWidth 32 ∧
    (∀ x, vregBit t offIrr x = (vregBit s offIrr x && decide (x ≠ s.rvi))) ∧ IsHighest (virr t) t.rvi ∧
    t.pending = false ∧ t.transactional = false ∧ t.enclave = false ∧ t.activity = .active ∧ vtpr t = vtpr s ∧
    t.rflagsIf = s.rflagsIf ∧ t.history = s.history ++ deliveryEvents s ∧
    t.userNotified = (s.userNotified || userDelivery s) ∧ Still s t

/-- The events of posted-interrupt processing before step 2 (R224, R229). -/
def ackEvents (pv : IntVector) (aexFirst : Bool) (s : State) : List Event :=
  (if aexFirst && s.enclave then [.aex] else []) ++ [.localApicAck pv]

/-- Posted-interrupt processing of the descriptor at `PI_DESC_ADDR`, from `s` to `t`, steps 3 to 7 (R224, R227, R228,
R229). -/
def PostedRule (pv : IntVector) (aexFirst : Bool) (s t : State) : Prop :=
  virr t = virr s ||| s.mem.read256 s.vmcs.piDescAddr.toNat ∧ t.mem.read256 s.vmcs.piDescAddr.toNat = 0 ∧
    t.mem.read64 (s.vmcs.piDescAddr.toNat + 32) = s.mem.read64 (s.vmcs.piDescAddr.toNat + 32) &&& ~~~1 ∧
    (s.mem.read256 s.vmcs.piDescAddr.toNat = 0 → t.rvi = s.rvi) ∧
    (∀ h, IsHighest (s.mem.read256 s.vmcs.piDescAddr.toNat) h → t.rvi.toNat = max s.rvi.toNat h.toNat) ∧
    EvaluationRule t ∧ t.svi = s.svi ∧ visr t = visr s ∧ vppr t = vppr s ∧ vtpr t = vtpr s ∧
    t.history = s.history ++ ackEvents pv aexFirst s ++ [.localApicEoi] ∧
    t.activity = (if s.activity = .hlt then .hlt else .active) ∧ t.rflagsRf = (s.rflagsRf || s.midRep) ∧
    t.enclave = (s.enclave && !aexFirst) ∧ t.ip = s.ip ∧ t.gpr = s.gpr ∧ Still s t

/-- Posted-interrupt processing finds its descriptor (R86, R224 (d), D15). -/
structure PostedReady (s : State) : Prop extends InGuest s where
  posted : s.vmcs.ctl.postedIntr = true
  ext    : s.vmcs.ctl.extIntrExiting = true
  vid    : s.vmcs.ctl.vid = true
  desc   : Machine.placed s s.vmcs.piDescAddr.toNat 64 = true
  apart  : regionsDisjoint (vmcsRegions s.vmcs) = true
  state  : s.activity = .active ∨ s.activity = .hlt ∨ s.activity = .mwait

/-- A read that the virtual-APIC page satisfies, by its first and last byte (R203, R204). -/
def ReadFromPage (s : State) (wrote : Bool) (off size : Nat) : Prop :=
  s.vmcs.ctl.tprShadow = true ∧ size ≤ 4 ∧ wrote = false ∧ off % 16 < 4 ∧ (off + size - 1) % 16 < 4 ∧
    off / 16 = (off + size - 1) / 16 ∧
    (off / 16 = 0x08 ∨ (s.vmcs.ctl.vid = true ∧ (off / 16 = 0x0B ∨ off / 16 = 0x30)) ∨
      (s.vmcs.ctl.apicRegVirt = true ∧ ∃ r ∈ s.params.readRanges, r.1.toNat ≤ off ∧ off + size - 1 ≤ r.2.toNat))

/-! ### Writes to the APIC-access page -/

/-- The row of the table that a write at `off` is (R102). -/
def pageWriteRow (off : PageOff) (data : List Byte) (env : AccessEnv) : Instr :=
  if off = 0x080 then .pageWriteTpr data env
  else if off = 0x0B0 then .pageWriteEoi data env
  else if off = 0x300 then .pageWriteIcrLo data env
  else .pageWriteOther off data env

/-- A write of `n` bytes at `off` that R128, R129 or R130 virtualizes. The sizes are log 26's. -/
def TriggerOn (s : State) (off : PageOff) (n : Nat) : Prop :=
  n ∈ s.params.writeSizes ∧ n ≤ 4 ∧
    ((off = 0x080 ∧ s.vmcs.ctl.tprShadow = true) ∨ (off = 0x0B0 ∧ s.vmcs.ctl.vid = true) ∨
      (off = 0x300 ∧ (s.vmcs.ctl.vid = true ∨ s.vmcs.ctl.ipiVirt = true)))

/-- A control other than "virtualize APIC accesses" and APIC-register virtualization may apply to a write at `off`
that no trigger takes (R131, U17). Which controls count, "process posted interrupts" not among them, is log 28's. -/
def ControlApplies (s : State) (off : PageOff) : Prop :=
  (off = 0x0B0 ∧ s.vmcs.ctl.vid = true) ∨ (off = 0x300 ∧ (s.vmcs.ctl.vid = true ∨ s.vmcs.ctl.ipiVirt = true)) ∨
    (off ≠ 0x080 ∧ off ≠ 0x0B0 ∧ off ≠ 0x300 ∧
      (s.vmcs.ctl.vid = true ∨ s.vmcs.ctl.tprShadow = true ∨ s.vmcs.ctl.ipiVirt = true ∨
        s.vmcs.ctl.virtX2apic = true))

/-- A write that APIC-register virtualization directs to the virtual-APIC page: in a range of the parameter of log 27,
with no byte of VPPR (R23) and none of bytes 4 to 15 of a slot of VISR or VIRR (R25, R26). -/
def DirectedWrite (s : State) (off n : Nat) : Prop :=
  (∃ r ∈ s.params.writeRanges, r.1.toNat ≤ off ∧ off + n - 1 ≤ r.2.toNat) ∧
    ∀ a, off ≤ a → a < off + n →
      ¬(0x0A0 ≤ a ∧ a < 0x0A4) ∧ ¬(((0x100 ≤ a ∧ a < 0x180) ∨ (0x200 ≤ a ∧ a < 0x280)) ∧ 4 ≤ a % 16)

/-- A write that no control virtualizes or may virtualize: the default of R193. -/
def WriteExits (s : State) (off : PageOff) (n : Nat) : Prop :=
  s.vmcs.ctl.apicRegVirt = false ∧ ¬TriggerOn s off n ∧ ¬ControlApplies s off

/-- A virtualized write to page offset 0x300 from `s` to `t` (R130), by what the open dispatch selects from VICR_LO as
stored, VICR_HI and the controls; a selection whose control is 0 is an exit (log 13). -/
def IcrRule (s t : State) : Prop :=
  match Config.icrPageDispatch (vicrLo t) (vicrHi s) s.vmcs.ctl with
  | .selfIpi v => if s.vmcs.ctl.vid then SelfIpiRule v s t else Exited (.apicWrite 0x300) s.nextIp t
  | .ipi v a => if s.vmcs.ctl.ipiVirt then IpiRule v a s t else Exited (.apicWrite 0x300) s.nextIp t
  | .exit => Exited (.apicWrite 0x300) s.nextIp t

/-- What a write that a trigger takes causes (R128 to R130). -/
def TriggerRule (off : PageOff) (s t : State) : Prop :=
  if off = 0x080 then TprRule s t else if off = 0x0B0 then EoiRule s t else IcrRule s t

/-- Where a write of `n` bytes at `off` of the APIC-access page stores, from `s` to `t`: at the same offset of the
virtual-APIC page (R194), and the fields that the virtualization it triggers writes. -/
def pageStores (off : PageOff) (n : Nat) (s t : State) : List (Nat × Nat) :=
  (vapicAt s off.toNat, n) ::
    if off = 0x080 then [(vapicAt s offPpr, 4)]
    else if off = 0x0B0 then [(vapicAt s (fieldOff offIsr s.svi), 4), (vapicAt s offPpr, 4)]
    else if off = 0x300 then
      match Config.icrPageDispatch (vicrLo t) (vicrHi s) s.vmcs.ctl with
      | .selfIpi v => [(vapicAt s (fieldOff offIrr v), 4)]
      | .ipi v a => ipiStores v a s
      | .exit => []
    else []

/-! ### The accesses of a string iteration -/

/-- An access of a string iteration that is no access to the APIC-access page and that memory can serve (R190,
R80, R30, R77, R284). -/
def PlainAccess (s : State) : LinearAccess → Prop
  | .read pa n x | .fetch pa n x =>
    x = .ok ∧ Machine.placed s pa.toNat n = true ∧
      (s.vmcs.ctl.virtApicAccesses = true → onApicPage s pa = false ∧ straddles s pa n = false)
  | .write pa d x sub =>
    x = .ok ∧ Machine.placed s pa.toNat d.length = true ∧ touchesLive s pa.toNat d.length = false ∧
      touchesOwnPid s pa.toNat d.length = false ∧ touchesPidTable s pa.toNat d.length = false ∧
      (sub = false → s.vmcs.ctl.virtApicAccesses = true → onApicPage s pa = false ∧ straddles s pa d.length = false)

/-- A read of the APIC-access page that the virtual-APIC page satisfies, where no write of the iteration was
virtualized before it (R203, R204, R205). -/
def VirtualizedRead (s : State) : LinearAccess → Prop
  | .read pa n x =>
    x = .ok ∧ s.vmcs.ctl.virtApicAccesses = true ∧ s.enclave = false ∧ onApicPage s pa = true ∧ 0 < n ∧
      ReadFromPage s false (pageOff pa).toNat n
  | .fetch _ _ _ | .write _ _ _ _ => False

/-- An access that neither exits nor triggers anything. -/
def QuietAccess (s : State) (a : LinearAccess) : Prop := PlainAccess s a ∨ VirtualizedRead s a

/-- A write to the APIC-access page that R190 to R196 treat. -/
def TreatedWrite (s : State) (off : PageOff) (d : List Byte) : LinearAccess → Prop
  | .read _ _ _ | .fetch _ _ _ => False
  | .write pa d' x sub =>
    x = .ok ∧ sub = false ∧ s.vmcs.ctl.virtApicAccesses = true ∧ s.enclave = false ∧ onApicPage s pa = true ∧
      pageOff pa = off ∧ d' = d

/-- An access to the APIC-access page at `off` that is not virtualized, where `wrote` says whether a write of the iteration
was virtualized before it (R193, R203, R204, R131): if one was, no read is (R203 (d)). -/
def UnvirtualizedAccess (s : State) (wrote : Bool) (off : PageOff) (kind : AccessKind) (a : LinearAccess) : Prop :=
  s.vmcs.ctl.virtApicAccesses = true ∧ s.enclave = false ∧
    match a with
    | .read pa n x =>
      kind = .read ∧ x = .ok ∧ onApicPage s pa = true ∧ pageOff pa = off ∧ 0 < n ∧
        ¬ReadFromPage s wrote off.toNat n
    | .fetch pa _ x => kind = .fetch ∧ x = .ok ∧ onApicPage s pa = true ∧ pageOff pa = off
    | .write pa d x sub =>
      kind = .write ∧ x = .ok ∧ sub = false ∧ onApicPage s pa = true ∧ pageOff pa = off ∧
        WriteExits s off d.length

/-- An access that stores to the APIC-access page by the treatment of R190 to R196, if it comes to it. -/
def WritesPage (s : State) : LinearAccess → Prop
  | .read _ _ _ | .fetch _ _ _ => False
  | .write pa _ _ sub => s.vmcs.ctl.virtApicAccesses = true ∧ sub = false ∧ onApicPage s pa = true

/-- The memory after an access that is no treated write to the APIC-access page. -/
def storeAccess (m : Memory) : LinearAccess → Memory
  | .read _ _ _ | .fetch _ _ _ => m
  | .write pa d _ _ => m.writeBytes pa.toNat d

/-- Where a string iteration stores, by its accesses that are no treated writes to the APIC-access page. -/
def storesOf : List LinearAccess → List (Nat × Nat)
  | [] => []
  | .write pa d _ _ :: as => (pa.toNat, d.length) :: storesOf as
  | .read _ _ _ :: as | .fetch _ _ _ :: as => storesOf as

/-- The paging event of an access that meets no fault (R198, R199). -/
def pagingEvent (s : State) : LinearAccess → Event
  | .read _ _ _ | .fetch _ _ _ => .pagingFlagsSet s.cr0Pg false
  | .write _ _ _ _ => .pagingFlagsSet s.cr0Pg true

/-- What the translation of an access comes to (R197). -/
def accessXlat : LinearAccess → Xlat
  | .read _ _ x | .fetch _ _ x | .write _ _ x _ => x

/-- `s` with the memory that the accesses `before` leave and the paging events of the accesses `done`. -/
def afterAccesses (before done : List LinearAccess) (s : State) : State :=
  { s with mem := before.foldl storeAccess s.mem, history := s.history ++ done.map (pagingEvent s) }

/-- Each of the first accesses `before` of an iteration from `s` goes on, whatever it is, and `u` is what they leave. -/
def AccessesReach (before : List LinearAccess) (s u : State) : Prop :=
  linearAccesses before (beginAccess false s) = .done u

/-- The general registers reflect the iteration `it` (R138, D1). -/
def ReflectsIteration (it : RepIter) (s t : State) : Prop :=
  getReg t Reg.rcx = it.rcx ∧ getReg t Reg.rsi = it.rsi ∧ getReg t Reg.rdi = it.rdi ∧
    ∀ r, r ≠ Reg.rcx → r ≠ Reg.rsi → r ≠ Reg.rdi → getReg t r = getReg s r

/-- Where execution stands once the iteration `it` is over: at the string instruction while iterations remain (R47, R138,
R227), then at the next. -/
def StandsAfter (it : RepIter) (s t : State) : Prop :=
  t.ip = (if it.more then s.ip else s.nextIp) ∧ t.midRep = it.more

/-- `t` is what the plain accesses `as` of an iteration leave where its trigger write left `u`: after a VM exit none of
them happens (R16, R200), else each does. -/
def GoesOn (as : List LinearAccess) (s u t : State) : Prop :=
  t.mode = u.mode ∧ t.lastExit = u.lastExit ∧ t.vmcs = u.vmcs ∧ SameInterruptStatus u t ∧
    (u.mode = .vmxRoot → t.mem = u.mem ∧ t.history = u.history) ∧
    (u.mode = .vmxNonRoot → t.mem = as.foldl storeAccess u.mem ∧ t.history = u.history ++ as.map (pagingEvent s))

/-! ### Runs -/

/-- A safe run: within `n` steps the machine is given no step the spec gives no meaning to. The end of a run
(a fault) is no breach: nothing is claimed past it (R289). -/
def SafeRun (n : Nat) (s : State) : Prop := ∀ r, Sys2Proof.core.run n s ≠ .refused r

end Sys2Proof.Machine
end

