-- ==== Sys2Proof/Certificates/Slice0/Obligations.lean ====
section
/-! DEFINITION. The statements about this model, for the provers. Each formalises rules of spec/; where a
statement rests on a choice of the model, its docstring says so and names the log entry. -/

open Sys2Proof Sys2Proof.Machine

/-! ### Steps and selection -/

/-- A step takes the next input, lets other agents act and the environment supply its part, and runs the operation
that the selector decodes to, with the MSR index taken from `ECX` (R20, R101; D1, D5). -/
def Obligations.StepRunsDecodedOperation : Prop :=
  ∀ (s s1 : State) (inp : StepInput) (rest : List StepInput) (i : Instr),
    s.userNotified = false → s.inputs = inp :: rest → prepare inp.env { s with inputs := rest } = .done s1 →
    decode (inp.op.selector (ecx s1)) = .ok i → step s = exec i s1

/-- Where nothing runs: a run ends when the input sequence is exhausted and at a VM exit (R289); a selector that
names no operation is refused (R101), and so is what follows the user-interrupt branch (R178). -/
def Obligations.StopsOutsideARun : Prop :=
  (∀ s : State, s.userNotified = false → s.inputs = [] → step s = .fault .inputExhausted) ∧
    (∀ s : State, s.userNotified = true → step s = .refused .userInterruptSection) ∧
    (∀ (s : State) (op : Carrier) (e : DecodeError), decode (op.selector (ecx s)) = .error e →
      runOp op s = .refused .undecodable) ∧
    (∀ (s : State) (i : Instr), s.mode = .vmxRoot → i ≠ .vmEntry → exec i s = .fault .notInGuest) ∧
    (∀ s : State, s.mode = .vmxNonRoot → exec .vmEntry s = .refused .vmEntryInGuest)

/-- Selectors written out from R101, R102 and R103 decode to the operations the spec gives for them. -/
def Obligations.SelectorsDecode : Prop :=
  decode (.msr .wrmsr 0x808) = .ok .wrmsrTpr ∧ decode (.msr .wrmsr 0x80B) = .ok .wrmsrEoi ∧
    decode (.msr .wrmsr 0x83F) = .ok .wrmsrSelfIpi ∧ decode (.msr .wrmsr 0x830) = .ok .wrmsrIcr ∧
    decode (.msr .wrmsr 0x810) = .ok (.wrmsrApicOther 0x10) ∧ decode (.msr .rdmsr 0x808) = .ok (.rdmsrApic 0x08) ∧
    decode (.page (.write 0x080 [0x20, 0, 0, 0] AccessEnv.plain)) = .ok (.pageWriteTpr [0x20, 0, 0, 0] AccessEnv.plain) ∧
    decode (.page (.write 0x0B0 [0] AccessEnv.plain)) = .ok (.pageWriteEoi [0] AccessEnv.plain) ∧
    decode (.page (.write 0x300 [0] AccessEnv.plain)) = .ok (.pageWriteIcrLo [0] AccessEnv.plain) ∧
    decode (.page (.write 0x320 [0] AccessEnv.plain)) = .ok (.pageWriteOther 0x320 [0] AccessEnv.plain) ∧
    decode (.page (.read 0x080 4 AccessEnv.plain)) = .ok (.pageRead 0x080 4 AccessEnv.plain) ∧
    decode (.page (.fetch 0x080 4 AccessEnv.plain)) = .ok (.pageFetch 0x080 4 AccessEnv.plain) ∧
    decode (.cr8 .toCr8 3) = .ok (.movToCr8 3) ∧ decode (.cr8 .fromCr8 3) = .ok (.movFromCr8 3)

/-- Decoding the encoding of a well-formed operation gives it back, with every operand (R100 to R104, R112). -/
def Obligations.EncodeDecodeRoundTrip : Prop := ∀ i : Instr, i.wf = true → decode (encode i) = .ok i

/-- A selector names at most the operation it encodes: what the decoder reads is well formed and encodes back to
that selector (R100, R112). -/
def Obligations.DecodeEncodeRoundTrip : Prop :=
  ∀ (sel : Selector) (i : Instr), decode sel = .ok i → i.wf = true ∧ encode i = sel

/-- The decoder refuses exactly the MSR indices outside 0x800 to 0x8FF (R101) and the accesses of no byte (the
model's choice, log 48). -/
def Obligations.DecoderRefusesExactly : Prop :=
  (∀ dir ecx, (∃ e, decode (.msr dir ecx) = .error e) ↔ ¬(0x800 ≤ ecx.toNat ∧ ecx.toNat ≤ 0x8FF)) ∧
    (∀ off size env, (∃ e, decode (.page (.read off size env)) = .error e) ↔ size = 0) ∧
    (∀ off size env, (∃ e, decode (.page (.fetch off size env)) = .error e) ↔ size = 0) ∧
    (∀ off data env, (∃ e, decode (.page (.write off data env)) = .error e) ↔ data = []) ∧
    (∀ dir reg, ∃ i, decode (.cr8 dir reg) = .ok i) ∧
    (∀ ev, (∃ i, decode (.event ev) = .ok i) ∨ ∃ it, ev = .repStringIteration it ∧ it.wf = false)

/-! ### Invariants -/

/-- The state before the first VM entry meets the guest invariant. The values of that state are the model's
(log 22, log 23). -/
def Obligations.ResetMeetsGuestInv : Prop := GuestInv State.reset

/-- Every step, of whatever operation in whatever state that meets it, keeps the guest invariant: canonical
memory, the relations VM entry enforces (R38), no recognition without "virtual-interrupt delivery" (R170) or under
"interrupt-window exiting" (R171). -/
def Obligations.GuestInvKeptByEveryStep : Prop := ∀ s t : State, GuestInv s → step s = .next t → GuestInv t

/-- Every step of a guest that stays in the guest keeps the consistency of R283. PPR virtualization, which the spec
invokes only inside other operations, is excepted here and is in the next statement. -/
def Obligations.ConsistencyKeptByEveryStep : Prop :=
  ∀ (s t : State) (inp : StepInput) (rest : List StepInput), ApicInv s → s.inputs = inp :: rest →
    inp.op ≠ .event .pprVirtualization → step s = .next t → t.mode = .vmxNonRoot → ApicInv t

/-- Virtual-interrupt delivery keeps the consistency of R283, and so does PPR virtualization while VTPR is live. -/
def Obligations.InternalOperationsKeepConsistency : Prop :=
  (∀ s t : State, ApicInv s → exec .virtualInterruptDelivery s = .next t → ApicInv t) ∧
    (∀ s t : State, ApicInv s → s.vmcs.ctl.tprShadow = true → exec .pprVirtualization s = .next t → ApicInv t)

/-- VM entry establishes the consistency of R283 from a guest interrupt status that agrees with the bitmaps. -/
def Obligations.VmEntryEstablishesConsistency : Prop :=
  ∀ s t : State, s.vmcs.ctl.vid = true → IsHighest (visr s) s.vmcs.guest.svi → IsHighest (virr s) s.vmcs.guest.rvi →
    exec .vmEntry s = .next t → ApicInv t

/-- R283 holds after an EOI-induced VM exit too: EOI virtualization that exits instead of evaluating only lowers or
keeps VPPR. -/
def Obligations.EoiExitKeepsConsistency : Prop :=
  ∀ s t : State, ApicInv s → s.vmcs.ctl.tprShadow = true → exec .eoiVirtualization s = .next t → Consistent t

/-! ### Whole-machine rules -/

/-- No operation writes a control, another VMCS field but the guest-state area, a parameter, a control register, `CR8`,
`IA32_EFER.LMA`, `IA32_APIC_BASE` or `IA32_VMX_BASIC` (R33, R44). Of VM entry, which R54 lets load some of them, and of a
step that takes a VM exit, which R250 leaves open, this is the model's choice (logs 7 and 11). -/
def Obligations.ConfigurationIsConstant : Prop := ∀ i s t, exec i s = .next t → SameConfiguration s t

/-- No operation writes a general register but `MOV` from `CR8` its destination, and an iteration of a string
instruction `RCX`, `RSI` and `RDI` (R48, R138). Of VM entry, where R54 says they are loaded, and of a step that takes
a VM exit, this is the model's choice (logs 7 and 11). -/
def Obligations.GeneralRegistersKept : Prop :=
  ∀ (i : Instr) (s t : State) (r : Reg), exec i s = .next t → i ≠ .movFromCr8 r →
    (∀ it, i = .repStringIteration it → r ≠ Reg.rcx ∧ r ≠ Reg.rsi ∧ r ≠ Reg.rdi) → getReg t r = getReg s r

/-- No operation writes `RFLAGS.IF` but `STI`, none writes `RFLAGS.RF` but posted-interrupt processing (R41, R227),
and blocking is written by the instruction it is named for only (R42, D24). That delivery keeps `RFLAGS.IF` is the model's
choice (log 16, D16), and so is all of it for VM entry and for a step that takes a VM exit (logs 7 and 11; R54, R250). -/
def Obligations.FlagsAndBlockingKept : Prop :=
  ∀ (i : Instr) (s t : State), exec i s = .next t →
    ((∀ a b, i ≠ .sti a b) → t.rflagsIf = s.rflagsIf ∧ t.blockingBySti = s.blockingBySti) ∧
    ((∀ b, i ≠ .movSs b) → (∀ b, i ≠ .popSs b) → t.blockingByMovSs = s.blockingByMovSs) ∧
    ((∀ pv x, i ≠ .externalInterrupt pv x) → (∀ pv x, i ≠ .postedInterruptProcessing pv x) →
      t.rflagsRf = s.rflagsRf)

/-- The activity state, the execution modes and the user-interrupt mark are kept by every operation but `HLT`,
`MWAIT`, delivery and the external interrupt (R43, R46). Of VM entry, where R54 says they are loaded, and of a step that
takes a VM exit, this is the model's choice (logs 7 and 11). -/
def Obligations.ActivityAndModesKept : Prop :=
  ∀ (i : Instr) (s t : State), exec i s = .next t →
    i ≠ .hlt → i ≠ .mwait → i ≠ .virtualInterruptDelivery → (∀ h, i ≠ .instructionBoundary h) →
    (∀ pv x, i ≠ .externalInterrupt pv x) → (∀ pv x, i ≠ .postedInterruptProcessing pv x) →
    t.activity = s.activity ∧ t.transactional = s.transactional ∧ t.enclave = s.enclave ∧
      t.userNotified = s.userNotified

/-- A VM exit saves the guest interrupt status and `CS:RIP`: of the next instruction for a TPR-below-threshold, an
EOI-induced or (the model's choice, log 29) an APIC-write VM exit, of the current one for an APIC-access VM exit (R240,
R250) and (the model's choice, log 49) for an external-interrupt VM exit. That a trap-like VM exit saves the next
instruction also where iterations of a string instruction or accesses of the instruction are to come is the model's choice
(logs 42 and 54). Without a VM exit nothing of this changes. -/
def Obligations.VmExitSavesTheGuest : Prop :=
  ∀ (i : Instr) (s t : State), exec i s = .next t →
    (t.mode = .vmxRoot →
      Exited .tprBelowThreshold s.nextIp t ∨ (∃ v, Exited (.eoiInduced v) s.nextIp t) ∨
        (∃ off, Exited (.apicWrite off) s.nextIp t) ∨ (∃ off k, Exited (.apicAccess off k) s.ip t) ∨
        (∃ v, Exited (.externalInterrupt v) s.ip t)) ∧
    (t.mode = .vmxNonRoot → t.lastExit = s.lastExit ∧ t.vmcs = s.vmcs)

/-- A TPR-below-threshold VM exit is raised only by the triggers of TPR virtualization, with "virtual-interrupt
delivery" 0, once VTPR holds the new value (R241); an EOI-induced one only by the triggers of EOI virtualization, with
that control 1, for a vector of the EOI-exit bitmap: the one in SVI when the EOI was written, once VISR, SVI and VPPR are
updated and without evaluation (R242). The saved `CS:RIP` is that of the next instruction. Each trigger may also be a
write of a string iteration; SVI and the recognition are then those that its accesses before that write leave. The model's
choices: the saved `CS:RIP` also where iterations or accesses are to come (logs 42 and 54), and that the two operations are
rows of their own too (log 1). -/
def Obligations.TprAndEoiExitsOnlyByTheirTriggers : Prop :=
  ∀ (i : Instr) (s t : State), s.mode = .vmxNonRoot → exec i s = .next t → t.mode = .vmxRoot →
    (t.lastExit = some .tprBelowThreshold →
      s.vmcs.ctl.vid = false ∧ (vtpr t).extractLsb' 4 4 < s.vmcs.tprThreshold ∧ t.vmcs.guest.ip = s.nextIp ∧
      ((∃ r, i = .movToCr8 r ∧ vtpr t = Config.tprWriteValue .cr8 (getReg s r)) ∨
        (i = .wrmsrTpr ∧ vtpr t =
          Config.tprWriteValue .msr ((getReg s Reg.rdx).extractLsb' 0 32 ++ (getReg s Reg.rax).extractLsb' 0 32)) ∨
        (∃ d e, i = .pageWriteTpr d e ∧ t.mem.readBytes (vapicAt s 0x080) d.length = d) ∨
        (i = .tprVirtualization ∧ vtpr t = vtpr s) ∨
        ∃ it before a d after, i = .repStringIteration it ∧ it.accs = before ++ a :: after ∧
          TreatedWrite s 0x080 d a ∧ t.mem.readBytes (vapicAt s 0x080) d.length = d)) ∧
    (∀ v, t.lastExit = some (.eoiInduced v) →
      s.vmcs.ctl.vid = true ∧ s.vmcs.eoiExitBitmap.getLsbD v.toNat = true ∧ t.vmcs.guest.ip = s.nextIp ∧
      vregBit t offIsr v = false ∧ IsHighest (visr t) t.svi ∧ PprRule (vtpr t) t.svi (vppr t) ∧
      (((i = .wrmsrEoi ∨ (∃ d e, i = .pageWriteEoi d e) ∨ i = .eoiVirtualization) ∧ v = s.svi ∧
          t.pending = s.pending) ∨
        ∃ it before a d after u, i = .repStringIteration it ∧ it.accs = before ++ a :: after ∧
          TreatedWrite s 0x0B0 d a ∧ linearAccesses before (beginAccess false s) = .done u ∧ v = u.svi ∧
          t.pending = u.pending))

/-- The operations that perform PPR virtualization or deliver (R154, R151, R155) are the only ones that change VPPR (R23):
no write that APIC-register virtualization directs reaches it (log 27). -/
def Obligations.VpprWrittenOnlyByItsCauses : Prop :=
  ∀ (i : Instr) (s t : State), exec i s = .next t → s.vmcs.ctl.vid = true →
    regionsDisjoint (vmcsRegions s.vmcs) = true →
    (∀ r, i ≠ .movToCr8 r) → i ≠ .wrmsrTpr → i ≠ .wrmsrEoi → (∀ d e, i ≠ .pageWriteTpr d e) →
    (∀ d e, i ≠ .pageWriteEoi d e) → (∀ it, i ≠ .repStringIteration it) → i ≠ .vmEntry →
    (∀ h, i ≠ .instructionBoundary h) → (∀ pv x, i ≠ .externalInterrupt pv x) → i ≠ .tprVirtualization →
    i ≠ .pprVirtualization → i ≠ .eoiVirtualization → i ≠ .virtualInterruptDelivery → vppr t = vppr s

/-- The recognition of a virtual interrupt changes only where evaluation is performed (R172) or delivery ends it
(R177): VM entry, TPR, EOI and self-IPI virtualization, posted-interrupt processing, and their triggers. -/
def Obligations.RecognitionChangesOnlyByItsCauses : Prop :=
  ∀ (i : Instr) (s t : State), exec i s = .next t →
    (∀ r, i ≠ .movToCr8 r) → i ≠ .wrmsrTpr → i ≠ .wrmsrEoi → i ≠ .wrmsrSelfIpi → (∀ d e, i ≠ .pageWriteTpr d e) →
    (∀ d e, i ≠ .pageWriteEoi d e) → (∀ d e, i ≠ .pageWriteIcrLo d e) → (∀ it, i ≠ .repStringIteration it) →
    i ≠ .vmEntry → (∀ h, i ≠ .instructionBoundary h) → (∀ pv x, i ≠ .externalInterrupt pv x) →
    i ≠ .tprVirtualization → i ≠ .eoiVirtualization → (∀ v, i ≠ .selfIpiVirtualization v) →
    i ≠ .evaluatePendingVirtualInterrupts → i ≠ .virtualInterruptDelivery →
    (∀ pv x, i ≠ .postedInterruptProcessing pv x) → t.pending = s.pending

/-- Other agents leave every live field of the virtual-APIC page of a running guest alone, or the step is refused
(R30, R284 (1), U3). -/
def Obligations.AgentsLeaveLiveFieldsAlone : Prop :=
  ∀ s t : State, s.mode = .vmxNonRoot → agentGap s = .done t →
    (∀ off ∈ liveOffsets s.vmcs.ctl, vapic32 t off = vapic32 s off) ∧ SameInterruptStatus s t ∧ t.gpr = s.gpr

/-- Where the bit of vector `x` of VISR and VIRR stands in memory, and how the 256-bit values are made of the eight
fields (R25, R26, R71; byte order D3). -/
def Obligations.PlaceOfVectorBits : Prop :=
  ∀ (s : State) (x : IntVector),
    (visr s).getLsbD x.toNat =
      (s.mem.read (s.vmcs.vapicAddr.toNat + (0x100 ||| ((x &&& 0xE0) >>> 1).toNat) + x.toNat % 32 / 8)).getLsbD
        (x.toNat % 8) ∧
    (virr s).getLsbD x.toNat =
      (s.mem.read (s.vmcs.vapicAddr.toNat + (0x200 ||| ((x &&& 0xE0) >>> 1).toNat) + x.toNat % 32 / 8)).getLsbD
        (x.toNat % 8)

/-- The places of the fields of a posted-interrupt descriptor at `p` (R50, R52, R71): PIR bit `v`, ON, NV and NDST. -/
def Obligations.PlaceOfDescriptorFields : Prop :=
  ∀ (m : Memory) (p : Nat) (v : IntVector),
    (pirAt m p).getLsbD v.toNat = (m.read (p + v.toNat / 8)).getLsbD (v.toNat % 8) ∧
    niOn (notifyInfoAt m p) = (m.read (p + 32)).getLsbD 0 ∧ niNv (notifyInfoAt m p) = m.read (p + 34) ∧
    niNdst (notifyInfoAt m p) = m.read (p + 39) ++ m.read (p + 38) ++ m.read (p + 37) ++ m.read (p + 36)

/-! ### VM entry -/

/-- VM entry (R281): the loads, then, with "virtual-interrupt delivery" 1, PPR virtualization and evaluation; nothing
recognized otherwise. Only VPPR is written. Where a check fails (R38) the model starts no run, which is its choice
(log 7). -/
def Obligations.VmEntryResult : Prop :=
  (∀ s : State, s.mode = .vmxRoot → (s.vmcs.ctl.tprShadow = true → s.vmcs.vapicAddr.extractLsb' 0 12 = 0) →
    (s.vmcs.ctl.postedIntr = true → s.vmcs.ctl.extIntrExiting = true) → runPremises s = true →
    (s.vmcs.ctl.vid = true → vapicPlaced s = true) →
    ∃ t, exec .vmEntry s = .next t ∧ Still s t ∧ t.rvi = s.vmcs.guest.rvi ∧ t.svi = s.vmcs.guest.svi ∧
      t.ip = s.vmcs.guest.ip ∧
      (s.vmcs.ctl.vid = true → PprRule (vtpr s) t.svi (vppr t) ∧ EvaluationRule t ∧
        MemoryOutside [(vapicAt s offPpr, 4)] s t) ∧
      (s.vmcs.ctl.vid = false → t.pending = false ∧ MemoryOutside [] s t)) ∧
    (∀ s : State, s.mode = .vmxRoot →
      ((s.vmcs.ctl.tprShadow = true ∧ s.vmcs.vapicAddr.extractLsb' 0 12 ≠ 0) ∨
        (s.vmcs.ctl.postedIntr = true ∧ s.vmcs.ctl.extIntrExiting = false)) →
      exec .vmEntry s = .refused .vmEntryCheck)

/-! ### The virtualization operations -/

/-- TPR virtualization (R152). -/
def Obligations.TprVirtualizationResult : Prop :=
  ∀ s : State, InGuest s → s.vmcs.ctl.tprShadow = true →
    ∃ t, exec .tprVirtualization s = .next t ∧ TprRule s t ∧ vtpr t = vtpr s

/-- PPR virtualization (R153): all 32 bits of VPPR are stored, and nothing else of memory or of the state
changes; no VM exit occurs. -/
def Obligations.PprVirtualizationResult : Prop :=
  ∀ s : State, InGuest s → s.vmcs.ctl.vid = true →
    ∃ t, exec .pprVirtualization s = .next t ∧ PprRule (vtpr s) s.svi (vppr t) ∧ SameInterruptStatus s t ∧
      SameProcessorState s t ∧ Still s t ∧ MemoryOutside [(vapicAt s offPpr, 4)] s t ∧ { t with mem := s.mem } = s

/-- EOI virtualization (R156): the vector retired is the old SVI, and a VM exit pre-empts evaluation. -/
def Obligations.EoiVirtualizationResult : Prop :=
  ∀ s : State, InGuest s → s.vmcs.ctl.vid = true → ∃ t, exec .eoiVirtualization s = .next t ∧ EoiRule s t

/-- Self-IPI virtualization (R158), for every vector. -/
def Obligations.SelfIpiVirtualizationResult : Prop :=
  ∀ (s : State) (v : IntVector), InGuest s → s.vmcs.ctl.vid = true →
    ∃ t, exec (.selfIpiVirtualization v) s = .next t ∧ SelfIpiRule v s t

/-- IPI virtualization and `SENDUIPI` (R160, R161, R133), with nothing of another agent inside the operation. The model's
choices: the addresses of ICR_HI and ICR_LO, from bits 63:12 of `IA32_APIC_BASE` (log 51), and the `CS:RIP` that the
APIC-write VM exit saves (log 29). -/
def Obligations.IpiVirtualizationResult : Prop :=
  ∀ (s : State) (v : IntVector) (a : ApicId), s.mode = .vmxNonRoot → s.vmcs.ctl.ipiVirt = true → Alone s →
    TableUsable s →
    (∃ t, exec (.ipiVirtualization v a) s = .next t ∧ IpiRule v a s t) ∧
      (s.activity = .active →
        ∃ t, exec (.senduipi v a) s = .next t ∧ IpiRule v a s t ∧ (t.mode = .vmxNonRoot → t.ip = s.nextIp))

/-- The APIC-write VM exit of IPI virtualization (R162, R107): an illegal vector exits before any look at the table
and whatever the schedule of other agents; no memory is written. -/
def Obligations.IpiIllegalVectorExits : Prop :=
  ∀ (s : State) (v : IntVector) (a : ApicId), s.mode = .vmxNonRoot → s.vmcs.ctl.ipiVirt = true →
    (v.toNat < 16 ∨ s.vmcs.lastPidIndex < a.toNat) →
    ∃ t, exec (.ipiVirtualization v a) s = .next t ∧ Exited (.apicWrite 0x300) s.nextIp t ∧ t.mem = s.mem ∧
      t.history = s.history

/-- IPI virtualization does not touch the sender's RVI, SVI, recognition, VISR, VIRR or VPPR, whatever other agents
do meanwhile (R163). -/
def Obligations.IpiLeavesTheSenderAlone : Prop :=
  ∀ (s t : State) (i : Instr), (i = .wrmsrIcr ∨ (∃ v a, i = .senduipi v a) ∨ ∃ v a, i = .ipiVirtualization v a) →
    exec i s = .next t → s.vmcs.ctl.vid = true →
    SameInterruptStatus s t ∧ visr t = visr s ∧ virr t = virr s ∧ vppr t = vppr s

/-! ### Evaluation and delivery -/

/-- Evaluation (R171) assigns the latch and changes nothing else. -/
def Obligations.EvaluationResult : Prop :=
  ∀ s : State, InGuest s → s.vmcs.ctl.vid = true →
    ∃ t, exec .evaluatePendingVirtualInterrupts s = .next t ∧ EvaluationRule t ∧ { t with pending := s.pending } = s

/-- Virtual-interrupt delivery (R175 to R178), where the conditions of R173 and R176 hold (R33, R41). Where one does not,
the step of its own changes nothing: the model's choice (log 52). That delivery keeps `RFLAGS.IF`, and `CS:RIP` where the
interrupt goes through the IDT, is the model's choice too (log 16, D16; R251). -/
def Obligations.DeliveryResult : Prop :=
  (∀ s : State, InGuest s → Deliverable s →
    ∃ t, exec .virtualInterruptDelivery s = .next t ∧ DeliveryRule s t ∧ t.gpr = s.gpr ∧ t.ip = s.ip) ∧
    (∀ s : State, s.mode = .vmxNonRoot → s.vmcs.ctl.vid = true → ¬Deliverable s →
      exec .virtualInterruptDelivery s = .next s)

/-- At an instruction boundary a recognized virtual interrupt is delivered where every condition holds and no event
of higher priority is taken, and otherwise nothing changes (R173, R174, R176). That it is delivered at the first such
boundary is the model's choice (log 32), and so is that delivery keeps `RFLAGS.IF` (log 16, D16). -/
def Obligations.DeliveryAtBoundaries : Prop :=
  (∀ s : State, InGuest s → Deliverable s →
    ∃ t, exec (.instructionBoundary false) s = .next t ∧ DeliveryRule s t) ∧
    (∀ (s : State) (higher : Bool), s.mode = .vmxNonRoot → (higher = true ∨ ¬Deliverable s) →
      exec (.instructionBoundary higher) s = .next s)

/-- A deliverable virtual interrupt goes before an external interrupt at the same boundary (R174, D18). -/
def Obligations.DeliveryBeforeExternalInterrupt : Prop :=
  ∀ (s u : State) (pv : IntVector) (x : Bool), InGuest s → Deliverable s →
    exec (.instructionBoundary false) s = .next u →
    (u.userNotified = false → exec (.externalInterrupt pv x) s = exec (.externalInterrupt pv x) u) ∧
      (u.userNotified = true → exec (.externalInterrupt pv x) s = .next u)

/-! ### External interrupts -/

/-- Posted-interrupt processing, steps 3 to 7, with nothing of another agent inside the operation (R224, R227 to
R229), for every partition of PIR (R76); `CS:RIP` and the general registers stay, between the iterations of a string
instruction at that instruction and with the iterations completed (R227). -/
def Obligations.PostedProcessingResult : Prop :=
  ∀ (s : State) (x : Bool), PostedReady s → Alone s →
    (∃ t, exec (.postedInterruptProcessing s.vmcs.piNv x) s = .next t ∧ PostedRule s.vmcs.piNv x s t) ∧
      (¬Deliverable s →
        ∃ t, exec (.externalInterrupt s.vmcs.piNv x) s = .next t ∧ PostedRule s.vmcs.piNv x s t)

/-- An external interrupt that posted-interrupt processing does not consume causes a VM exit that saves its vector;
in enclave mode an AEX comes first (R223, R224 step 2, R229, R245), and HLT and MWAIT are left (R259). No memory is
written. The model's choices: the saved `CS:RIP` is the current one (log 49), with "process posted interrupts" 0 no
acknowledge is recorded (log 45), and posted-interrupt processing as a step of its own does not deliver first (log 55). -/
def Obligations.ExternalInterruptExits : Prop :=
  ∀ (s : State) (pv : IntVector) (x : Bool), s.mode = .vmxNonRoot → s.vmcs.ctl.extIntrExiting = true →
    (s.activity = .active ∨ s.activity = .hlt ∨ s.activity = .mwait) →
    (s.vmcs.ctl.postedIntr = true → pv ≠ s.vmcs.piNv) →
    (¬Deliverable s →
      ∃ t, exec (.externalInterrupt pv x) s = .next t ∧ Exited (.externalInterrupt pv) s.ip t ∧ t.enclave = false ∧
        t.activity = .active ∧ t.mem = s.mem ∧ SameInterruptStatus s t ∧
        t.history = s.history ++
          (if s.vmcs.ctl.postedIntr then
            ackEvents pv x s ++ (if s.enclave && !x then [.aex] else [])
          else if s.enclave then [.aex] else [])) ∧
    (s.vmcs.ctl.postedIntr = true →
      ∃ t, exec (.postedInterruptProcessing pv x) s = .next t ∧ Exited (.externalInterrupt pv) s.ip t ∧
        t.enclave = false ∧ t.activity = .active ∧ t.mem = s.mem ∧ SameInterruptStatus s t ∧
        t.history = s.history ++ ackEvents pv x s ++ (if s.enclave && !x then [.aex] else []))

/-- What the spec gives no meaning to: an external interrupt with "external-interrupt exiting" 0 (R223), or in the
shutdown or wait-for-SIPI state (R228), is refused. -/
def Obligations.ExternalInterruptRefusals : Prop :=
  (∀ (s : State) (pv : IntVector) (x : Bool), s.mode = .vmxNonRoot → ¬Deliverable s →
    s.vmcs.ctl.extIntrExiting = false → (s.activity = .active ∨ s.activity = .hlt ∨ s.activity = .mwait) →
    exec (.externalInterrupt pv x) s = .refused .externalInterruptOutside) ∧
    (∀ (s : State) (pv : IntVector) (x : Bool), s.mode = .vmxNonRoot →
      (s.activity = .shutdown ∨ s.activity = .waitForSipi) →
      exec (.externalInterrupt pv x) s = .refused .externalInterruptInactive)

/-! ### Triggers by register and MSR -/

/-- `MOV` to `CR8` and `WRMSR` 0x808 store the new VTPR that the open operand mapping gives (D12), then TPR
virtualization follows; unless it exits, the instruction completes (R121, R123, R120). -/
def Obligations.TprWritesVirtualize : Prop :=
  (∀ (s : State) (r : Reg), Running s → s.vmcs.ctl.tprShadow = true →
    ∃ t, exec (.movToCr8 r) s = .next t ∧ TprRule s t ∧ vtpr t = Config.tprWriteValue .cr8 (getReg s r) ∧
      (t.mode = .vmxNonRoot → t.ip = s.nextIp)) ∧
    (∀ s : State, Running s → s.vmcs.ctl.virtX2apic = true → s.vmcs.ctl.tprShadow = true →
      ∃ t, exec .wrmsrTpr s = .next t ∧ TprRule s t ∧
        vtpr t = Config.tprWriteValue .msr ((getReg s Reg.rdx).extractLsb' 0 32 ++ (getReg s Reg.rax).extractLsb' 0 32) ∧
        (t.mode = .vmxNonRoot → t.ip = s.nextIp))

/-- `MOV` from `CR8` (R122): the destination receives what the open mapping makes of VTPR (D12), and nothing else of the
state changes but the instruction pointer and, as at every end of an operation, the marks of one under way (R205, log 53). -/
def Obligations.TprReadResult : Prop :=
  ∀ (s : State) (r : Reg), Running s → s.vmcs.ctl.tprShadow = true →
    ∃ t, exec (.movFromCr8 r) s = .next t ∧ getReg t r = Config.tprReadValue (vtpr s) ∧
      (∀ q, q ≠ r → getReg t q = getReg s q) ∧ t.ip = s.nextIp ∧ t.mem = s.mem ∧ SameInterruptStatus s t ∧
      SameProcessorState s t ∧ Still s t ∧ t.midRep = false ∧ t.wroteVirt = false ∧
      { t with gpr := s.gpr, ip := s.ip, midRep := s.midRep, wroteVirt := s.wroteVirt } = s

/-- `WRMSR` 0x80B and `WRMSR` 0x83F perform EOI and self-IPI virtualization (R124, R125; open operand mappings D12). -/
def Obligations.MsrEoiAndSelfIpi : Prop :=
  (∀ s : State, Running s → s.vmcs.ctl.virtX2apic = true → s.vmcs.ctl.vid = true →
    ∃ t, exec .wrmsrEoi s = .next t ∧ EoiRule s t ∧
      veoi t = Config.eoiWriteValue ((getReg s Reg.rdx).extractLsb' 0 32 ++ (getReg s Reg.rax).extractLsb' 0 32) ∧
      (t.mode = .vmxNonRoot → t.ip = s.nextIp)) ∧
    (∀ s : State, Running s → s.vmcs.ctl.virtX2apic = true → s.vmcs.ctl.vid = true →
      ∃ t, exec .wrmsrSelfIpi s = .next t ∧ t.ip = s.nextIp ∧
        SelfIpiRule (Config.selfIpiVector
          ((getReg s Reg.rdx).extractLsb' 0 32 ++ (getReg s Reg.rax).extractLsb' 0 32)) s t)

/-- `WRMSR` 0x830 performs IPI virtualization with the pair that the open dispatch gives (R126, D13). The model's choices:
the addresses of ICR_HI and ICR_LO, from bits 63:12 of `IA32_APIC_BASE` (log 51), and the `CS:RIP` that the APIC-write VM
exit saves (log 29). -/
def Obligations.MsrIcrSendsIpi : Prop :=
  ∀ (s : State) (v : IntVector) (a : ApicId), Running s → s.vmcs.ctl.virtX2apic = true → s.vmcs.ctl.ipiVirt = true →
    Alone s → TableUsable s →
    Config.icrMsrOperands ((getReg s Reg.rdx).extractLsb' 0 32 ++ (getReg s Reg.rax).extractLsb' 0 32) = (v, a) →
    ∃ t, exec .wrmsrIcr s = .next t ∧ IpiRule v a s t ∧ (t.mode = .vmxNonRoot → t.ip = s.nextIp)

/-- `RDMSR` of the APIC range and its other `WRMSR` are refused: section 30.5 is absent (R127). With an enabling
control 0 the instructions of R121 to R127 and R133 are refused too (R120, its rule on a false enabling condition). -/
def Obligations.MsrRefusals : Prop :=
  (∀ (s : State) (idx : BitVec 8), Running s → s.vmcs.ctl.virtX2apic = true →
    exec (.wrmsrApicOther idx) s = .refused .absentMsrSection ∧
      exec (.rdmsrApic idx) s = .refused .absentMsrSection) ∧
    (∀ (s : State) (i : Instr), Running s →
      ((s.vmcs.ctl.tprShadow = false ∧ ((∃ r, i = .movToCr8 r) ∨ (∃ r, i = .movFromCr8 r) ∨ i = .wrmsrTpr)) ∨
        (s.vmcs.ctl.vid = false ∧ (i = .wrmsrEoi ∨ i = .wrmsrSelfIpi)) ∨
        (s.vmcs.ctl.ipiVirt = false ∧ (i = .wrmsrIcr ∨ ∃ v a, i = .senduipi v a)) ∨
        (s.vmcs.ctl.virtX2apic = false ∧ (i = .wrmsrTpr ∨ i = .wrmsrEoi ∨ i = .wrmsrSelfIpi ∨ i = .wrmsrIcr ∨
          (∃ idx, i = .wrmsrApicOther idx) ∨ ∃ idx, i = .rdmsrApic idx))) →
      exec i s = .refused .notVirtualized)

/-- `STI`, `MOV SS`, `POP SS`, `HLT` and `MWAIT` have their named effect (R134 to R137), the values of the blocking
and of `RFLAGS.IF` being the environment's (D24), and complete; each is an operation of its own (R196, R205;
log 53). -/
def Obligations.NamedEffects : Prop :=
  ∀ (s : State) (a b : Bool), Running s →
    let t := { s with ip := s.nextIp, midRep := false, wroteVirt := false }
    exec (.sti a b) s = .next { t with rflagsIf := a, blockingBySti := b } ∧
    exec (.movSs b) s = .next { t with blockingByMovSs := b } ∧
    exec (.popSs b) s = .next { t with blockingByMovSs := b } ∧
    exec .hlt s = .next { t with activity := .hlt } ∧
    exec .mwait s = .next { t with activity := .mwait }

/-! ### The APIC-access page -/

/-- A read that R203 and R204 virtualize returns the bytes at the same offset of the virtual-APIC page and changes
no other state (R204, R78); the paging flags were set first (R198). -/
def Obligations.PageReadVirtualized : Prop :=
  ∀ (s : State) (off : PageOff) (size : Nat) (env : AccessEnv), Treated env s → 0 < size →
    ReadFromPage s (env.cont && s.wroteVirt) off.toNat size →
    ∃ t, exec (.pageRead off size env) s = .next t ∧
      t.loaded = s.mem.readBytes (s.vmcs.vapicAddr.toNat + off.toNat) size ∧ t.mem = s.mem ∧
      t.ip = (if env.more then s.ip else s.nextIp) ∧ t.history = s.history ++ [.pagingFlagsSet s.cr0Pg false] ∧
      SameInterruptStatus s t ∧ SameProcessorState s t ∧ t.gpr = s.gpr ∧ Still s t

/-- Every other read, and every instruction fetch, of the APIC-access page causes an APIC-access VM exit that saves
the accessing instruction (R203, R204 (d), R193, R84), after the accessed flags are set (R198). -/
def Obligations.PageReadExits : Prop :=
  (∀ (s : State) (off : PageOff) (size : Nat) (env : AccessEnv), Treated env s → 0 < size →
    ¬ReadFromPage s (env.cont && s.wroteVirt) off.toNat size →
    ∃ t, exec (.pageRead off size env) s = .next t ∧ Exited (.apicAccess off .read) s.ip t ∧ t.mem = s.mem ∧
      t.loaded = s.loaded ∧ t.history = s.history ++ [.pagingFlagsSet s.cr0Pg false]) ∧
    (∀ (s : State) (off : PageOff) (size : Nat) (env : AccessEnv), Treated env s →
      ∃ t, exec (.pageFetch off size env) s = .next t ∧ Exited (.apicAccess off .fetch) s.ip t ∧ t.mem = s.mem ∧
        t.loaded = s.loaded ∧ t.history = s.history ++ [.pagingFlagsSet s.cr0Pg false])

/-- A virtualized write to page offset 0x080 or 0x0B0 stores its bytes on the virtual-APIC page, then TPR or EOI
virtualization follows (R128, R129, R194); the operation has virtualized a write while accesses of it remain (R205). The
sizes that qualify are the open parameter of log 26; that a trap-like VM exit saves the next instruction also where accesses
are to come is the model's choice (log 54). -/
def Obligations.PageWriteTprAndEoi : Prop :=
  ∀ (s : State) (data : List Byte) (env : AccessEnv), Treated env s → data.length ∈ s.params.writeSizes →
    data.length ≤ 4 →
    (s.vmcs.ctl.tprShadow = true →
      ∃ t, exec (.pageWriteTpr data env) s = .next t ∧ TprRule s t ∧
        t.mem.readBytes (s.vmcs.vapicAddr.toNat + 0x080) data.length = data ∧
        (t.mode = .vmxNonRoot → t.ip = (if env.more then s.ip else s.nextIp) ∧ t.wroteVirt = env.more)) ∧
    (s.vmcs.ctl.vid = true →
      ∃ t, exec (.pageWriteEoi data env) s = .next t ∧ EoiRule s t ∧
        t.mem.readBytes (s.vmcs.vapicAddr.toNat + 0x0B0) data.length = data ∧
        (t.mode = .vmxNonRoot → t.ip = (if env.more then s.ip else s.nextIp) ∧ t.wroteVirt = env.more))

/-- A virtualized write to page offset 0x300 stores its bytes in VICR_LO, then does what the open dispatch selects
from VICR_LO, VICR_HI and the controls (R130, D13): self-IPI virtualization, IPI virtualization or the APIC-write VM exit.
The sizes that qualify are the open parameter of log 26. The model's choices: a selection whose control is 0 (log 13), the
addresses of ICR_HI and ICR_LO, from bits 63:12 of `IA32_APIC_BASE` (log 51), and the `CS:RIP` that the APIC-write VM exit
saves (log 29), also where accesses of the instruction are to come (log 54). -/
def Obligations.PageWriteIcr : Prop :=
  ∀ (s : State) (data : List Byte) (env : AccessEnv), Treated env s → data.length ∈ s.params.writeSizes →
    data.length ≤ 4 → (s.vmcs.ctl.vid = true ∨ s.vmcs.ctl.ipiVirt = true) → Alone s → TableUsable s →
    regionsDisjoint (vmcsRegions s.vmcs) = true →
    ∃ t, exec (.pageWriteIcrLo data env) s = .next t ∧
      t.mem.readBytes (s.vmcs.vapicAddr.toNat + 0x300) data.length = data ∧
      (t.mode = .vmxNonRoot → t.ip = (if env.more then s.ip else s.nextIp) ∧ t.wroteVirt = env.more) ∧
      IcrRule { s with history := s.history ++ [.pagingFlagsSet s.cr0Pg true] } t

/-- A write to the APIC-access page, of whatever row, that no control virtualizes or may virtualize causes an APIC-access
VM exit that saves the writing instruction (R128, R131, R193), after the dirty flags are set (R199), and stores
nothing. Which sizes no trigger takes is the open parameter of log 26, where another control may apply log 28; that a write
which runs past the page's end exits too is the model's choice (log 36; N14 states nothing of it). -/
def Obligations.PageWriteExits : Prop :=
  ∀ (s : State) (off : PageOff) (data : List Byte) (env : AccessEnv), Treated env s → WriteExits s off data.length →
    ∃ t, exec (pageWriteRow off data env) s = .next t ∧ Exited (.apicAccess off .write) s.ip t ∧ t.mem = s.mem ∧
      t.history = s.history ++ [.pagingFlagsSet s.cr0Pg true]

/-- With "APIC-register virtualization" 1 a write that no trigger takes, at the trigger offsets too, is directed to the
virtual-APIC page and followed by an APIC-write VM exit (R33, R131, R206). The model's choices: which writes it covers
(log 27; the others are refused), the saved `CS:RIP` of the next instruction (log 29), also where accesses are to come (log
54), and the refusal where another control may apply (log 28, of R131 and U17). -/
def Obligations.PageWriteDirected : Prop :=
  ∀ (s : State) (off : PageOff) (data : List Byte) (env : AccessEnv), Treated env s →
    ¬TriggerOn s off data.length →
    (s.vmcs.ctl.apicRegVirt = true → DirectedWrite s off.toNat data.length →
      ∃ t, exec (pageWriteRow off data env) s = .next t ∧ Exited (.apicWrite off) s.nextIp t ∧
        t.mem.readBytes (s.vmcs.vapicAddr.toNat + off.toNat) data.length = data ∧
        MemoryOutside [(vapicAt s off.toNat, data.length)] s t) ∧
    (s.vmcs.ctl.apicRegVirt = true → ¬DirectedWrite s off.toNat data.length →
      exec (pageWriteRow off data env) s = .refused .absentWriteSection) ∧
    (s.vmcs.ctl.apicRegVirt = false → ControlApplies s off →
      exec (pageWriteRow off data env) s = .refused .absentWriteSection)

/-- An access that would cause a page fault or an EPT violation causes no APIC-access VM exit and is not virtualized
(R197): for every row of format `PAGE`, and for any access of a string iteration, after plain accesses and virtualized
reads and after whatever other accesses went on, where it ends the iteration with the registers of the iterations before it
and no later access happens (R200). What follows the fault is outside the source (R246): that the guest stays in VMX non-root
operation, without any VM exit, is the model's choice (log 38). So are two kinds of store before it: a plain one to a target's
descriptor (log 36; R77, U4) and one of R192 to the APIC-access page's own memory (log 37; U5). -/
def Obligations.FaultsComeFirst : Prop :=
  (∀ (i : Instr) (s : State) (env : AccessEnv) (off : PageOff) (size : Nat) (data : List Byte), Running s →
    s.vmcs.ctl.virtApicAccesses = true → env.linear = true →
    (i = .pageRead off size env ∨ i = .pageFetch off size env ∨ i = .pageWriteTpr data env ∨
      i = .pageWriteEoi data env ∨ i = .pageWriteIcrLo data env ∨ i = .pageWriteOther off data env) →
    (env.xlat = .pageFault →
      ∃ t, exec i s = .next t ∧ Still s t ∧ t.mem = s.mem ∧ t.loaded = s.loaded ∧ t.ip = s.ip ∧
        t.history = s.history ++ [.pageFault]) ∧
    (env.xlat = .eptViolation →
      ∃ t, exec i s = .next t ∧ Still s t ∧ t.mem = s.mem ∧ t.loaded = s.loaded ∧ t.ip = s.ip ∧
        t.history = s.history ++ [.eptViolation])) ∧
    (∀ (s : State) (it : RepIter) (before : List LinearAccess) (a : LinearAccess) (after : List LinearAccess)
      (e : Event), Running s → it.accs = before ++ a :: after → (∀ b ∈ before, QuietAccess s b) →
      (accessXlat a = .pageFault ∧ e = .pageFault) ∨ (accessXlat a = .eptViolation ∧ e = .eptViolation) →
      ∃ t, exec (.repStringIteration it) s = .next t ∧ Still s t ∧ t.gpr = s.gpr ∧ t.ip = s.ip ∧
        t.mem = before.foldl storeAccess s.mem ∧ t.history = s.history ++ before.map (pagingEvent s) ++ [e] ∧
        SameInterruptStatus s t ∧ SameProcessorState s t) ∧
    (∀ (s u : State) (it : RepIter) (before : List LinearAccess) (a : LinearAccess) (after : List LinearAccess)
      (e : Event), Running s → it.accs = before ++ a :: after → AccessesReach before s u →
      (accessXlat a = .pageFault ∧ e = .pageFault) ∨ (accessXlat a = .eptViolation ∧ e = .eptViolation) →
      ∃ t, exec (.repStringIteration it) s = .next t ∧ Still s t ∧ t.gpr = s.gpr ∧ t.ip = s.ip ∧
        t.mem = u.mem ∧ t.history = u.history ++ [e] ∧ SameInterruptStatus u t ∧ SameProcessorState s t)

/-! ### String instructions -/

/-- An iteration whose accesses are plain or virtualized reads completes: its stores are made in order, a read returns
the bytes of the virtual-APIC page (R204), `RCX`, `RSI` and `RDI` are those after it (supplied by the environment, D1),
and `RIP` refers to the string instruction while iterations remain (R47, R138, R202). A write at a trigger offset after such
accesses does what that trigger says (R128 to R130, R194; sizes log 26); plain accesses after it happen where it raises no VM
exit (R16), and a trap-like exit comes after the iteration. The same holds after whatever accesses went on, and whatever is to
come; and an iteration whose accesses all go on completes. The model's choices: that exit's saved `CS:RIP` and the accesses
dropped (logs 29 and 42), a selection whose control is 0 (log 13), the addresses of ICR_HI and ICR_LO, from bits 63:12 of
`IA32_APIC_BASE` (log 51), and two kinds of store: a plain one to a target's descriptor (log 36; R77, U4) and one of R192 to
the APIC-access page's own memory (log 37; U5). -/
def Obligations.StringIterationCompletes : Prop :=
  ∀ (s : State) (it : RepIter), Running s →
    ((∀ a ∈ it.accs, QuietAccess s a) →
      ∃ t, exec (.repStringIteration it) s = .next t ∧ ReflectsIteration it s t ∧ StandsAfter it s t ∧
        t.mem = it.accs.foldl storeAccess s.mem ∧ t.history = s.history ++ it.accs.map (pagingEvent s) ∧
        SameInterruptStatus s t ∧ SameProcessorState s t ∧ Still s t ∧
        ∀ before pa n after, it.accs = before ++ .read pa n .ok :: after → VirtualizedRead s (.read pa n .ok) →
          (∀ a ∈ after, ∃ pa d x b, a = .write pa d x b) →
          t.loaded = (before.foldl storeAccess s.mem).readBytes (vapicAt s (pageOff pa).toNat) n) ∧
    (∀ before a after off d, it.accs = before ++ a :: after → (∀ b ∈ before, QuietAccess s b) →
      TreatedWrite s off d a → TriggerOn s off d.length → (∀ b ∈ after, PlainAccess s b) →
      (off = 0x300 → Alone s ∧ TableUsable (afterAccesses before (before ++ [a]) s) ∧
        regionsDisjoint (vmcsRegions s.vmcs) = true) →
      ∃ u t, exec (.repStringIteration it) s = .next t ∧
        TriggerRule off (afterAccesses before (before ++ [a]) s) u ∧
        u.mem.readBytes (vapicAt s off.toNat) d.length = d ∧ GoesOn after s u t ∧ ReflectsIteration it s t ∧
        (t.mode = .vmxNonRoot → StandsAfter it s t)) ∧
    (∀ before a after off d u, it.accs = before ++ a :: after → AccessesReach before s u → TreatedWrite s off d a →
      TriggerOn s off d.length →
      (off = 0x300 → Alone u ∧ TableUsable u ∧ regionsDisjoint (vmcsRegions s.vmcs) = true) →
      ∃ w, TriggerRule off { u with history := u.history ++ [pagingEvent s a] } w ∧
        w.mem.readBytes (vapicAt s off.toNat) d.length = d ∧
        (w.mode = .vmxNonRoot → AccessesReach (before ++ [a]) s w ∧ w.wroteVirt = true) ∧
        (w.mode = .vmxRoot → ∃ t, exec (.repStringIteration it) s = .next t ∧ GoesOn after s w t ∧
          ReflectsIteration it s t)) ∧
    (∀ u, AccessesReach it.accs s u →
      ∃ t, exec (.repStringIteration it) s = .next t ∧ ReflectsIteration it s t ∧ StandsAfter it s t ∧ t.mem = u.mem ∧
        t.history = u.history ∧ t.loaded = u.loaded ∧ SameInterruptStatus u t ∧ SameProcessorState s t ∧ Still s t)

/-- An iteration with a read, a fetch or a write of the APIC-access page that is not virtualized, after accesses that are
plain or virtualized reads, causes an APIC-access VM exit: the saved `RIP` refers to the string instruction and the
general registers reflect the iterations before it (R201, R202, R138); no later access of the iteration happens (R200). The
same holds after whatever accesses went on; after a virtualized write no read is virtualized (R203 (d)). A write that
APIC-register virtualization directs causes an APIC-write VM exit after the iteration (R131; the model's choices of logs 27,
29 and 42). The model's choices besides: which sizes no trigger takes and where another control may apply (logs 26 and 28),
the exit of a write that runs past the page's end (log 36; N14), and two kinds of store before the exit: a plain one to a
target's descriptor (log 36; R77, U4) and one of R192 to the APIC-access page's own memory (log 37; U5). -/
def Obligations.StringIterationExits : Prop :=
  ∀ (s : State) (it : RepIter), Running s →
    (∀ before a after off kind, it.accs = before ++ a :: after → (∀ b ∈ before, QuietAccess s b) →
      UnvirtualizedAccess s false off kind a →
      ∃ t, exec (.repStringIteration it) s = .next t ∧ Exited (.apicAccess off kind) s.ip t ∧ t.gpr = s.gpr ∧
        t.mem = before.foldl storeAccess s.mem ∧
        t.history = s.history ++ (before ++ [a]).map (pagingEvent s) ∧ SameInterruptStatus s t ∧
        SameProcessorState s t) ∧
    (∀ before a off d, it.accs = before ++ [a] → (∀ b ∈ before, QuietAccess s b) → TreatedWrite s off d a →
      s.vmcs.ctl.apicRegVirt = true → ¬TriggerOn s off d.length → DirectedWrite s off.toNat d.length →
      ∃ t, exec (.repStringIteration it) s = .next t ∧ Exited (.apicWrite off) s.nextIp t ∧
        ReflectsIteration it s t ∧ t.mem.readBytes (vapicAt s off.toNat) d.length = d ∧
        MemoryOutside [(vapicAt s off.toNat, d.length)] (afterAccesses before it.accs s) t) ∧
    (∀ before u a after, it.accs = before ++ a :: after → AccessesReach before s u →
      (∀ off kind, UnvirtualizedAccess s u.wroteVirt off kind a →
        ∃ t, exec (.repStringIteration it) s = .next t ∧ Exited (.apicAccess off kind) s.ip t ∧ t.gpr = s.gpr ∧
          t.mem = u.mem ∧ t.history = u.history ++ [pagingEvent s a] ∧ SameInterruptStatus u t ∧
          SameProcessorState s t) ∧
      ∀ off d, TreatedWrite s off d a → s.vmcs.ctl.apicRegVirt = true → ¬TriggerOn s off d.length →
        DirectedWrite s off.toNat d.length →
        ∃ t, exec (.repStringIteration it) s = .next t ∧ Exited (.apicWrite off) s.nextIp t ∧
          ReflectsIteration it s t ∧ t.mem.readBytes (vapicAt s off.toNat) d.length = d ∧
          MemoryOutside [(vapicAt s off.toNat, d.length)] u t)

/-! ### Frames of memory -/

/-- The forms that store nothing: every byte of memory reads as before. -/
def Obligations.MemoryKeptByNonStores : Prop :=
  ∀ (i : Instr) (s t : State), exec i s = .next t →
    ((∃ r, i = .movFromCr8 r) ∨ (∃ a b, i = .sti a b) ∨ (∃ b, i = .movSs b) ∨ (∃ b, i = .popSs b) ∨ i = .hlt ∨
      i = .mwait ∨ (∃ o n e, i = .pageRead o n e) ∨ (∃ o n e, i = .pageFetch o n e) ∨
      i = .evaluatePendingVirtualInterrupts) →
    MemoryOutside [] s t

/-- The forms of TPR, PPR, EOI and self-IPI virtualization that no page write triggers store to VTPR, VPPR, VEOI and
to the one field of VISR or VIRR that holds the vector's bit, and nowhere else (R73). -/
def Obligations.MemoryFrameRegisterForms : Prop :=
  ∀ s t : State,
    (∀ r, exec (.movToCr8 r) s = .next t → MemoryOutside [(vapicAt s offTpr, 4), (vapicAt s offPpr, 4)] s t) ∧
    (exec .wrmsrTpr s = .next t → MemoryOutside [(vapicAt s offTpr, 4), (vapicAt s offPpr, 4)] s t) ∧
    (exec .tprVirtualization s = .next t → MemoryOutside [(vapicAt s offPpr, 4)] s t) ∧
    (exec .pprVirtualization s = .next t → MemoryOutside [(vapicAt s offPpr, 4)] s t) ∧
    (exec .wrmsrEoi s = .next t →
      MemoryOutside [(vapicAt s offEoi, 4), (vapicAt s (fieldOff offIsr s.svi), 4), (vapicAt s offPpr, 4)] s t) ∧
    (exec .eoiVirtualization s = .next t →
      MemoryOutside [(vapicAt s (fieldOff offIsr s.svi), 4), (vapicAt s offPpr, 4)] s t) ∧
    (exec .wrmsrSelfIpi s = .next t →
      MemoryOutside [(vapicAt s (fieldOff offIrr (Config.selfIpiVector (edxEax s))), 4)] s t) ∧
    (∀ v, exec (.selfIpiVirtualization v) s = .next t →
      MemoryOutside [(vapicAt s (fieldOff offIrr v), 4)] s t) ∧
    (exec .vmEntry s = .next t → MemoryOutside [(vapicAt s offPpr, 4)] s t)

/-- Delivery stores to the fields of VISR and VIRR that hold the delivered vector's bit and to VPPR only (R175, R73). -/
def Obligations.MemoryFrameDelivery : Prop :=
  ∀ s t : State,
    (exec .virtualInterruptDelivery s = .next t ∨ ∃ h, exec (.instructionBoundary h) s = .next t) →
    MemoryOutside [(vapicAt s (fieldOff offIsr s.rvi), 4), (vapicAt s offPpr, 4),
      (vapicAt s (fieldOff offIrr s.rvi), 4)] s t

/-- IPI virtualization changes the byte of PIR that holds the vector's bit and the byte that holds ON, and no other
byte of the descriptor or of memory (R160, R50); where it exits, nothing (R162). -/
def Obligations.MemoryFrameIpi : Prop :=
  ∀ s t : State, Alone s →
    (∀ v a, exec (.ipiVirtualization v a) s = .next t ∨ exec (.senduipi v a) s = .next t →
      (IpiIllegal v a s → MemoryOutside [] s t) ∧ MemoryOutside (ipiStores v a s) s t) ∧
    (exec .wrmsrIcr s = .next t →
      (IpiIllegal (Config.icrMsrOperands (edxEax s)).1 (Config.icrMsrOperands (edxEax s)).2 s →
        MemoryOutside [] s t) ∧
      MemoryOutside (ipiStores (Config.icrMsrOperands (edxEax s)).1 (Config.icrMsrOperands (edxEax s)).2 s) s t)

/-- Posted-interrupt processing changes PIR, the byte that holds ON, and VIRR, and no other byte: bits 511:257 of
the descriptor in particular (R224, R75, R50); at an external interrupt, after the stores of a delivery. -/
def Obligations.MemoryFramePosted : Prop :=
  ∀ (s t : State) (pv : IntVector) (x : Bool), Alone s →
    (exec (.postedInterruptProcessing pv x) s = .next t →
      MemoryOutside ((s.vmcs.piDescAddr.toNat, 33) ::
        (List.range 8).map fun k => (vapicAt s (offIrr + 16 * k), 4)) s t) ∧
    (exec (.externalInterrupt pv x) s = .next t →
      MemoryOutside ((s.vmcs.piDescAddr.toNat, 33) :: (vapicAt s (fieldOff offIsr s.rvi), 4) :: (vapicAt s offPpr, 4) ::
        (List.range 8).map fun k => (vapicAt s (offIrr + 16 * k), 4)) s t)

/-- Where a write to the APIC-access page stores: at the same offset of the virtual-APIC page (R194), with the fields
that the virtualization it triggers writes; a write that R192 lets the processor treat as untreated stores to the
APIC-access page's own memory (log 37). -/
def Obligations.MemoryFramePageWrites : Prop :=
  ∀ (s t : State) (data : List Byte) (env : AccessEnv),
    (env.subPage = true → ∀ off : PageOff,
      (exec (.pageWriteOther off data env) s = .next t ∨
        (off = 0x080 ∧ exec (.pageWriteTpr data env) s = .next t) ∨
        (off = 0x0B0 ∧ exec (.pageWriteEoi data env) s = .next t) ∨
        (off = 0x300 ∧ exec (.pageWriteIcrLo data env) s = .next t)) →
      MemoryOutside [((s.vmcs.apicAccessAddr.extractLsb' 12 52 ++ off).toNat, data.length)] s t) ∧
    (env.subPage = false →
      (exec (.pageWriteTpr data env) s = .next t →
        MemoryOutside [(vapicAt s offTpr, data.length), (vapicAt s offPpr, 4)] s t) ∧
      (exec (.pageWriteEoi data env) s = .next t →
        MemoryOutside [(vapicAt s offEoi, data.length), (vapicAt s (fieldOff offIsr s.svi), 4),
          (vapicAt s offPpr, 4)] s t) ∧
      (∀ off : PageOff, exec (.pageWriteOther off data env) s = .next t →
        MemoryOutside [(vapicAt s off.toNat, data.length)] s t) ∧
      (Alone s → regionsDisjoint (vmcsRegions s.vmcs) = true → exec (.pageWriteIcrLo data env) s = .next t →
        MemoryOutside ((vapicAt s offIcrLo, data.length) ::
          (match Config.icrPageDispatch (vicrLo t) (vicrHi s) s.vmcs.ctl with
            | .selfIpi v => [(vapicAt s (fieldOff offIrr v), 4)]
            | .ipi v a => ipiStores v a s
            | .exit => [])) s t))

/-- A string iteration without a treated write to the APIC-access page stores only where its writes go; one that ends in
such a write stores there and where that write does: at the same offset of the virtual-APIC page (R194) and in the
fields that the virtualization it triggers writes. That a plain write to a target's descriptor and one of R192 to the
APIC-access page's own memory are among its writes is the model's choice (logs 36 and 37). -/
def Obligations.MemoryFrameStringIteration : Prop :=
  ∀ (s t : State) (it : RepIter), exec (.repStringIteration it) s = .next t →
    ((∀ a ∈ it.accs, ¬WritesPage s a) → MemoryOutside (storesOf it.accs) s t) ∧
    (∀ before pa d x, it.accs = before ++ [.write pa d x false] → (∀ a ∈ before, ¬WritesPage s a) →
      WritesPage s (.write pa d x false) →
      (pageOff pa = 0x300 → Alone s ∧ regionsDisjoint (vmcsRegions s.vmcs) = true) →
      MemoryOutside (storesOf before ++ pageStores (pageOff pa) d.length (afterAccesses before it.accs s) t) s t)
end

