-- ==== Sys2Proof/Laws/Memory.lean ====
section
/-! SUPPORT. The laws of memory: what a read gives after a write, and that every write keeps the canonical form. -/

namespace Sys2Proof.Machine

/-! ### One byte -/

theorem Memory.read_erase (m : Memory) (a x : Nat) :
    (m.erase a).read x = if x = a then unlistedByte else m.read x := by
  induction m with
  | nil => simp [Memory.erase, Memory.read]
  | cons c m ih =>
    obtain ⟨k, b⟩ := c
    simp only [Memory.erase, List.filter_cons] at ih ⊢
    by_cases hk : k = a
    · subst hk
      simp only [ne_eq, not_true_eq_false, decide_false, Bool.false_eq_true, if_false, ih, Memory.read]
      by_cases hx : x = k
      · simp [hx]
      · simp [hx, Ne.symm hx]
    · simp only [ne_eq, hk, not_false_eq_true, decide_true, if_true, Memory.read, ih]
      by_cases hx : x = a
      · simp [hx, hk]
      · simp [hx]

theorem Memory.read_insert (m : Memory) (a x : Nat) (v : Byte) :
    (m.insert a v).read x = if x = a then v else m.read x := by
  induction m with
  | nil => by_cases hx : x = a <;> simp [Memory.insert, Memory.read, hx, @eq_comm _ a x]
  | cons c m ih =>
    obtain ⟨k, b⟩ := c
    simp only [Memory.insert]
    split
    · by_cases hx : x = a <;> simp [Memory.read, hx, @eq_comm _ a x]
    · split
      · next h => subst h; by_cases hx : x = a <;> simp [Memory.read, hx, @eq_comm _ a x]
      · next h =>
        simp only [Memory.read, ih]
        by_cases hx : x = a
        · simp [hx, Ne.symm h]
        · simp [hx]

/-- Reading one byte after writing one byte. -/
theorem Memory.read_write (m : Memory) (a x : Nat) (v : Byte) :
    (m.write a v).read x = if x = a then v else m.read x := by
  unfold Memory.write
  split
  · next h => rw [Memory.read_erase, h]
  · exact Memory.read_insert m a x v

@[simp] theorem Memory.read_write_same (m : Memory) (a : Nat) (v : Byte) : (m.write a v).read a = v := by
  simp [Memory.read_write]

theorem Memory.read_write_other (m : Memory) {a x : Nat} (v : Byte) (h : x ≠ a) :
    (m.write a v).read x = m.read x := by simp [Memory.read_write, h]

/-! ### The canonical form -/

theorem Memory.wfFrom_mono {lo hi : Nat} {m : Memory} (h : Memory.wfFrom hi m = true) (hl : lo ≤ hi) :
    Memory.wfFrom lo m = true := by
  cases m with
  | nil => rfl
  | cons c m =>
    obtain ⟨k, b⟩ := c
    simp only [Memory.wfFrom, Bool.and_eq_true, decide_eq_true_eq] at h ⊢
    exact ⟨⟨by omega, h.1.2⟩, h.2⟩

theorem Memory.wfFrom_erase {lo : Nat} {m : Memory} (a : Nat) (h : Memory.wfFrom lo m = true) :
    Memory.wfFrom lo (m.erase a) = true := by
  induction m generalizing lo with
  | nil => rfl
  | cons c m ih =>
    obtain ⟨k, b⟩ := c
    simp only [Memory.wfFrom, Bool.and_eq_true, decide_eq_true_eq] at h
    have ht := ih h.2
    simp only [Memory.erase, List.filter_cons] at ht ⊢
    split
    · simp only [Memory.wfFrom, Bool.and_eq_true, decide_eq_true_eq]
      exact ⟨h.1, ht⟩
    · exact Memory.wfFrom_mono ht (by omega)

theorem Memory.wfFrom_insert {lo a : Nat} {m : Memory} {v : Byte} (hv : v ≠ unlistedByte) (ha : lo ≤ a)
    (h : Memory.wfFrom lo m = true) : Memory.wfFrom lo (m.insert a v) = true := by
  induction m generalizing lo with
  | nil => simp [Memory.insert, Memory.wfFrom, hv, ha]
  | cons c m ih =>
    obtain ⟨k, b⟩ := c
    simp only [Memory.wfFrom, Bool.and_eq_true, decide_eq_true_eq] at h
    simp only [Memory.insert]
    split
    · simp only [Memory.wfFrom, Bool.and_eq_true, decide_eq_true_eq]
      exact ⟨⟨ha, hv⟩, ⟨by omega, h.1.2⟩, h.2⟩
    · split
      · next hk =>
        subst hk
        simp only [Memory.wfFrom, Bool.and_eq_true, decide_eq_true_eq]
        exact ⟨⟨ha, hv⟩, h.2⟩
      · simp only [Memory.wfFrom, Bool.and_eq_true, decide_eq_true_eq]
        exact ⟨h.1, ih (by omega) h.2⟩

/-- A write keeps the canonical form. -/
theorem Memory.wf_write {m : Memory} (a : Nat) (v : Byte) (h : m.wf = true) : (m.write a v).wf = true := by
  unfold Memory.write
  split
  · exact Memory.wfFrom_erase a h
  · next hv => exact Memory.wfFrom_insert hv (Nat.zero_le a) h

/-- Two memories in canonical form that read alike are the same data. -/
theorem Memory.wfFrom_read_below {lo : Nat} {m : Memory} (h : Memory.wfFrom lo m = true) {a : Nat} (ha : a < lo) :
    m.read a = unlistedByte := by
  induction m generalizing lo with
  | nil => rfl
  | cons c m ih =>
    obtain ⟨k, b⟩ := c
    simp only [Memory.wfFrom, Bool.and_eq_true, decide_eq_true_eq] at h
    have : k ≠ a := by omega
    simp only [Memory.read, this, if_false]
    exact ih h.2 (by omega)

theorem Memory.ext_wfFrom {lo : Nat} {m n : Memory} (hm : Memory.wfFrom lo m = true)
    (hn : Memory.wfFrom lo n = true) (h : ∀ a, m.read a = n.read a) : m = n := by
  induction m generalizing lo n with
  | nil =>
    cases n with
    | nil => rfl
    | cons c n =>
      obtain ⟨k, b⟩ := c
      simp only [Memory.wfFrom, Bool.and_eq_true, decide_eq_true_eq] at hn
      have := h k
      simp only [Memory.read, if_true] at this
      exact absurd this.symm hn.1.2
  | cons c m ih =>
    obtain ⟨k, b⟩ := c
    simp only [Memory.wfFrom, Bool.and_eq_true, decide_eq_true_eq] at hm
    cases n with
    | nil =>
      have := h k
      simp only [Memory.read, if_true] at this
      exact absurd this hm.1.2
    | cons d n =>
      obtain ⟨j, e⟩ := d
      simp only [Memory.wfFrom, Bool.and_eq_true, decide_eq_true_eq] at hn
      have hkj : k = j := by
        rcases Nat.lt_trichotomy k j with hlt | heq | hgt
        · have h1 := h k
          have h2 : Memory.read n k = unlistedByte := Memory.wfFrom_read_below hn.2 (by omega)
          simp only [Memory.read, if_true, if_neg (Nat.ne_of_gt hlt), h2] at h1
          exact absurd h1 hm.1.2
        · exact heq
        · have h1 := h j
          have h2 : Memory.read m j = unlistedByte := Memory.wfFrom_read_below hm.2 (by omega)
          simp only [Memory.read, if_true, if_neg (Nat.ne_of_gt hgt), h2] at h1
          exact absurd h1.symm hn.1.2
      subst hkj
      have hb : b = e := by simpa [Memory.read] using h k
      subst hb
      have : m = n := by
        refine ih hm.2 hn.2 fun a => ?_
        by_cases ha : k = a
        · subst ha
          rw [Memory.wfFrom_read_below hm.2 (by omega), Memory.wfFrom_read_below hn.2 (by omega)]
        · simpa [Memory.read, ha] using h a
      rw [this]

/-! ### Several bytes -/

@[simp] theorem Memory.length_readBytes (m : Memory) (a n : Nat) : (m.readBytes a n).length = n := by
  induction n generalizing a with
  | zero => rfl
  | succ n ih => simp [Memory.readBytes, ih]

@[simp] theorem length_leBytes (n v : Nat) : (leBytes n v).length = n := by
  induction n generalizing v with
  | zero => rfl
  | succ n ih => simp [leBytes, ih]

theorem Memory.wf_writeBytes {m : Memory} (a : Nat) (bs : List Byte) (h : m.wf = true) :
    (m.writeBytes a bs).wf = true := by
  induction bs generalizing m a with
  | nil => exact h
  | cons b bs ih => exact ih (a + 1) (Memory.wf_write a b h)

theorem Memory.wf_writeLe {m : Memory} (a n v : Nat) (h : m.wf = true) : (m.writeLe a n v).wf = true :=
  Memory.wf_writeBytes a _ h

/-- A byte outside the stored bytes reads as before. -/
theorem Memory.read_writeBytes_outside (m : Memory) (a x : Nat) (bs : List Byte)
    (h : x < a ∨ a + bs.length ≤ x) : (m.writeBytes a bs).read x = m.read x := by
  induction bs generalizing m a with
  | nil => rfl
  | cons b bs ih =>
    simp only [List.length_cons] at h
    rw [Memory.writeBytes, ih (m.write a b) (a + 1) (by omega), Memory.read_write_other m b (by omega)]

theorem Memory.read_writeLe_outside (m : Memory) (a n v x : Nat) (h : x < a ∨ a + n ≤ x) :
    (m.writeLe a n v).read x = m.read x :=
  Memory.read_writeBytes_outside m a x _ (by simpa using h)

/-- The stored bytes read back. -/
theorem Memory.readBytes_congr {m n : Memory} {a k : Nat} (h : ∀ x, a ≤ x → x < a + k → m.read x = n.read x) :
    m.readBytes a k = n.readBytes a k := by
  induction k generalizing a with
  | zero => rfl
  | succ k ih =>
    simp only [Memory.readBytes]
    rw [h a (by omega) (by omega), ih fun x h1 h2 => h x (by omega) (by omega)]

theorem Memory.readBytes_writeBytes_same (m : Memory) (a : Nat) (bs : List Byte) :
    (m.writeBytes a bs).readBytes a bs.length = bs := by
  induction bs generalizing m a with
  | nil => rfl
  | cons b bs ih =>
    simp only [List.length_cons, Memory.readBytes, Memory.writeBytes]
    rw [ih, Memory.read_writeBytes_outside _ _ _ _ (by omega), Memory.read_write_same]

theorem Memory.readBytes_writeBytes_disjoint (m : Memory) (a x k : Nat) (bs : List Byte)
    (h : x + k ≤ a ∨ a + bs.length ≤ x) : (m.writeBytes a bs).readBytes x k = m.readBytes x k :=
  Memory.readBytes_congr fun y h1 h2 => Memory.read_writeBytes_outside m a y bs (by omega)

/-! ### Little-endian values (R71) -/

theorem leNat_leBytes (n v : Nat) : leNat (leBytes n v) = v % 256 ^ n := by
  induction n generalizing v with
  | zero => simp [leBytes, leNat, Nat.mod_one]
  | succ n ih =>
    simp only [leBytes, leNat, ih, BitVec.toNat_ofNat, Nat.pow_succ 256 n, Nat.mul_comm (256 ^ n) 256]
    rw [Nat.mod_mul]

theorem leNat_lt (bs : List Byte) : leNat bs < 256 ^ bs.length := by
  induction bs with
  | nil => simp [leNat]
  | cons b bs ih =>
    simp only [leNat, List.length_cons, Nat.pow_succ]
    have := b.isLt
    omega

/-- `MemRead` after `MemWrite` of the same bytes. -/
theorem Memory.readLe_writeLe_same (m : Memory) (a n v : Nat) : (m.writeLe a n v).readLe a n = v % 256 ^ n := by
  have h := Memory.readBytes_writeBytes_same m a (leBytes n v)
  rw [length_leBytes] at h
  rw [Memory.readLe, Memory.writeLe, h, leNat_leBytes]

theorem Memory.readLe_writeLe_disjoint (m : Memory) (a n v x k : Nat) (h : x + k ≤ a ∨ a + n ≤ x) :
    (m.writeLe a n v).readLe x k = m.readLe x k := by
  rw [Memory.readLe, Memory.writeLe, Memory.readBytes_writeBytes_disjoint _ _ _ _ _ (by simpa using h), Memory.readLe]

theorem Memory.readLe_congr {m n : Memory} {a k : Nat} (h : ∀ x, a ≤ x → x < a + k → m.read x = n.read x) :
    m.readLe a k = n.readLe a k := by rw [Memory.readLe, Memory.readLe, Memory.readBytes_congr h]

@[simp] theorem Memory.read32_write_same (m : Memory) (a : Nat) (v : BitVec 32) :
    (m.writeLe a 4 v.toNat).read32 a = v := by
  have h : v.toNat < 256 ^ 4 := v.isLt
  rw [Memory.read32, Memory.readLe_writeLe_same, Nat.mod_eq_of_lt h, BitVec.ofNat_toNat, BitVec.setWidth_eq]

@[simp] theorem Memory.read64_write_same (m : Memory) (a : Nat) (v : BitVec 64) :
    (m.writeLe a 8 v.toNat).read64 a = v := by
  have h : v.toNat < 256 ^ 8 := v.isLt
  rw [Memory.read64, Memory.readLe_writeLe_same, Nat.mod_eq_of_lt h, BitVec.ofNat_toNat, BitVec.setWidth_eq]

@[simp] theorem Memory.read256_write_same (m : Memory) (a : Nat) (v : BitVec 256) :
    (m.writeLe a 32 v.toNat).read256 a = v := by
  have h : v.toNat < 256 ^ 32 := v.isLt
  rw [Memory.read256, Memory.readLe_writeLe_same, Nat.mod_eq_of_lt h, BitVec.ofNat_toNat, BitVec.setWidth_eq]

theorem Memory.read32_writeLe_disjoint (m : Memory) (a n v x : Nat) (h : x + 4 ≤ a ∨ a + n ≤ x) :
    (m.writeLe a n v).read32 x = m.read32 x := by
  rw [Memory.read32, Memory.readLe_writeLe_disjoint m a n v x 4 h, Memory.read32]

theorem Memory.read64_writeLe_disjoint (m : Memory) (a n v x : Nat) (h : x + 8 ≤ a ∨ a + n ≤ x) :
    (m.writeLe a n v).read64 x = m.read64 x := by
  rw [Memory.read64, Memory.readLe_writeLe_disjoint m a n v x 8 h, Memory.read64]

theorem Memory.read256_writeLe_disjoint (m : Memory) (a n v x : Nat) (h : x + 32 ≤ a ∨ a + n ≤ x) :
    (m.writeLe a n v).read256 x = m.read256 x := by
  rw [Memory.read256, Memory.readLe_writeLe_disjoint m a n v x 32 h, Memory.read256]

end Sys2Proof.Machine
end

