-- ==== Sys2Proof/Laws/Bytes.lean ====
section
/-! SUPPORT. The bits and bytes of little-endian values in memory (`20_memory.md` R71). -/

namespace Sys2Proof.Machine

/-- Bit `i` of the value at `a` is bit `i mod 8` of the byte at `a + i / 8` (R71). -/
theorem Memory.testBit_readLe (m : Memory) (a n i : Nat) :
    (m.readLe a n).testBit i = (decide (i < 8 * n) && (m.read (a + i / 8)).getLsbD (i % 8)) := by
  induction n generalizing a i with
  | zero => simp [Memory.readLe, Memory.readBytes, leNat]
  | succ n ih =>
    have h256 : (m.read a).toNat < 2 ^ 8 := (m.read a).isLt
    have hs : m.readLe a (n + 1) = 2 ^ 8 * m.readLe (a + 1) n + (m.read a).toNat := by
      simp only [Memory.readLe, Memory.readBytes, leNat]; omega
    rw [hs, Nat.testBit_two_pow_mul_add _ h256]
    split
    · next hi =>
      have h0 : i / 8 = 0 := by omega
      have h1 : i % 8 = i := by omega
      simp only [h0, h1, Nat.add_zero, BitVec.getLsbD]
      simp [show i < 8 * (n + 1) by omega]
    · next hi =>
      rw [ih]
      have h0 : a + 1 + (i - 8) / 8 = a + i / 8 := by omega
      have h1 : (i - 8) % 8 = i % 8 := by omega
      rw [h0, h1]
      congr 1
      exact decide_eq_decide.2 (by omega)

theorem Memory.getLsbD_read32 (m : Memory) (a i : Nat) (h : i < 32) :
    (m.read32 a).getLsbD i = (m.read (a + i / 8)).getLsbD (i % 8) := by
  rw [Memory.read32, BitVec.getLsbD_ofNat, Memory.testBit_readLe]
  simp [h]

theorem Memory.getLsbD_read64 (m : Memory) (a i : Nat) (h : i < 64) :
    (m.read64 a).getLsbD i = (m.read (a + i / 8)).getLsbD (i % 8) := by
  rw [Memory.read64, BitVec.getLsbD_ofNat, Memory.testBit_readLe]
  simp [h]

theorem Memory.getLsbD_read256 (m : Memory) (a i : Nat) (h : i < 256) :
    (m.read256 a).getLsbD i = (m.read (a + i / 8)).getLsbD (i % 8) := by
  rw [Memory.read256, BitVec.getLsbD_ofNat, Memory.testBit_readLe]
  simp [h]

/-- The bytes of a 64-bit field. -/
theorem Memory.byte_read64 (m : Memory) (a k : Nat) (h : k < 8) :
    (m.read64 a).extractLsb' (8 * k) 8 = m.read (a + k) := by
  apply BitVec.eq_of_getLsbD_eq
  intro i hi
  rw [BitVec.getLsbD_extractLsb', Memory.getLsbD_read64 _ _ _ (by omega)]
  have h0 : (8 * k + i) / 8 = k := by omega
  have h1 : (8 * k + i) % 8 = i := by omega
  simp [h0, h1, hi]

/-- A stored byte, by its place. -/
theorem Memory.read_writeLe_inside (m : Memory) (a n v k : Nat) (h : k < n) :
    (m.writeLe a n v).read (a + k) = BitVec.ofNat 8 (v / 256 ^ k) := by
  induction n generalizing m a v k with
  | zero => omega
  | succ n ih =>
    have hw : m.writeLe a (n + 1) v = (m.write a (BitVec.ofNat 8 v)).writeLe (a + 1) n (v / 256) := rfl
    cases k with
    | zero =>
      rw [hw, Nat.add_zero, Memory.read_writeLe_outside _ _ _ _ _ (.inl (by omega))]
      simp
    | succ k =>
      rw [hw, show a + (k + 1) = a + 1 + k by omega, ih _ _ _ _ (by omega), Nat.div_div_eq_div_mul,
        Nat.pow_succ, Nat.mul_comm]

theorem Memory.getLsbD_read_writeLe (m : Memory) (a n v k i : Nat) (h : k < n) (hi : i < 8) :
    ((m.writeLe a n v).read (a + k)).getLsbD i = v.testBit (8 * k + i) := by
  rw [Memory.read_writeLe_inside m a n v k h, BitVec.getLsbD_ofNat]
  have : v / 256 ^ k = v >>> (8 * k) := by
    rw [Nat.shiftRight_eq_div_pow, Nat.pow_mul]
  rw [this, Nat.testBit_shiftRight]
  simp [hi]

/-- Storing a value that agrees with the one in memory in the bits of a byte leaves that byte alone. -/
theorem Memory.read_writeLe_agree {m : Memory} {a n v k : Nat} (h : k < n)
    (hv : ∀ i, i < 8 → v.testBit (8 * k + i) = (m.readLe a n).testBit (8 * k + i)) :
    (m.writeLe a n v).read (a + k) = m.read (a + k) := by
  apply BitVec.eq_of_getLsbD_eq
  intro i hi
  rw [Memory.getLsbD_read_writeLe _ _ _ _ _ _ h hi, hv i hi, Memory.testBit_readLe]
  have h0 : (8 * k + i) / 8 = k := by omega
  have h1 : (8 * k + i) % 8 = i := by omega
  simp [h0, h1, show 8 * k + i < 8 * n by omega]

theorem Memory.toNat_read32 (m : Memory) (a : Nat) : (m.read32 a).toNat = m.readLe a 4 := by
  have := leNat_lt (m.readBytes a 4)
  rw [Memory.length_readBytes] at this
  rw [Memory.read32, BitVec.toNat_ofNat]
  exact Nat.mod_eq_of_lt this

theorem Memory.toNat_read64 (m : Memory) (a : Nat) : (m.read64 a).toNat = m.readLe a 8 := by
  have := leNat_lt (m.readBytes a 8)
  rw [Memory.length_readBytes] at this
  rw [Memory.read64, BitVec.toNat_ofNat]
  exact Nat.mod_eq_of_lt this

theorem Memory.toNat_read256 (m : Memory) (a : Nat) : (m.read256 a).toNat = m.readLe a 32 := by
  have := leNat_lt (m.readBytes a 32)
  rw [Memory.length_readBytes] at this
  rw [Memory.read256, BitVec.toNat_ofNat]
  exact Nat.mod_eq_of_lt this

/-- A 64-bit field after its lowest byte is written. -/
theorem Memory.getLsbD_read64_write (m : Memory) (a i : Nat) (b : Byte) (h : i < 64) :
    ((m.write a b).read64 a).getLsbD i = if i < 8 then b.getLsbD i else (m.read64 a).getLsbD i := by
  rw [Memory.getLsbD_read64 _ _ _ h, Memory.getLsbD_read64 _ _ _ h, Memory.read_write]
  by_cases hi : i < 8
  · have h0 : i / 8 = 0 := by omega
    have h1 : i % 8 = i := by omega
    simp [h0, h1, hi]
  · rw [if_neg (by omega), if_neg hi]

end Sys2Proof.Machine
end

