-- ==== Sys2Proof/Laws/State.lean ====
section
/-! SUPPORT. One lemma per field of State per shared update, true by rfl, so that no proof unfolds a record
update. -/

namespace Sys2Proof.Machine

/-! ### setReg -/

@[simp] theorem setReg_mode (r : Reg) (v : BitVec 64) (s : State) : (setReg r v s).mode = s.mode := rfl
@[simp] theorem setReg_gpr (r : Reg) (v : BitVec 64) (s : State) : (setReg r v s).gpr = s.gpr.set r v := rfl
@[simp] theorem setReg_ip (r : Reg) (v : BitVec 64) (s : State) : (setReg r v s).ip = s.ip := rfl
@[simp] theorem setReg_nextIp (r : Reg) (v : BitVec 64) (s : State) : (setReg r v s).nextIp = s.nextIp := rfl
@[simp] theorem setReg_rflagsIf (r : Reg) (v : BitVec 64) (s : State) : (setReg r v s).rflagsIf = s.rflagsIf := rfl
@[simp] theorem setReg_rflagsRf (r : Reg) (v : BitVec 64) (s : State) : (setReg r v s).rflagsRf = s.rflagsRf := rfl
@[simp] theorem setReg_blockingBySti (r : Reg) (v : BitVec 64) (s : State) : (setReg r v s).blockingBySti = s.blockingBySti := rfl
@[simp] theorem setReg_blockingByMovSs (r : Reg) (v : BitVec 64) (s : State) : (setReg r v s).blockingByMovSs = s.blockingByMovSs := rfl
@[simp] theorem setReg_activity (r : Reg) (v : BitVec 64) (s : State) : (setReg r v s).activity = s.activity := rfl
@[simp] theorem setReg_cr0Pg (r : Reg) (v : BitVec 64) (s : State) : (setReg r v s).cr0Pg = s.cr0Pg := rfl
@[simp] theorem setReg_cr4Uintr (r : Reg) (v : BitVec 64) (s : State) : (setReg r v s).cr4Uintr = s.cr4Uintr := rfl
@[simp] theorem setReg_cr8 (r : Reg) (v : BitVec 64) (s : State) : (setReg r v s).cr8 = s.cr8 := rfl
@[simp] theorem setReg_eferLma (r : Reg) (v : BitVec 64) (s : State) : (setReg r v s).eferLma = s.eferLma := rfl
@[simp] theorem setReg_apicBase (r : Reg) (v : BitVec 64) (s : State) : (setReg r v s).apicBase = s.apicBase := rfl
@[simp] theorem setReg_vmxBasic (r : Reg) (v : BitVec 64) (s : State) : (setReg r v s).vmxBasic = s.vmxBasic := rfl
@[simp] theorem setReg_transactional (r : Reg) (v : BitVec 64) (s : State) : (setReg r v s).transactional = s.transactional := rfl
@[simp] theorem setReg_enclave (r : Reg) (v : BitVec 64) (s : State) : (setReg r v s).enclave = s.enclave := rfl
@[simp] theorem setReg_rvi (r : Reg) (v : BitVec 64) (s : State) : (setReg r v s).rvi = s.rvi := rfl
@[simp] theorem setReg_svi (r : Reg) (v : BitVec 64) (s : State) : (setReg r v s).svi = s.svi := rfl
@[simp] theorem setReg_pending (r : Reg) (v : BitVec 64) (s : State) : (setReg r v s).pending = s.pending := rfl
@[simp] theorem setReg_wroteVirt (r : Reg) (v : BitVec 64) (s : State) : (setReg r v s).wroteVirt = s.wroteVirt := rfl
@[simp] theorem setReg_midRep (r : Reg) (v : BitVec 64) (s : State) : (setReg r v s).midRep = s.midRep := rfl
@[simp] theorem setReg_userNotified (r : Reg) (v : BitVec 64) (s : State) : (setReg r v s).userNotified = s.userNotified := rfl
@[simp] theorem setReg_loaded (r : Reg) (v : BitVec 64) (s : State) : (setReg r v s).loaded = s.loaded := rfl
@[simp] theorem setReg_lastExit (r : Reg) (v : BitVec 64) (s : State) : (setReg r v s).lastExit = s.lastExit := rfl
@[simp] theorem setReg_vmcs (r : Reg) (v : BitVec 64) (s : State) : (setReg r v s).vmcs = s.vmcs := rfl
@[simp] theorem setReg_params (r : Reg) (v : BitVec 64) (s : State) : (setReg r v s).params = s.params := rfl
@[simp] theorem setReg_mem (r : Reg) (v : BitVec 64) (s : State) : (setReg r v s).mem = s.mem := rfl
@[simp] theorem setReg_history (r : Reg) (v : BitVec 64) (s : State) : (setReg r v s).history = s.history := rfl
@[simp] theorem setReg_agents (r : Reg) (v : BitVec 64) (s : State) : (setReg r v s).agents = s.agents := rfl
@[simp] theorem setReg_inputs (r : Reg) (v : BitVec 64) (s : State) : (setReg r v s).inputs = s.inputs := rfl

/-! ### setRvi -/

@[simp] theorem setRvi_mode (v : IntVector) (s : State) : (setRvi v s).mode = s.mode := rfl
@[simp] theorem setRvi_gpr (v : IntVector) (s : State) : (setRvi v s).gpr = s.gpr := rfl
@[simp] theorem setRvi_ip (v : IntVector) (s : State) : (setRvi v s).ip = s.ip := rfl
@[simp] theorem setRvi_nextIp (v : IntVector) (s : State) : (setRvi v s).nextIp = s.nextIp := rfl
@[simp] theorem setRvi_rflagsIf (v : IntVector) (s : State) : (setRvi v s).rflagsIf = s.rflagsIf := rfl
@[simp] theorem setRvi_rflagsRf (v : IntVector) (s : State) : (setRvi v s).rflagsRf = s.rflagsRf := rfl
@[simp] theorem setRvi_blockingBySti (v : IntVector) (s : State) : (setRvi v s).blockingBySti = s.blockingBySti := rfl
@[simp] theorem setRvi_blockingByMovSs (v : IntVector) (s : State) : (setRvi v s).blockingByMovSs = s.blockingByMovSs := rfl
@[simp] theorem setRvi_activity (v : IntVector) (s : State) : (setRvi v s).activity = s.activity := rfl
@[simp] theorem setRvi_cr0Pg (v : IntVector) (s : State) : (setRvi v s).cr0Pg = s.cr0Pg := rfl
@[simp] theorem setRvi_cr4Uintr (v : IntVector) (s : State) : (setRvi v s).cr4Uintr = s.cr4Uintr := rfl
@[simp] theorem setRvi_cr8 (v : IntVector) (s : State) : (setRvi v s).cr8 = s.cr8 := rfl
@[simp] theorem setRvi_eferLma (v : IntVector) (s : State) : (setRvi v s).eferLma = s.eferLma := rfl
@[simp] theorem setRvi_apicBase (v : IntVector) (s : State) : (setRvi v s).apicBase = s.apicBase := rfl
@[simp] theorem setRvi_vmxBasic (v : IntVector) (s : State) : (setRvi v s).vmxBasic = s.vmxBasic := rfl
@[simp] theorem setRvi_transactional (v : IntVector) (s : State) : (setRvi v s).transactional = s.transactional := rfl
@[simp] theorem setRvi_enclave (v : IntVector) (s : State) : (setRvi v s).enclave = s.enclave := rfl
@[simp] theorem setRvi_rvi (v : IntVector) (s : State) : (setRvi v s).rvi = v := rfl
@[simp] theorem setRvi_svi (v : IntVector) (s : State) : (setRvi v s).svi = s.svi := rfl
@[simp] theorem setRvi_pending (v : IntVector) (s : State) : (setRvi v s).pending = s.pending := rfl
@[simp] theorem setRvi_wroteVirt (v : IntVector) (s : State) : (setRvi v s).wroteVirt = s.wroteVirt := rfl
@[simp] theorem setRvi_midRep (v : IntVector) (s : State) : (setRvi v s).midRep = s.midRep := rfl
@[simp] theorem setRvi_userNotified (v : IntVector) (s : State) : (setRvi v s).userNotified = s.userNotified := rfl
@[simp] theorem setRvi_loaded (v : IntVector) (s : State) : (setRvi v s).loaded = s.loaded := rfl
@[simp] theorem setRvi_lastExit (v : IntVector) (s : State) : (setRvi v s).lastExit = s.lastExit := rfl
@[simp] theorem setRvi_vmcs (v : IntVector) (s : State) : (setRvi v s).vmcs = s.vmcs := rfl
@[simp] theorem setRvi_params (v : IntVector) (s : State) : (setRvi v s).params = s.params := rfl
@[simp] theorem setRvi_mem (v : IntVector) (s : State) : (setRvi v s).mem = s.mem := rfl
@[simp] theorem setRvi_history (v : IntVector) (s : State) : (setRvi v s).history = s.history := rfl
@[simp] theorem setRvi_agents (v : IntVector) (s : State) : (setRvi v s).agents = s.agents := rfl
@[simp] theorem setRvi_inputs (v : IntVector) (s : State) : (setRvi v s).inputs = s.inputs := rfl

/-! ### setSvi -/

@[simp] theorem setSvi_mode (v : IntVector) (s : State) : (setSvi v s).mode = s.mode := rfl
@[simp] theorem setSvi_gpr (v : IntVector) (s : State) : (setSvi v s).gpr = s.gpr := rfl
@[simp] theorem setSvi_ip (v : IntVector) (s : State) : (setSvi v s).ip = s.ip := rfl
@[simp] theorem setSvi_nextIp (v : IntVector) (s : State) : (setSvi v s).nextIp = s.nextIp := rfl
@[simp] theorem setSvi_rflagsIf (v : IntVector) (s : State) : (setSvi v s).rflagsIf = s.rflagsIf := rfl
@[simp] theorem setSvi_rflagsRf (v : IntVector) (s : State) : (setSvi v s).rflagsRf = s.rflagsRf := rfl
@[simp] theorem setSvi_blockingBySti (v : IntVector) (s : State) : (setSvi v s).blockingBySti = s.blockingBySti := rfl
@[simp] theorem setSvi_blockingByMovSs (v : IntVector) (s : State) : (setSvi v s).blockingByMovSs = s.blockingByMovSs := rfl
@[simp] theorem setSvi_activity (v : IntVector) (s : State) : (setSvi v s).activity = s.activity := rfl
@[simp] theorem setSvi_cr0Pg (v : IntVector) (s : State) : (setSvi v s).cr0Pg = s.cr0Pg := rfl
@[simp] theorem setSvi_cr4Uintr (v : IntVector) (s : State) : (setSvi v s).cr4Uintr = s.cr4Uintr := rfl
@[simp] theorem setSvi_cr8 (v : IntVector) (s : State) : (setSvi v s).cr8 = s.cr8 := rfl
@[simp] theorem setSvi_eferLma (v : IntVector) (s : State) : (setSvi v s).eferLma = s.eferLma := rfl
@[simp] theorem setSvi_apicBase (v : IntVector) (s : State) : (setSvi v s).apicBase = s.apicBase := rfl
@[simp] theorem setSvi_vmxBasic (v : IntVector) (s : State) : (setSvi v s).vmxBasic = s.vmxBasic := rfl
@[simp] theorem setSvi_transactional (v : IntVector) (s : State) : (setSvi v s).transactional = s.transactional := rfl
@[simp] theorem setSvi_enclave (v : IntVector) (s : State) : (setSvi v s).enclave = s.enclave := rfl
@[simp] theorem setSvi_rvi (v : IntVector) (s : State) : (setSvi v s).rvi = s.rvi := rfl
@[simp] theorem setSvi_svi (v : IntVector) (s : State) : (setSvi v s).svi = v := rfl
@[simp] theorem setSvi_pending (v : IntVector) (s : State) : (setSvi v s).pending = s.pending := rfl
@[simp] theorem setSvi_wroteVirt (v : IntVector) (s : State) : (setSvi v s).wroteVirt = s.wroteVirt := rfl
@[simp] theorem setSvi_midRep (v : IntVector) (s : State) : (setSvi v s).midRep = s.midRep := rfl
@[simp] theorem setSvi_userNotified (v : IntVector) (s : State) : (setSvi v s).userNotified = s.userNotified := rfl
@[simp] theorem setSvi_loaded (v : IntVector) (s : State) : (setSvi v s).loaded = s.loaded := rfl
@[simp] theorem setSvi_lastExit (v : IntVector) (s : State) : (setSvi v s).lastExit = s.lastExit := rfl
@[simp] theorem setSvi_vmcs (v : IntVector) (s : State) : (setSvi v s).vmcs = s.vmcs := rfl
@[simp] theorem setSvi_params (v : IntVector) (s : State) : (setSvi v s).params = s.params := rfl
@[simp] theorem setSvi_mem (v : IntVector) (s : State) : (setSvi v s).mem = s.mem := rfl
@[simp] theorem setSvi_history (v : IntVector) (s : State) : (setSvi v s).history = s.history := rfl
@[simp] theorem setSvi_agents (v : IntVector) (s : State) : (setSvi v s).agents = s.agents := rfl
@[simp] theorem setSvi_inputs (v : IntVector) (s : State) : (setSvi v s).inputs = s.inputs := rfl

/-! ### setPending -/

@[simp] theorem setPending_mode (b : Bool) (s : State) : (setPending b s).mode = s.mode := rfl
@[simp] theorem setPending_gpr (b : Bool) (s : State) : (setPending b s).gpr = s.gpr := rfl
@[simp] theorem setPending_ip (b : Bool) (s : State) : (setPending b s).ip = s.ip := rfl
@[simp] theorem setPending_nextIp (b : Bool) (s : State) : (setPending b s).nextIp = s.nextIp := rfl
@[simp] theorem setPending_rflagsIf (b : Bool) (s : State) : (setPending b s).rflagsIf = s.rflagsIf := rfl
@[simp] theorem setPending_rflagsRf (b : Bool) (s : State) : (setPending b s).rflagsRf = s.rflagsRf := rfl
@[simp] theorem setPending_blockingBySti (b : Bool) (s : State) : (setPending b s).blockingBySti = s.blockingBySti := rfl
@[simp] theorem setPending_blockingByMovSs (b : Bool) (s : State) : (setPending b s).blockingByMovSs = s.blockingByMovSs := rfl
@[simp] theorem setPending_activity (b : Bool) (s : State) : (setPending b s).activity = s.activity := rfl
@[simp] theorem setPending_cr0Pg (b : Bool) (s : State) : (setPending b s).cr0Pg = s.cr0Pg := rfl
@[simp] theorem setPending_cr4Uintr (b : Bool) (s : State) : (setPending b s).cr4Uintr = s.cr4Uintr := rfl
@[simp] theorem setPending_cr8 (b : Bool) (s : State) : (setPending b s).cr8 = s.cr8 := rfl
@[simp] theorem setPending_eferLma (b : Bool) (s : State) : (setPending b s).eferLma = s.eferLma := rfl
@[simp] theorem setPending_apicBase (b : Bool) (s : State) : (setPending b s).apicBase = s.apicBase := rfl
@[simp] theorem setPending_vmxBasic (b : Bool) (s : State) : (setPending b s).vmxBasic = s.vmxBasic := rfl
@[simp] theorem setPending_transactional (b : Bool) (s : State) : (setPending b s).transactional = s.transactional := rfl
@[simp] theorem setPending_enclave (b : Bool) (s : State) : (setPending b s).enclave = s.enclave := rfl
@[simp] theorem setPending_rvi (b : Bool) (s : State) : (setPending b s).rvi = s.rvi := rfl
@[simp] theorem setPending_svi (b : Bool) (s : State) : (setPending b s).svi = s.svi := rfl
@[simp] theorem setPending_pending (b : Bool) (s : State) : (setPending b s).pending = b := rfl
@[simp] theorem setPending_wroteVirt (b : Bool) (s : State) : (setPending b s).wroteVirt = s.wroteVirt := rfl
@[simp] theorem setPending_midRep (b : Bool) (s : State) : (setPending b s).midRep = s.midRep := rfl
@[simp] theorem setPending_userNotified (b : Bool) (s : State) : (setPending b s).userNotified = s.userNotified := rfl
@[simp] theorem setPending_loaded (b : Bool) (s : State) : (setPending b s).loaded = s.loaded := rfl
@[simp] theorem setPending_lastExit (b : Bool) (s : State) : (setPending b s).lastExit = s.lastExit := rfl
@[simp] theorem setPending_vmcs (b : Bool) (s : State) : (setPending b s).vmcs = s.vmcs := rfl
@[simp] theorem setPending_params (b : Bool) (s : State) : (setPending b s).params = s.params := rfl
@[simp] theorem setPending_mem (b : Bool) (s : State) : (setPending b s).mem = s.mem := rfl
@[simp] theorem setPending_history (b : Bool) (s : State) : (setPending b s).history = s.history := rfl
@[simp] theorem setPending_agents (b : Bool) (s : State) : (setPending b s).agents = s.agents := rfl
@[simp] theorem setPending_inputs (b : Bool) (s : State) : (setPending b s).inputs = s.inputs := rfl

/-! ### setMem -/

@[simp] theorem setMem_mode (m : Memory) (s : State) : (setMem m s).mode = s.mode := rfl
@[simp] theorem setMem_gpr (m : Memory) (s : State) : (setMem m s).gpr = s.gpr := rfl
@[simp] theorem setMem_ip (m : Memory) (s : State) : (setMem m s).ip = s.ip := rfl
@[simp] theorem setMem_nextIp (m : Memory) (s : State) : (setMem m s).nextIp = s.nextIp := rfl
@[simp] theorem setMem_rflagsIf (m : Memory) (s : State) : (setMem m s).rflagsIf = s.rflagsIf := rfl
@[simp] theorem setMem_rflagsRf (m : Memory) (s : State) : (setMem m s).rflagsRf = s.rflagsRf := rfl
@[simp] theorem setMem_blockingBySti (m : Memory) (s : State) : (setMem m s).blockingBySti = s.blockingBySti := rfl
@[simp] theorem setMem_blockingByMovSs (m : Memory) (s : State) : (setMem m s).blockingByMovSs = s.blockingByMovSs := rfl
@[simp] theorem setMem_activity (m : Memory) (s : State) : (setMem m s).activity = s.activity := rfl
@[simp] theorem setMem_cr0Pg (m : Memory) (s : State) : (setMem m s).cr0Pg = s.cr0Pg := rfl
@[simp] theorem setMem_cr4Uintr (m : Memory) (s : State) : (setMem m s).cr4Uintr = s.cr4Uintr := rfl
@[simp] theorem setMem_cr8 (m : Memory) (s : State) : (setMem m s).cr8 = s.cr8 := rfl
@[simp] theorem setMem_eferLma (m : Memory) (s : State) : (setMem m s).eferLma = s.eferLma := rfl
@[simp] theorem setMem_apicBase (m : Memory) (s : State) : (setMem m s).apicBase = s.apicBase := rfl
@[simp] theorem setMem_vmxBasic (m : Memory) (s : State) : (setMem m s).vmxBasic = s.vmxBasic := rfl
@[simp] theorem setMem_transactional (m : Memory) (s : State) : (setMem m s).transactional = s.transactional := rfl
@[simp] theorem setMem_enclave (m : Memory) (s : State) : (setMem m s).enclave = s.enclave := rfl
@[simp] theorem setMem_rvi (m : Memory) (s : State) : (setMem m s).rvi = s.rvi := rfl
@[simp] theorem setMem_svi (m : Memory) (s : State) : (setMem m s).svi = s.svi := rfl
@[simp] theorem setMem_pending (m : Memory) (s : State) : (setMem m s).pending = s.pending := rfl
@[simp] theorem setMem_wroteVirt (m : Memory) (s : State) : (setMem m s).wroteVirt = s.wroteVirt := rfl
@[simp] theorem setMem_midRep (m : Memory) (s : State) : (setMem m s).midRep = s.midRep := rfl
@[simp] theorem setMem_userNotified (m : Memory) (s : State) : (setMem m s).userNotified = s.userNotified := rfl
@[simp] theorem setMem_loaded (m : Memory) (s : State) : (setMem m s).loaded = s.loaded := rfl
@[simp] theorem setMem_lastExit (m : Memory) (s : State) : (setMem m s).lastExit = s.lastExit := rfl
@[simp] theorem setMem_vmcs (m : Memory) (s : State) : (setMem m s).vmcs = s.vmcs := rfl
@[simp] theorem setMem_params (m : Memory) (s : State) : (setMem m s).params = s.params := rfl
@[simp] theorem setMem_mem (m : Memory) (s : State) : (setMem m s).mem = m := rfl
@[simp] theorem setMem_history (m : Memory) (s : State) : (setMem m s).history = s.history := rfl
@[simp] theorem setMem_agents (m : Memory) (s : State) : (setMem m s).agents = s.agents := rfl
@[simp] theorem setMem_inputs (m : Memory) (s : State) : (setMem m s).inputs = s.inputs := rfl

/-! ### emit -/

@[simp] theorem emit_mode (e : Event) (s : State) : (emit e s).mode = s.mode := rfl
@[simp] theorem emit_gpr (e : Event) (s : State) : (emit e s).gpr = s.gpr := rfl
@[simp] theorem emit_ip (e : Event) (s : State) : (emit e s).ip = s.ip := rfl
@[simp] theorem emit_nextIp (e : Event) (s : State) : (emit e s).nextIp = s.nextIp := rfl
@[simp] theorem emit_rflagsIf (e : Event) (s : State) : (emit e s).rflagsIf = s.rflagsIf := rfl
@[simp] theorem emit_rflagsRf (e : Event) (s : State) : (emit e s).rflagsRf = s.rflagsRf := rfl
@[simp] theorem emit_blockingBySti (e : Event) (s : State) : (emit e s).blockingBySti = s.blockingBySti := rfl
@[simp] theorem emit_blockingByMovSs (e : Event) (s : State) : (emit e s).blockingByMovSs = s.blockingByMovSs := rfl
@[simp] theorem emit_activity (e : Event) (s : State) : (emit e s).activity = s.activity := rfl
@[simp] theorem emit_cr0Pg (e : Event) (s : State) : (emit e s).cr0Pg = s.cr0Pg := rfl
@[simp] theorem emit_cr4Uintr (e : Event) (s : State) : (emit e s).cr4Uintr = s.cr4Uintr := rfl
@[simp] theorem emit_cr8 (e : Event) (s : State) : (emit e s).cr8 = s.cr8 := rfl
@[simp] theorem emit_eferLma (e : Event) (s : State) : (emit e s).eferLma = s.eferLma := rfl
@[simp] theorem emit_apicBase (e : Event) (s : State) : (emit e s).apicBase = s.apicBase := rfl
@[simp] theorem emit_vmxBasic (e : Event) (s : State) : (emit e s).vmxBasic = s.vmxBasic := rfl
@[simp] theorem emit_transactional (e : Event) (s : State) : (emit e s).transactional = s.transactional := rfl
@[simp] theorem emit_enclave (e : Event) (s : State) : (emit e s).enclave = s.enclave := rfl
@[simp] theorem emit_rvi (e : Event) (s : State) : (emit e s).rvi = s.rvi := rfl
@[simp] theorem emit_svi (e : Event) (s : State) : (emit e s).svi = s.svi := rfl
@[simp] theorem emit_pending (e : Event) (s : State) : (emit e s).pending = s.pending := rfl
@[simp] theorem emit_wroteVirt (e : Event) (s : State) : (emit e s).wroteVirt = s.wroteVirt := rfl
@[simp] theorem emit_midRep (e : Event) (s : State) : (emit e s).midRep = s.midRep := rfl
@[simp] theorem emit_userNotified (e : Event) (s : State) : (emit e s).userNotified = s.userNotified := rfl
@[simp] theorem emit_loaded (e : Event) (s : State) : (emit e s).loaded = s.loaded := rfl
@[simp] theorem emit_lastExit (e : Event) (s : State) : (emit e s).lastExit = s.lastExit := rfl
@[simp] theorem emit_vmcs (e : Event) (s : State) : (emit e s).vmcs = s.vmcs := rfl
@[simp] theorem emit_params (e : Event) (s : State) : (emit e s).params = s.params := rfl
@[simp] theorem emit_mem (e : Event) (s : State) : (emit e s).mem = s.mem := rfl
@[simp] theorem emit_history (e : Event) (s : State) : (emit e s).history = s.history ++ [e] := rfl
@[simp] theorem emit_agents (e : Event) (s : State) : (emit e s).agents = s.agents := rfl
@[simp] theorem emit_inputs (e : Event) (s : State) : (emit e s).inputs = s.inputs := rfl

/-! ### retire -/

@[simp] theorem retire_mode (s : State) : (retire s).mode = s.mode := rfl
@[simp] theorem retire_gpr (s : State) : (retire s).gpr = s.gpr := rfl
@[simp] theorem retire_ip (s : State) : (retire s).ip = s.nextIp := rfl
@[simp] theorem retire_nextIp (s : State) : (retire s).nextIp = s.nextIp := rfl
@[simp] theorem retire_rflagsIf (s : State) : (retire s).rflagsIf = s.rflagsIf := rfl
@[simp] theorem retire_rflagsRf (s : State) : (retire s).rflagsRf = s.rflagsRf := rfl
@[simp] theorem retire_blockingBySti (s : State) : (retire s).blockingBySti = s.blockingBySti := rfl
@[simp] theorem retire_blockingByMovSs (s : State) : (retire s).blockingByMovSs = s.blockingByMovSs := rfl
@[simp] theorem retire_activity (s : State) : (retire s).activity = s.activity := rfl
@[simp] theorem retire_cr0Pg (s : State) : (retire s).cr0Pg = s.cr0Pg := rfl
@[simp] theorem retire_cr4Uintr (s : State) : (retire s).cr4Uintr = s.cr4Uintr := rfl
@[simp] theorem retire_cr8 (s : State) : (retire s).cr8 = s.cr8 := rfl
@[simp] theorem retire_eferLma (s : State) : (retire s).eferLma = s.eferLma := rfl
@[simp] theorem retire_apicBase (s : State) : (retire s).apicBase = s.apicBase := rfl
@[simp] theorem retire_vmxBasic (s : State) : (retire s).vmxBasic = s.vmxBasic := rfl
@[simp] theorem retire_transactional (s : State) : (retire s).transactional = s.transactional := rfl
@[simp] theorem retire_enclave (s : State) : (retire s).enclave = s.enclave := rfl
@[simp] theorem retire_rvi (s : State) : (retire s).rvi = s.rvi := rfl
@[simp] theorem retire_svi (s : State) : (retire s).svi = s.svi := rfl
@[simp] theorem retire_pending (s : State) : (retire s).pending = s.pending := rfl
@[simp] theorem retire_wroteVirt (s : State) : (retire s).wroteVirt = false := rfl
@[simp] theorem retire_midRep (s : State) : (retire s).midRep = false := rfl
@[simp] theorem retire_userNotified (s : State) : (retire s).userNotified = s.userNotified := rfl
@[simp] theorem retire_loaded (s : State) : (retire s).loaded = s.loaded := rfl
@[simp] theorem retire_lastExit (s : State) : (retire s).lastExit = s.lastExit := rfl
@[simp] theorem retire_vmcs (s : State) : (retire s).vmcs = s.vmcs := rfl
@[simp] theorem retire_params (s : State) : (retire s).params = s.params := rfl
@[simp] theorem retire_mem (s : State) : (retire s).mem = s.mem := rfl
@[simp] theorem retire_history (s : State) : (retire s).history = s.history := rfl
@[simp] theorem retire_agents (s : State) : (retire s).agents = s.agents := rfl
@[simp] theorem retire_inputs (s : State) : (retire s).inputs = s.inputs := rfl

/-! ### setVapic32 -/

@[simp] theorem setVapic32_mode (off : Nat) (v : BitVec 32) (s : State) : (setVapic32 off v s).mode = s.mode := rfl
@[simp] theorem setVapic32_gpr (off : Nat) (v : BitVec 32) (s : State) : (setVapic32 off v s).gpr = s.gpr := rfl
@[simp] theorem setVapic32_ip (off : Nat) (v : BitVec 32) (s : State) : (setVapic32 off v s).ip = s.ip := rfl
@[simp] theorem setVapic32_nextIp (off : Nat) (v : BitVec 32) (s : State) : (setVapic32 off v s).nextIp = s.nextIp := rfl
@[simp] theorem setVapic32_rflagsIf (off : Nat) (v : BitVec 32) (s : State) : (setVapic32 off v s).rflagsIf = s.rflagsIf := rfl
@[simp] theorem setVapic32_rflagsRf (off : Nat) (v : BitVec 32) (s : State) : (setVapic32 off v s).rflagsRf = s.rflagsRf := rfl
@[simp] theorem setVapic32_blockingBySti (off : Nat) (v : BitVec 32) (s : State) : (setVapic32 off v s).blockingBySti = s.blockingBySti := rfl
@[simp] theorem setVapic32_blockingByMovSs (off : Nat) (v : BitVec 32) (s : State) : (setVapic32 off v s).blockingByMovSs = s.blockingByMovSs := rfl
@[simp] theorem setVapic32_activity (off : Nat) (v : BitVec 32) (s : State) : (setVapic32 off v s).activity = s.activity := rfl
@[simp] theorem setVapic32_cr0Pg (off : Nat) (v : BitVec 32) (s : State) : (setVapic32 off v s).cr0Pg = s.cr0Pg := rfl
@[simp] theorem setVapic32_cr4Uintr (off : Nat) (v : BitVec 32) (s : State) : (setVapic32 off v s).cr4Uintr = s.cr4Uintr := rfl
@[simp] theorem setVapic32_cr8 (off : Nat) (v : BitVec 32) (s : State) : (setVapic32 off v s).cr8 = s.cr8 := rfl
@[simp] theorem setVapic32_eferLma (off : Nat) (v : BitVec 32) (s : State) : (setVapic32 off v s).eferLma = s.eferLma := rfl
@[simp] theorem setVapic32_apicBase (off : Nat) (v : BitVec 32) (s : State) : (setVapic32 off v s).apicBase = s.apicBase := rfl
@[simp] theorem setVapic32_vmxBasic (off : Nat) (v : BitVec 32) (s : State) : (setVapic32 off v s).vmxBasic = s.vmxBasic := rfl
@[simp] theorem setVapic32_transactional (off : Nat) (v : BitVec 32) (s : State) : (setVapic32 off v s).transactional = s.transactional := rfl
@[simp] theorem setVapic32_enclave (off : Nat) (v : BitVec 32) (s : State) : (setVapic32 off v s).enclave = s.enclave := rfl
@[simp] theorem setVapic32_rvi (off : Nat) (v : BitVec 32) (s : State) : (setVapic32 off v s).rvi = s.rvi := rfl
@[simp] theorem setVapic32_svi (off : Nat) (v : BitVec 32) (s : State) : (setVapic32 off v s).svi = s.svi := rfl
@[simp] theorem setVapic32_pending (off : Nat) (v : BitVec 32) (s : State) : (setVapic32 off v s).pending = s.pending := rfl
@[simp] theorem setVapic32_wroteVirt (off : Nat) (v : BitVec 32) (s : State) : (setVapic32 off v s).wroteVirt = s.wroteVirt := rfl
@[simp] theorem setVapic32_midRep (off : Nat) (v : BitVec 32) (s : State) : (setVapic32 off v s).midRep = s.midRep := rfl
@[simp] theorem setVapic32_userNotified (off : Nat) (v : BitVec 32) (s : State) : (setVapic32 off v s).userNotified = s.userNotified := rfl
@[simp] theorem setVapic32_loaded (off : Nat) (v : BitVec 32) (s : State) : (setVapic32 off v s).loaded = s.loaded := rfl
@[simp] theorem setVapic32_lastExit (off : Nat) (v : BitVec 32) (s : State) : (setVapic32 off v s).lastExit = s.lastExit := rfl
@[simp] theorem setVapic32_vmcs (off : Nat) (v : BitVec 32) (s : State) : (setVapic32 off v s).vmcs = s.vmcs := rfl
@[simp] theorem setVapic32_params (off : Nat) (v : BitVec 32) (s : State) : (setVapic32 off v s).params = s.params := rfl
@[simp] theorem setVapic32_mem (off : Nat) (v : BitVec 32) (s : State) : (setVapic32 off v s).mem = s.mem.writeLe (vapicAt s off) 4 v.toNat := rfl
@[simp] theorem setVapic32_history (off : Nat) (v : BitVec 32) (s : State) : (setVapic32 off v s).history = s.history := rfl
@[simp] theorem setVapic32_agents (off : Nat) (v : BitVec 32) (s : State) : (setVapic32 off v s).agents = s.agents := rfl
@[simp] theorem setVapic32_inputs (off : Nat) (v : BitVec 32) (s : State) : (setVapic32 off v s).inputs = s.inputs := rfl

/-! ### evaluate -/

@[simp] theorem evaluate_mode (s : State) : (evaluate s).mode = s.mode := rfl
@[simp] theorem evaluate_gpr (s : State) : (evaluate s).gpr = s.gpr := rfl
@[simp] theorem evaluate_ip (s : State) : (evaluate s).ip = s.ip := rfl
@[simp] theorem evaluate_nextIp (s : State) : (evaluate s).nextIp = s.nextIp := rfl
@[simp] theorem evaluate_rflagsIf (s : State) : (evaluate s).rflagsIf = s.rflagsIf := rfl
@[simp] theorem evaluate_rflagsRf (s : State) : (evaluate s).rflagsRf = s.rflagsRf := rfl
@[simp] theorem evaluate_blockingBySti (s : State) : (evaluate s).blockingBySti = s.blockingBySti := rfl
@[simp] theorem evaluate_blockingByMovSs (s : State) : (evaluate s).blockingByMovSs = s.blockingByMovSs := rfl
@[simp] theorem evaluate_activity (s : State) : (evaluate s).activity = s.activity := rfl
@[simp] theorem evaluate_cr0Pg (s : State) : (evaluate s).cr0Pg = s.cr0Pg := rfl
@[simp] theorem evaluate_cr4Uintr (s : State) : (evaluate s).cr4Uintr = s.cr4Uintr := rfl
@[simp] theorem evaluate_cr8 (s : State) : (evaluate s).cr8 = s.cr8 := rfl
@[simp] theorem evaluate_eferLma (s : State) : (evaluate s).eferLma = s.eferLma := rfl
@[simp] theorem evaluate_apicBase (s : State) : (evaluate s).apicBase = s.apicBase := rfl
@[simp] theorem evaluate_vmxBasic (s : State) : (evaluate s).vmxBasic = s.vmxBasic := rfl
@[simp] theorem evaluate_transactional (s : State) : (evaluate s).transactional = s.transactional := rfl
@[simp] theorem evaluate_enclave (s : State) : (evaluate s).enclave = s.enclave := rfl
@[simp] theorem evaluate_rvi (s : State) : (evaluate s).rvi = s.rvi := rfl
@[simp] theorem evaluate_svi (s : State) : (evaluate s).svi = s.svi := rfl
@[simp] theorem evaluate_pending (s : State) : (evaluate s).pending = recognizes s := rfl
@[simp] theorem evaluate_wroteVirt (s : State) : (evaluate s).wroteVirt = s.wroteVirt := rfl
@[simp] theorem evaluate_midRep (s : State) : (evaluate s).midRep = s.midRep := rfl
@[simp] theorem evaluate_userNotified (s : State) : (evaluate s).userNotified = s.userNotified := rfl
@[simp] theorem evaluate_loaded (s : State) : (evaluate s).loaded = s.loaded := rfl
@[simp] theorem evaluate_lastExit (s : State) : (evaluate s).lastExit = s.lastExit := rfl
@[simp] theorem evaluate_vmcs (s : State) : (evaluate s).vmcs = s.vmcs := rfl
@[simp] theorem evaluate_params (s : State) : (evaluate s).params = s.params := rfl
@[simp] theorem evaluate_mem (s : State) : (evaluate s).mem = s.mem := rfl
@[simp] theorem evaluate_history (s : State) : (evaluate s).history = s.history := rfl
@[simp] theorem evaluate_agents (s : State) : (evaluate s).agents = s.agents := rfl
@[simp] theorem evaluate_inputs (s : State) : (evaluate s).inputs = s.inputs := rfl

/-! ### wake -/

@[simp] theorem wake_mode (s : State) : (wake s).mode = s.mode := rfl
@[simp] theorem wake_gpr (s : State) : (wake s).gpr = s.gpr := rfl
@[simp] theorem wake_ip (s : State) : (wake s).ip = s.ip := rfl
@[simp] theorem wake_nextIp (s : State) : (wake s).nextIp = s.nextIp := rfl
@[simp] theorem wake_rflagsIf (s : State) : (wake s).rflagsIf = s.rflagsIf := rfl
@[simp] theorem wake_rflagsRf (s : State) : (wake s).rflagsRf = s.rflagsRf := rfl
@[simp] theorem wake_blockingBySti (s : State) : (wake s).blockingBySti = s.blockingBySti := rfl
@[simp] theorem wake_blockingByMovSs (s : State) : (wake s).blockingByMovSs = s.blockingByMovSs := rfl
@[simp] theorem wake_activity (s : State) : (wake s).activity = .active := rfl
@[simp] theorem wake_cr0Pg (s : State) : (wake s).cr0Pg = s.cr0Pg := rfl
@[simp] theorem wake_cr4Uintr (s : State) : (wake s).cr4Uintr = s.cr4Uintr := rfl
@[simp] theorem wake_cr8 (s : State) : (wake s).cr8 = s.cr8 := rfl
@[simp] theorem wake_eferLma (s : State) : (wake s).eferLma = s.eferLma := rfl
@[simp] theorem wake_apicBase (s : State) : (wake s).apicBase = s.apicBase := rfl
@[simp] theorem wake_vmxBasic (s : State) : (wake s).vmxBasic = s.vmxBasic := rfl
@[simp] theorem wake_transactional (s : State) : (wake s).transactional = s.transactional := rfl
@[simp] theorem wake_enclave (s : State) : (wake s).enclave = s.enclave := rfl
@[simp] theorem wake_rvi (s : State) : (wake s).rvi = s.rvi := rfl
@[simp] theorem wake_svi (s : State) : (wake s).svi = s.svi := rfl
@[simp] theorem wake_pending (s : State) : (wake s).pending = s.pending := rfl
@[simp] theorem wake_wroteVirt (s : State) : (wake s).wroteVirt = false := rfl
@[simp] theorem wake_midRep (s : State) : (wake s).midRep = false := rfl
@[simp] theorem wake_userNotified (s : State) : (wake s).userNotified = s.userNotified := rfl
@[simp] theorem wake_loaded (s : State) : (wake s).loaded = s.loaded := rfl
@[simp] theorem wake_lastExit (s : State) : (wake s).lastExit = s.lastExit := rfl
@[simp] theorem wake_vmcs (s : State) : (wake s).vmcs = s.vmcs := rfl
@[simp] theorem wake_params (s : State) : (wake s).params = s.params := rfl
@[simp] theorem wake_mem (s : State) : (wake s).mem = s.mem := rfl
@[simp] theorem wake_history (s : State) : (wake s).history = s.history := rfl
@[simp] theorem wake_agents (s : State) : (wake s).agents = s.agents := rfl
@[simp] theorem wake_inputs (s : State) : (wake s).inputs = s.inputs := rfl

/-! ### activate -/

@[simp] theorem activate_mode (s : State) : (activate s).mode = s.mode := rfl
@[simp] theorem activate_gpr (s : State) : (activate s).gpr = s.gpr := rfl
@[simp] theorem activate_ip (s : State) : (activate s).ip = s.ip := rfl
@[simp] theorem activate_nextIp (s : State) : (activate s).nextIp = s.nextIp := rfl
@[simp] theorem activate_rflagsIf (s : State) : (activate s).rflagsIf = s.rflagsIf := rfl
@[simp] theorem activate_rflagsRf (s : State) : (activate s).rflagsRf = s.rflagsRf := rfl
@[simp] theorem activate_blockingBySti (s : State) : (activate s).blockingBySti = s.blockingBySti := rfl
@[simp] theorem activate_blockingByMovSs (s : State) : (activate s).blockingByMovSs = s.blockingByMovSs := rfl
@[simp] theorem activate_activity (s : State) : (activate s).activity = .active := rfl
@[simp] theorem activate_cr0Pg (s : State) : (activate s).cr0Pg = s.cr0Pg := rfl
@[simp] theorem activate_cr4Uintr (s : State) : (activate s).cr4Uintr = s.cr4Uintr := rfl
@[simp] theorem activate_cr8 (s : State) : (activate s).cr8 = s.cr8 := rfl
@[simp] theorem activate_eferLma (s : State) : (activate s).eferLma = s.eferLma := rfl
@[simp] theorem activate_apicBase (s : State) : (activate s).apicBase = s.apicBase := rfl
@[simp] theorem activate_vmxBasic (s : State) : (activate s).vmxBasic = s.vmxBasic := rfl
@[simp] theorem activate_transactional (s : State) : (activate s).transactional = s.transactional := rfl
@[simp] theorem activate_enclave (s : State) : (activate s).enclave = s.enclave := rfl
@[simp] theorem activate_rvi (s : State) : (activate s).rvi = s.rvi := rfl
@[simp] theorem activate_svi (s : State) : (activate s).svi = s.svi := rfl
@[simp] theorem activate_pending (s : State) : (activate s).pending = s.pending := rfl
@[simp] theorem activate_wroteVirt (s : State) : (activate s).wroteVirt = s.wroteVirt := rfl
@[simp] theorem activate_midRep (s : State) : (activate s).midRep = s.midRep := rfl
@[simp] theorem activate_userNotified (s : State) : (activate s).userNotified = s.userNotified := rfl
@[simp] theorem activate_loaded (s : State) : (activate s).loaded = s.loaded := rfl
@[simp] theorem activate_lastExit (s : State) : (activate s).lastExit = s.lastExit := rfl
@[simp] theorem activate_vmcs (s : State) : (activate s).vmcs = s.vmcs := rfl
@[simp] theorem activate_params (s : State) : (activate s).params = s.params := rfl
@[simp] theorem activate_mem (s : State) : (activate s).mem = s.mem := rfl
@[simp] theorem activate_history (s : State) : (activate s).history = s.history := rfl
@[simp] theorem activate_agents (s : State) : (activate s).agents = s.agents := rfl
@[simp] theorem activate_inputs (s : State) : (activate s).inputs = s.inputs := rfl

/-! ### afterPosted -/

@[simp] theorem afterPosted_mode (s : State) : (afterPosted s).mode = s.mode := rfl
@[simp] theorem afterPosted_gpr (s : State) : (afterPosted s).gpr = s.gpr := rfl
@[simp] theorem afterPosted_ip (s : State) : (afterPosted s).ip = s.ip := rfl
@[simp] theorem afterPosted_nextIp (s : State) : (afterPosted s).nextIp = s.nextIp := rfl
@[simp] theorem afterPosted_rflagsIf (s : State) : (afterPosted s).rflagsIf = s.rflagsIf := rfl
@[simp] theorem afterPosted_rflagsRf (s : State) : (afterPosted s).rflagsRf = rfAfterPosted s := rfl
@[simp] theorem afterPosted_blockingBySti (s : State) : (afterPosted s).blockingBySti = s.blockingBySti := rfl
@[simp] theorem afterPosted_blockingByMovSs (s : State) : (afterPosted s).blockingByMovSs = s.blockingByMovSs := rfl
@[simp] theorem afterPosted_activity (s : State) : (afterPosted s).activity = activityAfterPosted s.activity := rfl
@[simp] theorem afterPosted_cr0Pg (s : State) : (afterPosted s).cr0Pg = s.cr0Pg := rfl
@[simp] theorem afterPosted_cr4Uintr (s : State) : (afterPosted s).cr4Uintr = s.cr4Uintr := rfl
@[simp] theorem afterPosted_cr8 (s : State) : (afterPosted s).cr8 = s.cr8 := rfl
@[simp] theorem afterPosted_eferLma (s : State) : (afterPosted s).eferLma = s.eferLma := rfl
@[simp] theorem afterPosted_apicBase (s : State) : (afterPosted s).apicBase = s.apicBase := rfl
@[simp] theorem afterPosted_vmxBasic (s : State) : (afterPosted s).vmxBasic = s.vmxBasic := rfl
@[simp] theorem afterPosted_transactional (s : State) : (afterPosted s).transactional = s.transactional := rfl
@[simp] theorem afterPosted_enclave (s : State) : (afterPosted s).enclave = s.enclave := rfl
@[simp] theorem afterPosted_rvi (s : State) : (afterPosted s).rvi = s.rvi := rfl
@[simp] theorem afterPosted_svi (s : State) : (afterPosted s).svi = s.svi := rfl
@[simp] theorem afterPosted_pending (s : State) : (afterPosted s).pending = s.pending := rfl
@[simp] theorem afterPosted_wroteVirt (s : State) : (afterPosted s).wroteVirt = s.wroteVirt := rfl
@[simp] theorem afterPosted_midRep (s : State) : (afterPosted s).midRep = s.midRep := rfl
@[simp] theorem afterPosted_userNotified (s : State) : (afterPosted s).userNotified = s.userNotified := rfl
@[simp] theorem afterPosted_loaded (s : State) : (afterPosted s).loaded = s.loaded := rfl
@[simp] theorem afterPosted_lastExit (s : State) : (afterPosted s).lastExit = s.lastExit := rfl
@[simp] theorem afterPosted_vmcs (s : State) : (afterPosted s).vmcs = s.vmcs := rfl
@[simp] theorem afterPosted_params (s : State) : (afterPosted s).params = s.params := rfl
@[simp] theorem afterPosted_mem (s : State) : (afterPosted s).mem = s.mem := rfl
@[simp] theorem afterPosted_history (s : State) : (afterPosted s).history = s.history := rfl
@[simp] theorem afterPosted_agents (s : State) : (afterPosted s).agents = s.agents := rfl
@[simp] theorem afterPosted_inputs (s : State) : (afterPosted s).inputs = s.inputs := rfl

/-! ### virtualWrite -/

@[simp] theorem virtualWrite_mode (off : Nat) (d : List Byte) (s : State) : (virtualWrite off d s).mode = s.mode := rfl
@[simp] theorem virtualWrite_gpr (off : Nat) (d : List Byte) (s : State) : (virtualWrite off d s).gpr = s.gpr := rfl
@[simp] theorem virtualWrite_ip (off : Nat) (d : List Byte) (s : State) : (virtualWrite off d s).ip = s.ip := rfl
@[simp] theorem virtualWrite_nextIp (off : Nat) (d : List Byte) (s : State) : (virtualWrite off d s).nextIp = s.nextIp := rfl
@[simp] theorem virtualWrite_rflagsIf (off : Nat) (d : List Byte) (s : State) : (virtualWrite off d s).rflagsIf = s.rflagsIf := rfl
@[simp] theorem virtualWrite_rflagsRf (off : Nat) (d : List Byte) (s : State) : (virtualWrite off d s).rflagsRf = s.rflagsRf := rfl
@[simp] theorem virtualWrite_blockingBySti (off : Nat) (d : List Byte) (s : State) : (virtualWrite off d s).blockingBySti = s.blockingBySti := rfl
@[simp] theorem virtualWrite_blockingByMovSs (off : Nat) (d : List Byte) (s : State) : (virtualWrite off d s).blockingByMovSs = s.blockingByMovSs := rfl
@[simp] theorem virtualWrite_activity (off : Nat) (d : List Byte) (s : State) : (virtualWrite off d s).activity = s.activity := rfl
@[simp] theorem virtualWrite_cr0Pg (off : Nat) (d : List Byte) (s : State) : (virtualWrite off d s).cr0Pg = s.cr0Pg := rfl
@[simp] theorem virtualWrite_cr4Uintr (off : Nat) (d : List Byte) (s : State) : (virtualWrite off d s).cr4Uintr = s.cr4Uintr := rfl
@[simp] theorem virtualWrite_cr8 (off : Nat) (d : List Byte) (s : State) : (virtualWrite off d s).cr8 = s.cr8 := rfl
@[simp] theorem virtualWrite_eferLma (off : Nat) (d : List Byte) (s : State) : (virtualWrite off d s).eferLma = s.eferLma := rfl
@[simp] theorem virtualWrite_apicBase (off : Nat) (d : List Byte) (s : State) : (virtualWrite off d s).apicBase = s.apicBase := rfl
@[simp] theorem virtualWrite_vmxBasic (off : Nat) (d : List Byte) (s : State) : (virtualWrite off d s).vmxBasic = s.vmxBasic := rfl
@[simp] theorem virtualWrite_transactional (off : Nat) (d : List Byte) (s : State) : (virtualWrite off d s).transactional = s.transactional := rfl
@[simp] theorem virtualWrite_enclave (off : Nat) (d : List Byte) (s : State) : (virtualWrite off d s).enclave = s.enclave := rfl
@[simp] theorem virtualWrite_rvi (off : Nat) (d : List Byte) (s : State) : (virtualWrite off d s).rvi = s.rvi := rfl
@[simp] theorem virtualWrite_svi (off : Nat) (d : List Byte) (s : State) : (virtualWrite off d s).svi = s.svi := rfl
@[simp] theorem virtualWrite_pending (off : Nat) (d : List Byte) (s : State) : (virtualWrite off d s).pending = s.pending := rfl
@[simp] theorem virtualWrite_wroteVirt (off : Nat) (d : List Byte) (s : State) : (virtualWrite off d s).wroteVirt = true := rfl
@[simp] theorem virtualWrite_midRep (off : Nat) (d : List Byte) (s : State) : (virtualWrite off d s).midRep = s.midRep := rfl
@[simp] theorem virtualWrite_userNotified (off : Nat) (d : List Byte) (s : State) : (virtualWrite off d s).userNotified = s.userNotified := rfl
@[simp] theorem virtualWrite_loaded (off : Nat) (d : List Byte) (s : State) : (virtualWrite off d s).loaded = s.loaded := rfl
@[simp] theorem virtualWrite_lastExit (off : Nat) (d : List Byte) (s : State) : (virtualWrite off d s).lastExit = s.lastExit := rfl
@[simp] theorem virtualWrite_vmcs (off : Nat) (d : List Byte) (s : State) : (virtualWrite off d s).vmcs = s.vmcs := rfl
@[simp] theorem virtualWrite_params (off : Nat) (d : List Byte) (s : State) : (virtualWrite off d s).params = s.params := rfl
@[simp] theorem virtualWrite_mem (off : Nat) (d : List Byte) (s : State) : (virtualWrite off d s).mem = s.mem.writeBytes (vapicAt s off) d := rfl
@[simp] theorem virtualWrite_history (off : Nat) (d : List Byte) (s : State) : (virtualWrite off d s).history = s.history := rfl
@[simp] theorem virtualWrite_agents (off : Nat) (d : List Byte) (s : State) : (virtualWrite off d s).agents = s.agents := rfl
@[simp] theorem virtualWrite_inputs (off : Nat) (d : List Byte) (s : State) : (virtualWrite off d s).inputs = s.inputs := rfl

/-! ### virtualRead -/

@[simp] theorem virtualRead_mode (off n : Nat) (s : State) : (virtualRead off n s).mode = s.mode := rfl
@[simp] theorem virtualRead_gpr (off n : Nat) (s : State) : (virtualRead off n s).gpr = s.gpr := rfl
@[simp] theorem virtualRead_ip (off n : Nat) (s : State) : (virtualRead off n s).ip = s.ip := rfl
@[simp] theorem virtualRead_nextIp (off n : Nat) (s : State) : (virtualRead off n s).nextIp = s.nextIp := rfl
@[simp] theorem virtualRead_rflagsIf (off n : Nat) (s : State) : (virtualRead off n s).rflagsIf = s.rflagsIf := rfl
@[simp] theorem virtualRead_rflagsRf (off n : Nat) (s : State) : (virtualRead off n s).rflagsRf = s.rflagsRf := rfl
@[simp] theorem virtualRead_blockingBySti (off n : Nat) (s : State) : (virtualRead off n s).blockingBySti = s.blockingBySti := rfl
@[simp] theorem virtualRead_blockingByMovSs (off n : Nat) (s : State) : (virtualRead off n s).blockingByMovSs = s.blockingByMovSs := rfl
@[simp] theorem virtualRead_activity (off n : Nat) (s : State) : (virtualRead off n s).activity = s.activity := rfl
@[simp] theorem virtualRead_cr0Pg (off n : Nat) (s : State) : (virtualRead off n s).cr0Pg = s.cr0Pg := rfl
@[simp] theorem virtualRead_cr4Uintr (off n : Nat) (s : State) : (virtualRead off n s).cr4Uintr = s.cr4Uintr := rfl
@[simp] theorem virtualRead_cr8 (off n : Nat) (s : State) : (virtualRead off n s).cr8 = s.cr8 := rfl
@[simp] theorem virtualRead_eferLma (off n : Nat) (s : State) : (virtualRead off n s).eferLma = s.eferLma := rfl
@[simp] theorem virtualRead_apicBase (off n : Nat) (s : State) : (virtualRead off n s).apicBase = s.apicBase := rfl
@[simp] theorem virtualRead_vmxBasic (off n : Nat) (s : State) : (virtualRead off n s).vmxBasic = s.vmxBasic := rfl
@[simp] theorem virtualRead_transactional (off n : Nat) (s : State) : (virtualRead off n s).transactional = s.transactional := rfl
@[simp] theorem virtualRead_enclave (off n : Nat) (s : State) : (virtualRead off n s).enclave = s.enclave := rfl
@[simp] theorem virtualRead_rvi (off n : Nat) (s : State) : (virtualRead off n s).rvi = s.rvi := rfl
@[simp] theorem virtualRead_svi (off n : Nat) (s : State) : (virtualRead off n s).svi = s.svi := rfl
@[simp] theorem virtualRead_pending (off n : Nat) (s : State) : (virtualRead off n s).pending = s.pending := rfl
@[simp] theorem virtualRead_wroteVirt (off n : Nat) (s : State) : (virtualRead off n s).wroteVirt = s.wroteVirt := rfl
@[simp] theorem virtualRead_midRep (off n : Nat) (s : State) : (virtualRead off n s).midRep = s.midRep := rfl
@[simp] theorem virtualRead_userNotified (off n : Nat) (s : State) : (virtualRead off n s).userNotified = s.userNotified := rfl
@[simp] theorem virtualRead_loaded (off n : Nat) (s : State) : (virtualRead off n s).loaded = s.mem.readBytes (vapicAt s off) n := rfl
@[simp] theorem virtualRead_lastExit (off n : Nat) (s : State) : (virtualRead off n s).lastExit = s.lastExit := rfl
@[simp] theorem virtualRead_vmcs (off n : Nat) (s : State) : (virtualRead off n s).vmcs = s.vmcs := rfl
@[simp] theorem virtualRead_params (off n : Nat) (s : State) : (virtualRead off n s).params = s.params := rfl
@[simp] theorem virtualRead_mem (off n : Nat) (s : State) : (virtualRead off n s).mem = s.mem := rfl
@[simp] theorem virtualRead_history (off n : Nat) (s : State) : (virtualRead off n s).history = s.history := rfl
@[simp] theorem virtualRead_agents (off n : Nat) (s : State) : (virtualRead off n s).agents = s.agents := rfl
@[simp] theorem virtualRead_inputs (off n : Nat) (s : State) : (virtualRead off n s).inputs = s.inputs := rfl

/-! ### beginAccess -/

@[simp] theorem beginAccess_mode (cont : Bool) (s : State) : (beginAccess cont s).mode = s.mode := rfl
@[simp] theorem beginAccess_gpr (cont : Bool) (s : State) : (beginAccess cont s).gpr = s.gpr := rfl
@[simp] theorem beginAccess_ip (cont : Bool) (s : State) : (beginAccess cont s).ip = s.ip := rfl
@[simp] theorem beginAccess_nextIp (cont : Bool) (s : State) : (beginAccess cont s).nextIp = s.nextIp := rfl
@[simp] theorem beginAccess_rflagsIf (cont : Bool) (s : State) : (beginAccess cont s).rflagsIf = s.rflagsIf := rfl
@[simp] theorem beginAccess_rflagsRf (cont : Bool) (s : State) : (beginAccess cont s).rflagsRf = s.rflagsRf := rfl
@[simp] theorem beginAccess_blockingBySti (cont : Bool) (s : State) : (beginAccess cont s).blockingBySti = s.blockingBySti := rfl
@[simp] theorem beginAccess_blockingByMovSs (cont : Bool) (s : State) : (beginAccess cont s).blockingByMovSs = s.blockingByMovSs := rfl
@[simp] theorem beginAccess_activity (cont : Bool) (s : State) : (beginAccess cont s).activity = s.activity := rfl
@[simp] theorem beginAccess_cr0Pg (cont : Bool) (s : State) : (beginAccess cont s).cr0Pg = s.cr0Pg := rfl
@[simp] theorem beginAccess_cr4Uintr (cont : Bool) (s : State) : (beginAccess cont s).cr4Uintr = s.cr4Uintr := rfl
@[simp] theorem beginAccess_cr8 (cont : Bool) (s : State) : (beginAccess cont s).cr8 = s.cr8 := rfl
@[simp] theorem beginAccess_eferLma (cont : Bool) (s : State) : (beginAccess cont s).eferLma = s.eferLma := rfl
@[simp] theorem beginAccess_apicBase (cont : Bool) (s : State) : (beginAccess cont s).apicBase = s.apicBase := rfl
@[simp] theorem beginAccess_vmxBasic (cont : Bool) (s : State) : (beginAccess cont s).vmxBasic = s.vmxBasic := rfl
@[simp] theorem beginAccess_transactional (cont : Bool) (s : State) : (beginAccess cont s).transactional = s.transactional := rfl
@[simp] theorem beginAccess_enclave (cont : Bool) (s : State) : (beginAccess cont s).enclave = s.enclave := rfl
@[simp] theorem beginAccess_rvi (cont : Bool) (s : State) : (beginAccess cont s).rvi = s.rvi := rfl
@[simp] theorem beginAccess_svi (cont : Bool) (s : State) : (beginAccess cont s).svi = s.svi := rfl
@[simp] theorem beginAccess_pending (cont : Bool) (s : State) : (beginAccess cont s).pending = s.pending := rfl
@[simp] theorem beginAccess_wroteVirt (cont : Bool) (s : State) : (beginAccess cont s).wroteVirt = (cont && s.wroteVirt) := rfl
@[simp] theorem beginAccess_midRep (cont : Bool) (s : State) : (beginAccess cont s).midRep = s.midRep := rfl
@[simp] theorem beginAccess_userNotified (cont : Bool) (s : State) : (beginAccess cont s).userNotified = s.userNotified := rfl
@[simp] theorem beginAccess_loaded (cont : Bool) (s : State) : (beginAccess cont s).loaded = s.loaded := rfl
@[simp] theorem beginAccess_lastExit (cont : Bool) (s : State) : (beginAccess cont s).lastExit = s.lastExit := rfl
@[simp] theorem beginAccess_vmcs (cont : Bool) (s : State) : (beginAccess cont s).vmcs = s.vmcs := rfl
@[simp] theorem beginAccess_params (cont : Bool) (s : State) : (beginAccess cont s).params = s.params := rfl
@[simp] theorem beginAccess_mem (cont : Bool) (s : State) : (beginAccess cont s).mem = s.mem := rfl
@[simp] theorem beginAccess_history (cont : Bool) (s : State) : (beginAccess cont s).history = s.history := rfl
@[simp] theorem beginAccess_agents (cont : Bool) (s : State) : (beginAccess cont s).agents = s.agents := rfl
@[simp] theorem beginAccess_inputs (cont : Bool) (s : State) : (beginAccess cont s).inputs = s.inputs := rfl

/-! ### setPagingFlags -/

@[simp] theorem setPagingFlags_mode (kind : AccessKind) (s : State) : (setPagingFlags kind s).mode = s.mode := rfl
@[simp] theorem setPagingFlags_gpr (kind : AccessKind) (s : State) : (setPagingFlags kind s).gpr = s.gpr := rfl
@[simp] theorem setPagingFlags_ip (kind : AccessKind) (s : State) : (setPagingFlags kind s).ip = s.ip := rfl
@[simp] theorem setPagingFlags_nextIp (kind : AccessKind) (s : State) : (setPagingFlags kind s).nextIp = s.nextIp := rfl
@[simp] theorem setPagingFlags_rflagsIf (kind : AccessKind) (s : State) : (setPagingFlags kind s).rflagsIf = s.rflagsIf := rfl
@[simp] theorem setPagingFlags_rflagsRf (kind : AccessKind) (s : State) : (setPagingFlags kind s).rflagsRf = s.rflagsRf := rfl
@[simp] theorem setPagingFlags_blockingBySti (kind : AccessKind) (s : State) : (setPagingFlags kind s).blockingBySti = s.blockingBySti := rfl
@[simp] theorem setPagingFlags_blockingByMovSs (kind : AccessKind) (s : State) : (setPagingFlags kind s).blockingByMovSs = s.blockingByMovSs := rfl
@[simp] theorem setPagingFlags_activity (kind : AccessKind) (s : State) : (setPagingFlags kind s).activity = s.activity := rfl
@[simp] theorem setPagingFlags_cr0Pg (kind : AccessKind) (s : State) : (setPagingFlags kind s).cr0Pg = s.cr0Pg := rfl
@[simp] theorem setPagingFlags_cr4Uintr (kind : AccessKind) (s : State) : (setPagingFlags kind s).cr4Uintr = s.cr4Uintr := rfl
@[simp] theorem setPagingFlags_cr8 (kind : AccessKind) (s : State) : (setPagingFlags kind s).cr8 = s.cr8 := rfl
@[simp] theorem setPagingFlags_eferLma (kind : AccessKind) (s : State) : (setPagingFlags kind s).eferLma = s.eferLma := rfl
@[simp] theorem setPagingFlags_apicBase (kind : AccessKind) (s : State) : (setPagingFlags kind s).apicBase = s.apicBase := rfl
@[simp] theorem setPagingFlags_vmxBasic (kind : AccessKind) (s : State) : (setPagingFlags kind s).vmxBasic = s.vmxBasic := rfl
@[simp] theorem setPagingFlags_transactional (kind : AccessKind) (s : State) : (setPagingFlags kind s).transactional = s.transactional := rfl
@[simp] theorem setPagingFlags_enclave (kind : AccessKind) (s : State) : (setPagingFlags kind s).enclave = s.enclave := rfl
@[simp] theorem setPagingFlags_rvi (kind : AccessKind) (s : State) : (setPagingFlags kind s).rvi = s.rvi := rfl
@[simp] theorem setPagingFlags_svi (kind : AccessKind) (s : State) : (setPagingFlags kind s).svi = s.svi := rfl
@[simp] theorem setPagingFlags_pending (kind : AccessKind) (s : State) : (setPagingFlags kind s).pending = s.pending := rfl
@[simp] theorem setPagingFlags_wroteVirt (kind : AccessKind) (s : State) : (setPagingFlags kind s).wroteVirt = s.wroteVirt := rfl
@[simp] theorem setPagingFlags_midRep (kind : AccessKind) (s : State) : (setPagingFlags kind s).midRep = s.midRep := rfl
@[simp] theorem setPagingFlags_userNotified (kind : AccessKind) (s : State) : (setPagingFlags kind s).userNotified = s.userNotified := rfl
@[simp] theorem setPagingFlags_loaded (kind : AccessKind) (s : State) : (setPagingFlags kind s).loaded = s.loaded := rfl
@[simp] theorem setPagingFlags_lastExit (kind : AccessKind) (s : State) : (setPagingFlags kind s).lastExit = s.lastExit := rfl
@[simp] theorem setPagingFlags_vmcs (kind : AccessKind) (s : State) : (setPagingFlags kind s).vmcs = s.vmcs := rfl
@[simp] theorem setPagingFlags_params (kind : AccessKind) (s : State) : (setPagingFlags kind s).params = s.params := rfl
@[simp] theorem setPagingFlags_mem (kind : AccessKind) (s : State) : (setPagingFlags kind s).mem = s.mem := rfl
@[simp] theorem setPagingFlags_history (kind : AccessKind) (s : State) : (setPagingFlags kind s).history = s.history ++ [.pagingFlagsSet s.cr0Pg (decide (kind = .write))] := rfl
@[simp] theorem setPagingFlags_agents (kind : AccessKind) (s : State) : (setPagingFlags kind s).agents = s.agents := rfl
@[simp] theorem setPagingFlags_inputs (kind : AccessKind) (s : State) : (setPagingFlags kind s).inputs = s.inputs := rfl

/-! ### takeVmExit -/

@[simp] theorem takeVmExit_mode (e : VmExit) (s : State) : (takeVmExit e s).mode = .vmxRoot := rfl
@[simp] theorem takeVmExit_gpr (e : VmExit) (s : State) : (takeVmExit e s).gpr = s.gpr := rfl
@[simp] theorem takeVmExit_ip (e : VmExit) (s : State) : (takeVmExit e s).ip = s.ip := rfl
@[simp] theorem takeVmExit_nextIp (e : VmExit) (s : State) : (takeVmExit e s).nextIp = s.nextIp := rfl
@[simp] theorem takeVmExit_rflagsIf (e : VmExit) (s : State) : (takeVmExit e s).rflagsIf = s.rflagsIf := rfl
@[simp] theorem takeVmExit_rflagsRf (e : VmExit) (s : State) : (takeVmExit e s).rflagsRf = s.rflagsRf := rfl
@[simp] theorem takeVmExit_blockingBySti (e : VmExit) (s : State) : (takeVmExit e s).blockingBySti = s.blockingBySti := rfl
@[simp] theorem takeVmExit_blockingByMovSs (e : VmExit) (s : State) : (takeVmExit e s).blockingByMovSs = s.blockingByMovSs := rfl
@[simp] theorem takeVmExit_activity (e : VmExit) (s : State) : (takeVmExit e s).activity = s.activity := rfl
@[simp] theorem takeVmExit_cr0Pg (e : VmExit) (s : State) : (takeVmExit e s).cr0Pg = s.cr0Pg := rfl
@[simp] theorem takeVmExit_cr4Uintr (e : VmExit) (s : State) : (takeVmExit e s).cr4Uintr = s.cr4Uintr := rfl
@[simp] theorem takeVmExit_cr8 (e : VmExit) (s : State) : (takeVmExit e s).cr8 = s.cr8 := rfl
@[simp] theorem takeVmExit_eferLma (e : VmExit) (s : State) : (takeVmExit e s).eferLma = s.eferLma := rfl
@[simp] theorem takeVmExit_apicBase (e : VmExit) (s : State) : (takeVmExit e s).apicBase = s.apicBase := rfl
@[simp] theorem takeVmExit_vmxBasic (e : VmExit) (s : State) : (takeVmExit e s).vmxBasic = s.vmxBasic := rfl
@[simp] theorem takeVmExit_transactional (e : VmExit) (s : State) : (takeVmExit e s).transactional = s.transactional := rfl
@[simp] theorem takeVmExit_enclave (e : VmExit) (s : State) : (takeVmExit e s).enclave = s.enclave := rfl
@[simp] theorem takeVmExit_rvi (e : VmExit) (s : State) : (takeVmExit e s).rvi = s.rvi := rfl
@[simp] theorem takeVmExit_svi (e : VmExit) (s : State) : (takeVmExit e s).svi = s.svi := rfl
@[simp] theorem takeVmExit_pending (e : VmExit) (s : State) : (takeVmExit e s).pending = s.pending := rfl
@[simp] theorem takeVmExit_wroteVirt (e : VmExit) (s : State) : (takeVmExit e s).wroteVirt = s.wroteVirt := rfl
@[simp] theorem takeVmExit_midRep (e : VmExit) (s : State) : (takeVmExit e s).midRep = s.midRep := rfl
@[simp] theorem takeVmExit_userNotified (e : VmExit) (s : State) : (takeVmExit e s).userNotified = s.userNotified := rfl
@[simp] theorem takeVmExit_loaded (e : VmExit) (s : State) : (takeVmExit e s).loaded = s.loaded := rfl
@[simp] theorem takeVmExit_lastExit (e : VmExit) (s : State) : (takeVmExit e s).lastExit = some e := rfl
@[simp] theorem takeVmExit_vmcs (e : VmExit) (s : State) : (takeVmExit e s).vmcs = { s.vmcs with guest := { ip := savedIp e s, rvi := s.rvi, svi := s.svi } } := rfl
@[simp] theorem takeVmExit_params (e : VmExit) (s : State) : (takeVmExit e s).params = s.params := rfl
@[simp] theorem takeVmExit_mem (e : VmExit) (s : State) : (takeVmExit e s).mem = s.mem := rfl
@[simp] theorem takeVmExit_history (e : VmExit) (s : State) : (takeVmExit e s).history = s.history := rfl
@[simp] theorem takeVmExit_agents (e : VmExit) (s : State) : (takeVmExit e s).agents = s.agents := rfl
@[simp] theorem takeVmExit_inputs (e : VmExit) (s : State) : (takeVmExit e s).inputs = s.inputs := rfl

/-! ### enterGuest -/

@[simp] theorem enterGuest_mode (s : State) : (enterGuest s).mode = .vmxNonRoot := rfl
@[simp] theorem enterGuest_gpr (s : State) : (enterGuest s).gpr = s.gpr := rfl
@[simp] theorem enterGuest_ip (s : State) : (enterGuest s).ip = s.vmcs.guest.ip := rfl
@[simp] theorem enterGuest_nextIp (s : State) : (enterGuest s).nextIp = s.nextIp := rfl
@[simp] theorem enterGuest_rflagsIf (s : State) : (enterGuest s).rflagsIf = s.rflagsIf := rfl
@[simp] theorem enterGuest_rflagsRf (s : State) : (enterGuest s).rflagsRf = s.rflagsRf := rfl
@[simp] theorem enterGuest_blockingBySti (s : State) : (enterGuest s).blockingBySti = s.blockingBySti := rfl
@[simp] theorem enterGuest_blockingByMovSs (s : State) : (enterGuest s).blockingByMovSs = s.blockingByMovSs := rfl
@[simp] theorem enterGuest_activity (s : State) : (enterGuest s).activity = s.activity := rfl
@[simp] theorem enterGuest_cr0Pg (s : State) : (enterGuest s).cr0Pg = s.cr0Pg := rfl
@[simp] theorem enterGuest_cr4Uintr (s : State) : (enterGuest s).cr4Uintr = s.cr4Uintr := rfl
@[simp] theorem enterGuest_cr8 (s : State) : (enterGuest s).cr8 = s.cr8 := rfl
@[simp] theorem enterGuest_eferLma (s : State) : (enterGuest s).eferLma = s.eferLma := rfl
@[simp] theorem enterGuest_apicBase (s : State) : (enterGuest s).apicBase = s.apicBase := rfl
@[simp] theorem enterGuest_vmxBasic (s : State) : (enterGuest s).vmxBasic = s.vmxBasic := rfl
@[simp] theorem enterGuest_transactional (s : State) : (enterGuest s).transactional = s.transactional := rfl
@[simp] theorem enterGuest_enclave (s : State) : (enterGuest s).enclave = s.enclave := rfl
@[simp] theorem enterGuest_rvi (s : State) : (enterGuest s).rvi = s.vmcs.guest.rvi := rfl
@[simp] theorem enterGuest_svi (s : State) : (enterGuest s).svi = s.vmcs.guest.svi := rfl
@[simp] theorem enterGuest_pending (s : State) : (enterGuest s).pending = false := rfl
@[simp] theorem enterGuest_wroteVirt (s : State) : (enterGuest s).wroteVirt = false := rfl
@[simp] theorem enterGuest_midRep (s : State) : (enterGuest s).midRep = false := rfl
@[simp] theorem enterGuest_userNotified (s : State) : (enterGuest s).userNotified = s.userNotified := rfl
@[simp] theorem enterGuest_loaded (s : State) : (enterGuest s).loaded = s.loaded := rfl
@[simp] theorem enterGuest_lastExit (s : State) : (enterGuest s).lastExit = s.lastExit := rfl
@[simp] theorem enterGuest_vmcs (s : State) : (enterGuest s).vmcs = s.vmcs := rfl
@[simp] theorem enterGuest_params (s : State) : (enterGuest s).params = s.params := rfl
@[simp] theorem enterGuest_mem (s : State) : (enterGuest s).mem = s.mem := rfl
@[simp] theorem enterGuest_history (s : State) : (enterGuest s).history = s.history := rfl
@[simp] theorem enterGuest_agents (s : State) : (enterGuest s).agents = s.agents := rfl
@[simp] theorem enterGuest_inputs (s : State) : (enterGuest s).inputs = s.inputs := rfl

/-! ### completeIteration -/

@[simp] theorem completeIteration_mode (it : RepIter) (s : State) : (completeIteration it s).mode = s.mode := rfl
@[simp] theorem completeIteration_gpr (it : RepIter) (s : State) : (completeIteration it s).gpr = ((s.gpr.set Reg.rcx it.rcx).set Reg.rsi it.rsi).set Reg.rdi it.rdi := rfl
@[simp] theorem completeIteration_ip (it : RepIter) (s : State) : (completeIteration it s).ip = (if it.more then s.ip else s.nextIp) := rfl
@[simp] theorem completeIteration_nextIp (it : RepIter) (s : State) : (completeIteration it s).nextIp = s.nextIp := rfl
@[simp] theorem completeIteration_rflagsIf (it : RepIter) (s : State) : (completeIteration it s).rflagsIf = s.rflagsIf := rfl
@[simp] theorem completeIteration_rflagsRf (it : RepIter) (s : State) : (completeIteration it s).rflagsRf = s.rflagsRf := rfl
@[simp] theorem completeIteration_blockingBySti (it : RepIter) (s : State) : (completeIteration it s).blockingBySti = s.blockingBySti := rfl
@[simp] theorem completeIteration_blockingByMovSs (it : RepIter) (s : State) : (completeIteration it s).blockingByMovSs = s.blockingByMovSs := rfl
@[simp] theorem completeIteration_activity (it : RepIter) (s : State) : (completeIteration it s).activity = s.activity := rfl
@[simp] theorem completeIteration_cr0Pg (it : RepIter) (s : State) : (completeIteration it s).cr0Pg = s.cr0Pg := rfl
@[simp] theorem completeIteration_cr4Uintr (it : RepIter) (s : State) : (completeIteration it s).cr4Uintr = s.cr4Uintr := rfl
@[simp] theorem completeIteration_cr8 (it : RepIter) (s : State) : (completeIteration it s).cr8 = s.cr8 := rfl
@[simp] theorem completeIteration_eferLma (it : RepIter) (s : State) : (completeIteration it s).eferLma = s.eferLma := rfl
@[simp] theorem completeIteration_apicBase (it : RepIter) (s : State) : (completeIteration it s).apicBase = s.apicBase := rfl
@[simp] theorem completeIteration_vmxBasic (it : RepIter) (s : State) : (completeIteration it s).vmxBasic = s.vmxBasic := rfl
@[simp] theorem completeIteration_transactional (it : RepIter) (s : State) : (completeIteration it s).transactional = s.transactional := rfl
@[simp] theorem completeIteration_enclave (it : RepIter) (s : State) : (completeIteration it s).enclave = s.enclave := rfl
@[simp] theorem completeIteration_rvi (it : RepIter) (s : State) : (completeIteration it s).rvi = s.rvi := rfl
@[simp] theorem completeIteration_svi (it : RepIter) (s : State) : (completeIteration it s).svi = s.svi := rfl
@[simp] theorem completeIteration_pending (it : RepIter) (s : State) : (completeIteration it s).pending = s.pending := rfl
@[simp] theorem completeIteration_wroteVirt (it : RepIter) (s : State) : (completeIteration it s).wroteVirt = false := rfl
@[simp] theorem completeIteration_midRep (it : RepIter) (s : State) : (completeIteration it s).midRep = it.more := rfl
@[simp] theorem completeIteration_userNotified (it : RepIter) (s : State) : (completeIteration it s).userNotified = s.userNotified := rfl
@[simp] theorem completeIteration_loaded (it : RepIter) (s : State) : (completeIteration it s).loaded = s.loaded := rfl
@[simp] theorem completeIteration_lastExit (it : RepIter) (s : State) : (completeIteration it s).lastExit = s.lastExit := rfl
@[simp] theorem completeIteration_vmcs (it : RepIter) (s : State) : (completeIteration it s).vmcs = s.vmcs := rfl
@[simp] theorem completeIteration_params (it : RepIter) (s : State) : (completeIteration it s).params = s.params := rfl
@[simp] theorem completeIteration_mem (it : RepIter) (s : State) : (completeIteration it s).mem = s.mem := rfl
@[simp] theorem completeIteration_history (it : RepIter) (s : State) : (completeIteration it s).history = s.history := rfl
@[simp] theorem completeIteration_agents (it : RepIter) (s : State) : (completeIteration it s).agents = s.agents := rfl
@[simp] theorem completeIteration_inputs (it : RepIter) (s : State) : (completeIteration it s).inputs = s.inputs := rfl

end Sys2Proof.Machine
end

