-- ==== Sys2Proof/Laws/Page.lean ====
section
/-! SUPPORT. The laws of the virtual-APIC page: its 32-bit fields, its two 256-bit registers, and `highest`. -/

namespace Sys2Proof.Machine

/-! ### 32-bit fields -/

@[simp] theorem vapic32_setVapic32_same (off : Nat) (v : BitVec 32) (s : State) :
    vapic32 (setVapic32 off v s) off = v := by
  simp [vapic32, vapicAt, setVapic32]

/-- A field elsewhere on the page is left alone. -/
theorem vapic32_setVapic32_other {off x : Nat} (v : BitVec 32) (s : State) (h : x + 4 ≤ off ∨ off + 4 ≤ x) :
    vapic32 (setVapic32 off v s) x = vapic32 s x := by
  simp only [vapic32, vapicAt, setVapic32_mem, setVapic32_vmcs]
  exact Memory.read32_writeLe_disjoint _ _ _ _ _ (by omega)

/-- Two states with the same page address and memory have the same fields. -/
theorem vapic32_congr {s t : State} (hv : t.vmcs.vapicAddr = s.vmcs.vapicAddr) (hm : t.mem = s.mem) (off : Nat) :
    vapic32 t off = vapic32 s off := by simp [vapic32, vapicAt, hv, hm]

theorem vreg_congr {s t : State} (hv : t.vmcs.vapicAddr = s.vmcs.vapicAddr) (hm : t.mem = s.mem) (base : Nat) :
    vreg t base = vreg s base := by simp only [vreg, vapic32_congr hv hm]

/-- The page's registers do not depend on RVI, SVI, the latch, the mode, the processor state or the history. -/
@[simp] theorem vapic32_setRvi (v : IntVector) (s : State) (off : Nat) : vapic32 (setRvi v s) off = vapic32 s off := rfl
@[simp] theorem vtpr_setRvi (v : IntVector) (s : State) : vtpr (setRvi v s) = vtpr s := rfl
@[simp] theorem vppr_setRvi (v : IntVector) (s : State) : vppr (setRvi v s) = vppr s := rfl
@[simp] theorem visr_setRvi (v : IntVector) (s : State) : visr (setRvi v s) = visr s := rfl
@[simp] theorem virr_setRvi (v : IntVector) (s : State) : virr (setRvi v s) = virr s := rfl
@[simp] theorem vapic32_setSvi (v : IntVector) (s : State) (off : Nat) : vapic32 (setSvi v s) off = vapic32 s off := rfl
@[simp] theorem vtpr_setSvi (v : IntVector) (s : State) : vtpr (setSvi v s) = vtpr s := rfl
@[simp] theorem vppr_setSvi (v : IntVector) (s : State) : vppr (setSvi v s) = vppr s := rfl
@[simp] theorem visr_setSvi (v : IntVector) (s : State) : visr (setSvi v s) = visr s := rfl
@[simp] theorem virr_setSvi (v : IntVector) (s : State) : virr (setSvi v s) = virr s := rfl
@[simp] theorem vapic32_setPending (b : Bool) (s : State) (off : Nat) : vapic32 (setPending b s) off = vapic32 s off := rfl
@[simp] theorem vtpr_setPending (b : Bool) (s : State) : vtpr (setPending b s) = vtpr s := rfl
@[simp] theorem vppr_setPending (b : Bool) (s : State) : vppr (setPending b s) = vppr s := rfl
@[simp] theorem visr_setPending (b : Bool) (s : State) : visr (setPending b s) = visr s := rfl
@[simp] theorem virr_setPending (b : Bool) (s : State) : virr (setPending b s) = virr s := rfl
@[simp] theorem vapic32_evaluate (s : State) (off : Nat) : vapic32 (evaluate s) off = vapic32 s off := rfl
@[simp] theorem vtpr_evaluate (s : State) : vtpr (evaluate s) = vtpr s := rfl
@[simp] theorem vppr_evaluate (s : State) : vppr (evaluate s) = vppr s := rfl
@[simp] theorem visr_evaluate (s : State) : visr (evaluate s) = visr s := rfl
@[simp] theorem virr_evaluate (s : State) : virr (evaluate s) = virr s := rfl
@[simp] theorem vapic32_emit (e : Event) (s : State) (off : Nat) : vapic32 (emit e s) off = vapic32 s off := rfl
@[simp] theorem vtpr_emit (e : Event) (s : State) : vtpr (emit e s) = vtpr s := rfl
@[simp] theorem vppr_emit (e : Event) (s : State) : vppr (emit e s) = vppr s := rfl
@[simp] theorem visr_emit (e : Event) (s : State) : visr (emit e s) = visr s := rfl
@[simp] theorem virr_emit (e : Event) (s : State) : virr (emit e s) = virr s := rfl
@[simp] theorem vapic32_retire (s : State) (off : Nat) : vapic32 (retire s) off = vapic32 s off := rfl
@[simp] theorem vtpr_retire (s : State) : vtpr (retire s) = vtpr s := rfl
@[simp] theorem vppr_retire (s : State) : vppr (retire s) = vppr s := rfl
@[simp] theorem visr_retire (s : State) : visr (retire s) = visr s := rfl
@[simp] theorem virr_retire (s : State) : virr (retire s) = virr s := rfl
@[simp] theorem vapic32_takeVmExit (e : VmExit) (s : State) (off : Nat) : vapic32 (takeVmExit e s) off = vapic32 s off := rfl
@[simp] theorem vtpr_takeVmExit (e : VmExit) (s : State) : vtpr (takeVmExit e s) = vtpr s := rfl
@[simp] theorem vppr_takeVmExit (e : VmExit) (s : State) : vppr (takeVmExit e s) = vppr s := rfl
@[simp] theorem visr_takeVmExit (e : VmExit) (s : State) : visr (takeVmExit e s) = visr s := rfl
@[simp] theorem virr_takeVmExit (e : VmExit) (s : State) : virr (takeVmExit e s) = virr s := rfl
@[simp] theorem vapic32_setReg (r : Reg) (v : BitVec 64) (s : State) (off : Nat) : vapic32 (setReg r v s) off = vapic32 s off := rfl
@[simp] theorem vtpr_setReg (r : Reg) (v : BitVec 64) (s : State) : vtpr (setReg r v s) = vtpr s := rfl
@[simp] theorem vppr_setReg (r : Reg) (v : BitVec 64) (s : State) : vppr (setReg r v s) = vppr s := rfl
@[simp] theorem visr_setReg (r : Reg) (v : BitVec 64) (s : State) : visr (setReg r v s) = visr s := rfl
@[simp] theorem virr_setReg (r : Reg) (v : BitVec 64) (s : State) : virr (setReg r v s) = virr s := rfl
@[simp] theorem vapic32_wake (s : State) (off : Nat) : vapic32 (wake s) off = vapic32 s off := rfl
@[simp] theorem vtpr_wake (s : State) : vtpr (wake s) = vtpr s := rfl
@[simp] theorem vppr_wake (s : State) : vppr (wake s) = vppr s := rfl
@[simp] theorem visr_wake (s : State) : visr (wake s) = visr s := rfl
@[simp] theorem virr_wake (s : State) : virr (wake s) = virr s := rfl
@[simp] theorem vapic32_afterPosted (s : State) (off : Nat) : vapic32 (afterPosted s) off = vapic32 s off := rfl
@[simp] theorem vtpr_afterPosted (s : State) : vtpr (afterPosted s) = vtpr s := rfl
@[simp] theorem vppr_afterPosted (s : State) : vppr (afterPosted s) = vppr s := rfl
@[simp] theorem visr_afterPosted (s : State) : visr (afterPosted s) = visr s := rfl
@[simp] theorem virr_afterPosted (s : State) : virr (afterPosted s) = virr s := rfl
@[simp] theorem vapic32_enterGuest (s : State) (off : Nat) : vapic32 (enterGuest s) off = vapic32 s off := rfl
@[simp] theorem vtpr_enterGuest (s : State) : vtpr (enterGuest s) = vtpr s := rfl
@[simp] theorem vppr_enterGuest (s : State) : vppr (enterGuest s) = vppr s := rfl
@[simp] theorem visr_enterGuest (s : State) : visr (enterGuest s) = visr s := rfl
@[simp] theorem virr_enterGuest (s : State) : virr (enterGuest s) = virr s := rfl

/-! ### The places of the bits of VISR and VIRR (R25, R26) -/

theorem fieldOff_isr : ∀ x : IntVector, fieldOff offIsr x = offIsr + 16 * (x.toNat / 32) := by decide

theorem fieldOff_irr : ∀ x : IntVector, fieldOff offIrr x = offIrr + 16 * (x.toNat / 32) := by decide

theorem fieldBit_eq : ∀ x : IntVector, fieldBit x = x.toNat % 32 := by decide

/-- A bit of a concatenation, by whether it is in the low part. -/
theorem getLsbD_append_low {n m : Nat} (x : BitVec n) (y : BitVec m) {i : Nat} (h : i < m) :
    (x ++ y).getLsbD i = y.getLsbD i := by simp [BitVec.getLsbD_append, h]

theorem getLsbD_append_high {n : Nat} (x : BitVec n) (y : BitVec 32) (i : Nat) :
    (x ++ y).getLsbD (32 + i) = x.getLsbD i := by simp [BitVec.getLsbD_append]

/-- A bit of eight concatenated fields, the last the least significant, by the field that holds it. -/
theorem getLsbD_fields (f0 f1 f2 f3 f4 f5 f6 f7 : BitVec 32) (k j : Nat) (hj : j < 32) :
    (f7 ++ f6 ++ f5 ++ f4 ++ f3 ++ f2 ++ f1 ++ f0).getLsbD (32 * k + j) =
      match k with
      | 0 => f0.getLsbD j
      | 1 => f1.getLsbD j
      | 2 => f2.getLsbD j
      | 3 => f3.getLsbD j
      | 4 => f4.getLsbD j
      | 5 => f5.getLsbD j
      | 6 => f6.getLsbD j
      | k + 7 => f7.getLsbD (32 * k + j) := by
  match k with
  | 0 => rw [Nat.mul_zero, Nat.zero_add, getLsbD_append_low _ _ hj]
  | 1 => rw [show 32 * 1 + j = 32 + j by omega, getLsbD_append_high, getLsbD_append_low _ _ hj]
  | 2 =>
    rw [show 32 * 2 + j = 32 + (32 + j) by omega]
    iterate 2 rw [getLsbD_append_high]
    rw [getLsbD_append_low _ _ hj]
  | 3 =>
    rw [show 32 * 3 + j = 32 + (32 + (32 + j)) by omega]
    iterate 3 rw [getLsbD_append_high]
    rw [getLsbD_append_low _ _ hj]
  | 4 =>
    rw [show 32 * 4 + j = 32 + (32 + (32 + (32 + j))) by omega]
    iterate 4 rw [getLsbD_append_high]
    rw [getLsbD_append_low _ _ hj]
  | 5 =>
    rw [show 32 * 5 + j = 32 + (32 + (32 + (32 + (32 + j)))) by omega]
    iterate 5 rw [getLsbD_append_high]
    rw [getLsbD_append_low _ _ hj]
  | 6 =>
    rw [show 32 * 6 + j = 32 + (32 + (32 + (32 + (32 + (32 + j))))) by omega]
    iterate 6 rw [getLsbD_append_high]
    rw [getLsbD_append_low _ _ hj]
  | k + 7 =>
    rw [show 32 * (k + 7) + j = 32 + (32 + (32 + (32 + (32 + (32 + (32 + (32 * k + j))))))) by omega]
    iterate 7 rw [getLsbD_append_high]

/-- A bit of the assembled register is a bit of the field that holds it. -/
theorem getLsbD_vreg (s : State) (base n : Nat) (hn : n < 256) :
    (vreg s base).getLsbD n = (vapic32 s (base + 16 * (n / 32))).getLsbD (n % 32) := by
  have hk : n / 32 < 8 := by omega
  have h := getLsbD_fields (vapic32 s base) (vapic32 s (base + 0x10)) (vapic32 s (base + 0x20))
    (vapic32 s (base + 0x30)) (vapic32 s (base + 0x40)) (vapic32 s (base + 0x50)) (vapic32 s (base + 0x60))
    (vapic32 s (base + 0x70)) (n / 32) (n % 32) (Nat.mod_lt _ (by omega))
  rw [Nat.div_add_mod] at h
  rw [vreg, h]
  generalize n / 32 = k at hk
  generalize n % 32 = j
  interval_cases k <;> simp

theorem getLsbD_visr (s : State) (x : IntVector) : (visr s).getLsbD x.toNat = vregBit s offIsr x := by
  rw [visr, getLsbD_vreg s _ _ x.isLt, vregBit, fieldOff_isr, fieldBit_eq]

theorem getLsbD_virr (s : State) (x : IntVector) : (virr s).getLsbD x.toNat = vregBit s offIrr x := by
  rw [virr, getLsbD_vreg s _ _ x.isLt, vregBit, fieldOff_irr, fieldBit_eq]

/-! ### Setting a bit -/

/-- The register after one of its fields is stored. -/
theorem getLsbD_vreg_setVapic32 (s : State) (base k n : Nat) (w : BitVec 32) (hn : n < 256) :
    (vreg (setVapic32 (base + 16 * k) w s) base).getLsbD n =
      if n / 32 = k then w.getLsbD (n % 32) else (vreg s base).getLsbD n := by
  rw [getLsbD_vreg _ _ _ hn]
  split
  · next h => rw [h, vapic32_setVapic32_same]
  · next h => rw [vapic32_setVapic32_other _ _ (by omega), getLsbD_vreg _ _ _ hn]

/-- Storing a field that is none of the register's leaves the register alone. -/
theorem vreg_setVapic32_other {base off : Nat} (w : BitVec 32) (s : State)
    (h : off + 4 ≤ base ∨ base + 0x74 ≤ off) : vreg (setVapic32 off w s) base = vreg s base := by
  simp only [vreg]
  repeat rw [vapic32_setVapic32_other _ _ (by omega)]

/-- A register with bit `x` set or cleared. -/
def withBit (r : BitVec 256) (x : IntVector) (v : Bool) : BitVec 256 :=
  if v then r ||| BitVec.twoPow 256 x.toNat else r &&& ~~~BitVec.twoPow 256 x.toNat

theorem getLsbD_withBit (r : BitVec 256) (x : IntVector) (v : Bool) (n : Nat) (hn : n < 256) :
    (withBit r x v).getLsbD n = if n = x.toNat then v else r.getLsbD n := by
  by_cases h : n = x.toNat
  · subst h; cases v <;> simp [withBit, hn]
  · cases v
    · simp [withBit, hn, h]
    · simp [withBit, hn, h]

theorem getLsbD_setField (w : BitVec 32) (b n : Nat) (v : Bool) (hn : n < 32) :
    (if v then w ||| BitVec.twoPow 32 b else w &&& ~~~BitVec.twoPow 32 b).getLsbD n =
      if n = b then v else w.getLsbD n := by
  by_cases h : n = b
  · subst h; cases v <;> simp [hn]
  · cases v
    · simp [hn, h]
    · simp [hn, h]

theorem vreg_setVregBit_of (base : Nat) (x : IntVector) (v : Bool) (s : State)
    (hf : fieldOff base x = base + 16 * (x.toNat / 32)) :
    vreg (setVregBit base x v s) base = withBit (vreg s base) x v := by
  apply BitVec.eq_of_getLsbD_eq
  intro n hn
  rw [setVregBit, hf, getLsbD_vreg_setVapic32 _ _ _ _ _ hn, getLsbD_withBit _ _ _ _ hn, fieldBit_eq]
  by_cases hk : n / 32 = x.toNat / 32
  · rw [if_pos hk, getLsbD_setField _ _ _ _ (Nat.mod_lt _ (by omega)),
      getLsbD_vreg _ _ _ hn, hk]
    by_cases hx : n = x.toNat
    · simp [hx]
    · rw [if_neg hx, if_neg (by omega)]
  · rw [if_neg hk, if_neg (by rintro rfl; exact hk rfl)]

/-- VISR after one of its bits is written. -/
@[simp] theorem visr_setVregBit_isr (x : IntVector) (v : Bool) (s : State) :
    visr (setVregBit offIsr x v s) = withBit (visr s) x v := vreg_setVregBit_of _ x v s (fieldOff_isr x)

/-- VIRR after one of its bits is written. -/
@[simp] theorem virr_setVregBit_irr (x : IntVector) (v : Bool) (s : State) :
    virr (setVregBit offIrr x v s) = withBit (virr s) x v := vreg_setVregBit_of _ x v s (fieldOff_irr x)

theorem fieldOff_isr_range (x : IntVector) : 0x100 ≤ fieldOff offIsr x ∧ fieldOff offIsr x ≤ 0x170 := by
  rw [fieldOff_isr]; have := x.isLt; simp only [offIsr]; omega

theorem fieldOff_irr_range (x : IntVector) : 0x200 ≤ fieldOff offIrr x ∧ fieldOff offIrr x ≤ 0x270 := by
  rw [fieldOff_irr]; have := x.isLt; simp only [offIrr]; omega

@[simp] theorem visr_setVregBit_irr (x : IntVector) (v : Bool) (s : State) :
    visr (setVregBit offIrr x v s) = visr s :=
  vreg_setVapic32_other _ _ (by have := fieldOff_irr_range x; simp only [offIsr]; omega)

@[simp] theorem virr_setVregBit_isr (x : IntVector) (v : Bool) (s : State) :
    virr (setVregBit offIsr x v s) = virr s :=
  vreg_setVapic32_other _ _ (by have := fieldOff_isr_range x; simp only [offIrr]; omega)

/-- A field below the bitmaps is left alone by a write to VISR. -/
theorem vapic32_setVregBit_isr {off : Nat} (x : IntVector) (v : Bool) (s : State)
    (h : off + 4 ≤ 0x100 ∨ 0x174 ≤ off) : vapic32 (setVregBit offIsr x v s) off = vapic32 s off :=
  vapic32_setVapic32_other _ _ (by have := fieldOff_isr_range x; omega)

theorem vapic32_setVregBit_irr {off : Nat} (x : IntVector) (v : Bool) (s : State)
    (h : off + 4 ≤ 0x200 ∨ 0x274 ≤ off) : vapic32 (setVregBit offIrr x v s) off = vapic32 s off :=
  vapic32_setVapic32_other _ _ (by have := fieldOff_irr_range x; omega)

@[simp] theorem vtpr_setVregBit_isr (x : IntVector) (v : Bool) (s : State) : vtpr (setVregBit offIsr x v s) = vtpr s :=
  vapic32_setVregBit_isr x v s (by decide)
@[simp] theorem vppr_setVregBit_isr (x : IntVector) (v : Bool) (s : State) : vppr (setVregBit offIsr x v s) = vppr s :=
  vapic32_setVregBit_isr x v s (by decide)
@[simp] theorem vtpr_setVregBit_irr (x : IntVector) (v : Bool) (s : State) : vtpr (setVregBit offIrr x v s) = vtpr s :=
  vapic32_setVregBit_irr x v s (by decide)
@[simp] theorem vppr_setVregBit_irr (x : IntVector) (v : Bool) (s : State) : vppr (setVregBit offIrr x v s) = vppr s :=
  vapic32_setVregBit_irr x v s (by decide)

/-! ### VPPR and VTPR -/

@[simp] theorem vppr_setVppr (v : BitVec 32) (s : State) : vppr (setVapic32 offPpr v s) = v :=
  vapic32_setVapic32_same _ _ _
@[simp] theorem vtpr_setVppr (v : BitVec 32) (s : State) : vtpr (setVapic32 offPpr v s) = vtpr s :=
  vapic32_setVapic32_other _ _ (by decide)
@[simp] theorem visr_setVppr (v : BitVec 32) (s : State) : visr (setVapic32 offPpr v s) = visr s :=
  vreg_setVapic32_other _ _ (by decide)
@[simp] theorem virr_setVppr (v : BitVec 32) (s : State) : virr (setVapic32 offPpr v s) = virr s :=
  vreg_setVapic32_other _ _ (by decide)
@[simp] theorem vtpr_setVtpr (v : BitVec 32) (s : State) : vtpr (setVapic32 offTpr v s) = v :=
  vapic32_setVapic32_same _ _ _
@[simp] theorem visr_setVtpr (v : BitVec 32) (s : State) : visr (setVapic32 offTpr v s) = visr s :=
  vreg_setVapic32_other _ _ (by decide)
@[simp] theorem virr_setVtpr (v : BitVec 32) (s : State) : virr (setVapic32 offTpr v s) = virr s :=
  vreg_setVapic32_other _ _ (by decide)

/-! ### OR into VIRR (R224 step 5) -/

/-- What `orFields` leaves alone: everything but memory. -/
theorem orFields_eq (base : Nat) (x : BitVec 256) (n : Nat) (s : State) :
    ∃ m, orFields base x n s = { s with mem := m } := by
  induction n with
  | zero => exact ⟨s.mem, rfl⟩
  | succ n ih =>
    obtain ⟨m, hm⟩ := ih
    exact ⟨_, by simp only [orFields, hm]; rfl⟩

/-- A field outside those written is left alone. -/
theorem vapic32_orFields_other (base off : Nat) (x : BitVec 256) (n : Nat) (s : State)
    (h : off + 4 ≤ base ∨ base + 16 * n ≤ off) : vapic32 (orFields base x n s) off = vapic32 s off := by
  induction n with
  | zero => rfl
  | succ n ih =>
    simp only [orFields]
    rw [vapic32_setVapic32_other _ _ (by omega), ih (by omega)]

theorem vapic32_orFields (base : Nat) (x : BitVec 256) (n k : Nat) (s : State) (hk : k < n) :
    vapic32 (orFields base x n s) (base + 16 * k) = vapic32 s (base + 16 * k) ||| x.extractLsb' (32 * k) 32 := by
  induction n with
  | zero => omega
  | succ n ih =>
    simp only [orFields]
    by_cases h : k = n
    · subst h
      rw [vapic32_setVapic32_same, vapic32_orFields_other _ _ _ _ _ (by omega)]
    · rw [vapic32_setVapic32_other _ _ (by omega), ih (by omega)]

/-- VIRR after a value is ORed into it. -/
@[simp] theorem virr_orVirr (x : BitVec 256) (s : State) : virr (orVirr x s) = virr s ||| x := by
  apply BitVec.eq_of_getLsbD_eq
  intro n hn
  rw [virr, orVirr, getLsbD_vreg _ _ _ hn, vapic32_orFields _ _ _ _ _ (by omega)]
  simp only [BitVec.getLsbD_or, BitVec.getLsbD_extractLsb', virr, getLsbD_vreg s offIrr n hn]
  congr 1
  have : 32 * (n / 32) + n % 32 = n := Nat.div_add_mod n 32
  simp [this, Nat.mod_lt n (show 32 > 0 by omega)]

@[simp] theorem visr_orVirr (x : BitVec 256) (s : State) : visr (orVirr x s) = visr s := by
  simp only [visr, vreg, orVirr]
  repeat rw [vapic32_orFields_other _ _ _ _ _ (by decide)]

@[simp] theorem vppr_orVirr (x : BitVec 256) (s : State) : vppr (orVirr x s) = vppr s :=
  vapic32_orFields_other _ _ _ _ _ (by decide)

@[simp] theorem vtpr_orVirr (x : BitVec 256) (s : State) : vtpr (orVirr x s) = vtpr s :=
  vapic32_orFields_other _ _ _ _ _ (by decide)

/-! ### highest (R12) -/

@[simp] theorem highest_zero : highest 0 = 0 := rfl

theorem log2_lt_256 (x : BitVec 256) : Nat.log2 x.toNat < 256 := by
  by_cases h : x.toNat = 0
  · rw [h]; decide
  · exact (Nat.log2_lt h).2 x.isLt

theorem toNat_highest {x : BitVec 256} (h : x ≠ 0) : (highest x).toNat = Nat.log2 x.toNat := by
  rw [highest, if_neg h, BitVec.toNat_ofNat, Nat.mod_eq_of_lt (log2_lt_256 x)]

/-- The bit at `highest` is set. -/
theorem getLsbD_highest {x : BitVec 256} (h : x ≠ 0) : x.getLsbD (highest x).toNat = true := by
  have h0 : x.toNat ≠ 0 := fun h1 => h (BitVec.eq_of_toNat_eq (by simpa using h1))
  rw [toNat_highest h, BitVec.getLsbD]
  exact Nat.testBit_log2 h0

/-- No bit above `highest` is set. -/
theorem le_highest {x : BitVec 256} {n : Nat} (h : x.getLsbD n = true) : n ≤ (highest x).toNat := by
  have h0 : x ≠ 0 := by rintro rfl; simp at h
  have h1 : x.toNat ≠ 0 := fun h1 => h0 (BitVec.eq_of_toNat_eq (by simpa using h1))
  rw [toNat_highest h0]
  rw [BitVec.getLsbD] at h
  exact (Nat.le_log2 h1).2 (Nat.ge_two_pow_of_testBit h)

/-- `highest` is the one index that is set and bounds the set ones. -/
theorem highest_eq {x : BitVec 256} {v : IntVector} (hv : x.getLsbD v.toNat = true)
    (hb : ∀ n, x.getLsbD n = true → n ≤ v.toNat) : highest x = v := by
  have h0 : x ≠ 0 := by rintro rfl; simp at hv
  exact BitVec.eq_of_toNat_eq (Nat.le_antisymm (hb _ (getLsbD_highest h0)) (le_highest hv))

end Sys2Proof.Machine
end

