-- ==== Sys2Proof/Laws/Ops.lean ====
section
/-! SUPPORT. What each shared operation can do: the outcomes of a meaning, the points where other agents act, and
the footprint of every virtualization operation. -/

namespace Sys2Proof.Machine

/-! ### Outcomes -/

/-- `P` holds of the state an operation leaves, however it ends. -/
def Res.All (P : State → Prop) : Res → Prop
  | .done s => P s
  | .exit _ s => P s
  | .abort s => P s
  | .refuse _ => True

theorem Res.All.imp {P Q : State → Prop} {r : Res} (h : ∀ s, P s → Q s) (hr : r.All P) : r.All Q := by
  cases r <;> first | exact trivial | exact h _ hr

theorem Res.All.andThen {P Q : State → Prop} {r : Res} {k : State → Res} (hr : r.All P)
    (hpq : ∀ s, P s → Q s) (hk : ∀ s, P s → (k s).All Q) : (r.andThen k).All Q := by
  cases r with
  | done s => exact hk s hr
  | exit e s => exact hpq s hr
  | abort s => exact hpq s hr
  | refuse x => exact trivial

/-- The same where both parts keep one predicate. -/
theorem Res.All.seq {P : State → Prop} {r : Res} {k : State → Res} (hr : r.All P) (hk : ∀ s, P s → (k s).All P) :
    (r.andThen k).All P := hr.andThen (fun _ h => h) hk

/-- Every next state of a meaning that happens in the guest. -/
theorem inGuest_next {k : State → Res} {s t : State} (h : inGuest k s = .next t) :
    s.mode = .vmxNonRoot ∧
      (k s = .done t ∨ (∃ e u, k s = .exit e u ∧ t = takeVmExit e u) ∨ k s = .abort t) := by
  unfold inGuest at h
  split at h
  · next hm =>
    refine ⟨hm, ?_⟩
    cases hk : k s with
    | done u => rw [hk] at h; injection h with h; exact .inl (by rw [h])
    | exit e u => rw [hk] at h; injection h with h; exact .inr (.inl ⟨e, u, rfl, h.symm⟩)
    | abort u => rw [hk] at h; injection h with h; exact .inr (.inr (by rw [h]))
    | refuse r => rw [hk] at h; exact absurd h (by simp [finish])
  · exact absurd h (by simp)

/-- A predicate of the operation's states that taking a VM exit keeps holds of the next state. -/
theorem inGuest_next_all {P : State → Prop} {k : State → Res} {s t : State} (h : inGuest k s = .next t)
    (hk : (k s).All P) (hx : ∀ e u, P u → P (takeVmExit e u)) : P t := by
  obtain ⟨-, hd | ⟨e, u, he, rfl⟩ | ha⟩ := inGuest_next h
  · rwa [hd] at hk
  · rw [he] at hk; exact hx e u hk
  · rwa [ha] at hk

theorem whenActive_all {P : State → Prop} {k : State → Res} {s : State} (h : s.activity = .active → (k s).All P) :
    (whenActive k s).All P := by
  unfold whenActive; split
  · next ha => exact h ha
  · trivial

theorem enabledBy_all {P : State → Prop} {c : Bool} {k : State → Res} {s : State} (h : c = true → (k s).All P) :
    (enabledBy c k s).All P := by
  unfold enabledBy; split
  · next hc => exact h hc
  · trivial

theorem onVapicPage_all {P : State → Prop} {k : State → Res} {s : State} (h : vapicPlaced s = true → (k s).All P) :
    (onVapicPage k s).All P := by
  unfold onVapicPage; split
  · next hp => exact h hp
  · trivial

theorem outsideEnclave_all {P : State → Prop} {k : State → Res} {s : State} (h : s.enclave = false → (k s).All P) :
    (outsideEnclave k s).All P := by
  unfold outsideEnclave; split
  · trivial
  · next he => exact h (by simpa using he)

theorem interruptible_all {P : State → Prop} {k : State → Res} {s : State} (h : (k s).All P) :
    (interruptible k s).All P := by
  unfold interruptible; split
  · exact h
  · trivial

theorem instruction_next {c : Bool} {k : State → Res} {s t : State} (h : instruction c k s = .next t) :
    s.mode = .vmxNonRoot ∧ s.activity = .active ∧ c = true ∧
      ((∃ u, k s = .done u ∧ t = retire u) ∨ (∃ e u, k s = .exit e u ∧ t = takeVmExit e u) ∨ k s = .abort t) := by
  obtain ⟨hm, h⟩ := inGuest_next h
  refine ⟨hm, ?_⟩
  unfold whenActive enabledBy completing at h
  by_cases ha : s.activity = .active
  · by_cases hc : c = true
    · simp only [ha, hc, if_true] at h
      refine ⟨ha, hc, ?_⟩
      cases hk : k s with
      | done u => simp [hk, Res.andThen] at h; exact .inl ⟨u, rfl, h.symm⟩
      | exit e u => simp [hk, Res.andThen] at h; exact .inr (.inl ⟨e, u, rfl, h⟩)
      | abort u => simp [hk, Res.andThen] at h; exact .inr (.inr (by rw [h]))
      | refuse r => simp [hk, Res.andThen] at h
    · simp [ha, hc] at h
  · simp [ha] at h

/-- Where an instruction goes on, it completes. -/
theorem instruction_done {c : Bool} {k : State → Res} {s u : State} (hm : s.mode = .vmxNonRoot)
    (ha : s.activity = .active) (hc : c = true) (hk : k s = .done u) : instruction c k s = .next (retire u) := by
  simp [instruction, inGuest, whenActive, enabledBy, completing, hm, ha, hc, hk, Res.andThen, finish]

/-- Where it raises a VM exit, the exit is taken. -/
theorem instruction_exit {c : Bool} {k : State → Res} {s u : State} {e : VmExit} (hm : s.mode = .vmxNonRoot)
    (ha : s.activity = .active) (hc : c = true) (hk : k s = .exit e u) :
    instruction c k s = .next (takeVmExit e u) := by
  simp [instruction, inGuest, whenActive, enabledBy, completing, hm, ha, hc, hk, Res.andThen, finish]

/-- Where its virtualization is refused, so is it. -/
theorem instruction_refuse {c : Bool} {k : State → Res} {s : State} {r : Refusal} (hm : s.mode = .vmxNonRoot)
    (ha : s.activity = .active) (hc : c = true) (hk : k s = .refuse r) : instruction c k s = .refused r := by
  simp [instruction, inGuest, whenActive, enabledBy, completing, hm, ha, hc, hk, Res.andThen, finish]

/-! ### Footprints -/

/-- A state without what the virtualization operations and the accesses of a guest can change: memory, the guest
interrupt status, the latch, the history, the agents' schedule, the flag of R205 and the loaded bytes. -/
def State.trim (s : State) : State :=
  { s with mem := [], rvi := 0, svi := 0, pending := false, history := [], agents := [], wroteVirt := false,
           loaded := [] }

/-- A state without what delivery and posted-interrupt processing can change as well. -/
def State.trimWide (s : State) : State :=
  { s.trim with activity := .active, rflagsRf := false, transactional := false, enclave := false,
                userNotified := false, midRep := false }

/-- `u` differs from `s` only where the virtualization operations and the accesses can make it differ. -/
def Foot (s u : State) : Prop := u.trim = s.trim

/-- The same of delivery and posted-interrupt processing. -/
def WideFoot (s u : State) : Prop := u.trimWide = s.trimWide

theorem Foot.refl (s : State) : Foot s s := rfl
theorem Foot.trans {s t u : State} (h : Foot s t) (k : Foot t u) : Foot s u := Eq.trans k h
theorem WideFoot.refl (s : State) : WideFoot s s := rfl
theorem WideFoot.trans {s t u : State} (h : WideFoot s t) (k : WideFoot t u) : WideFoot s u := Eq.trans k h

theorem Foot.wide {s u : State} (h : Foot s u) : WideFoot s u := by
  have : ∀ x : State, x.trimWide = x.trim.trimWide := fun _ => rfl
  rw [WideFoot, this u, this s, h]

theorem foot_emit (e : Event) (s : State) : Foot s (emit e s) := rfl
theorem foot_setMem (m : Memory) (s : State) : Foot s (setMem m s) := rfl
theorem foot_setRvi (v : IntVector) (s : State) : Foot s (setRvi v s) := rfl
theorem foot_setSvi (v : IntVector) (s : State) : Foot s (setSvi v s) := rfl
theorem foot_setPending (b : Bool) (s : State) : Foot s (setPending b s) := rfl
theorem foot_setVapic32 (off : Nat) (v : BitVec 32) (s : State) : Foot s (setVapic32 off v s) := foot_setMem _ s
theorem foot_setVregBit (b : Nat) (x : IntVector) (v : Bool) (s : State) : Foot s (setVregBit b x v s) :=
  foot_setVapic32 _ _ s
theorem foot_evaluate (s : State) : Foot s (evaluate s) := foot_setPending _ s
theorem foot_refreshRvi (s : State) : Foot s (refreshRvi s) := foot_setRvi _ s
theorem foot_refreshSvi (s : State) : Foot s (refreshSvi s) := foot_setSvi _ s
theorem foot_raiseRvi (v : IntVector) (s : State) : Foot s (raiseRvi v s) := foot_setRvi _ s
theorem foot_pprVirtualization (s : State) : Foot s (pprVirtualization s) := foot_setVapic32 _ _ s
theorem foot_virtualWrite (off : Nat) (d : List Byte) (s : State) : Foot s (virtualWrite off d s) := rfl
theorem foot_virtualRead (off n : Nat) (s : State) : Foot s (virtualRead off n s) := rfl
theorem foot_postInPir (p : Nat) (v : IntVector) (s : State) : Foot s (postInPir p v s) := foot_setMem _ s
theorem foot_clearOn (p : Nat) (s : State) : Foot s (clearOn p s) := foot_setMem _ s
theorem foot_exchangeGroup (p : Nat) (g : BitVec 256) (s : State) : Foot s (exchangeGroup p g s).2 := foot_setMem _ s

theorem foot_retireInService (s : State) : Foot s (retireInService s) :=
  (foot_setVregBit _ _ _ s).trans ((foot_refreshSvi _).trans (foot_pprVirtualization _))

theorem foot_selfIpi (v : IntVector) (s : State) : Foot s (selfIpiVirtualization v s) :=
  (foot_setVregBit _ _ _ s).trans ((foot_raiseRvi _ _).trans (foot_evaluate _))

theorem foot_acceptVector (s : State) : Foot s (acceptVector s) :=
  (foot_setVregBit _ _ _ s).trans ((foot_setSvi _ _).trans ((foot_setVapic32 _ _ _).trans
    ((foot_setVregBit _ _ _ _).trans ((foot_refreshRvi _).trans (foot_setPending _ _)))))

theorem foot_notifyPid (p : Nat) (s : State) : Foot s (notifyPid p s) := by
  unfold notifyPid
  simp only
  split
  · exact (foot_setMem _ s).trans (foot_emit _ _)
  · exact foot_setMem _ s

theorem foot_orFields (b : Nat) (x : BitVec 256) (n : Nat) (s : State) : Foot s (orFields b x n s) := by
  induction n with
  | zero => exact Foot.refl s
  | succ n ih => exact ih.trans (foot_setVapic32 _ _ _)

theorem foot_orVirr (x : BitVec 256) (s : State) : Foot s (orVirr x s) := foot_orFields _ _ _ s

theorem foot_acceptPosted (got : BitVec 256) (s : State) : Foot s (acceptPosted got s) := by
  unfold acceptPosted
  split
  · exact (foot_orVirr got s).trans (foot_evaluate _)
  · exact (foot_orVirr got s).trans ((foot_raiseRvi _ _).trans (foot_evaluate _))

/-- One write of another agent changes one byte of memory. -/
theorem agentStep_done {a : AgentRmw} {s u : State} (h : agentStep a s = .done u) :
    u = setMem (s.mem.write a.addr.toNat ((s.mem.read a.addr.toNat &&& a.keep) ||| a.set)) s := by
  unfold agentStep at h
  simp only at h
  by_cases h1 : (!placed s a.addr.toNat 1) = true
  · rw [if_pos h1] at h; cases h
  by_cases h2 : (decide (s.mode = .vmxNonRoot) && touchesLive s a.addr.toNat 1) = true
  · rw [if_neg h1, if_pos h2] at h; cases h
  by_cases h3 : (decide (s.mode = .vmxNonRoot) && touchesPidTable s a.addr.toNat 1) = true
  · rw [if_neg h1, if_neg h2, if_pos h3] at h; cases h
  rw [if_neg h1, if_neg h2, if_neg h3] at h
  injection h with h
  exact h.symm

/-- Agents either do all they are scheduled to do or are refused. -/
theorem agentStep_cases (a : AgentRmw) (s : State) :
    (∃ u, agentStep a s = .done u) ∨ (∃ r, agentStep a s = .refuse r) := by
  unfold agentStep
  simp only
  split
  · exact .inr ⟨_, rfl⟩
  · split
    · exact .inr ⟨_, rfl⟩
    · split
      · exact .inr ⟨_, rfl⟩
      · exact .inl ⟨_, rfl⟩

theorem agentSteps_all {P : State → Prop} {as : List AgentRmw} {s : State} (hs : P s)
    (h : ∀ a u v, P u → agentStep a u = .done v → P v) : (agentSteps as s).All P := by
  induction as generalizing s with
  | nil => exact hs
  | cons a as ih =>
    rw [agentSteps]
    obtain ⟨u, hu⟩ | ⟨r, hr⟩ := agentStep_cases a s
    · rw [hu]; exact ih (h a s u hs hu)
    · rw [hr]; trivial

/-- A predicate that every write of another agent keeps, and that does not read the schedule, holds after a point
where agents act. -/
theorem agentGap_all {P : State → Prop} {s : State} (hs : P s) (ha : ∀ u l, P u → P { u with agents := l })
    (h : ∀ a u v, P u → agentStep a u = .done v → P v) : (agentGap s).All P := by
  unfold agentGap
  split
  · exact hs
  · next e rest _ => exact agentSteps_all (ha _ _ hs) h

theorem agentGap_alone {s : State} (h : s.agents = []) : agentGap s = .done s := by
  unfold agentGap; rw [h]

theorem foot_agentGap (s : State) : (agentGap s).All (Foot s) := by
  refine agentGap_all (Foot.refl s) ?_ ?_
  · rintro u l h; exact h.trans rfl
  · intro a u v h hv; rw [agentStep_done hv]; exact h.trans (foot_setMem _ _)

theorem foot_tprVirtualization (s : State) : (tprVirtualization s).All (Foot s) := by
  unfold tprVirtualization
  split
  · exact (foot_pprVirtualization s).trans (foot_evaluate _)
  · split
    · exact Foot.refl s
    · exact Foot.refl s

theorem foot_eoiVirtualization (s : State) : (eoiVirtualization s).All (Foot s) := by
  unfold eoiVirtualization
  simp only
  split
  · exact foot_retireInService s
  · exact (foot_retireInService s).trans (foot_evaluate _)

theorem foot_postInterrupt (p : Nat) (v : IntVector) (s : State) : (postInterrupt p v s).All (Foot s) := by
  unfold postInterrupt
  refine (foot_agentGap s).seq fun u hu => ?_
  refine Res.All.seq ?_ fun w hw => hw.trans (foot_notifyPid p w)
  exact (foot_agentGap _).imp fun w hw => (hu.trans (foot_postInPir p v u)).trans hw

theorem foot_ipiVirtualization (v : IntVector) (t : ApicId) (s : State) : (ipiVirtualization v t s).All (Foot s) := by
  unfold ipiVirtualization
  simp only
  repeat' split
  all_goals first | exact foot_postInterrupt _ _ _ | exact Foot.refl s | trivial

theorem foot_icrVirtualization (s : State) : (icrVirtualization s).All (Foot s) := by
  unfold icrVirtualization
  split
  · exact foot_selfIpi _ s
  · exact foot_ipiVirtualization _ _ s
  · exact Foot.refl s

theorem foot_pageRead (kind : AccessKind) (off : PageOff) (n : Nat) (s : State) :
    (pageRead kind off n s).All (Foot s) := by
  unfold pageRead
  split
  · exact Foot.refl s
  · split
    · exact onVapicPage_all fun _ => foot_virtualRead _ _ s
    · exact Foot.refl s

theorem foot_pageWriteDefault (off : PageOff) (d : List Byte) (s : State) :
    (pageWriteDefault off d s).All (Foot s) := by
  unfold pageWriteDefault
  split
  · split
    · exact onVapicPage_all fun _ => foot_virtualWrite _ _ s
    · trivial
  · exact Foot.refl s

theorem pageWriteUntaken_all {P : State → Prop} {b : Bool} {off : PageOff} {d : List Byte} {s : State}
    (h : (pageWriteDefault off d s).All P) : (pageWriteUntaken b off d s).All P := by
  unfold pageWriteUntaken
  split
  · trivial
  · exact h

theorem foot_pageWriteUntaken (b : Bool) (off : PageOff) (d : List Byte) (s : State) :
    (pageWriteUntaken b off d s).All (Foot s) := pageWriteUntaken_all (foot_pageWriteDefault off d s)

theorem foot_pageWriteTpr (d : List Byte) (s : State) : (pageWriteTpr d s).All (Foot s) := by
  unfold pageWriteTpr
  split
  · exact onVapicPage_all fun _ => (foot_tprVirtualization _).imp fun u hu => (foot_virtualWrite _ _ s).trans hu
  · exact foot_pageWriteDefault _ _ s

theorem foot_pageWriteEoi (d : List Byte) (s : State) : (pageWriteEoi d s).All (Foot s) := by
  unfold pageWriteEoi
  split
  · exact onVapicPage_all fun _ => (foot_eoiVirtualization _).imp fun u hu => (foot_virtualWrite _ _ s).trans hu
  · exact foot_pageWriteUntaken _ _ _ s

theorem foot_pageWriteIcrLo (d : List Byte) (s : State) : (pageWriteIcrLo d s).All (Foot s) := by
  unfold pageWriteIcrLo
  split
  · exact onVapicPage_all fun _ => (foot_icrVirtualization _).imp fun u hu => (foot_virtualWrite _ _ s).trans hu
  · exact foot_pageWriteUntaken _ _ _ s

theorem foot_pageWriteOther (off : PageOff) (d : List Byte) (s : State) : (pageWriteOther off d s).All (Foot s) :=
  foot_pageWriteUntaken _ off d s

theorem foot_pageWrite (off : PageOff) (d : List Byte) (s : State) : (pageWrite off d s).All (Foot s) := by
  unfold pageWrite
  split
  · exact foot_pageWriteTpr d s
  · split
    · exact foot_pageWriteEoi d s
    · split
      · exact foot_pageWriteIcrLo d s
      · exact foot_pageWriteOther off d s

theorem foot_plainRead (pa : PhysAddr) (n : Nat) (s : State) : (plainRead pa n s).All (Foot s) := by
  unfold plainRead
  split
  · exact rfl
  · trivial

theorem foot_plainWrite (pa : PhysAddr) (d : List Byte) (s : State) : (plainWrite pa d s).All (Foot s) := by
  unfold plainWrite
  repeat' split
  all_goals first | exact foot_setMem _ s | trivial

theorem special_all {P : State → Prop} {pa : PhysAddr} {n : Nat} {f g : State → Res} {s : State}
    (hf : s.vmcs.ctl.virtApicAccesses = true → onApicPage s pa = true → (f s).All P) (hg : (g s).All P) :
    (special pa n f g s).All P := by
  unfold special
  split
  · next hc =>
    split
    · next ho => exact outsideEnclave_all fun _ => hf hc ho
    · split
      · trivial
      · exact hg
  · exact hg

theorem translated_all {P : State → Prop} {x : Xlat} {kind : AccessKind} {k : State → Res} {s : State}
    (he : ∀ e, P (emit e (beginAccess false s))) (hk : (k (setPagingFlags kind s)).All P) :
    (translated x kind k s).All P := by
  cases x
  · exact hk
  · exact he _
  · exact he _

theorem foot_beginAccess (c : Bool) (s : State) : Foot s (beginAccess c s) := rfl
theorem foot_setPagingFlags (kind : AccessKind) (s : State) : Foot s (setPagingFlags kind s) := foot_emit _ s

/-- One linear access leaves everything but its footprint alone. -/
theorem foot_linearAccess (a : LinearAccess) (s : State) : (linearAccess a s).All (Foot s) := by
  have he : ∀ e, Foot s (emit e (beginAccess false s)) := fun e => (foot_beginAccess false s).trans (foot_emit e _)
  have hp : ∀ kind u, Foot (setPagingFlags kind s) u → Foot s u := fun kind _ => (foot_setPagingFlags kind s).trans
  unfold linearAccess
  cases a with
  | read pa n x | fetch pa n x =>
    exact translated_all he ((special_all (fun _ _ => foot_pageRead _ _ _ _) (foot_plainRead _ _ _)).imp (hp _))
  | write pa d x b =>
    refine translated_all he (Res.All.imp (hp .write) ?_)
    cases b
    · exact special_all (fun _ _ => foot_pageWrite _ _ _) (foot_plainWrite _ _ _)
    · exact foot_plainWrite _ _ _

theorem foot_linearAccesses (as : List LinearAccess) (s : State) : (linearAccesses as s).All (Foot s) := by
  induction as generalizing s with
  | nil => exact Foot.refl s
  | cons a as ih =>
    exact (foot_linearAccess a s).seq fun u hu => (ih u).imp fun w hw => hu.trans hw

theorem foot_drainPir (p : Nat) (gs : List (BitVec 256)) (got : BitVec 256) (s : State) :
    (drainPir p gs got s).All (Foot s) := by
  induction gs generalizing got s with
  | nil => exact foot_acceptPosted got s
  | cons g gs ih =>
    refine ((foot_agentGap _).imp fun u hu => (foot_exchangeGroup p g s).trans hu).seq fun u hu => ?_
    exact (ih _ u).imp fun w hw => hu.trans hw

/-! ### The wide footprint -/

theorem wideFoot_wake (s : State) : WideFoot s (wake s) := rfl
theorem wideFoot_afterPosted (s : State) : WideFoot s (afterPosted s) := rfl

theorem wideFoot_abortTransaction (s : State) : WideFoot s (abortTransaction s) := by
  unfold abortTransaction; split
  · exact WideFoot.trans (t := { s with transactional := false }) rfl (foot_emit _ _).wide
  · exact WideFoot.refl s

theorem wideFoot_enclaveExit (s : State) : WideFoot s (enclaveExit s) := by
  unfold enclaveExit; split
  · exact WideFoot.trans (t := { s with enclave := false }) rfl (foot_emit _ _).wide
  · exact WideFoot.refl s

theorem wideFoot_aexBefore (b : Bool) (s : State) : WideFoot s (aexBefore b s) := by
  unfold aexBefore; split
  · exact wideFoot_enclaveExit s
  · exact WideFoot.refl s

theorem wideFoot_deliverEvent (v : IntVector) (s : State) : WideFoot s (deliverEvent v s) := by
  unfold deliverEvent; split
  · exact WideFoot.trans (t := { s with userNotified := true }) rfl (foot_emit _ _).wide
  · exact (foot_emit _ s).wide

theorem wideFoot_deliver (s : State) : WideFoot s (deliver s) :=
  (foot_acceptVector s).wide.trans ((wideFoot_wake _).trans ((wideFoot_abortTransaction _).trans
    ((wideFoot_enclaveExit _).trans (wideFoot_deliverEvent _ _))))

theorem wideFoot_processPosted (s : State) : (processPosted s).All (WideFoot s) := by
  unfold processPosted
  refine Res.All.seq ((foot_agentGap _).imp fun u hu =>
    ((foot_clearOn _ s).trans ((foot_emit _ _).trans hu)).wide) fun u hu => ?_
  refine Res.All.seq ((foot_drainPir _ _ _ u).imp fun w hw => hu.trans hw.wide) fun w hw => ?_
  exact hw.trans (wideFoot_afterPosted w)

theorem wideFoot_interruptExit (pv : IntVector) (s : State) : (interruptExit pv s).All (WideFoot s) :=
  (wideFoot_enclaveExit s).trans (t := enclaveExit s) rfl

theorem wideFoot_postedInterruptProcessing (pv : IntVector) (b : Bool) (s : State) :
    (postedInterruptProcessing pv b s).All (WideFoot s) := by
  unfold postedInterruptProcessing
  have h1 : WideFoot s (emit (.localApicAck pv) (aexBefore b s)) :=
    (wideFoot_aexBefore b s).trans (foot_emit _ _).wide
  simp only
  split
  · exact (wideFoot_interruptExit pv _).imp fun _ h => h1.trans h
  · split
    · trivial
    · split
      · exact onVapicPage_all fun _ => (wideFoot_processPosted _).imp fun u hu => h1.trans hu
      · trivial

theorem wideFoot_externalInterrupt (pv : IntVector) (b : Bool) (s : State) :
    (externalInterrupt pv b s).All (WideFoot s) := by
  unfold externalInterrupt
  split
  · trivial
  · split
    · exact wideFoot_postedInterruptProcessing pv b s
    · exact wideFoot_interruptExit pv s

theorem afterDelivery_all {P : State → Prop} {k : State → Res} {s : State}
    (hd : deliverNow false s = true → P (deliver s)) (hk : deliverNow false s = false → (k s).All P)
    (hdk : deliverNow false s = true → P (deliver s) → (k (deliver s)).All P) : (afterDelivery k s).All P := by
  unfold afterDelivery
  split
  · next h =>
    refine onVapicPage_all fun _ => ?_
    split
    · exact hd h
    · exact hdk h (hd h)
  · next h => exact hk (by simpa using h)

/-! ### What a footprint keeps -/

theorem Foot.keep {α : Type} {s u : State} (f : State → α) (h : Foot s u) : f u.trim = f s.trim := congrArg f h

theorem WideFoot.keep {α : Type} {s u : State} (f : State → α) (h : WideFoot s u) : f u.trimWide = f s.trimWide :=
  congrArg f h

theorem Foot.mode {s u : State} (h : Foot s u) : u.mode = s.mode := h.keep State.mode
theorem Foot.gpr {s u : State} (h : Foot s u) : u.gpr = s.gpr := h.keep State.gpr
theorem Foot.ip {s u : State} (h : Foot s u) : u.ip = s.ip := h.keep State.ip
theorem Foot.nextIp {s u : State} (h : Foot s u) : u.nextIp = s.nextIp := h.keep State.nextIp
theorem Foot.rflagsIf {s u : State} (h : Foot s u) : u.rflagsIf = s.rflagsIf := h.keep State.rflagsIf
theorem Foot.rflagsRf {s u : State} (h : Foot s u) : u.rflagsRf = s.rflagsRf := h.keep State.rflagsRf
theorem Foot.blockingBySti {s u : State} (h : Foot s u) : u.blockingBySti = s.blockingBySti := h.keep State.blockingBySti
theorem Foot.blockingByMovSs {s u : State} (h : Foot s u) : u.blockingByMovSs = s.blockingByMovSs := h.keep State.blockingByMovSs
theorem Foot.activity {s u : State} (h : Foot s u) : u.activity = s.activity := h.keep State.activity
theorem Foot.cr0Pg {s u : State} (h : Foot s u) : u.cr0Pg = s.cr0Pg := h.keep State.cr0Pg
theorem Foot.cr4Uintr {s u : State} (h : Foot s u) : u.cr4Uintr = s.cr4Uintr := h.keep State.cr4Uintr
theorem Foot.cr8 {s u : State} (h : Foot s u) : u.cr8 = s.cr8 := h.keep State.cr8
theorem Foot.eferLma {s u : State} (h : Foot s u) : u.eferLma = s.eferLma := h.keep State.eferLma
theorem Foot.apicBase {s u : State} (h : Foot s u) : u.apicBase = s.apicBase := h.keep State.apicBase
theorem Foot.vmxBasic {s u : State} (h : Foot s u) : u.vmxBasic = s.vmxBasic := h.keep State.vmxBasic
theorem Foot.transactional {s u : State} (h : Foot s u) : u.transactional = s.transactional := h.keep State.transactional
theorem Foot.enclave {s u : State} (h : Foot s u) : u.enclave = s.enclave := h.keep State.enclave
theorem Foot.midRep {s u : State} (h : Foot s u) : u.midRep = s.midRep := h.keep State.midRep
theorem Foot.userNotified {s u : State} (h : Foot s u) : u.userNotified = s.userNotified := h.keep State.userNotified
theorem Foot.lastExit {s u : State} (h : Foot s u) : u.lastExit = s.lastExit := h.keep State.lastExit
theorem Foot.vmcs {s u : State} (h : Foot s u) : u.vmcs = s.vmcs := h.keep State.vmcs
theorem Foot.params {s u : State} (h : Foot s u) : u.params = s.params := h.keep State.params
theorem Foot.inputs {s u : State} (h : Foot s u) : u.inputs = s.inputs := h.keep State.inputs

theorem WideFoot.mode {s u : State} (h : WideFoot s u) : u.mode = s.mode := h.keep State.mode
theorem WideFoot.gpr {s u : State} (h : WideFoot s u) : u.gpr = s.gpr := h.keep State.gpr
theorem WideFoot.ip {s u : State} (h : WideFoot s u) : u.ip = s.ip := h.keep State.ip
theorem WideFoot.nextIp {s u : State} (h : WideFoot s u) : u.nextIp = s.nextIp := h.keep State.nextIp
theorem WideFoot.rflagsIf {s u : State} (h : WideFoot s u) : u.rflagsIf = s.rflagsIf := h.keep State.rflagsIf
theorem WideFoot.blockingBySti {s u : State} (h : WideFoot s u) : u.blockingBySti = s.blockingBySti := h.keep State.blockingBySti
theorem WideFoot.blockingByMovSs {s u : State} (h : WideFoot s u) : u.blockingByMovSs = s.blockingByMovSs := h.keep State.blockingByMovSs
theorem WideFoot.cr0Pg {s u : State} (h : WideFoot s u) : u.cr0Pg = s.cr0Pg := h.keep State.cr0Pg
theorem WideFoot.cr4Uintr {s u : State} (h : WideFoot s u) : u.cr4Uintr = s.cr4Uintr := h.keep State.cr4Uintr
theorem WideFoot.cr8 {s u : State} (h : WideFoot s u) : u.cr8 = s.cr8 := h.keep State.cr8
theorem WideFoot.eferLma {s u : State} (h : WideFoot s u) : u.eferLma = s.eferLma := h.keep State.eferLma
theorem WideFoot.apicBase {s u : State} (h : WideFoot s u) : u.apicBase = s.apicBase := h.keep State.apicBase
theorem WideFoot.vmxBasic {s u : State} (h : WideFoot s u) : u.vmxBasic = s.vmxBasic := h.keep State.vmxBasic
theorem WideFoot.lastExit {s u : State} (h : WideFoot s u) : u.lastExit = s.lastExit := h.keep State.lastExit
theorem WideFoot.vmcs {s u : State} (h : WideFoot s u) : u.vmcs = s.vmcs := h.keep State.vmcs
theorem WideFoot.params {s u : State} (h : WideFoot s u) : u.params = s.params := h.keep State.params
theorem WideFoot.inputs {s u : State} (h : WideFoot s u) : u.inputs = s.inputs := h.keep State.inputs

end Sys2Proof.Machine
end

