-- ==== Sys2Proof/Laws/Rules.lean ====
section
/-! SUPPORT. The computed conditions of the machine against the words of the rules: priority classes, the value of
VPPR, evaluation, `highest`, and the bitmaps. -/

namespace Sys2Proof.Machine

/-! ### Priority classes (R10) -/

theorem cls_eq (v : IntVector) : cls v = (v.extractLsb' 4 4).toNat := by
  revert v; decide

theorem fieldCls_eq (f : BitVec 32) : fieldCls f = (f.extractLsb' 4 4).toNat := by
  rw [fieldCls, cls_eq]
  congr 1
  apply BitVec.eq_of_getLsbD_eq
  intro i hi
  simp only [BitVec.getLsbD_extractLsb']
  simp [hi, show 4 + i < 8 by omega]

theorem cls_lt (v : IntVector) : cls v < 16 := by rw [cls_eq]; exact (v.extractLsb' 4 4).isLt

/-- A vector of a higher class is greater. -/
theorem lt_of_cls_lt {a b : IntVector} (h : cls a < cls b) : a.toNat < b.toNat := by
  simp only [cls] at h; omega

theorem cls_le_of_le {a b : IntVector} (h : a.toNat ≤ b.toNat) : cls a ≤ cls b := by
  simp only [cls]; omega

@[simp] theorem fieldCls_classBase (v : IntVector) : fieldCls (classBase v) = cls v := by
  revert v; decide

theorem classBase_eq (v : IntVector) : classBase v = (v.extractLsb' 4 4 ++ (0 : BitVec 4)).setWidth 32 := by
  revert v; decide

theorem high_classBase (v : IntVector) : (classBase v).extractLsb' 8 24 = 0 := by revert v; decide

/-! ### PPR virtualization (R153) -/

theorem low_byte_eq (t : BitVec 32) : t &&& 0xFF = (t.extractLsb' 0 8).setWidth 32 := by
  apply BitVec.eq_of_getLsbD_eq
  intro i hi
  have hff : (0xFF : BitVec 32) = BitVec.setWidth 32 (BitVec.allOnes 8) := rfl
  rw [hff]
  simp only [BitVec.getLsbD_and, BitVec.getLsbD_setWidth, BitVec.getLsbD_allOnes, BitVec.getLsbD_extractLsb', Nat.zero_add]
  by_cases h : i < 8 <;> simp [h, hi]

theorem fieldCls_low (t : BitVec 32) : fieldCls (t &&& 0xFF) = fieldCls t := by
  rw [low_byte_eq, fieldCls, fieldCls]
  congr 1
  apply BitVec.eq_of_getLsbD_eq
  intro i hi
  simp only [BitVec.getLsbD_extractLsb', BitVec.getLsbD_setWidth, Nat.zero_add]
  simp [hi, show i < 32 by omega]

theorem high_low (t : BitVec 32) : (t &&& 0xFF).extractLsb' 8 24 = 0 := by
  rw [low_byte_eq]
  apply BitVec.eq_of_getLsbD_eq
  intro i hi
  simp only [BitVec.getLsbD_extractLsb', BitVec.getLsbD_setWidth]
  simp [show ¬ 8 + i < 8 by omega]

/-- The stored value is the rule's. -/
theorem pprRule_pprValue (tpr : BitVec 32) (svi : IntVector) : PprRule tpr svi (pprValue tpr svi) := by
  refine ⟨fun h => ?_, fun h => ?_⟩
  · rw [pprValue, if_pos, low_byte_eq]
    rw [cls_eq, fieldCls_eq]; exact h
  · rw [pprValue, if_neg, classBase_eq]
    rw [cls_eq, fieldCls_eq]; exact Nat.not_le.2 h

/-- Its class is the greater of the two. -/
theorem fieldCls_pprValue (tpr : BitVec 32) (svi : IntVector) :
    fieldCls (pprValue tpr svi) = max (fieldCls tpr) (cls svi) := by
  rw [pprValue]
  split
  · next h => rw [fieldCls_low, Nat.max_eq_left h]
  · next h => rw [fieldCls_classBase, Nat.max_eq_right (by omega)]

theorem high_pprValue (tpr : BitVec 32) (svi : IntVector) : (pprValue tpr svi).extractLsb' 8 24 = 0 := by
  rw [pprValue]
  split
  · exact high_low tpr
  · exact high_classBase svi

/-! ### Evaluation (R171) -/

theorem recognizes_iff (s : State) :
    recognizes s = true ↔ s.vmcs.ctl.intrWindowExiting = false ∧ fieldCls (vppr s) < cls s.rvi := by
  simp [recognizes]

/-- After evaluation the latch is as the rule says. -/
theorem evaluationRule_evaluate (s : State) : EvaluationRule (evaluate s) := by
  rw [EvaluationRule, evaluate_pending, recognizes_iff, fieldCls_eq, cls_eq]
  exact Iff.rfl

/-! ### highest (R12) -/

theorem isHighest_highest (x : BitVec 256) : IsHighest x (highest x) := by
  by_cases h : x = 0
  · exact .inl ⟨h, by rw [h]; rfl⟩
  · exact .inr ⟨getLsbD_highest h, fun _ hn => le_highest hn⟩

theorem IsHighest.eq {x : BitVec 256} {v : IntVector} (h : IsHighest x v) : v = highest x := by
  obtain ⟨rfl, rfl⟩ | ⟨h1, h2⟩ := h
  · rfl
  · exact (highest_eq h1 h2).symm

theorem toNat_maxVector (a b : IntVector) : (maxVector a b).toNat = max a.toNat b.toNat := by
  rw [maxVector]; split <;> omega

/-! ### The bitmaps -/

theorem vregBit_setVregBit_isr (x y : IntVector) (v : Bool) (s : State) :
    vregBit (setVregBit offIsr x v s) offIsr y = if y = x then v else vregBit s offIsr y := by
  rw [← getLsbD_visr, ← getLsbD_visr, visr_setVregBit_isr, getLsbD_withBit _ _ _ _ y.isLt]
  simp only [BitVec.toNat_inj]

theorem vregBit_setVregBit_irr (x y : IntVector) (v : Bool) (s : State) :
    vregBit (setVregBit offIrr x v s) offIrr y = if y = x then v else vregBit s offIrr y := by
  rw [← getLsbD_virr, ← getLsbD_virr, virr_setVregBit_irr, getLsbD_withBit _ _ _ _ y.isLt]
  simp only [BitVec.toNat_inj]

theorem vregBit_isr_congr {s t : State} (h : visr t = visr s) (x : IntVector) :
    vregBit t offIsr x = vregBit s offIsr x := by rw [← getLsbD_visr, ← getLsbD_visr, h]

theorem vregBit_irr_congr {s t : State} (h : virr t = virr s) (x : IntVector) :
    vregBit t offIrr x = vregBit s offIrr x := by rw [← getLsbD_virr, ← getLsbD_virr, h]

/-- The highest of a bitmap after a bit is set. -/
theorem highest_withBit_set (r : BitVec 256) (x : IntVector) :
    highest (withBit r x true) = maxVector (highest r) x := by
  refine (IsHighest.eq (.inr ⟨?_, fun n hn => ?_⟩)).symm
  · rw [getLsbD_withBit _ _ _ _ (maxVector _ _).isLt]
    by_cases h : (maxVector (highest r) x).toNat = x.toNat
    · rw [if_pos h]
    · rw [if_neg h]
      have hm : maxVector (highest r) x = highest r := by
        rw [maxVector] at h ⊢; split at h <;> simp_all
      rw [hm]
      by_cases h0 : r = 0
      · subst h0
        refine absurd ?_ h
        rw [toNat_maxVector, highest_zero]
        simp
      · exact getLsbD_highest h0
  · have hlt : n < 256 := by
      rcases Nat.lt_or_ge n 256 with h | h
      · exact h
      · rw [BitVec.getLsbD_of_ge _ _ h] at hn; exact absurd hn (by simp)
    rw [getLsbD_withBit _ _ _ _ hlt] at hn
    rw [toNat_maxVector]
    split at hn
    · omega
    · have := le_highest hn; omega

/-- Clearing a bit does not raise the highest. -/
theorem highest_withBit_clear_le (r : BitVec 256) (x : IntVector) :
    (highest (withBit r x false)).toNat ≤ (highest r).toNat := by
  by_cases h0 : withBit r x false = 0
  · rw [h0]; exact Nat.zero_le _
  · have h := getLsbD_highest h0
    rw [getLsbD_withBit _ _ _ _ (highest _).isLt] at h
    split at h
    · exact absurd h (by simp)
    · exact le_highest h

/-- The highest of a union. -/
theorem highest_or (a b : BitVec 256) : highest (a ||| b) = maxVector (highest a) (highest b) := by
  refine (IsHighest.eq ?_).symm
  by_cases hab : a ||| b = 0
  · have ha : a = 0 := by
      apply BitVec.eq_of_getLsbD_eq; intro i hi
      have := congrArg (fun z : BitVec 256 => z.getLsbD i) hab
      simp only [BitVec.getLsbD_or] at this
      simp at this ⊢
      exact this.1
    have hb : b = 0 := by
      apply BitVec.eq_of_getLsbD_eq; intro i hi
      have := congrArg (fun z : BitVec 256 => z.getLsbD i) hab
      simp only [BitVec.getLsbD_or] at this
      simp at this ⊢
      exact this.2
    exact .inl ⟨hab, by rw [ha, hb]; rfl⟩
  · refine .inr ⟨?_, fun n hn => ?_⟩
    · rw [BitVec.getLsbD_or, Bool.or_eq_true]
      rw [maxVector]
      split
      · next h =>
        right
        exact getLsbD_highest (by rintro rfl; rw [highest_zero] at h; exact absurd h (by simp))
      · next h =>
        by_cases ha : a = 0
        · subst ha
          right
          have hb : b ≠ 0 := by rintro rfl; exact hab (by simp)
          have hz : (highest b).toNat = (highest 0).toNat := by
            rw [highest_zero] at h ⊢; simp at h ⊢; omega
          have := getLsbD_highest hb
          rwa [hz] at this
        · left; exact getLsbD_highest ha
    · rw [BitVec.getLsbD_or, Bool.or_eq_true] at hn
      rw [toNat_maxVector]
      rcases hn with h | h
      · have := le_highest h; omega
      · have := le_highest h; omega

end Sys2Proof.Machine
end

