-- ==== Sys2Proof/Laws/Effects.lean ====
section
/-! SUPPORT. What each shared operation does to RVI, SVI, the latch, memory and the history: the lemmas a proof about
an operation cites instead of unfolding it. -/

namespace Sys2Proof.Machine

/-! ### setVregBit -/

@[simp] theorem setVregBit_rvi (b : Nat) (x : IntVector) (v : Bool) (s : State) : (setVregBit b x v s).rvi = s.rvi := rfl
@[simp] theorem setVregBit_svi (b : Nat) (x : IntVector) (v : Bool) (s : State) : (setVregBit b x v s).svi = s.svi := rfl
@[simp] theorem setVregBit_pending (b : Nat) (x : IntVector) (v : Bool) (s : State) : (setVregBit b x v s).pending = s.pending := rfl
@[simp] theorem setVregBit_mode (b : Nat) (x : IntVector) (v : Bool) (s : State) : (setVregBit b x v s).mode = s.mode := rfl
@[simp] theorem setVregBit_vmcs (b : Nat) (x : IntVector) (v : Bool) (s : State) : (setVregBit b x v s).vmcs = s.vmcs := rfl
@[simp] theorem setVregBit_params (b : Nat) (x : IntVector) (v : Bool) (s : State) : (setVregBit b x v s).params = s.params := rfl
@[simp] theorem setVregBit_transactional (b : Nat) (x : IntVector) (v : Bool) (s : State) : (setVregBit b x v s).transactional = s.transactional := rfl
@[simp] theorem setVregBit_enclave (b : Nat) (x : IntVector) (v : Bool) (s : State) : (setVregBit b x v s).enclave = s.enclave := rfl
@[simp] theorem setVregBit_activity (b : Nat) (x : IntVector) (v : Bool) (s : State) : (setVregBit b x v s).activity = s.activity := rfl
@[simp] theorem setVregBit_userNotified (b : Nat) (x : IntVector) (v : Bool) (s : State) : (setVregBit b x v s).userNotified = s.userNotified := rfl
@[simp] theorem setVregBit_history (b : Nat) (x : IntVector) (v : Bool) (s : State) : (setVregBit b x v s).history = s.history := rfl
@[simp] theorem setVregBit_agents (b : Nat) (x : IntVector) (v : Bool) (s : State) : (setVregBit b x v s).agents = s.agents := rfl
@[simp] theorem setVregBit_lastExit (b : Nat) (x : IntVector) (v : Bool) (s : State) : (setVregBit b x v s).lastExit = s.lastExit := rfl
@[simp] theorem setVregBit_nextIp (b : Nat) (x : IntVector) (v : Bool) (s : State) : (setVregBit b x v s).nextIp = s.nextIp := rfl
@[simp] theorem setVregBit_ip (b : Nat) (x : IntVector) (v : Bool) (s : State) : (setVregBit b x v s).ip = s.ip := rfl
@[simp] theorem setVregBit_wroteVirt (b : Nat) (x : IntVector) (v : Bool) (s : State) : (setVregBit b x v s).wroteVirt = s.wroteVirt := rfl

/-! ### refreshRvi -/

@[simp] theorem refreshRvi_rvi (s : State) : (refreshRvi s).rvi = highest (virr s) := rfl
@[simp] theorem refreshRvi_svi (s : State) : (refreshRvi s).svi = s.svi := rfl
@[simp] theorem refreshRvi_pending (s : State) : (refreshRvi s).pending = s.pending := rfl
@[simp] theorem refreshRvi_mem (s : State) : (refreshRvi s).mem = s.mem := rfl
@[simp] theorem refreshRvi_mode (s : State) : (refreshRvi s).mode = s.mode := rfl
@[simp] theorem refreshRvi_vmcs (s : State) : (refreshRvi s).vmcs = s.vmcs := rfl
@[simp] theorem refreshRvi_params (s : State) : (refreshRvi s).params = s.params := rfl
@[simp] theorem refreshRvi_transactional (s : State) : (refreshRvi s).transactional = s.transactional := rfl
@[simp] theorem refreshRvi_enclave (s : State) : (refreshRvi s).enclave = s.enclave := rfl
@[simp] theorem refreshRvi_activity (s : State) : (refreshRvi s).activity = s.activity := rfl
@[simp] theorem refreshRvi_userNotified (s : State) : (refreshRvi s).userNotified = s.userNotified := rfl
@[simp] theorem refreshRvi_history (s : State) : (refreshRvi s).history = s.history := rfl
@[simp] theorem refreshRvi_agents (s : State) : (refreshRvi s).agents = s.agents := rfl
@[simp] theorem refreshRvi_lastExit (s : State) : (refreshRvi s).lastExit = s.lastExit := rfl
@[simp] theorem refreshRvi_nextIp (s : State) : (refreshRvi s).nextIp = s.nextIp := rfl
@[simp] theorem refreshRvi_ip (s : State) : (refreshRvi s).ip = s.ip := rfl
@[simp] theorem refreshRvi_wroteVirt (s : State) : (refreshRvi s).wroteVirt = s.wroteVirt := rfl

/-! ### refreshSvi -/

@[simp] theorem refreshSvi_svi (s : State) : (refreshSvi s).svi = highest (visr s) := rfl
@[simp] theorem refreshSvi_rvi (s : State) : (refreshSvi s).rvi = s.rvi := rfl
@[simp] theorem refreshSvi_pending (s : State) : (refreshSvi s).pending = s.pending := rfl
@[simp] theorem refreshSvi_mem (s : State) : (refreshSvi s).mem = s.mem := rfl
@[simp] theorem refreshSvi_mode (s : State) : (refreshSvi s).mode = s.mode := rfl
@[simp] theorem refreshSvi_vmcs (s : State) : (refreshSvi s).vmcs = s.vmcs := rfl
@[simp] theorem refreshSvi_params (s : State) : (refreshSvi s).params = s.params := rfl
@[simp] theorem refreshSvi_transactional (s : State) : (refreshSvi s).transactional = s.transactional := rfl
@[simp] theorem refreshSvi_enclave (s : State) : (refreshSvi s).enclave = s.enclave := rfl
@[simp] theorem refreshSvi_activity (s : State) : (refreshSvi s).activity = s.activity := rfl
@[simp] theorem refreshSvi_userNotified (s : State) : (refreshSvi s).userNotified = s.userNotified := rfl
@[simp] theorem refreshSvi_history (s : State) : (refreshSvi s).history = s.history := rfl
@[simp] theorem refreshSvi_agents (s : State) : (refreshSvi s).agents = s.agents := rfl
@[simp] theorem refreshSvi_lastExit (s : State) : (refreshSvi s).lastExit = s.lastExit := rfl
@[simp] theorem refreshSvi_nextIp (s : State) : (refreshSvi s).nextIp = s.nextIp := rfl
@[simp] theorem refreshSvi_ip (s : State) : (refreshSvi s).ip = s.ip := rfl
@[simp] theorem refreshSvi_wroteVirt (s : State) : (refreshSvi s).wroteVirt = s.wroteVirt := rfl

/-! ### raiseRvi -/

@[simp] theorem raiseRvi_rvi (v : IntVector) (s : State) : (raiseRvi v s).rvi = maxVector s.rvi v := rfl
@[simp] theorem raiseRvi_svi (v : IntVector) (s : State) : (raiseRvi v s).svi = s.svi := rfl
@[simp] theorem raiseRvi_pending (v : IntVector) (s : State) : (raiseRvi v s).pending = s.pending := rfl
@[simp] theorem raiseRvi_mem (v : IntVector) (s : State) : (raiseRvi v s).mem = s.mem := rfl
@[simp] theorem raiseRvi_mode (v : IntVector) (s : State) : (raiseRvi v s).mode = s.mode := rfl
@[simp] theorem raiseRvi_vmcs (v : IntVector) (s : State) : (raiseRvi v s).vmcs = s.vmcs := rfl
@[simp] theorem raiseRvi_params (v : IntVector) (s : State) : (raiseRvi v s).params = s.params := rfl
@[simp] theorem raiseRvi_transactional (v : IntVector) (s : State) : (raiseRvi v s).transactional = s.transactional := rfl
@[simp] theorem raiseRvi_enclave (v : IntVector) (s : State) : (raiseRvi v s).enclave = s.enclave := rfl
@[simp] theorem raiseRvi_activity (v : IntVector) (s : State) : (raiseRvi v s).activity = s.activity := rfl
@[simp] theorem raiseRvi_userNotified (v : IntVector) (s : State) : (raiseRvi v s).userNotified = s.userNotified := rfl
@[simp] theorem raiseRvi_history (v : IntVector) (s : State) : (raiseRvi v s).history = s.history := rfl
@[simp] theorem raiseRvi_agents (v : IntVector) (s : State) : (raiseRvi v s).agents = s.agents := rfl
@[simp] theorem raiseRvi_lastExit (v : IntVector) (s : State) : (raiseRvi v s).lastExit = s.lastExit := rfl
@[simp] theorem raiseRvi_nextIp (v : IntVector) (s : State) : (raiseRvi v s).nextIp = s.nextIp := rfl
@[simp] theorem raiseRvi_ip (v : IntVector) (s : State) : (raiseRvi v s).ip = s.ip := rfl
@[simp] theorem raiseRvi_wroteVirt (v : IntVector) (s : State) : (raiseRvi v s).wroteVirt = s.wroteVirt := rfl

/-! ### pprVirtualization -/

@[simp] theorem pprVirtualization_rvi (s : State) : (pprVirtualization s).rvi = s.rvi := rfl
@[simp] theorem pprVirtualization_svi (s : State) : (pprVirtualization s).svi = s.svi := rfl
@[simp] theorem pprVirtualization_pending (s : State) : (pprVirtualization s).pending = s.pending := rfl
@[simp] theorem pprVirtualization_mode (s : State) : (pprVirtualization s).mode = s.mode := rfl
@[simp] theorem pprVirtualization_vmcs (s : State) : (pprVirtualization s).vmcs = s.vmcs := rfl
@[simp] theorem pprVirtualization_params (s : State) : (pprVirtualization s).params = s.params := rfl
@[simp] theorem pprVirtualization_transactional (s : State) : (pprVirtualization s).transactional = s.transactional := rfl
@[simp] theorem pprVirtualization_enclave (s : State) : (pprVirtualization s).enclave = s.enclave := rfl
@[simp] theorem pprVirtualization_activity (s : State) : (pprVirtualization s).activity = s.activity := rfl
@[simp] theorem pprVirtualization_userNotified (s : State) : (pprVirtualization s).userNotified = s.userNotified := rfl
@[simp] theorem pprVirtualization_history (s : State) : (pprVirtualization s).history = s.history := rfl
@[simp] theorem pprVirtualization_agents (s : State) : (pprVirtualization s).agents = s.agents := rfl
@[simp] theorem pprVirtualization_lastExit (s : State) : (pprVirtualization s).lastExit = s.lastExit := rfl
@[simp] theorem pprVirtualization_nextIp (s : State) : (pprVirtualization s).nextIp = s.nextIp := rfl
@[simp] theorem pprVirtualization_ip (s : State) : (pprVirtualization s).ip = s.ip := rfl
@[simp] theorem pprVirtualization_wroteVirt (s : State) : (pprVirtualization s).wroteVirt = s.wroteVirt := rfl

/-! ### abortTransaction -/

@[simp] theorem abortTransaction_rvi (s : State) : (abortTransaction s).rvi = s.rvi := by unfold abortTransaction; split <;> rfl
@[simp] theorem abortTransaction_svi (s : State) : (abortTransaction s).svi = s.svi := by unfold abortTransaction; split <;> rfl
@[simp] theorem abortTransaction_pending (s : State) : (abortTransaction s).pending = s.pending := by unfold abortTransaction; split <;> rfl
@[simp] theorem abortTransaction_mem (s : State) : (abortTransaction s).mem = s.mem := by unfold abortTransaction; split <;> rfl
@[simp] theorem abortTransaction_mode (s : State) : (abortTransaction s).mode = s.mode := by unfold abortTransaction; split <;> rfl
@[simp] theorem abortTransaction_vmcs (s : State) : (abortTransaction s).vmcs = s.vmcs := by unfold abortTransaction; split <;> rfl
@[simp] theorem abortTransaction_params (s : State) : (abortTransaction s).params = s.params := by unfold abortTransaction; split <;> rfl
@[simp] theorem abortTransaction_activity (s : State) : (abortTransaction s).activity = s.activity := by unfold abortTransaction; split <;> rfl
@[simp] theorem abortTransaction_userNotified (s : State) : (abortTransaction s).userNotified = s.userNotified := by unfold abortTransaction; split <;> rfl
@[simp] theorem abortTransaction_agents (s : State) : (abortTransaction s).agents = s.agents := by unfold abortTransaction; split <;> rfl
@[simp] theorem abortTransaction_lastExit (s : State) : (abortTransaction s).lastExit = s.lastExit := by unfold abortTransaction; split <;> rfl
@[simp] theorem abortTransaction_nextIp (s : State) : (abortTransaction s).nextIp = s.nextIp := by unfold abortTransaction; split <;> rfl
@[simp] theorem abortTransaction_ip (s : State) : (abortTransaction s).ip = s.ip := by unfold abortTransaction; split <;> rfl
@[simp] theorem abortTransaction_enclave (s : State) : (abortTransaction s).enclave = s.enclave := by unfold abortTransaction; split <;> rfl

/-! ### enclaveExit -/

@[simp] theorem enclaveExit_rvi (s : State) : (enclaveExit s).rvi = s.rvi := by unfold enclaveExit; split <;> rfl
@[simp] theorem enclaveExit_svi (s : State) : (enclaveExit s).svi = s.svi := by unfold enclaveExit; split <;> rfl
@[simp] theorem enclaveExit_pending (s : State) : (enclaveExit s).pending = s.pending := by unfold enclaveExit; split <;> rfl
@[simp] theorem enclaveExit_mem (s : State) : (enclaveExit s).mem = s.mem := by unfold enclaveExit; split <;> rfl
@[simp] theorem enclaveExit_mode (s : State) : (enclaveExit s).mode = s.mode := by unfold enclaveExit; split <;> rfl
@[simp] theorem enclaveExit_vmcs (s : State) : (enclaveExit s).vmcs = s.vmcs := by unfold enclaveExit; split <;> rfl
@[simp] theorem enclaveExit_params (s : State) : (enclaveExit s).params = s.params := by unfold enclaveExit; split <;> rfl
@[simp] theorem enclaveExit_activity (s : State) : (enclaveExit s).activity = s.activity := by unfold enclaveExit; split <;> rfl
@[simp] theorem enclaveExit_userNotified (s : State) : (enclaveExit s).userNotified = s.userNotified := by unfold enclaveExit; split <;> rfl
@[simp] theorem enclaveExit_agents (s : State) : (enclaveExit s).agents = s.agents := by unfold enclaveExit; split <;> rfl
@[simp] theorem enclaveExit_lastExit (s : State) : (enclaveExit s).lastExit = s.lastExit := by unfold enclaveExit; split <;> rfl
@[simp] theorem enclaveExit_nextIp (s : State) : (enclaveExit s).nextIp = s.nextIp := by unfold enclaveExit; split <;> rfl
@[simp] theorem enclaveExit_ip (s : State) : (enclaveExit s).ip = s.ip := by unfold enclaveExit; split <;> rfl
@[simp] theorem enclaveExit_transactional (s : State) : (enclaveExit s).transactional = s.transactional := by unfold enclaveExit; split <;> rfl

/-! ### deliverEvent -/

@[simp] theorem deliverEvent_rvi (v : IntVector) (s : State) : (deliverEvent v s).rvi = s.rvi := by unfold deliverEvent; split <;> rfl
@[simp] theorem deliverEvent_svi (v : IntVector) (s : State) : (deliverEvent v s).svi = s.svi := by unfold deliverEvent; split <;> rfl
@[simp] theorem deliverEvent_pending (v : IntVector) (s : State) : (deliverEvent v s).pending = s.pending := by unfold deliverEvent; split <;> rfl
@[simp] theorem deliverEvent_mem (v : IntVector) (s : State) : (deliverEvent v s).mem = s.mem := by unfold deliverEvent; split <;> rfl
@[simp] theorem deliverEvent_mode (v : IntVector) (s : State) : (deliverEvent v s).mode = s.mode := by unfold deliverEvent; split <;> rfl
@[simp] theorem deliverEvent_vmcs (v : IntVector) (s : State) : (deliverEvent v s).vmcs = s.vmcs := by unfold deliverEvent; split <;> rfl
@[simp] theorem deliverEvent_params (v : IntVector) (s : State) : (deliverEvent v s).params = s.params := by unfold deliverEvent; split <;> rfl
@[simp] theorem deliverEvent_activity (v : IntVector) (s : State) : (deliverEvent v s).activity = s.activity := by unfold deliverEvent; split <;> rfl
@[simp] theorem deliverEvent_agents (v : IntVector) (s : State) : (deliverEvent v s).agents = s.agents := by unfold deliverEvent; split <;> rfl
@[simp] theorem deliverEvent_lastExit (v : IntVector) (s : State) : (deliverEvent v s).lastExit = s.lastExit := by unfold deliverEvent; split <;> rfl
@[simp] theorem deliverEvent_nextIp (v : IntVector) (s : State) : (deliverEvent v s).nextIp = s.nextIp := by unfold deliverEvent; split <;> rfl
@[simp] theorem deliverEvent_ip (v : IntVector) (s : State) : (deliverEvent v s).ip = s.ip := by unfold deliverEvent; split <;> rfl
@[simp] theorem deliverEvent_transactional (v : IntVector) (s : State) : (deliverEvent v s).transactional = s.transactional := by unfold deliverEvent; split <;> rfl
@[simp] theorem deliverEvent_enclave (v : IntVector) (s : State) : (deliverEvent v s).enclave = s.enclave := by unfold deliverEvent; split <;> rfl

/-! ### Outcomes under their conditions -/

theorem inGuest_eq {k : State → Res} {s : State} (h : s.mode = .vmxNonRoot) : inGuest k s = finish (k s) := by
  rw [inGuest, if_pos h]

theorem onVapicPage_eq {k : State → Res} {s : State} (h : vapicPlaced s = true) : onVapicPage k s = k s := by
  rw [onVapicPage, if_pos h]

theorem enabledBy_eq {k : State → Res} {s : State} {c : Bool} (h : c = true) : enabledBy c k s = k s := by
  rw [enabledBy, if_pos h]

theorem whenActive_eq {k : State → Res} {s : State} (h : s.activity = .active) : whenActive k s = k s := by
  rw [whenActive, if_pos h]

/-- An instruction whose conditions hold is its virtualization and its completion. -/
theorem instruction_eq {k : State → Res} {s : State} {c : Bool} (h : s.mode = .vmxNonRoot)
    (ha : s.activity = .active) (hc : c = true) : instruction c k s = finish (completing k s) := by
  rw [instruction, inGuest_eq h, whenActive_eq ha, enabledBy_eq hc]

theorem exited_takeVmExit (e : VmExit) (s : State) : Exited e (savedIp e s) (takeVmExit e s) := ⟨rfl, rfl, rfl⟩

/-! ### Retiring the vector in service (R156) -/

@[simp] theorem retireInService_visr (s : State) : visr (retireInService s) = withBit (visr s) s.svi false := by
  rw [retireInService, pprVirtualization, visr_setVppr, refreshSvi, visr_setSvi, visr_setVregBit_isr]
@[simp] theorem retireInService_svi (s : State) :
    (retireInService s).svi = highest (withBit (visr s) s.svi false) := by
  rw [retireInService, pprVirtualization_svi, refreshSvi_svi, visr_setVregBit_isr]
@[simp] theorem retireInService_virr (s : State) : virr (retireInService s) = virr s := by
  rw [retireInService, pprVirtualization, virr_setVppr, refreshSvi, virr_setSvi, virr_setVregBit_isr]
@[simp] theorem retireInService_vtpr (s : State) : vtpr (retireInService s) = vtpr s := by
  rw [retireInService, pprVirtualization, vtpr_setVppr, refreshSvi, vtpr_setSvi, vtpr_setVregBit_isr]
@[simp] theorem retireInService_vppr (s : State) :
    vppr (retireInService s) = pprValue (vtpr s) (highest (withBit (visr s) s.svi false)) := by
  rw [retireInService, pprVirtualization, vppr_setVppr, refreshSvi_svi, visr_setVregBit_isr, refreshSvi, vtpr_setSvi,
    vtpr_setVregBit_isr]
@[simp] theorem retireInService_veoi (s : State) : veoi (retireInService s) = veoi s := by
  rw [veoi, retireInService, pprVirtualization, vapic32_setVapic32_other _ _ (by decide), refreshSvi,
    vapic32_setSvi, vapic32_setVregBit_isr _ _ _ (by decide)]; rfl
@[simp] theorem retireInService_rvi (s : State) : (retireInService s).rvi = s.rvi := by
  rw [retireInService, pprVirtualization_rvi, refreshSvi_rvi, setVregBit_rvi]
@[simp] theorem retireInService_pending (s : State) : (retireInService s).pending = s.pending := by
  rw [retireInService, pprVirtualization_pending, refreshSvi_pending, setVregBit_pending]
@[simp] theorem retireInService_wroteVirt (s : State) : (retireInService s).wroteVirt = s.wroteVirt := by
  rw [retireInService, pprVirtualization_wroteVirt, refreshSvi_wroteVirt, setVregBit_wroteVirt]
@[simp] theorem retireInService_history (s : State) : (retireInService s).history = s.history := by
  rw [retireInService, pprVirtualization_history, refreshSvi_history, setVregBit_history]

/-! ### Accepting a vector (R175) -/

@[simp] theorem acceptVector_visr (s : State) : visr (acceptVector s) = withBit (visr s) s.rvi true := by
  rw [acceptVector, visr_setPending, refreshRvi, visr_setRvi, visr_setVregBit_irr, visr_setVppr, visr_setSvi,
    visr_setVregBit_isr]
@[simp] theorem acceptVector_virr (s : State) : virr (acceptVector s) = withBit (virr s) s.rvi false := by
  rw [acceptVector, virr_setPending, refreshRvi, virr_setRvi, virr_setVregBit_irr, virr_setVppr, virr_setSvi,
    virr_setVregBit_isr]
@[simp] theorem acceptVector_vppr (s : State) : vppr (acceptVector s) = classBase s.rvi := by
  rw [acceptVector, vppr_setPending, refreshRvi, vppr_setRvi, vppr_setVregBit_irr, vppr_setVppr]
@[simp] theorem acceptVector_vtpr (s : State) : vtpr (acceptVector s) = vtpr s := by
  rw [acceptVector, vtpr_setPending, refreshRvi, vtpr_setRvi, vtpr_setVregBit_irr, vtpr_setVppr, vtpr_setSvi,
    vtpr_setVregBit_isr]
@[simp] theorem acceptVector_svi (s : State) : (acceptVector s).svi = s.rvi := by
  rw [acceptVector, setPending_svi, refreshRvi_svi, setVregBit_svi, setVapic32_svi, setSvi_svi]
@[simp] theorem acceptVector_rvi (s : State) : (acceptVector s).rvi = highest (withBit (virr s) s.rvi false) := by
  rw [acceptVector, setPending_rvi, refreshRvi_rvi, virr_setVregBit_irr, virr_setVppr, virr_setSvi,
    virr_setVregBit_isr]
@[simp] theorem acceptVector_pending (s : State) : (acceptVector s).pending = false := rfl
@[simp] theorem acceptVector_history (s : State) : (acceptVector s).history = s.history := by
  rw [acceptVector, setPending_history, refreshRvi_history, setVregBit_history, setVapic32_history, setSvi_history,
    setVregBit_history]

/-! ### The events of delivery (R175, R178, R229) -/

theorem abortTransaction_history (s : State) :
    (abortTransaction s).history = s.history ++ if s.transactional then [.abortTransaction] else [] := by
  unfold abortTransaction; split <;> simp
@[simp] theorem abortTransaction_transactional (s : State) : (abortTransaction s).transactional = false := by
  unfold abortTransaction; split
  · rfl
  · next h => simpa using h
theorem enclaveExit_history (s : State) :
    (enclaveExit s).history = s.history ++ if s.enclave then [.aex] else [] := by
  unfold enclaveExit; split <;> simp
@[simp] theorem enclaveExit_enclave (s : State) : (enclaveExit s).enclave = false := by
  unfold enclaveExit; split
  · rfl
  · next h => simpa using h
theorem deliverEvent_history (v : IntVector) (s : State) :
    (deliverEvent v s).history =
      s.history ++ [if userBranch s v then .userInterruptNotification else .deliverThroughIdt v] := by
  unfold deliverEvent
  by_cases h : userBranch s v = true
  · rw [if_pos h, if_pos h]; rfl
  · rw [if_neg h, if_neg h]; rfl
theorem deliverEvent_userNotified (v : IntVector) (s : State) :
    (deliverEvent v s).userNotified = (s.userNotified || userBranch s v) := by
  unfold deliverEvent
  by_cases h : userBranch s v = true
  · rw [if_pos h, h]; simp
  · rw [if_neg h]; simp at h; simp [h]

/-! ### Delivery (R175) -/

@[simp] theorem deliver_mem (s : State) : (deliver s).mem = (acceptVector s).mem := by simp [deliver]
@[simp] theorem deliver_rvi (s : State) : (deliver s).rvi = highest (withBit (virr s) s.rvi false) := by simp [deliver]
@[simp] theorem deliver_svi (s : State) : (deliver s).svi = s.rvi := by simp [deliver]
@[simp] theorem deliver_pending (s : State) : (deliver s).pending = false := by simp [deliver]
@[simp] theorem deliver_transactional (s : State) : (deliver s).transactional = false := by simp [deliver]
@[simp] theorem deliver_enclave (s : State) : (deliver s).enclave = false := by simp [deliver]
@[simp] theorem deliver_activity (s : State) : (deliver s).activity = .active := by simp [deliver]

theorem vapic32_deliver (s : State) (off : Nat) : vapic32 (deliver s) off = vapic32 (acceptVector s) off :=
  vapic32_congr (by rw [(wideFoot_deliver s).vmcs, (foot_acceptVector s).vmcs]) (deliver_mem s) off
theorem vreg_deliver (s : State) (base : Nat) : vreg (deliver s) base = vreg (acceptVector s) base :=
  vreg_congr (by rw [(wideFoot_deliver s).vmcs, (foot_acceptVector s).vmcs]) (deliver_mem s) base

@[simp] theorem deliver_visr (s : State) : visr (deliver s) = withBit (visr s) s.rvi true :=
  (vreg_deliver s _).trans (acceptVector_visr s)
@[simp] theorem deliver_virr (s : State) : virr (deliver s) = withBit (virr s) s.rvi false :=
  (vreg_deliver s _).trans (acceptVector_virr s)
@[simp] theorem deliver_vppr (s : State) : vppr (deliver s) = classBase s.rvi :=
  (vapic32_deliver s _).trans (acceptVector_vppr s)
@[simp] theorem deliver_vtpr (s : State) : vtpr (deliver s) = vtpr s :=
  (vapic32_deliver s _).trans (acceptVector_vtpr s)

theorem userBranch_of_wide {s u : State} (h : WideFoot s u) : userBranch u s.rvi = userDelivery s := by
  rw [userBranch, userDelivery, h.cr4Uintr, h.eferLma, h.vmcs]; rfl

theorem wideFoot_beforeEvent (s : State) : WideFoot s (enclaveExit (abortTransaction (wake (acceptVector s)))) :=
  (foot_acceptVector s).wide.trans ((wideFoot_wake _).trans ((wideFoot_abortTransaction _).trans
    (wideFoot_enclaveExit _)))

theorem deliver_history (s : State) : (deliver s).history = s.history ++ deliveryEvents s := by
  rw [deliver, deliverEvent_history, enclaveExit_history, abortTransaction_history, abortTransaction_enclave,
    userBranch_of_wide (wideFoot_beforeEvent s)]
  have h1 : (wake (acceptVector s)).transactional = s.transactional := (foot_acceptVector s).transactional
  have h2 : (wake (acceptVector s)).enclave = s.enclave := (foot_acceptVector s).enclave
  have h3 : (wake (acceptVector s)).history = s.history := acceptVector_history s
  rw [h1, h2, h3, deliveryEvents]
  simp only [List.append_assoc]

theorem deliver_userNotified (s : State) :
    (deliver s).userNotified = (s.userNotified || userDelivery s) := by
  rw [deliver, deliverEvent_userNotified, userBranch_of_wide (wideFoot_beforeEvent s)]
  simp only [enclaveExit_userNotified, abortTransaction_userNotified]
  rw [show (wake (acceptVector s)).userNotified = s.userNotified from (foot_acceptVector s).userNotified]

/-! ### The operations against the words of their rules -/

theorem vregBit_isr_withBit {s t : State} {y : IntVector} {v : Bool} (h : visr t = withBit (visr s) y v)
    (x : IntVector) : vregBit t offIsr x = if x = y then v else vregBit s offIsr x := by
  rw [← getLsbD_visr, h, getLsbD_withBit _ _ _ _ x.isLt, getLsbD_visr]
  simp only [BitVec.toNat_inj]

theorem vregBit_irr_withBit {s t : State} {y : IntVector} {v : Bool} (h : virr t = withBit (virr s) y v)
    (x : IntVector) : vregBit t offIrr x = if x = y then v else vregBit s offIrr x := by
  rw [← getLsbD_virr, h, getLsbD_withBit _ _ _ _ x.isLt, getLsbD_virr]
  simp only [BitVec.toNat_inj]

/-- Virtual-interrupt delivery does what R175 to R178 say. -/
theorem deliveryRule_deliver {s : State} (h : s.mode = .vmxNonRoot) : DeliveryRule s (deliver s) := by
  refine ⟨fun x => ?_, deliver_svi s, by rw [deliver_vppr, classBase_eq], fun x => ?_, ?_, deliver_pending s,
    deliver_transactional s, deliver_enclave s, deliver_activity s, deliver_vtpr s, (wideFoot_deliver s).rflagsIf,
    deliver_history s, deliver_userNotified s, ?_⟩
  · rw [vregBit_isr_withBit (deliver_visr s)]
    by_cases hx : x = s.rvi <;> simp [hx]
  · rw [vregBit_irr_withBit (deliver_virr s)]
    by_cases hx : x = s.rvi <;> simp [hx]
  · rw [deliver_virr, deliver_rvi]; exact isHighest_highest _
  · exact ⟨by rw [(wideFoot_deliver s).mode, h], (wideFoot_deliver s).lastExit, (wideFoot_deliver s).vmcs⟩

/-- `DeliverNow` is the rule's condition (R173, R174). -/
theorem deliverNow_iff (s : State) (higher : Bool) :
    deliverNow higher s = true ↔ Deliverable s ∧ higher = false := by
  constructor
  · intro h
    simp only [deliverNow, Bool.and_eq_true, Bool.not_eq_true'] at h
    obtain ⟨⟨⟨⟨⟨⟨⟨h1, h2⟩, h3⟩, h4⟩, h5⟩, h6⟩, h7⟩, h8⟩ := h
    refine ⟨⟨h1, h2, h3, h4, h5, h6, ?_⟩, h7⟩
    cases ha : s.activity <;> simp_all [wakeable]
  · rintro ⟨h, rfl⟩
    have hw : wakeable s.activity = true := by rcases h.state with h | h | h <;> rw [h] <;> rfl
    simp [deliverNow, h.vid, h.pending, h.ifSet, h.noSti, h.noMovSs, h.window, hw]

/-- Self-IPI virtualization does what R158 says. -/
theorem selfIpiRule_selfIpi (v : IntVector) {s : State} (h : s.mode = .vmxNonRoot) :
    SelfIpiRule v s (selfIpiVirtualization v s) := by
  refine ⟨fun x => ?_, toNat_maxVector _ _, evaluationRule_evaluate _, ?_, ?_, ?_, ?_, ?_⟩
  · have hv : virr (selfIpiVirtualization v s) = withBit (virr s) v true := by
      rw [selfIpiVirtualization, virr_evaluate, raiseRvi, virr_setRvi, virr_setVregBit_irr]
    rw [vregBit_irr_withBit hv]
    by_cases hx : x = v <;> simp [hx]
  · rw [selfIpiVirtualization, evaluate_svi, raiseRvi_svi, setVregBit_svi]
  · rw [selfIpiVirtualization, visr_evaluate, raiseRvi, visr_setRvi, visr_setVregBit_irr]
  · rw [selfIpiVirtualization, vppr_evaluate, raiseRvi, vppr_setRvi, vppr_setVregBit_irr]
  · rw [selfIpiVirtualization, vtpr_evaluate, raiseRvi, vtpr_setRvi, vtpr_setVregBit_irr]
  · exact ⟨by rw [(foot_selfIpi v s).mode, h], (foot_selfIpi v s).lastExit, (foot_selfIpi v s).vmcs⟩

/-- The rules of an operation that ends in a next state or a VM exit, said of what it comes to. -/
def Res.Ends (r : Res) (done exit : State → Prop) : Prop :=
  match r with
  | .done s => done s
  | .exit e s => exit (takeVmExit e s)
  | .abort _ => False
  | .refuse _ => False

/-- TPR virtualization does what R152 says, from the state `w` that holds the new VTPR. -/
theorem tprRule_tprVirtualization {s w : State} (hm : w.mode = .vmxNonRoot) (hf : Foot s w) (hr : w.rvi = s.rvi)
    (hs : w.svi = s.svi) (hp : w.pending = s.pending) (hvp : vppr w = vppr s) :
    (tprVirtualization w).Ends (fun t => TprRule s t ∧ vtpr t = vtpr w ∧ Foot s t ∧ t.mode = .vmxNonRoot ∧ t.history = w.history)
      (fun t => TprRule s t ∧ vtpr t = vtpr w ∧ t.mode = .vmxRoot) := by
  have hv := hf.vmcs
  unfold tprVirtualization
  by_cases hvid : w.vmcs.ctl.vid = true
  · rw [if_pos hvid]
    rw [hv] at hvid
    refine ⟨⟨?_, ?_, ?_⟩, ?_, hf.trans ((foot_pprVirtualization w).trans (foot_evaluate _)), hm, rfl⟩
    · rw [evaluate_rvi, pprVirtualization_rvi, hr]
    · rw [evaluate_svi, pprVirtualization_svi, hs]
    · rw [if_pos hvid]
      refine ⟨⟨hm, hf.lastExit, hv⟩, ?_, evaluationRule_evaluate _⟩
      rw [vppr_evaluate, vtpr_evaluate, pprVirtualization, vppr_setVppr, vtpr_setVppr, hs]
      exact pprRule_pprValue _ _
    · rw [vtpr_evaluate, pprVirtualization, vtpr_setVppr]
  · rw [if_neg hvid]
    rw [hv] at hvid
    have hb : tprBelow w = true ↔ (vtpr w).extractLsb' 4 4 < s.vmcs.tprThreshold := by
      simp only [tprBelow, decide_eq_true_eq, fieldCls_eq, hv]; exact Iff.rfl
    by_cases hlt : tprBelow w = true
    · rw [if_pos hlt]
      refine ⟨⟨hr, hs, ?_⟩, rfl, rfl⟩
      rw [if_neg hvid, vppr_takeVmExit, vtpr_takeVmExit, if_pos (hb.1 hlt)]
      refine ⟨hvp, hp, ?_⟩
      rw [← hf.nextIp]
      exact exited_takeVmExit .tprBelowThreshold w
    · rw [if_neg hlt]
      refine ⟨⟨hr, hs, ?_⟩, rfl, hf, hm, rfl⟩
      rw [if_neg hvid, if_neg (fun h => hlt (hb.2 h))]
      exact ⟨hvp, hp, hm, hf.lastExit, hv⟩

/-- EOI virtualization does what R156 says, from the state `w` in which VEOI is stored. -/
theorem eoiRule_eoiVirtualization {s w : State} (hm : w.mode = .vmxNonRoot) (hf : Foot s w) (hr : w.rvi = s.rvi)
    (hs : w.svi = s.svi) (hp : w.pending = s.pending) (hi : visr w = visr s) (hq : virr w = virr s)
    (ht : vtpr w = vtpr s) :
    (eoiVirtualization w).Ends (fun t => EoiRule s t ∧ veoi t = veoi w ∧ Foot s t ∧ t.mode = .vmxNonRoot ∧ t.history = w.history)
      (fun t => EoiRule s t ∧ veoi t = veoi w ∧ t.mode = .vmxRoot) := by
  have hv := hf.vmcs
  have hfr := hf.trans (foot_retireInService w)
  have bits : ∀ x, vregBit (retireInService w) offIsr x = (vregBit s offIsr x && decide (x ≠ s.svi)) := by
    intro x
    rw [vregBit_isr_withBit (retireInService_visr w), vregBit_isr_congr hi, hs]
    by_cases hx : x = s.svi <;> simp [hx]
  have high : IsHighest (visr (retireInService w)) (retireInService w).svi := by
    rw [retireInService_visr, retireInService_svi]; exact isHighest_highest _
  have ppr : PprRule (vtpr s) (retireInService w).svi (vppr (retireInService w)) := by
    rw [retireInService_vppr, retireInService_svi, ht]; exact pprRule_pprValue _ _
  have tpr : vtpr (retireInService w) = vtpr s := by rw [retireInService_vtpr, ht]
  have irr : virr (retireInService w) = virr s := by rw [retireInService_virr, hq]
  have rvi : (retireInService w).rvi = s.rvi := by rw [retireInService_rvi, hr]
  have pen : (retireInService w).pending = s.pending := by rw [retireInService_pending, hp]
  have mode : (retireInService w).mode = .vmxNonRoot := by rw [(foot_retireInService w).mode, hm]
  have veo := retireInService_veoi w
  have his := retireInService_history w
  unfold eoiVirtualization
  simp only
  rw [hs, hv]
  generalize retireInService w = q at *
  by_cases hb : s.vmcs.eoiExitBitmap.getLsbD s.svi.toNat = true
  · rw [if_pos hb]
    refine ⟨⟨bits, high, ppr, tpr, irr, rvi, ?_⟩, veo, rfl⟩
    rw [if_pos hb]
    refine ⟨?_, pen⟩
    rw [← hfr.nextIp]
    exact exited_takeVmExit _ q
  · rw [if_neg hb]
    refine ⟨⟨?_, by rw [visr_evaluate]; exact high, by rw [vppr_evaluate]; exact ppr, by rw [vtpr_evaluate, tpr],
      by rw [virr_evaluate, irr], rvi, ?_⟩, ?_, hfr.trans (foot_evaluate q), mode, his⟩
    · intro x; rw [vregBit, vapic32_evaluate]; exact bits x
    · rw [if_neg hb]
      exact ⟨⟨mode, hfr.lastExit, hfr.vmcs⟩, evaluationRule_evaluate q⟩
    · rw [veoi, vapic32_evaluate]; exact veo

/-! ### Where the operations store (R73) -/

/-- TPR virtualization stores to VPPR only. -/
theorem read_tprVirtualization (s : State) {a : Nat} (h : a < vapicAt s offPpr ∨ vapicAt s offPpr + 4 ≤ a) :
    (tprVirtualization s).All fun t => t.mem.read a = s.mem.read a ∧ t.wroteVirt = s.wroteVirt := by
  unfold tprVirtualization
  split
  · exact ⟨Memory.read_writeLe_outside _ _ _ _ _ h, rfl⟩
  · split <;> exact ⟨rfl, rfl⟩

theorem read_retireInService (s : State) {a : Nat} (h : a < vapicAt s offPpr ∨ vapicAt s offPpr + 4 ≤ a)
    (h2 : a < vapicAt s (fieldOff offIsr s.svi) ∨ vapicAt s (fieldOff offIsr s.svi) + 4 ≤ a) :
    (retireInService s).mem.read a = s.mem.read a := by
  rw [retireInService, pprVirtualization, setVapic32_mem]
  refine (Memory.read_writeLe_outside _ _ _ _ _ h).trans ?_
  rw [refreshSvi_mem]
  exact Memory.read_writeLe_outside _ _ _ _ _ h2

/-- EOI virtualization stores to VPPR and to the field of VISR that holds the old SVI's bit. -/
theorem read_eoiVirtualization (s : State) {a : Nat} (h : a < vapicAt s offPpr ∨ vapicAt s offPpr + 4 ≤ a)
    (h2 : a < vapicAt s (fieldOff offIsr s.svi) ∨ vapicAt s (fieldOff offIsr s.svi) + 4 ≤ a) :
    (eoiVirtualization s).All fun t => t.mem.read a = s.mem.read a ∧ t.wroteVirt = s.wroteVirt := by
  have h1 := read_retireInService s h h2
  have h3 := retireInService_wroteVirt s
  unfold eoiVirtualization
  simp only
  generalize retireInService s = q at *
  split <;> exact ⟨h1, h3⟩

/-- Self-IPI virtualization stores to the field of VIRR that holds the vector's bit. -/
theorem read_selfIpi (v : IntVector) (s : State) {a : Nat}
    (h : a < vapicAt s (fieldOff offIrr v) ∨ vapicAt s (fieldOff offIrr v) + 4 ≤ a) :
    (selfIpiVirtualization v s).mem.read a = s.mem.read a := by
  rw [selfIpiVirtualization, evaluate_mem, raiseRvi_mem]
  exact Memory.read_writeLe_outside _ _ _ _ _ h

/-- Delivery stores to VPPR and to the fields of VISR and VIRR that hold the vector's bit. -/
theorem read_deliver (s : State) {a : Nat}
    (h1 : a < vapicAt s (fieldOff offIsr s.rvi) ∨ vapicAt s (fieldOff offIsr s.rvi) + 4 ≤ a)
    (h2 : a < vapicAt s offPpr ∨ vapicAt s offPpr + 4 ≤ a)
    (h3 : a < vapicAt s (fieldOff offIrr s.rvi) ∨ vapicAt s (fieldOff offIrr s.rvi) + 4 ≤ a) :
    (deliver s).mem.read a = s.mem.read a := by
  rw [deliver_mem, acceptVector, setPending_mem, refreshRvi_mem]
  refine (Memory.read_writeLe_outside _ _ _ _ _ h3).trans ?_
  refine (Memory.read_writeLe_outside _ _ _ _ _ h2).trans ?_
  exact Memory.read_writeLe_outside _ _ _ _ _ h1

/-! ### Registers -/

theorem getReg_setReg (r q : Reg) (v : BitVec 64) (s : State) :
    getReg (setReg r v s) q = if q = r then v else getReg s q := by
  simp only [getReg, setReg, Vector.get_eq_getElem]
  by_cases h : q = r
  · subst h; simp
  · have : r.val ≠ q.val := fun e => h (Fin.ext e.symm)
    rw [if_neg h, Vector.getElem_set, if_neg this]

/-! ### Completion after an operation -/

theorem EvaluationRule.retire {s : State} (h : EvaluationRule s) : EvaluationRule (retire s) := by
  rw [EvaluationRule, retire_pending, retire_vmcs, vppr_retire, retire_rvi]; exact h

theorem TprRule.retire {s u : State} (h : TprRule s u) (hm : u.mode = .vmxNonRoot) : TprRule s (retire u) := by
  obtain ⟨a, b, c⟩ := h
  refine ⟨a, b, ?_⟩
  rw [vtpr_retire, vppr_retire, retire_pending]
  by_cases hv : s.vmcs.ctl.vid = true
  · rw [if_pos hv] at c ⊢; exact ⟨c.1, c.2.1, c.2.2.retire⟩
  · rw [if_neg hv] at c ⊢
    obtain ⟨c, d, e⟩ := c
    refine ⟨c, d, ?_⟩
    by_cases ht : (vtpr u).extractLsb' 4 4 < s.vmcs.tprThreshold
    · rw [if_pos ht] at e; exact absurd e.1 (by rw [hm]; decide)
    · rw [if_neg ht] at e ⊢; exact e

theorem EoiRule.retire {s u : State} (h : EoiRule s u) (hm : u.mode = .vmxNonRoot) : EoiRule s (retire u) := by
  obtain ⟨a, b, c, d, e, g, i⟩ := h
  refine ⟨fun x => ?_, by rw [visr_retire]; exact b, by rw [vppr_retire]; exact c, by rw [vtpr_retire, d],
    by rw [virr_retire, e], g, ?_⟩
  · rw [vregBit, vapic32_retire]; exact a x
  · by_cases hv : s.vmcs.eoiExitBitmap.getLsbD s.svi.toNat = true
    · rw [if_pos hv] at i; exact absurd i.1.1 (by rw [hm]; decide)
    · rw [if_neg hv] at i ⊢; exact ⟨i.1, i.2.retire⟩

end Sys2Proof.Machine
end

