-- ==== Sys2Proof/Laws/Posting.lean ====
section
/-! SUPPORT. IPI virtualization and posted-interrupt processing against the words of their rules, with nothing of
another agent inside the operation. -/

namespace Sys2Proof.Machine

/-! ### Addresses and fields (R51, R52, R161) -/

theorem pidAddr_eq (e : BitVec 64) : pidAddr e = (e &&& ~~~0x3F).toNat := by
  have h : e &&& ~~~(0x3F : BitVec 64) = e >>> 6 <<< 6 := by
    apply BitVec.eq_of_getLsbD_eq
    intro i hi
    have h63 : (0x3F : BitVec 64) = BitVec.setWidth 64 (BitVec.allOnes 6) := rfl
    rw [h63]
    simp only [BitVec.getLsbD_and, BitVec.getLsbD_not, BitVec.getLsbD_setWidth, BitVec.getLsbD_allOnes,
      BitVec.getLsbD_shiftLeft, BitVec.getLsbD_ushiftRight]
    by_cases h6 : i < 6
    · simp [h6, hi]
    · simp [h6, hi, show 6 + (i - 6) = i by omega]
  rw [h, pidAddr, BitVec.toNat_shiftLeft, BitVec.toNat_ushiftRight, Nat.shiftLeft_eq, Nat.shiftRight_eq_div_pow]
  have := e.isLt
  omega

theorem frame_low (x : BitVec 64) (o : BitVec 12) :
    x.extractLsb' 12 52 ++ o = (x &&& ~~~0xFFF) + o.setWidth 64 := by
  have h : x &&& ~~~(0xFFF : BitVec 64) = x >>> 12 <<< 12 := by
    apply BitVec.eq_of_getLsbD_eq
    intro i hi
    have h63 : (0xFFF : BitVec 64) = BitVec.setWidth 64 (BitVec.allOnes 12) := rfl
    rw [h63]
    simp only [BitVec.getLsbD_and, BitVec.getLsbD_not, BitVec.getLsbD_setWidth, BitVec.getLsbD_allOnes,
      BitVec.getLsbD_shiftLeft, BitVec.getLsbD_ushiftRight]
    by_cases h6 : i < 12
    · simp [h6, hi]
    · simp [h6, hi, show 12 + (i - 12) = i by omega]
  rw [h]
  apply BitVec.eq_of_toNat_eq
  rw [BitVec.toNat_append, BitVec.toNat_add, BitVec.toNat_shiftLeft, BitVec.toNat_ushiftRight, BitVec.toNat_setWidth,
    BitVec.extractLsb'_toNat, ← Nat.shiftLeft_add_eq_or_of_lt o.isLt]
  simp only [Nat.shiftLeft_eq, Nat.shiftRight_eq_div_pow]
  have := x.isLt
  have := o.isLt
  omega

theorem notification_eq (s : State) (ni : BitVec 64) :
    Event.sendIpi (ipiDest s ni) (niNv ni) (ipiRoute s) = notification s ni := by
  unfold ipiDest ipiRoute notification
  cases s.params.apicMode
  · simp only [niNdst, niNv, frame_low]
    congr 2
    apply BitVec.eq_of_getLsbD_eq
    intro i hi
    simp only [BitVec.getLsbD_extractLsb']
    simp [hi, show 8 + i < 32 by omega, show 32 + (8 + i) = 40 + i by omega]
  · rfl

theorem pidEntry_eq (s : State) (a : ApicId) :
    pidEntry s a = s.mem.read64 (s.vmcs.pidTableAddr.toNat + 8 * a.toNat) := by
  rw [pidEntry, pidEntryAddr, Nat.mul_comm]

theorem pidEntryValid_iff (s : State) (e : BitVec 64) :
    pidEntryValid s e = true ↔ e.toNat < 2 ^ s.params.paw ∧ e.extractLsb' 0 6 = 1 := by
  simp [pidEntryValid]

/-! ### IPI virtualization (R160 to R162) -/

/-- The two lock scopes and the notification, one after the other. -/
def post (p : Nat) (v : IntVector) (s : State) : State := notifyPid p (postInPir p v s)

theorem postInterrupt_alone {p : Nat} {v : IntVector} {s : State} (h : Alone s) :
    postInterrupt p v s = .done (post p v s) := by
  rw [postInterrupt, agentGap_alone h]
  show (agentGap (postInPir p v s)).andThen _ = _
  rw [agentGap_alone (show (postInPir p v s).agents = [] from h)]; rfl

/-- Where the pair is illegal, the one outcome is the APIC-write VM exit; otherwise the descriptor is posted. -/
theorem ipiVirtualization_illegal {v : IntVector} {a : ApicId} {s : State} (h : IpiIllegal v a s)
    (ht : v.toNat < 16 ∨ s.vmcs.lastPidIndex < a.toNat ∨ placed s (pidEntryAddr s a) 8 = true) :
    ipiVirtualization v a s = .exit (.apicWrite 0x300) s := by
  unfold ipiVirtualization
  by_cases h1 : v.toNat < 16
  · rw [if_pos h1]
  · rw [if_neg h1]
    by_cases h2 : a.toNat ≤ s.vmcs.lastPidIndex
    · rw [if_pos h2, if_pos (by rcases ht with ht | ht | ht; exacts [absurd ht h1, absurd ht (by omega), ht])]
      have h3 : ¬pidEntryValid s (pidEntry s a) = true := by
        rw [pidEntryValid_iff, pidEntry_eq]
        rcases h with h | h | h
        exacts [absurd h h1, absurd h (by omega), h]
      simp only
      rw [if_neg h3]
    · rw [if_neg h2]

theorem ipiVirtualization_legal {v : IntVector} {a : ApicId} {s : State} (h : ¬IpiIllegal v a s)
    (hp : placed s (pidEntryAddr s a) 8 = true) (hu : PidUsable s (targetPid s a)) :
    ipiVirtualization v a s = postInterrupt (targetPid s a) v s := by
  simp only [IpiIllegal, not_or, not_not] at h
  obtain ⟨h1, h2, h3⟩ := h
  have hpid : pidAddr (pidEntry s a) = targetPid s a := by rw [pidAddr_eq, pidEntry_eq]; rfl
  unfold ipiVirtualization
  rw [if_neg h1, if_pos (by omega), if_pos hp]
  simp only
  rw [if_pos ((pidEntryValid_iff _ _).2 (by rw [pidEntry_eq]; exact h3)), hpid, hu.1, hu.2]
  rfl

theorem notifyInfo_postInPir (p : Nat) (v : IntVector) (s : State) :
    notifyInfoAt (postInPir p v s).mem p = s.mem.read64 (p + 32) :=
  Memory.read64_writeLe_disjoint _ _ _ _ _ (by omega)

/-- Posting does what R160 and R161 say. -/
theorem postedIn_post (p : Nat) (v : IntVector) (s : State) : PostedIn p v s (post p v s) := by
  have hni := notifyInfo_postInPir p v s
  have hpir : ((postInPir p v s).mem).read256 p = s.mem.read256 p ||| BitVec.twoPow 256 v.toNat :=
    Memory.read256_write_same _ _ _
  have bit : ∀ x : IntVector, (s.mem.read256 p ||| BitVec.twoPow 256 v.toNat).getLsbD x.toNat =
      ((s.mem.read256 p).getLsbD x.toNat || decide (x = v)) := by
    intro x
    have := x.isLt
    have := v.isLt
    rw [BitVec.getLsbD_or, BitVec.getLsbD_twoPow]
    congr 1
    by_cases h : x = v
    · subst h; simp; omega
    · simp only [h, decide_false, Bool.and_eq_false_iff, decide_eq_false_iff_not]
      right; intro hx; exact h (BitVec.eq_of_toNat_eq hx.symm)
  unfold post notifyPid
  simp only
  rw [hni, notification_eq]
  by_cases hc : (!niOn (s.mem.read64 (p + 32)) && !niSn (postInPir p v s) (s.mem.read64 (p + 32))) = true
  · rw [if_pos hc]
    refine ⟨fun x => ?_, ?_⟩
    · show (((postInPir p v s).mem.writeLe (p + 32) 8 _).read256 p).getLsbD _ = _
      rw [Memory.read256_writeLe_disjoint _ _ _ _ _ (by omega), hpir, bit]
    · simp only [niOn, niSn, Bool.and_eq_true, Bool.not_eq_true', show (postInPir p v s).params = s.params from rfl] at hc
      rw [if_pos hc]
      exact ⟨Memory.read64_write_same _ _ _, rfl⟩
  · rw [if_neg hc]
    refine ⟨fun x => ?_, ?_⟩
    · show (((postInPir p v s).mem.writeLe (p + 32) 8 _).read256 p).getLsbD _ = _
      rw [Memory.read256_writeLe_disjoint _ _ _ _ _ (by omega), hpir, bit]
    · simp only [niOn, niSn, Bool.and_eq_true, Bool.not_eq_true', show (postInPir p v s).params = s.params from rfl] at hc
      rw [if_neg hc]
      exact ⟨Memory.read64_write_same _ _ _, rfl⟩

theorem foot_post (p : Nat) (v : IntVector) (s : State) : Foot s (post p v s) :=
  (foot_postInPir p v s).trans (foot_notifyPid p _)

theorem notifyPid_status (p : Nat) (s : State) :
    (notifyPid p s).rvi = s.rvi ∧ (notifyPid p s).svi = s.svi ∧ (notifyPid p s).pending = s.pending := by
  unfold notifyPid
  simp only
  split <;> exact ⟨rfl, rfl, rfl⟩

theorem post_status (p : Nat) (v : IntVector) (s : State) : SameInterruptStatus s (post p v s) := by
  obtain ⟨h1, h2, h3⟩ := notifyPid_status p (postInPir p v s)
  exact ⟨h1, h2, h3⟩

/-- What IPI virtualization comes to with a usable table and nobody else acting. -/
theorem ipiVirtualization_ends {v : IntVector} {a : ApicId} {s : State} (hm : s.mode = .vmxNonRoot) (h : Alone s)
    (ht : TableUsable s) :
    (ipiVirtualization v a s).Ends (fun t => ¬IpiIllegal v a s ∧ t = post (targetPid s a) v s ∧ IpiRule v a s t ∧ t.mode = .vmxNonRoot)
      (fun t => IpiIllegal v a s ∧ t = takeVmExit (.apicWrite 0x300) s ∧ IpiRule v a s t) := by
  have tbl : ∀ h1 : ¬v.toNat < 16, ∀ h2 : a.toNat ≤ s.vmcs.lastPidIndex, placed s (pidEntryAddr s a) 8 = true :=
    fun _ h2 => (ht a h2).1
  by_cases hi : IpiIllegal v a s
  · rw [ipiVirtualization_illegal hi]
    · exact ⟨hi, rfl, ⟨rfl, rfl, rfl⟩, fun _ => ⟨exited_takeVmExit _ _, rfl⟩, fun h => absurd hi h⟩
    · by_cases h1 : v.toNat < 16
      · exact .inl h1
      · by_cases h2 : a.toNat ≤ s.vmcs.lastPidIndex
        · exact .inr (.inr (tbl h1 h2))
        · exact .inr (.inl (by omega))
  · have hi' := hi
    simp only [IpiIllegal, not_or, not_not] at hi'
    obtain ⟨h1, h2, h3⟩ := hi'
    have h2' : a.toNat ≤ s.vmcs.lastPidIndex := by omega
    have hu : PidUsable s (targetPid s a) := by
      have := (ht a h2').2 ((pidEntryValid_iff _ _).2 (by rw [pidEntry_eq]; exact h3))
      rw [pidAddr_eq, pidEntry_eq] at this
      exact this
    rw [ipiVirtualization_legal hi (tbl h1 h2') hu, postInterrupt_alone h]
    have hf := foot_post (targetPid s a) v s
    refine ⟨hi, rfl, ⟨post_status _ _ _, fun h => absurd h hi, fun _ => ⟨⟨by rw [hf.mode, hm], hf.lastExit, hf.vmcs⟩, postedIn_post _ _ _⟩⟩, by rw [hf.mode, hm]⟩

/-! ### Posted-interrupt processing (R224, R75, R76) -/

/-- Where `orFields` stores, and that it stores nowhere else. -/
theorem read_orFields (base : Nat) (x : BitVec 256) (n : Nat) (s : State) (a : Nat)
    (h : ∀ k, k < n → a < vapicAt s (base + 16 * k) ∨ vapicAt s (base + 16 * k) + 4 ≤ a) :
    (orFields base x n s).mem.read a = s.mem.read a := by
  induction n with
  | zero => rfl
  | succ n ih =>
    have hv : vapicAt (orFields base x n s) (base + 16 * n) = vapicAt s (base + 16 * n) := by
      obtain ⟨m, hm⟩ := orFields_eq base x n s
      rw [hm]; rfl
    rw [orFields]
    rw [setVapic32_mem, hv, Memory.read_writeLe_outside _ _ _ _ _ (h n (by omega))]
    exact ih fun k hk => h k (by omega)

theorem exchange_bits (x l g : BitVec 256) (got : BitVec 256) :
    got ||| (x &&& (g &&& l)) ||| ((x &&& ~~~(g &&& l)) &&& (l &&& ~~~g)) = got ||| (x &&& l) ∧
      (x &&& ~~~(g &&& l)) &&& ~~~(l &&& ~~~g) = x &&& ~~~l := by
  constructor
  · apply BitVec.eq_of_getLsbD_eq
    intro i hi
    simp only [BitVec.getLsbD_or, BitVec.getLsbD_and, BitVec.getLsbD_not, hi, decide_true, Bool.true_and]
    cases x.getLsbD i <;> cases l.getLsbD i <;> cases g.getLsbD i <;> cases got.getLsbD i <;> rfl
  · apply BitVec.eq_of_getLsbD_eq
    intro i hi
    simp only [BitVec.getLsbD_and, BitVec.getLsbD_not, hi, decide_true, Bool.true_and]
    cases x.getLsbD i <;> cases l.getLsbD i <;> cases g.getLsbD i <;> rfl

theorem exchangeGroup_pir (p : Nat) (g : BitVec 256) (s : State) :
    pirAt (exchangeGroup p g s).2.mem p = pirAt s.mem p &&& ~~~g := Memory.read256_write_same _ _ _

theorem exchangeGroup_outside (p : Nat) (g : BitVec 256) (s : State) (a : Nat) (h : a < p ∨ p + 32 ≤ a) :
    (exchangeGroup p g s).2.mem.read a = s.mem.read a := Memory.read_writeLe_outside _ _ _ _ _ h

/-- What draining PIR comes to, for every partition, with nobody else acting: the bits of `left` are taken and
cleared, and nothing outside PIR is stored. -/
theorem drainPir_alone (p : Nat) (gs : List (BitVec 256)) (left got : BitVec 256) (s : State) (h : Alone s) :
    ∃ m : Memory, drainPir p (pirPasses left gs) got s =
        .done (acceptPosted (got ||| (pirAt s.mem p &&& left)) (setMem m s)) ∧
      m.read256 p = pirAt s.mem p &&& ~~~left ∧ ∀ a, (a < p ∨ p + 32 ≤ a) → m.read a = s.mem.read a := by
  induction gs generalizing left got s with
  | nil =>
    refine ⟨(exchangeGroup p left s).2.mem, ?_, exchangeGroup_pir p left s, exchangeGroup_outside p left s⟩
    rw [pirPasses, drainPir, agentGap_alone (show (exchangeGroup p left s).2.agents = [] from h)]
    rfl
  | cons g gs ih =>
    obtain ⟨m, h1, h2, h3⟩ := ih (left &&& ~~~g) (got ||| (exchangeGroup p (g &&& left) s).1)
      (exchangeGroup p (g &&& left) s).2 h
    obtain ⟨e1, e2⟩ := exchange_bits (pirAt s.mem p) left g got
    rw [exchangeGroup_pir] at h1 h2
    refine ⟨m, ?_, by rw [h2, e2], fun a ha => by rw [h3 a ha, exchangeGroup_outside _ _ _ _ ha]⟩
    rw [pirPasses, drainPir, agentGap_alone (show (exchangeGroup p (g &&& left) s).2.agents = [] from h)]
    show drainPir _ _ _ _ = _
    rw [h1]
    show Res.done (acceptPosted (got ||| (pirAt s.mem p &&& (g &&& left)) ||| _) _) = _
    rw [e1]
    rfl

/-- The state after step 7 from the memory in which PIR has been taken. -/
def posted (pir : BitVec 256) (m : Memory) (s : State) : State := afterPosted (acceptPosted pir (setMem m s))

/-- What steps 3 to 7 come to: the descriptor is cleared of PIR and ON only. -/
theorem processPosted_alone {s : State} (h : Alone s) :
    ∃ m : Memory, processPosted s = .done (posted (s.mem.read256 s.vmcs.piDescAddr.toNat) m (emit .localApicEoi s)) ∧
      m.read256 s.vmcs.piDescAddr.toNat = 0 ∧
      (∀ a, (a < s.vmcs.piDescAddr.toNat ∨ s.vmcs.piDescAddr.toNat + 33 ≤ a) → m.read a = s.mem.read a) ∧
      m.read (s.vmcs.piDescAddr.toNat + 32) = s.mem.read (s.vmcs.piDescAddr.toNat + 32) &&& 0xFE := by
  generalize hp : s.vmcs.piDescAddr.toNat = p
  have hpir : pirAt (clearOn p s).mem p = s.mem.read256 p := by
    show Memory.read256 (s.mem.write _ _) p = _
    rw [Memory.read256, Memory.read256, Memory.readLe_congr]
    intro x h1 h2
    exact Memory.read_write_other _ _ (by omega)
  obtain ⟨m, h1, h2, h3⟩ := drainPir_alone p s.params.pirGroups (BitVec.allOnes 256) 0
    (emit .localApicEoi (clearOn p s)) h
  have hz : ∀ x : BitVec 256, 0 ||| (x &&& BitVec.allOnes 256) = x ∧ x &&& ~~~BitVec.allOnes 256 = 0 := by
    intro x; constructor
    · rw [BitVec.and_allOnes]; exact BitVec.zero_or
    · rw [BitVec.not_allOnes]; exact BitVec.and_zero
  have he : pirAt (emit .localApicEoi (clearOn p s)).mem p = s.mem.read256 p := hpir
  rw [he, (hz _).1] at h1
  rw [he, (hz _).2] at h2
  refine ⟨m, ?_, h2, fun a ha => ?_, ?_⟩
  · unfold processPosted
    simp only
    rw [hp, agentGap_alone (show (emit .localApicEoi (clearOn p s)).agents = [] from h)]
    show (drainPir p (pirPasses _ s.params.pirGroups) 0 _).andThen _ = _
    rw [h1]
    rfl
  · rw [h3 a (by omega)]
    exact Memory.read_write_other _ _ (by omega)
  · rw [h3 _ (by omega)]
    exact Memory.read_write_same _ _ _

theorem low_bit_clear (b : Byte) : b &&& 0xFE = b &&& ~~~1 := by revert b; decide

/-- `NotifyInfo` after its lowest byte loses bit 0. -/
theorem read64_on_cleared {m n : Memory} {q : Nat} (h0 : n.read q = m.read q &&& 0xFE)
    (h : ∀ a, q + 1 ≤ a → n.read a = m.read a) : n.read64 q = m.read64 q &&& ~~~1 := by
  apply BitVec.eq_of_getLsbD_eq
  intro i hi
  have h1 : (~~~1 : BitVec 64).getLsbD i = decide (i ≠ 0) := by
    rw [BitVec.getLsbD_not, show (1 : BitVec 64) = 1#64 from rfl, BitVec.getLsbD_one]; simp [hi]
  rw [BitVec.getLsbD_and, h1, Memory.getLsbD_read64 _ _ _ hi, Memory.getLsbD_read64 _ _ _ hi]
  by_cases h8 : i < 8
  · have hq : i / 8 = 0 := by omega
    have hr : i % 8 = i := by omega
    rw [hq, hr, Nat.add_zero, h0, low_bit_clear, BitVec.getLsbD_and, BitVec.getLsbD_not,
      show (1 : Byte) = 1#8 from rfl, BitVec.getLsbD_one]
    simp [h8]
  · rw [h _ (by omega)]
    simp [show i ≠ 0 by omega]

theorem orVirr_same (got : BitVec 256) (s : State) :
    (orVirr got s).rvi = s.rvi ∧ (orVirr got s).svi = s.svi ∧ (orVirr got s).history = s.history := by
  obtain ⟨m, hm⟩ := orFields_eq offIrr got 8 s
  rw [orVirr, hm]; exact ⟨rfl, rfl, rfl⟩

theorem acceptPosted_rvi (got : BitVec 256) (s : State) :
    (acceptPosted got s).rvi = if got = 0 then s.rvi else maxVector s.rvi (highest got) := by
  rw [acceptPosted, evaluate_rvi]
  by_cases h : got = 0
  · rw [if_pos h, if_pos h, (orVirr_same got s).1]
  · rw [if_neg h, if_neg h, raiseRvi_rvi, (orVirr_same got s).1]

theorem acceptPosted_mem (got : BitVec 256) (s : State) : (acceptPosted got s).mem = (orVirr got s).mem := by
  rw [acceptPosted, evaluate_mem]
  by_cases h : got = 0
  · rw [if_pos h]
  · rw [if_neg h, raiseRvi_mem]

theorem acceptPosted_same (got : BitVec 256) (s : State) :
    (acceptPosted got s).svi = s.svi ∧ (acceptPosted got s).history = s.history := by
  rw [acceptPosted, evaluate_svi, evaluate_history]
  by_cases h : got = 0
  · rw [if_pos h]; exact (orVirr_same got s).2
  · rw [if_neg h, raiseRvi_svi, raiseRvi_history]; exact (orVirr_same got s).2

/-! ### Memory that agrees on the virtual-APIC page -/

theorem vapic32_agree {s t : State} (hv : t.vmcs.vapicAddr = s.vmcs.vapicAddr)
    (h : ∀ a, s.vmcs.vapicAddr.toNat ≤ a → a < s.vmcs.vapicAddr.toNat + 4096 → t.mem.read a = s.mem.read a)
    {off : Nat} (ho : off + 4 ≤ 4096) : vapic32 t off = vapic32 s off := by
  rw [vapic32, vapic32, vapicAt, vapicAt, hv, Memory.read32, Memory.read32, Memory.readLe_congr]
  intro x h1 h2
  exact h x (by omega) (by omega)

theorem vreg_agree {s t : State} (hv : t.vmcs.vapicAddr = s.vmcs.vapicAddr)
    (h : ∀ a, s.vmcs.vapicAddr.toNat ≤ a → a < s.vmcs.vapicAddr.toNat + 4096 → t.mem.read a = s.mem.read a)
    {base : Nat} (ho : base + 0x74 ≤ 4096) : vreg t base = vreg s base := by
  simp only [vreg]
  rw [vapic32_agree hv h (by omega), vapic32_agree hv h (by omega), vapic32_agree hv h (by omega),
    vapic32_agree hv h (by omega), vapic32_agree hv h (by omega), vapic32_agree hv h (by omega),
    vapic32_agree hv h (by omega), vapic32_agree hv h (by omega)]

/-- The own descriptor does not overlap the virtual-APIC page (D15). -/
theorem ownPid_apart {v : Vmcs} (h : regionsDisjoint (vmcsRegions v) = true) (hp : v.ctl.postedIntr = true)
    (hv : usesVapic v.ctl = true) :
    v.piDescAddr.toNat + 64 ≤ v.vapicAddr.toNat ∨ v.vapicAddr.toNat + 4096 ≤ v.piDescAddr.toNat := by
  simp only [vmcsRegions, vmcsTables, hp, hv, if_true, List.singleton_append, regionsDisjoint, Bool.and_eq_true,
    List.all_append, List.all_cons, disjoint, Bool.or_eq_true, decide_eq_true_eq] at h
  omega

theorem usesVapic_of_vid {c : Controls} (h : c.vid = true) : usesVapic c = true := by simp [usesVapic, h]

theorem evaluationRule_afterPosted {s : State} (h : EvaluationRule s) : EvaluationRule (afterPosted s) := by
  rw [EvaluationRule, afterPosted_pending, afterPosted_vmcs, vppr_afterPosted, afterPosted_rvi]; exact h

/-- Posted-interrupt processing does what R224 and R227 to R229 say, steps 3 to 7 from the state `s0` after the
acknowledgement. -/
theorem postedRule_posted {s : State} (pv : IntVector) (x : Bool) (hm : s.mode = .vmxNonRoot) (h : Alone s)
    (hp : s.vmcs.ctl.postedIntr = true) (hv : s.vmcs.ctl.vid = true)
    (ha : regionsDisjoint (vmcsRegions s.vmcs) = true)
    (hw : s.activity = .active ∨ s.activity = .hlt ∨ s.activity = .mwait) :
    ∃ t, processPosted (emit (.localApicAck pv) (aexBefore x s)) = .done t ∧ PostedRule pv x s t ∧
      ∀ a, (a < s.vmcs.piDescAddr.toNat ∨ s.vmcs.piDescAddr.toNat + 33 ≤ a) →
        (∀ k, k < 8 → a < vapicAt s (offIrr + 16 * k) ∨ vapicAt s (offIrr + 16 * k) + 4 ≤ a) →
        t.mem.read a = s.mem.read a := by
  have hmem : (aexBefore x s).mem = s.mem := by unfold aexBefore; split <;> simp
  have hwf := wideFoot_aexBefore x s
  have hag : (aexBefore x s).agents = s.agents := by unfold aexBefore; split <;> simp
  have hrvi : (aexBefore x s).rvi = s.rvi := by unfold aexBefore; split <;> simp
  have hsvi : (aexBefore x s).svi = s.svi := by unfold aexBefore; split <;> simp
  have hact : (aexBefore x s).activity = s.activity := by unfold aexBefore; split <;> simp
  have hrf : (aexBefore x s).rflagsRf = s.rflagsRf := by unfold aexBefore enclaveExit; split <;> (try split) <;> rfl
  have hmid : (aexBefore x s).midRep = s.midRep := by unfold aexBefore enclaveExit; split <;> (try split) <;> rfl
  have hen : (aexBefore x s).enclave = (s.enclave && !x) := by
    unfold aexBefore; cases x <;> simp
  have hhis : (aexBefore x s).history = s.history ++ (if x && s.enclave then [.aex] else []) := by
    unfold aexBefore; cases x
    · simp
    · simp only [if_true, enclaveExit_history, Bool.true_and]
  obtain ⟨m, h1, h2, h3, h4⟩ := processPosted_alone (s := emit (.localApicAck pv) (aexBefore x s)) (hag.trans h)
  simp only [show (emit (.localApicAck pv) (aexBefore x s)).vmcs = s.vmcs from hwf.vmcs,
    show (emit (.localApicAck pv) (aexBefore x s)).mem = s.mem from hmem] at h1 h2 h3 h4
  have apart := ownPid_apart ha hp (usesVapic_of_vid hv)
  generalize hq : aexBefore x s = q at *
  have hvm : (emit .localApicEoi (emit (.localApicAck pv) q)).vmcs = s.vmcs := hwf.vmcs
  generalize hu : emit .localApicEoi (emit (.localApicAck pv) q) = u at *
  have huv : (setMem m u).vmcs.vapicAddr = s.vmcs.vapicAddr := by rw [setMem_vmcs, hvm]
  have hpage : ∀ a, s.vmcs.vapicAddr.toNat ≤ a → a < s.vmcs.vapicAddr.toNat + 4096 →
      (setMem m u).mem.read a = s.mem.read a := fun a _ _ => h3 a (by omega)
  have hirr : virr (setMem m u) = virr s := vreg_agree huv hpage (by decide)
  have hisr : visr (setMem m u) = visr s := vreg_agree huv hpage (by decide)
  have hppr : vppr (setMem m u) = vppr s := vapic32_agree huv hpage (by decide)
  have htpr : vtpr (setMem m u) = vtpr s := vapic32_agree huv hpage (by decide)
  have hfoot := (foot_setMem m u).trans (foot_acceptPosted (s.mem.read256 s.vmcs.piDescAddr.toNat) (setMem m u))
  have hout : ∀ a, (∀ k, k < 8 → a < vapicAt s (offIrr + 16 * k) ∨ vapicAt s (offIrr + 16 * k) + 4 ≤ a) →
      (posted (s.mem.read256 s.vmcs.piDescAddr.toNat) m u).mem.read a = m.read a := by
    intro a hk
    rw [posted, afterPosted_mem, acceptPosted_mem, orVirr, read_orFields]
    · rfl
    · intro k hk8
      have := hk k hk8
      rw [vapicAt] at this ⊢
      rw [huv]; exact this
  have hpid : ∀ a, s.vmcs.piDescAddr.toNat ≤ a → a < s.vmcs.piDescAddr.toNat + 64 →
      (posted (s.mem.read256 s.vmcs.piDescAddr.toNat) m u).mem.read a = m.read a := by
    intro a ha1 ha2
    refine hout a fun k hk => ?_
    rw [vapicAt]; simp only [offIrr]; omega
  have hpprv : ∀ off, off + 4 ≤ 0x200 →
      vapic32 (posted (s.mem.read256 s.vmcs.piDescAddr.toNat) m u) off = vapic32 (setMem m u) off := by
    intro off ho
    rw [posted, vapic32_afterPosted]
    rw [vapic32_congr (s := orVirr (s.mem.read256 s.vmcs.piDescAddr.toNat) (setMem m u)) (by rw [(foot_acceptPosted _ _).vmcs, (foot_orVirr _ _).vmcs]) (acceptPosted_mem _ _)]
    exact vapic32_orFields_other offIrr off _ 8 _ (by simp only [offIrr]; omega)
  have hvr : ∀ base, vreg (posted (s.mem.read256 s.vmcs.piDescAddr.toNat) m u) base =
      vreg (orVirr (s.mem.read256 s.vmcs.piDescAddr.toNat) (setMem m u)) base := by
    intro base
    rw [posted]
    exact vreg_congr (s := orVirr (s.mem.read256 s.vmcs.piDescAddr.toNat) (setMem m u)) (by rw [afterPosted_vmcs, (foot_acceptPosted _ _).vmcs, (foot_orVirr _ _).vmcs]) (by rw [afterPosted_mem]; exact acceptPosted_mem _ _) base
  have urvi : u.rvi = s.rvi := by rw [← hu]; exact hrvi
  have usvi : u.svi = s.svi := by rw [← hu]; exact hsvi
  have uact : u.activity = s.activity := by rw [← hu]; exact hact
  have urf : u.rflagsRf = s.rflagsRf := by rw [← hu]; exact hrf
  have umid : u.midRep = s.midRep := by rw [← hu]; exact hmid
  have uen : u.enclave = (s.enclave && !x) := by rw [← hu]; exact hen
  have uhis : u.history = s.history ++ ackEvents pv x s ++ [.localApicEoi] := by
    rw [← hu]
    show (q.history ++ _) ++ _ = _
    rw [hhis, ackEvents, List.append_assoc s.history]
  refine ⟨_, h1, ⟨?_, ?_, ?_, ?_, ?_, ?_, ?_, ?_, ?_, ?_, ?_, ?_, ?_, ?_, ?_, ?_, ?_⟩, fun a ha1 ha2 => by rw [hout a ha2, h3 a ha1]⟩
  · rw [virr, hvr, ← virr, virr_orVirr, hirr]
  · rw [Memory.read256, Memory.readLe_congr (n := m), ← Memory.read256, h2]
    intro y hy1 hy2; exact hpid y hy1 (by omega)
  · rw [Memory.read64, Memory.readLe_congr (n := m), ← Memory.read64]
    · exact read64_on_cleared h4 fun a ha => h3 a (by omega)
    · intro y hy1 hy2; exact hpid y (by omega) (by omega)
  · intro h0
    rw [posted, afterPosted_rvi, acceptPosted_rvi, if_pos h0, setMem_rvi, urvi]
  · intro w hw
    rw [posted, afterPosted_rvi, acceptPosted_rvi, setMem_rvi, urvi]
    by_cases h0 : s.mem.read256 s.vmcs.piDescAddr.toNat = 0
    · rw [if_pos h0]
      rw [hw.eq, h0, highest_zero]; simp
    · rw [if_neg h0, toNat_maxVector, hw.eq]
  · rw [posted, acceptPosted]
    exact evaluationRule_afterPosted (evaluationRule_evaluate _)
  · rw [posted, afterPosted_svi, (acceptPosted_same _ _).1, setMem_svi, usvi]
  · rw [visr, hvr, ← visr, visr_orVirr, hisr]
  · rw [vppr, hpprv _ (by decide), ← vppr, hppr]
  · rw [vtpr, hpprv _ (by decide), ← vtpr, htpr]
  · rw [posted, afterPosted_history, (acceptPosted_same _ _).2, setMem_history, uhis]
  · rw [posted, afterPosted_activity, hfoot.activity, uact]
    rcases hw with h | h | h <;> rw [h] <;> rfl
  · rw [posted, afterPosted_rflagsRf, rfAfterPosted, hfoot.rflagsRf, hfoot.midRep, urf, umid]
  · rw [posted, afterPosted_enclave, hfoot.enclave, uen]
  · rw [posted, afterPosted_ip, hfoot.ip, ← hu]; exact hwf.ip
  · rw [posted, afterPosted_gpr, hfoot.gpr, ← hu]; exact hwf.gpr
  · refine ⟨?_, ?_, ?_⟩
    · rw [posted, afterPosted_mode, hfoot.mode, ← hu]; exact hwf.mode.trans hm
    · rw [posted, afterPosted_lastExit, hfoot.lastExit, ← hu]; exact hwf.lastExit
    · rw [posted, afterPosted_vmcs, hfoot.vmcs, hvm]

/-- All that an external-interrupt VM exit does (R245, R250, R259). -/
theorem interruptExit_result (pv : IntVector) (s : State) :
    ∃ t, finish (interruptExit pv s) = .next t ∧ Exited (.externalInterrupt pv) s.ip t ∧ t.enclave = false ∧
      t.activity = .active ∧ t.mem = s.mem ∧ SameInterruptStatus s t ∧
      t.history = s.history ++ if s.enclave then [.aex] else [] := by
  have h := exited_takeVmExit (.externalInterrupt pv) (activate (enclaveExit s))
  rw [savedIp, if_neg (by simp [VmExit.trapLike]), activate_ip, enclaveExit_ip] at h
  exact ⟨_, rfl, h, by simp, rfl, by simp, ⟨by simp, by simp, by simp⟩, by simp [enclaveExit_history]⟩

/-- Step 2 of posted-interrupt processing, where the physical vector is another (R224, R229). -/
theorem postedInterruptProcessing_exits {pv : IntVector} {s : State} (x : Bool) (h : pv ≠ s.vmcs.piNv) :
    ∃ t, finish (postedInterruptProcessing pv x s) = .next t ∧ Exited (.externalInterrupt pv) s.ip t ∧
      t.enclave = false ∧ t.activity = .active ∧ t.mem = s.mem ∧ SameInterruptStatus s t ∧
      t.history = s.history ++ ackEvents pv x s ++ if s.enclave && !x then [.aex] else [] := by
  obtain ⟨t, h1, h2, h3, h4, h5, h6, h7⟩ := interruptExit_result pv (emit (.localApicAck pv) (aexBefore x s))
  refine ⟨t, by rw [postedInterruptProcessing, if_pos h]; exact h1, ?_, h3, h4, h5.trans ?_, ?_, h7.trans ?_⟩
  · rwa [emit_ip, (wideFoot_aexBefore x s).ip] at h2
  · unfold aexBefore; split <;> simp
  · obtain ⟨a, b, c⟩ := h6
    rw [emit_rvi] at a; rw [emit_svi] at b; rw [emit_pending] at c
    refine ⟨a.trans ?_, b.trans ?_, c.trans ?_⟩ <;> unfold aexBefore <;> split <;> simp
  · rw [emit_history, emit_enclave, ackEvents]
    unfold aexBefore
    cases x <;> simp [enclaveExit_history]

end Sys2Proof.Machine
end

