-- ==== Sys2Proof/Laws/Access.lean ====
section
/-! SUPPORT. The rows of format PAGE: how a step of theirs comes to the read or the write path, and when a read is
virtualized. -/

namespace Sys2Proof.Machine

/-! ### The virtual-APIC page and the access -/

@[simp] theorem vapic32_beginAccess (b : Bool) (s : State) (off : Nat) :
    vapic32 (beginAccess b s) off = vapic32 s off := rfl
@[simp] theorem vapic32_setPagingFlags (k : AccessKind) (s : State) (off : Nat) :
    vapic32 (setPagingFlags k s) off = vapic32 s off := rfl

/-- The state in which the access is treated: the flag of R205 is settled, the paging flags are set. -/
def treatedState (kind : AccessKind) (env : AccessEnv) (s : State) : State :=
  setPagingFlags kind (beginAccess env.cont s)

theorem foot_treatedState (kind : AccessKind) (env : AccessEnv) (s : State) : Foot s (treatedState kind env s) := rfl

@[simp] theorem treatedState_mem (k : AccessKind) (e : AccessEnv) (s : State) : (treatedState k e s).mem = s.mem := rfl
@[simp] theorem treatedState_vmcs (k : AccessKind) (e : AccessEnv) (s : State) : (treatedState k e s).vmcs = s.vmcs := rfl
@[simp] theorem treatedState_params (k : AccessKind) (e : AccessEnv) (s : State) :
    (treatedState k e s).params = s.params := rfl
@[simp] theorem treatedState_mode (k : AccessKind) (e : AccessEnv) (s : State) : (treatedState k e s).mode = s.mode := rfl
@[simp] theorem treatedState_enclave (k : AccessKind) (e : AccessEnv) (s : State) :
    (treatedState k e s).enclave = s.enclave := rfl
@[simp] theorem treatedState_wroteVirt (k : AccessKind) (e : AccessEnv) (s : State) :
    (treatedState k e s).wroteVirt = (e.cont && s.wroteVirt) := rfl
@[simp] theorem treatedState_history (k : AccessKind) (e : AccessEnv) (s : State) :
    (treatedState k e s).history = s.history ++ [.pagingFlagsSet s.cr0Pg (decide (k = .write))] := rfl

@[simp] theorem vapic32_treatedState (k : AccessKind) (e : AccessEnv) (s : State) (off : Nat) :
    vapic32 (treatedState k e s) off = vapic32 s off := rfl
@[simp] theorem vreg_treatedState (k : AccessKind) (e : AccessEnv) (s : State) (base : Nat) :
    vreg (treatedState k e s) base = vreg s base := rfl
@[simp] theorem treatedState_status (k : AccessKind) (e : AccessEnv) (s : State) :
    SameInterruptStatus s (treatedState k e s) := ⟨rfl, rfl, rfl⟩

theorem vapicPlaced_treatedState {k : AccessKind} {e : AccessEnv} {s : State} (h : vapicPlaced s = true) :
    vapicPlaced (treatedState k e s) = true := h

/-- A step of format PAGE whose conditions hold is what its page step comes to. -/
theorem page_eq {k : State → Res} {s : State} {c : Bool} (hg : Running s) (hc : c = true) :
    inGuest (whenActive (enabledBy c k)) s = finish (k s) := by
  rw [inGuest_eq hg.guest, whenActive_eq hg.active, enabledBy_eq hc]

/-- A linear access that meets no fault is treated, and the instruction completes with its last access. -/
theorem pageStep_eq {env : AccessEnv} {kind : AccessKind} {k : State → Res} {s : State} (hl : env.linear = true)
    (hx : env.xlat = .ok) :
    pageStep env kind k s =
      (k (treatedState kind env s)).andThen fun s1 => .done (if env.more then s1 else retire s1) := by
  unfold pageStep
  rw [if_neg (by simp [hl]), hx]; rfl

/-- A write that R190 to R196 treat. -/
theorem pageWriteStep_eq {off : PageOff} {d : List Byte} {env : AccessEnv} {k : State → Res} {s : State}
    (ht : Treated env s) :
    pageWriteStep off d env k s =
      (k (treatedState .write env s)).andThen fun s1 => .done (if env.more then s1 else retire s1) := by
  unfold pageWriteStep
  rw [pageStep_eq ht.linear ht.xlat, if_neg (by simp [ht.plain]), outsideEnclave, if_neg (by simp [ht.outside])]

/-- A read or fetch that R190 to R196 treat. -/
theorem pageReadStep_eq {kind : AccessKind} {off : PageOff} {n : Nat} {env : AccessEnv} {s : State}
    (ht : Treated env s) :
    pageStep env kind (outsideEnclave (pageRead kind off n)) s =
      (pageRead kind off n (treatedState kind env s)).andThen
        fun s1 => .done (if env.more then s1 else retire s1) := by
  rw [pageStep_eq ht.linear ht.xlat, outsideEnclave, if_neg (by simp [ht.outside])]

/-! ### Reads (R203, R204) -/

/-- The model's conditions are the rules' words. -/
theorem readFromPage_iff (s : State) (off size : Nat) (h : 0 < size) :
    ReadFromPage s s.wroteVirt off size ↔
      readMustExit s .read off size = false ∧ readVirtualized s off size = true := by
  simp only [ReadFromPage, readMustExit, readVirtualized, outsideSlot, lowSlot, within, inSomeRange,
    Bool.or_eq_false_iff, Bool.not_eq_false', decide_eq_false_iff_not, Bool.or_eq_true, Bool.and_eq_true,
    decide_eq_true_eq, List.any_eq_true, offTpr, offEoi, offIcrLo]
  constructor
  · rintro ⟨a, b, c, d, e, f, g⟩
    refine ⟨⟨⟨⟨⟨a, by simp⟩, by omega⟩, c⟩, ⟨by omega, by omega⟩, by omega⟩, ?_⟩
    rcases g with g | ⟨g, g'⟩ | ⟨g, r, hr⟩
    · left; left; omega
    · left; right; exact ⟨g, by omega⟩
    · right; exact ⟨g, r, hr.1, hr.2⟩
  · rintro ⟨⟨⟨⟨⟨a, _⟩, b⟩, c⟩, ⟨d, e⟩, f⟩, g⟩
    refine ⟨a, by omega, c, by omega, by omega, by omega, ?_⟩
    rcases g with (g | ⟨g, g'⟩) | ⟨g, r, hr⟩
    · left; omega
    · right; left; exact ⟨g, by omega⟩
    · right; right; exact ⟨g, r, hr.1, hr.2⟩

theorem pageRead_virtualized {s : State} {off : PageOff} {n : Nat} (h : 0 < n) (hp : vapicPlaced s = true)
    (hr : ReadFromPage s s.wroteVirt off.toNat n) :
    pageRead .read off n s = .done (virtualRead off.toNat n s) := by
  obtain ⟨e1, e2⟩ := (readFromPage_iff s off.toNat n h).1 hr
  rw [pageRead, e1, if_neg (by simp), if_pos e2, onVapicPage_eq hp]

theorem pageRead_exits {s : State} {off : PageOff} {n : Nat} (h : 0 < n)
    (hr : ¬ReadFromPage s s.wroteVirt off.toNat n) :
    pageRead .read off n s = .exit (.apicAccess off .read) s := by
  rw [readFromPage_iff s off.toNat n h] at hr
  rw [pageRead]
  by_cases h1 : readMustExit s .read off.toNat n = true
  · rw [if_pos h1]
  · rw [if_neg h1, if_neg fun h2 => hr ⟨by simpa using h1, h2⟩]

theorem pageFetch_exits (s : State) (off : PageOff) (n : Nat) :
    pageRead .fetch off n s = .exit (.apicAccess off .fetch) s := by
  rw [pageRead, if_pos (by simp [readMustExit])]

/-! ### Writes (R128 to R131) -/

theorem sizeQualifies_iff (s : State) (n : Nat) : sizeQualifies s n = true ↔ n ∈ s.params.writeSizes ∧ n ≤ 4 := by
  simp [sizeQualifies]

theorem vapic32_virtualWrite {off o : Nat} {d : List Byte} (s : State) (h : o + 4 ≤ off ∨ off + d.length ≤ o) :
    vapic32 (virtualWrite off d s) o = vapic32 s o := by
  rw [vapic32, vapic32, Memory.read32, Memory.read32]
  show BitVec.ofNat 32 (Memory.readLe (s.mem.writeBytes (vapicAt s off) d) (vapicAt s o) 4) = _
  rw [Memory.readLe_congr]
  intro x h1 h2
  refine Memory.read_writeBytes_outside _ _ _ _ ?_
  rw [vapicAt] at h1 h2 ⊢
  omega

theorem vreg_virtualWrite {off base : Nat} {d : List Byte} (s : State)
    (h : off + d.length ≤ base ∨ base + 0x74 ≤ off) : vreg (virtualWrite off d s) base = vreg s base := by
  simp only [vreg]
  rw [vapic32_virtualWrite s (by omega), vapic32_virtualWrite s (by omega), vapic32_virtualWrite s (by omega),
    vapic32_virtualWrite s (by omega), vapic32_virtualWrite s (by omega), vapic32_virtualWrite s (by omega),
    vapic32_virtualWrite s (by omega), vapic32_virtualWrite s (by omega)]

/-- The bytes of a virtualized write stand on the page. -/
theorem readBytes_virtualWrite (off : Nat) (d : List Byte) (s : State) :
    (virtualWrite off d s).mem.readBytes (vapicAt s off) d.length = d := Memory.readBytes_writeBytes_same _ _ _

/-- Outside them nothing is stored. -/
theorem read_virtualWrite (off : Nat) (d : List Byte) (s : State) {a : Nat}
    (h : a < vapicAt s off ∨ vapicAt s off + d.length ≤ a) : (virtualWrite off d s).mem.read a = s.mem.read a :=
  Memory.read_writeBytes_outside _ _ _ _ h

/-- A virtualized write: what the state after it shares with `s`. -/
structure Wrote (off : Nat) (d : List Byte) (s w : State) : Prop where
  foot   : Foot s w
  status : SameInterruptStatus s w
  wrote  : w.wroteVirt = true
  stored : w.mem.readBytes (vapicAt s off) d.length = d
  other  : ∀ o, o + 4 ≤ off ∨ off + d.length ≤ o → vapic32 w o = vapic32 s o
  others : ∀ b, off + d.length ≤ b ∨ b + 0x74 ≤ off → vreg w b = vreg s b
  frame  : ∀ a, a < vapicAt s off ∨ vapicAt s off + d.length ≤ a → w.mem.read a = s.mem.read a
  agents : w.agents = s.agents
  events : w.history = s.history

theorem wrote_virtualWrite (off : Nat) (d : List Byte) (s : State) : Wrote off d s (virtualWrite off d s) where
  foot := foot_virtualWrite _ _ _
  status := ⟨rfl, rfl, rfl⟩
  wrote := rfl
  stored := readBytes_virtualWrite _ _ _
  other _ h := vapic32_virtualWrite _ h
  others _ h := vreg_virtualWrite _ h
  frame _ h := read_virtualWrite _ _ _ h
  agents := rfl
  events := rfl

end Sys2Proof.Machine
end

