-- ==== Sys2Proof/Laws/Inv.lean ====
section
/-! SUPPORT. What every operation keeps: the canonical form of memory, and a latch that is clear without
"virtual-interrupt delivery" and under "interrupt-window exiting". -/

namespace Sys2Proof.Machine

/-- The part of the guest invariant that the operations of a guest keep. -/
structure LatchInv (s : State) : Prop where
  memory : s.mem.wf = true
  novid  : s.vmcs.ctl.vid = false → s.pending = false
  window : s.vmcs.ctl.intrWindowExiting = true → s.pending = false

theorem LatchInv.setMem {s : State} {m : Memory} (h : LatchInv s) (hm : m.wf = true) : LatchInv (setMem m s) :=
  ⟨hm, h.novid, h.window⟩

/-- What changes neither memory, the latch nor the VMCS keeps it. -/
theorem LatchInv.of_eq {s t : State} (h : LatchInv s) (hm : t.mem = s.mem) (hp : t.pending = s.pending)
    (hv : t.vmcs = s.vmcs) : LatchInv t :=
  ⟨by rw [hm]; exact h.memory, by rw [hp, hv]; exact h.novid, by rw [hp, hv]; exact h.window⟩

theorem LatchInv.emit {s : State} (e : Event) (h : LatchInv s) : LatchInv (emit e s) := h.of_eq rfl rfl rfl

theorem LatchInv.setVapic32 {s : State} (off : Nat) (v : BitVec 32) (h : LatchInv s) :
    LatchInv (setVapic32 off v s) := h.setMem (Memory.wf_writeLe _ _ _ h.memory)

theorem LatchInv.setVregBit {s : State} (b : Nat) (x : IntVector) (v : Bool) (h : LatchInv s) :
    LatchInv (setVregBit b x v s) := h.setVapic32 _ _

theorem LatchInv.evaluate {s : State} (h : LatchInv s) (hv : s.vmcs.ctl.vid = true) : LatchInv (evaluate s) :=
  ⟨h.memory, fun hf => absurd hv (by simpa using hf), fun hw => by
    rw [evaluate_pending, Bool.eq_false_iff, ne_eq, recognizes_iff]
    rintro ⟨h0, -⟩
    rw [evaluate_vmcs, h0] at hw
    exact absurd hw (by simp)⟩

theorem LatchInv.clear {s : State} (hm : s.mem.wf = true) : LatchInv (setPending false s) :=
  ⟨hm, fun _ => rfl, fun _ => rfl⟩

theorem LatchInv.setRvi {s : State} (v : IntVector) (h : LatchInv s) : LatchInv (setRvi v s) :=
  ⟨h.memory, h.novid, h.window⟩

theorem LatchInv.setSvi {s : State} (v : IntVector) (h : LatchInv s) : LatchInv (setSvi v s) :=
  ⟨h.memory, h.novid, h.window⟩

theorem LatchInv.pprVirtualization {s : State} (h : LatchInv s) : LatchInv (pprVirtualization s) := h.setVapic32 _ _

theorem LatchInv.virtualWrite {s : State} (off : Nat) (d : List Byte) (h : LatchInv s) :
    LatchInv (virtualWrite off d s) :=
  ⟨Memory.wf_writeBytes _ _ h.memory, h.novid, h.window⟩

theorem LatchInv.retireInService {s : State} (h : LatchInv s) : LatchInv (retireInService s) :=
  LatchInv.pprVirtualization (LatchInv.setSvi _ (h.setVregBit _ _ _))

theorem LatchInv.selfIpi {s : State} (v : IntVector) (h : LatchInv s) (hv : s.vmcs.ctl.vid = true) :
    LatchInv (selfIpiVirtualization v s) :=
  LatchInv.evaluate (LatchInv.setRvi _ (h.setVregBit offIrr v true)) hv

theorem LatchInv.acceptVector {s : State} (h : LatchInv s) : LatchInv (acceptVector s) :=
  LatchInv.clear (LatchInv.setRvi _ (LatchInv.setVregBit _ _ _ (LatchInv.setVapic32 _ _
    (LatchInv.setSvi _ (h.setVregBit _ _ _))))).memory

theorem LatchInv.postInPir {s : State} (p : Nat) (v : IntVector) (h : LatchInv s) : LatchInv (postInPir p v s) :=
  h.setMem (Memory.wf_writeLe _ _ _ h.memory)

theorem LatchInv.notifyPid {s : State} (p : Nat) (h : LatchInv s) : LatchInv (notifyPid p s) := by
  unfold Machine.notifyPid
  simp only
  split
  · exact (h.setMem (Memory.wf_writeLe _ _ _ h.memory)).emit _
  · exact h.setMem (Memory.wf_writeLe _ _ _ h.memory)

theorem LatchInv.clearOn {s : State} (p : Nat) (h : LatchInv s) : LatchInv (clearOn p s) :=
  h.setMem (Memory.wf_write _ _ h.memory)

theorem LatchInv.exchangeGroup {s : State} (p : Nat) (g : BitVec 256) (h : LatchInv s) :
    LatchInv (exchangeGroup p g s).2 := h.setMem (Memory.wf_writeLe _ _ _ h.memory)

theorem LatchInv.orFields {s : State} (b : Nat) (x : BitVec 256) (n : Nat) (h : LatchInv s) :
    LatchInv (orFields b x n s) := by
  induction n with
  | zero => exact h
  | succ n ih => exact ih.setVapic32 _ _

theorem LatchInv.raised {o : State} (got : BitVec 256) (h : LatchInv o) (hv : o.vmcs.ctl.vid = true) :
    LatchInv (Machine.evaluate (if got = 0 then o else raiseRvi (highest got) o)) := by
  by_cases h0 : got = 0
  · rw [if_pos h0]; exact h.evaluate hv
  · rw [if_neg h0]; exact LatchInv.evaluate (LatchInv.setRvi (maxVector o.rvi (highest got)) h) hv

theorem LatchInv.acceptPosted {s : State} (got : BitVec 256) (h : LatchInv s) (hv : s.vmcs.ctl.vid = true) :
    LatchInv (acceptPosted got s) :=
  LatchInv.raised got (h.orFields offIrr got 8) (by rw [(foot_orVirr got s).vmcs]; exact hv)

theorem LatchInv.agentGap {s : State} (h : LatchInv s) : (agentGap s).All LatchInv := by
  refine agentGap_all h (fun u l hu => hu.of_eq rfl rfl rfl) fun a u v hu hv => ?_
  rw [agentStep_done hv]
  exact hu.setMem (Memory.wf_write _ _ hu.memory)

/-- Two predicates of one operation. -/
theorem Res.All.and {P Q : State → Prop} {r : Res} (hp : r.All P) (hq : r.All Q) : r.All fun s => P s ∧ Q s := by
  cases r <;> first | exact trivial | exact ⟨hp, hq⟩

theorem LatchInv.tprVirtualization {s : State} (h : LatchInv s) : (tprVirtualization s).All LatchInv := by
  unfold Machine.tprVirtualization
  split
  · next hv => exact h.pprVirtualization.evaluate hv
  · split <;> exact h

theorem LatchInv.eoiVirtualization {s : State} (h : LatchInv s) (hv : s.vmcs.ctl.vid = true) :
    (eoiVirtualization s).All LatchInv := by
  unfold Machine.eoiVirtualization
  simp only
  split
  · exact h.retireInService
  · exact h.retireInService.evaluate (by rw [(foot_retireInService s).vmcs]; exact hv)

theorem LatchInv.postInterrupt {s : State} (p : Nat) (v : IntVector) (h : LatchInv s) :
    (postInterrupt p v s).All LatchInv := by
  unfold Machine.postInterrupt
  exact h.agentGap.seq fun u hu => (hu.postInPir p v).agentGap.seq fun w hw => hw.notifyPid p

theorem LatchInv.ipiVirtualization {s : State} (v : IntVector) (t : ApicId) (h : LatchInv s) :
    (ipiVirtualization v t s).All LatchInv := by
  unfold Machine.ipiVirtualization
  simp only
  repeat' split
  all_goals first | exact h.postInterrupt _ _ | exact h | trivial

theorem LatchInv.icrVirtualization {s : State} (h : LatchInv s) : (icrVirtualization s).All LatchInv := by
  unfold Machine.icrVirtualization
  split
  · next v hv =>
    refine h.selfIpi v ?_
    unfold icrAction at hv
    split at hv
    · split at hv
      · assumption
      · exact absurd hv (by simp)
    · split at hv <;> exact absurd hv (by simp)
    · exact absurd hv (by simp)
  · exact h.ipiVirtualization _ _
  · exact h

theorem LatchInv.pageRead {s : State} (kind : AccessKind) (off : PageOff) (n : Nat) (h : LatchInv s) :
    (pageRead kind off n s).All LatchInv := by
  unfold Machine.pageRead
  split
  · exact h
  · split
    · exact onVapicPage_all fun _ => h.of_eq rfl rfl rfl
    · exact h

theorem LatchInv.pageWriteDefault {s : State} (off : PageOff) (d : List Byte) (h : LatchInv s) :
    (pageWriteDefault off d s).All LatchInv := by
  unfold Machine.pageWriteDefault
  split
  · split
    · exact onVapicPage_all fun _ => h.virtualWrite _ _
    · trivial
  · exact h

theorem LatchInv.pageWriteTpr {s : State} (d : List Byte) (h : LatchInv s) : (pageWriteTpr d s).All LatchInv := by
  unfold Machine.pageWriteTpr
  split
  · exact onVapicPage_all fun _ => (h.virtualWrite _ _).tprVirtualization
  · exact h.pageWriteDefault _ _

theorem LatchInv.pageWriteUntaken {s : State} (b : Bool) (off : PageOff) (d : List Byte) (h : LatchInv s) :
    (pageWriteUntaken b off d s).All LatchInv := pageWriteUntaken_all (h.pageWriteDefault off d)

theorem LatchInv.pageWriteEoi {s : State} (d : List Byte) (h : LatchInv s) : (pageWriteEoi d s).All LatchInv := by
  unfold Machine.pageWriteEoi
  split
  · next hc =>
    rw [Bool.and_eq_true] at hc
    exact onVapicPage_all fun _ => (h.virtualWrite _ _).eoiVirtualization hc.1
  · exact h.pageWriteUntaken _ _ _

theorem LatchInv.pageWriteIcrLo {s : State} (d : List Byte) (h : LatchInv s) :
    (pageWriteIcrLo d s).All LatchInv := by
  unfold Machine.pageWriteIcrLo
  split
  · exact onVapicPage_all fun _ => (h.virtualWrite _ _).icrVirtualization
  · exact h.pageWriteUntaken _ _ _

theorem LatchInv.pageWriteOther {s : State} (off : PageOff) (d : List Byte) (h : LatchInv s) :
    (pageWriteOther off d s).All LatchInv := h.pageWriteUntaken _ _ _

theorem LatchInv.pageWrite {s : State} (off : PageOff) (d : List Byte) (h : LatchInv s) :
    (pageWrite off d s).All LatchInv := by
  unfold Machine.pageWrite
  split
  · exact h.pageWriteTpr d
  · split
    · exact h.pageWriteEoi d
    · split
      · exact h.pageWriteIcrLo d
      · exact h.pageWriteOther off d

theorem LatchInv.plainRead {s : State} (pa : PhysAddr) (n : Nat) (h : LatchInv s) :
    (plainRead pa n s).All LatchInv := by
  unfold Machine.plainRead
  split
  · exact h.of_eq rfl rfl rfl
  · trivial

theorem LatchInv.plainWrite {s : State} (pa : PhysAddr) (d : List Byte) (h : LatchInv s) :
    (plainWrite pa d s).All LatchInv := by
  unfold Machine.plainWrite
  repeat' split
  all_goals first | exact h.setMem (Memory.wf_writeBytes _ _ h.memory) | trivial

theorem LatchInv.beginAccess {s : State} (c : Bool) (h : LatchInv s) : LatchInv (beginAccess c s) :=
  h.of_eq rfl rfl rfl

theorem LatchInv.linearAccess {s : State} (a : LinearAccess) (h : LatchInv s) : (linearAccess a s).All LatchInv := by
  have he : ∀ e, LatchInv (Machine.emit e (Machine.beginAccess false s)) := fun e => (h.beginAccess false).emit e
  have hp : ∀ kind, LatchInv (setPagingFlags kind s) := fun _ => h.emit _
  unfold Machine.linearAccess
  cases a with
  | read pa n x | fetch pa n x =>
    exact translated_all he (special_all (fun _ _ => (hp _).pageRead _ _ _) ((hp _).plainRead _ _))
  | write pa d x b =>
    refine translated_all he ?_
    cases b
    · exact special_all (fun _ _ => (hp _).pageWrite _ _) ((hp _).plainWrite _ _)
    · exact (hp _).plainWrite _ _

theorem LatchInv.linearAccesses {s : State} (as : List LinearAccess) (h : LatchInv s) :
    (linearAccesses as s).All LatchInv := by
  induction as generalizing s with
  | nil => exact h
  | cons a as ih => exact (h.linearAccess a).seq fun u hu => ih hu

theorem LatchInv.deliver {s : State} (h : LatchInv s) : LatchInv (deliver s) := by
  have h1 : LatchInv (wake (Machine.acceptVector s)) := h.acceptVector.of_eq rfl rfl rfl
  have h2 : ∀ u, LatchInv u → LatchInv (abortTransaction u) := by
    intro u hu; unfold abortTransaction; split
    · exact hu.of_eq rfl rfl rfl
    · exact hu
  have h3 : ∀ u, LatchInv u → LatchInv (enclaveExit u) := by
    intro u hu; unfold enclaveExit; split
    · exact hu.of_eq rfl rfl rfl
    · exact hu
  have h4 : ∀ v u, LatchInv u → LatchInv (deliverEvent v u) := by
    intro v u hu; unfold deliverEvent; split
    · exact hu.of_eq rfl rfl rfl
    · exact hu.of_eq rfl rfl rfl
  exact h4 _ _ (h3 _ (h2 _ h1))

theorem LatchInv.enclaveExit {s : State} (h : LatchInv s) : LatchInv (enclaveExit s) := by
  unfold Machine.enclaveExit; split
  · exact h.of_eq rfl rfl rfl
  · exact h

theorem LatchInv.drainPir {s : State} (p : Nat) (gs : List (BitVec 256)) (got : BitVec 256) (h : LatchInv s)
    (hv : s.vmcs.ctl.vid = true) : (drainPir p gs got s).All LatchInv := by
  induction gs generalizing got s with
  | nil => exact h.acceptPosted got hv
  | cons g gs ih =>
    refine ((h.exchangeGroup p g).agentGap.and (foot_agentGap _)).andThen (fun u hu => hu.1) fun u hu => ?_
    exact ih _ hu.1 (by rw [hu.2.vmcs, (foot_exchangeGroup p g s).vmcs]; exact hv)

theorem LatchInv.processPosted {s : State} (h : LatchInv s) (hv : s.vmcs.ctl.vid = true) :
    (processPosted s).All LatchInv := by
  unfold Machine.processPosted
  refine ((LatchInv.emit .localApicEoi (h.clearOn _)).agentGap.and (foot_agentGap _)).andThen (fun u hu => hu.1)
    fun u hu => ?_
  refine (hu.1.drainPir _ _ _ ?_).seq fun w hw => hw.of_eq rfl rfl rfl
  rw [hu.2.vmcs]; exact hv

theorem LatchInv.interruptExit {s : State} (pv : IntVector) (h : LatchInv s) : (interruptExit pv s).All LatchInv :=
  h.enclaveExit.of_eq rfl rfl rfl

theorem LatchInv.postedInterruptProcessing {s : State} (pv : IntVector) (b : Bool) (h : LatchInv s) :
    (postedInterruptProcessing pv b s).All LatchInv := by
  have h1 : LatchInv (Machine.emit (.localApicAck pv) (aexBefore b s)) := by
    refine LatchInv.emit _ ?_
    unfold aexBefore; split
    · exact h.enclaveExit
    · exact h
  have hv : (Machine.emit (.localApicAck pv) (aexBefore b s)).vmcs = s.vmcs := (wideFoot_aexBefore b s).vmcs
  unfold Machine.postedInterruptProcessing
  simp only
  split
  · exact h1.interruptExit pv
  · split
    · trivial
    · next hvid =>
      split
      · exact onVapicPage_all fun _ => h1.processPosted (by rw [hv]; simpa using hvid)
      · trivial

theorem LatchInv.externalInterrupt {s : State} (pv : IntVector) (b : Bool) (h : LatchInv s) :
    (externalInterrupt pv b s).All LatchInv := by
  unfold Machine.externalInterrupt
  split
  · trivial
  · split
    · exact h.postedInterruptProcessing pv b
    · exact h.interruptExit pv

end Sys2Proof.Machine
end

