-- ==== Sys2Proof/Laws/Consistency.lean ====
section
/-! SUPPORT. The consistency of the interrupt state (R283) under each shared operation of a guest with
"virtual-interrupt delivery". -/

namespace Sys2Proof.Machine

/-- A guest whose interrupt state is consistent, under the premises of its run: `ApicInv` without the mode. -/
structure Sound (s : State) : Prop where
  vid     : s.vmcs.ctl.vid = true
  apart   : regionsDisjoint (vmcsRegions s.vmcs) = true
  state   : Consistent s
  covered : TprCovered s

theorem ApicInv.sound {s : State} (h : ApicInv s) : Sound s := ⟨h.vid, h.apart, h.state, h.covered⟩
theorem Sound.apicInv {s : State} (h : Sound s) (hm : s.mode = .vmxNonRoot) : ApicInv s :=
  ⟨hm, h.vid, h.apart, h.state, h.covered⟩

/-- A predicate on the outcomes of an operation in which the guest goes on. -/
def Res.Stays (r : Res) (P : State → Prop) : Prop :=
  match r with
  | .done s => P s
  | .exit _ _ => True
  | .abort s => P s
  | .refuse _ => True

theorem Res.Stays.imp {P Q : State → Prop} {r : Res} (h : r.Stays P) (f : ∀ s, P s → Q s) : r.Stays Q := by
  cases r with
  | done s => exact f _ h
  | exit e s => trivial
  | abort s => exact f _ h
  | refuse r => trivial

theorem Res.All.stays {P : State → Prop} {r : Res} (h : r.All P) : r.Stays P := by
  cases r with
  | done s => exact h
  | exit e s => trivial
  | abort s => exact h
  | refuse r => trivial

theorem Res.Stays.seq {P : State → Prop} {r : Res} {k : State → Res} (h : r.Stays P)
    (hk : ∀ s, P s → (k s).Stays P) : (r.andThen k).Stays P := by
  cases r <;> first | exact hk _ h | exact h

theorem onVapicPage_stays {P : State → Prop} {k : State → Res} {s : State} (h : (k s).Stays P) :
    (onVapicPage k s).Stays P := by
  unfold onVapicPage; split
  · exact h
  · trivial

theorem enabledBy_stays {P : State → Prop} {c : Bool} {k : State → Res} {s : State} (h : c = true → (k s).Stays P) :
    (enabledBy c k s).Stays P := by
  unfold enabledBy; split
  · next hc => exact h hc
  · trivial

theorem whenActive_stays {P : State → Prop} {k : State → Res} {s : State} (h : (k s).Stays P) :
    (whenActive k s).Stays P := by
  unfold whenActive; split
  · exact h
  · trivial

/-- The state a guest operation that stays in the guest comes to. -/
theorem inGuest_stays {P : State → Prop} {k : State → Res} {s t : State} (h : inGuest k s = .next t)
    (ht : t.mode = .vmxNonRoot) (hk : s.mode = .vmxNonRoot → (k s).Stays P) : P t := by
  obtain ⟨hm, hd | ⟨e, u, he, rfl⟩ | ha⟩ := inGuest_next h
  · have := hk hm; rwa [hd] at this
  · exact absurd ht (by simp)
  · have := hk hm; rwa [ha] at this

/-! ### What does not touch the interrupt state -/

/-- A state that agrees on the interrupt state, the VMCS and the live fields is as sound. -/
theorem Sound.of_eq {s t : State} (h : Sound s) (hv : t.vmcs = s.vmcs) (hr : t.rvi = s.rvi) (hs : t.svi = s.svi)
    (hp : t.pending = s.pending) (h1 : visr t = visr s) (h2 : virr t = virr s) (h3 : vppr t = vppr s)
    (h4 : s.vmcs.ctl.tprShadow = true → vtpr t = vtpr s) : Sound t := by
  refine ⟨by rw [hv]; exact h.vid, by rw [hv]; exact h.apart, ⟨?_, ?_, ?_, ?_, ?_⟩, ?_⟩
  · rw [hs, h1]; exact h.state.svi
  · rw [hr, h2]; exact h.state.rvi
  · rw [hs, h3]; exact h.state.ppr
  · rw [h3]; exact h.state.pprHigh
  · rw [hp, h3, hr, hv]; exact h.state.latch
  · intro ht
    rw [hv] at ht
    rw [h4 ht, h3]
    exact h.covered ht

/-- The same where memory is left alone. -/
theorem Sound.of_mem {s t : State} (h : Sound s) (hm : t.mem = s.mem) (hv : t.vmcs = s.vmcs) (hr : t.rvi = s.rvi)
    (hs : t.svi = s.svi) (hp : t.pending = s.pending) : Sound t := by
  have ha : t.vmcs.vapicAddr = s.vmcs.vapicAddr := by rw [hv]
  exact h.of_eq hv hr hs hp (vreg_congr ha hm _) (vreg_congr ha hm _) (vapic32_congr ha hm _)
    fun _ => vapic32_congr ha hm _

theorem Sound.emit {s : State} (e : Event) (h : Sound s) : Sound (Machine.emit e s) := h.of_mem rfl rfl rfl rfl rfl
theorem Sound.retire {s : State} (h : Sound s) : Sound (Machine.retire s) := h.of_mem rfl rfl rfl rfl rfl

/-- The live fields that R283 speaks of are live. -/
theorem mem_liveOffsets {c : Controls} (hv : c.vid = true) :
    offPpr ∈ liveOffsets c ∧ (∀ k, k < 8 → offIsr + 16 * k ∈ liveOffsets c) ∧
      (∀ k, k < 8 → offIrr + 16 * k ∈ liveOffsets c) ∧ (c.tprShadow = true → offTpr ∈ liveOffsets c) := by
  refine ⟨?_, ?_, ?_, ?_⟩
  · simp [liveOffsets, hv]
  · intro k hk
    simp only [liveOffsets, hv, if_true, List.mem_append, List.mem_map, List.mem_range]
    exact .inl (.inr (.inl (.inr ⟨k, hk, rfl⟩)))
  · intro k hk
    simp only [liveOffsets, hv, if_true, List.mem_append, List.mem_map, List.mem_range]
    exact .inl (.inr (.inr ⟨k, hk, rfl⟩))
  · intro ht
    simp [liveOffsets, ht]

/-- Memory that agrees on the live fields leaves the state sound. -/
theorem Sound.setMem {s : State} {m : Memory} (h : Sound s)
    (hm : ∀ off ∈ liveOffsets s.vmcs.ctl, m.read32 (vapicAt s off) = vapic32 s off) : Sound (Machine.setMem m s) := by
  obtain ⟨l1, l2, l3, l4⟩ := mem_liveOffsets h.vid
  have f : ∀ off ∈ liveOffsets s.vmcs.ctl, vapic32 (Machine.setMem m s) off = vapic32 s off := hm
  refine h.of_eq rfl rfl rfl rfl ?_ ?_ (f _ l1) fun ht => f _ (l4 ht)
  · simp only [visr, vreg]
    rw [f _ (l2 0 (by decide)), f _ (l2 1 (by decide)), f _ (l2 2 (by decide)), f _ (l2 3 (by decide)),
      f _ (l2 4 (by decide)), f _ (l2 5 (by decide)), f _ (l2 6 (by decide)), f _ (l2 7 (by decide))]
  · simp only [virr, vreg]
    rw [f _ (l3 0 (by decide)), f _ (l3 1 (by decide)), f _ (l3 2 (by decide)), f _ (l3 3 (by decide)),
      f _ (l3 4 (by decide)), f _ (l3 5 (by decide)), f _ (l3 6 (by decide)), f _ (l3 7 (by decide))]

/-- The same from the bytes. -/
theorem Sound.setMem_bytes {s : State} {m : Memory} (h : Sound s)
    (hm : ∀ a, (∃ off ∈ liveOffsets s.vmcs.ctl, vapicAt s off ≤ a ∧ a < vapicAt s off + 4) → m.read a = s.mem.read a) :
    Sound (Machine.setMem m s) := by
  refine h.setMem fun off ho => ?_
  rw [vapic32, Memory.read32, Memory.read32, Memory.readLe_congr]
  exact fun x h1 h2 => hm x ⟨off, ho, h1, h2⟩

theorem liveOffsets_lt {c : Controls} {off : Nat} (h : off ∈ liveOffsets c) : off + 4 ≤ 4096 := by
  simp only [liveOffsets, List.mem_append] at h
  rcases h with (h | h) | h
  · split at h <;> simp at h; subst h; decide
  · split at h
    · simp at h
      rcases h with rfl | rfl | ⟨k, hk, rfl⟩ | ⟨k, hk, rfl⟩
      · decide
      · decide
      · simp only [offIsr]; omega
      · simp only [offIrr]; omega
    · simp at h
  · split at h <;> simp at h
    rcases h with rfl | rfl <;> decide

/-- A store outside the virtual-APIC page leaves the state sound. -/
theorem Sound.setMem_outside {s : State} {m : Memory} (h : Sound s)
    (hm : ∀ a, s.vmcs.vapicAddr.toNat ≤ a → a < s.vmcs.vapicAddr.toNat + 4096 → m.read a = s.mem.read a) :
    Sound (Machine.setMem m s) := by
  refine h.setMem_bytes ?_
  rintro a ⟨off, ho, h1, h2⟩
  have := liveOffsets_lt ho
  rw [vapicAt] at h1 h2
  exact hm a (by omega) (by omega)

/-- A store that touches no live field leaves the state sound. -/
theorem Sound.setMem_untouched {s : State} {m : Memory} {a n : Nat} (h : Sound s)
    (ht : touchesLive s a n = false) (hm : ∀ x, (x < a ∨ a + n ≤ x) → m.read x = s.mem.read x) :
    Sound (Machine.setMem m s) := by
  refine h.setMem_bytes ?_
  rintro x ⟨off, ho, h1, h2⟩
  apply hm
  rw [touchesLive, List.any_eq_false] at ht
  have := ht off ho
  by_contra hc
  simp [disjoint] at this
  omega

/-! ### Other agents -/

theorem Sound.agentGap {s : State} (h : Sound s) (hm : s.mode = .vmxNonRoot) :
    (agentGap s).All fun u => Sound u ∧ u.mode = .vmxNonRoot := by
  refine agentGap_all ⟨h, hm⟩ (fun u l hu => ⟨hu.1.of_mem rfl rfl rfl rfl rfl, hu.2⟩) fun a u v hu hv => ?_
  have hl : touchesLive u a.addr.toNat 1 = false := by
    unfold agentStep at hv
    simp only at hv
    by_cases h1 : (!placed u a.addr.toNat 1) = true
    · rw [if_pos h1] at hv; cases hv
    · rw [if_neg h1] at hv
      by_cases h2 : (decide (u.mode = .vmxNonRoot) && touchesLive u a.addr.toNat 1) = true
      · rw [if_pos h2] at hv; cases hv
      · simpa [hu.2] using h2
  rw [agentStep_done hv]
  exact ⟨hu.1.setMem_untouched hl fun x hx => Memory.read_write_other _ _ (by omega), hu.2⟩

/-! ### The virtualization operations -/

/-- Evaluation after PPR virtualization makes the state sound, whatever VTPR, VPPR and the latch were. -/
theorem Sound.pprEvaluate {s : State} (hv : s.vmcs.ctl.vid = true) (ha : regionsDisjoint (vmcsRegions s.vmcs) = true)
    (hs : s.svi = highest (visr s)) (hr : s.rvi = highest (virr s)) :
    Sound (Machine.evaluate (Machine.pprVirtualization s)) := by
  refine ⟨hv, ha, ⟨?_, ?_, ?_, ?_, ?_⟩, ?_⟩
  · rw [evaluate_svi, pprVirtualization_svi, visr_evaluate, Machine.pprVirtualization, visr_setVppr, hs]
  · rw [evaluate_rvi, pprVirtualization_rvi, virr_evaluate, Machine.pprVirtualization, virr_setVppr, hr]
  · rw [evaluate_svi, pprVirtualization_svi, vppr_evaluate, Machine.pprVirtualization, vppr_setVppr, fieldCls_pprValue]
    exact Nat.le_max_right _ _
  · rw [vppr_evaluate, Machine.pprVirtualization, vppr_setVppr]; exact high_pprValue _ _
  · intro hp
    rw [evaluate_pending, recognizes_iff] at hp
    exact ⟨hp.2, hp.1⟩
  · intro _
    rw [vtpr_evaluate, vppr_evaluate, Machine.pprVirtualization, vppr_setVppr, vtpr_setVppr, fieldCls_pprValue]
    exact Nat.le_max_left _ _

/-- Evaluation keeps the state sound. -/
theorem Sound.evaluate {s : State} (hv : s.vmcs.ctl.vid = true) (ha : regionsDisjoint (vmcsRegions s.vmcs) = true)
    (hs : s.svi = highest (visr s)) (hr : s.rvi = highest (virr s)) (hp : cls s.svi ≤ fieldCls (vppr s))
    (hh : (vppr s).extractLsb' 8 24 = 0) (hc : TprCovered s) : Sound (Machine.evaluate s) := by
  refine ⟨hv, ha, ⟨hs, hr, hp, hh, ?_⟩, hc⟩
  intro h
  rw [evaluate_pending, recognizes_iff] at h
  exact ⟨h.2, h.1⟩

theorem Sound.tprVirtualization {s w : State} (h : Sound s) (hv : w.vmcs = s.vmcs) (hr : w.rvi = s.rvi)
    (hs : w.svi = s.svi) (h1 : visr w = visr s) (h2 : virr w = virr s) :
    (Machine.tprVirtualization w).Stays Sound := by
  have hvid : w.vmcs.ctl.vid = true := by rw [hv]; exact h.vid
  unfold Machine.tprVirtualization
  rw [if_pos hvid]
  exact Sound.pprEvaluate hvid (by rw [hv]; exact h.apart) (by rw [hs, h1]; exact h.state.svi)
    (by rw [hr, h2]; exact h.state.rvi)

theorem Sound.eoiVirtualization {s w : State} (h : Sound s) (hv : w.vmcs = s.vmcs) (hr : w.rvi = s.rvi)
    (h2 : virr w = virr s) : (Machine.eoiVirtualization w).Stays Sound := by
  have hvid : w.vmcs.ctl.vid = true := by rw [hv]; exact h.vid
  unfold Machine.eoiVirtualization
  simp only
  split
  · trivial
  · show Sound (Machine.evaluate (Machine.retireInService w))
    rw [Machine.retireInService]
    refine Sound.pprEvaluate hvid (by rw [refreshSvi_vmcs, setVregBit_vmcs, hv]; exact h.apart) ?_ ?_
    · rw [refreshSvi_svi, refreshSvi, visr_setSvi]
    · rw [refreshSvi_rvi, setVregBit_rvi, refreshSvi, virr_setSvi, virr_setVregBit_isr, hr, h2]; exact h.state.rvi

theorem Sound.selfIpi {s : State} (v : IntVector) (h : Sound s) : Sound (selfIpiVirtualization v s) := by
  rw [selfIpiVirtualization]
  refine Sound.evaluate h.vid h.apart ?_ ?_ ?_ ?_ ?_
  · rw [raiseRvi_svi, setVregBit_svi, raiseRvi, visr_setRvi, visr_setVregBit_irr]; exact h.state.svi
  · rw [raiseRvi_rvi, setVregBit_rvi, raiseRvi, virr_setRvi, virr_setVregBit_irr, highest_withBit_set, h.state.rvi]
  · rw [raiseRvi_svi, setVregBit_svi, raiseRvi, vppr_setRvi, vppr_setVregBit_irr]; exact h.state.ppr
  · rw [raiseRvi, vppr_setRvi, vppr_setVregBit_irr]; exact h.state.pprHigh
  · intro ht
    rw [raiseRvi, vppr_setRvi, vtpr_setRvi, vppr_setVregBit_irr, vtpr_setVregBit_irr]; exact h.covered ht

/-- Delivery of a recognized virtual interrupt keeps the state sound. -/
theorem Sound.deliver {s : State} (h : Sound s) (hp : s.pending = true) : Sound (Machine.deliver s) := by
  obtain ⟨hlt, -⟩ := h.state.latch hp
  have hw := wideFoot_deliver s
  have hle : s.svi.toNat ≤ s.rvi.toNat := Nat.le_of_lt (lt_of_cls_lt (Nat.lt_of_le_of_lt h.state.ppr hlt))
  refine ⟨by rw [hw.vmcs]; exact h.vid, by rw [hw.vmcs]; exact h.apart, ⟨?_, ?_, ?_, ?_, ?_⟩, ?_⟩
  · rw [deliver_svi, deliver_visr, highest_withBit_set, ← h.state.svi]
    apply BitVec.eq_of_toNat_eq
    rw [toNat_maxVector]; omega
  · rw [deliver_rvi, deliver_virr]
  · rw [deliver_svi, deliver_vppr, fieldCls_classBase]
  · rw [deliver_vppr]; exact high_classBase _
  · rw [deliver_pending]; intro h; cases h
  · intro ht
    rw [hw.vmcs] at ht
    rw [deliver_vtpr, deliver_vppr, fieldCls_classBase]
    have := h.covered ht
    omega

theorem Sound.acceptPosted {s : State} (got : BitVec 256) (h : Sound s) : Sound (Machine.acceptPosted got s) := by
  have h1 := h.state.svi
  have h2 := h.state.rvi
  have h3 := h.state.ppr
  have h4 := h.state.pprHigh
  have h5 := h.covered
  have hv := (foot_orVirr got s).vmcs
  obtain ⟨o1, o2, o3⟩ := orVirr_same got s
  have v1 : visr (orVirr got s) = visr s := visr_orVirr got s
  have v2 : virr (orVirr got s) = virr s ||| got := virr_orVirr got s
  have v3 : vppr (orVirr got s) = vppr s := vppr_orVirr got s
  have v4 : vtpr (orVirr got s) = vtpr s := vtpr_orVirr got s
  rw [Machine.acceptPosted]
  generalize orVirr got s = q at *
  have hvid : q.vmcs.ctl.vid = true := by rw [hv]; exact h.vid
  have hap : regionsDisjoint (vmcsRegions q.vmcs) = true := by rw [hv]; exact h.apart
  have hcov : TprCovered q := by intro ht; rw [hv] at ht; rw [v3, v4]; exact h5 ht
  by_cases h0 : got = 0
  · rw [if_pos h0]
    have hz : virr s ||| got = virr s := by rw [h0]; exact BitVec.or_zero
    refine Sound.evaluate hvid hap (by rw [o2, v1, h1]) (by rw [o1, v2, hz, h2]) (by rw [o2, v3]; exact h3) (by rw [v3]; exact h4) hcov
  · rw [if_neg h0]
    have r1 : (raiseRvi (highest got) q).rvi = highest (virr s ||| got) := by
      rw [raiseRvi_rvi, o1, highest_or, h2]
    have r2 : virr (raiseRvi (highest got) q) = virr s ||| got := by rw [raiseRvi, virr_setRvi, v2]
    have r3 : visr (raiseRvi (highest got) q) = visr s := by rw [raiseRvi, visr_setRvi, v1]
    have r4 : vppr (raiseRvi (highest got) q) = vppr s := by rw [raiseRvi, vppr_setRvi, v3]
    have r5 : vtpr (raiseRvi (highest got) q) = vtpr s := by rw [raiseRvi, vtpr_setRvi, v4]
    have r6 : (raiseRvi (highest got) q).svi = s.svi := by rw [raiseRvi_svi, o2]
    have r7 : (raiseRvi (highest got) q).vmcs = s.vmcs := by rw [raiseRvi_vmcs, hv]
    generalize raiseRvi (highest got) q = w at *
    refine Sound.evaluate (by rw [r7]; exact h.vid) (by rw [r7]; exact h.apart) (by rw [r6, r3, h1]) (by rw [r1, r2])
      (by rw [r6, r4]; exact h3) (by rw [r4]; exact h4) fun ht => ?_
    rw [r7] at ht
    rw [r4, r5]; exact h5 ht

/-! ### Descriptors -/

/-- A target descriptor that was accepted does not overlap the virtual-APIC page. -/
theorem pidApart_vapic {v : Vmcs} {p : Nat} (h : pidApart v p = true) (hv : usesVapic v.ctl = true) :
    p + 64 ≤ v.vapicAddr.toNat ∨ v.vapicAddr.toNat + 4096 ≤ p := by
  simp only [pidApart, vmcsTables, hv, if_true, List.singleton_append, List.all_append, List.all_cons,
    disjoint, Bool.and_eq_true, Bool.or_eq_true, decide_eq_true_eq] at h
  omega

theorem Sound.postInPir {s : State} {p : Nat} (v : IntVector) (h : Sound s)
    (hp : p + 64 ≤ s.vmcs.vapicAddr.toNat ∨ s.vmcs.vapicAddr.toNat + 4096 ≤ p) : Sound (Machine.postInPir p v s) :=
  h.setMem_outside fun _ _ _ => Memory.read_writeLe_outside _ _ _ _ _ (by omega)

theorem Sound.notifyPid {s : State} {p : Nat} (h : Sound s)
    (hp : p + 64 ≤ s.vmcs.vapicAddr.toNat ∨ s.vmcs.vapicAddr.toNat + 4096 ≤ p) : Sound (Machine.notifyPid p s) := by
  unfold Machine.notifyPid
  simp only
  split
  · exact (h.setMem_outside fun _ _ _ => Memory.read_writeLe_outside _ _ _ _ _ (by omega)).emit _
  · exact h.setMem_outside fun _ _ _ => Memory.read_writeLe_outside _ _ _ _ _ (by omega)

theorem Sound.postInterrupt {s : State} {p : Nat} (v : IntVector) (h : Sound s) (hm : s.mode = .vmxNonRoot)
    (hp : pidApart s.vmcs p = true) : (Machine.postInterrupt p v s).Stays Sound := by
  have hp := pidApart_vapic hp (usesVapic_of_vid h.vid)
  unfold Machine.postInterrupt
  have g1 := (h.agentGap hm).and (foot_agentGap s)
  cases h1 : Machine.agentGap s with
  | done u =>
    rw [h1] at g1
    obtain ⟨⟨su, mu⟩, fu⟩ := g1
    show ((Machine.agentGap _).andThen _).Stays Sound
    have sp := su.postInPir v (p := p) (by rw [fu.vmcs]; exact hp)
    have g2 := (sp.agentGap (by rw [(foot_postInPir p v u).mode, mu])).and (foot_agentGap _)
    cases h2 : Machine.agentGap (Machine.postInPir p v u) with
    | done w =>
      rw [h2] at g2
      obtain ⟨⟨sw, mw⟩, fw⟩ := g2
      exact sw.notifyPid (by rw [fw.vmcs, (foot_postInPir p v u).vmcs, fu.vmcs]; exact hp)
    | exit e w => trivial
    | abort w => rw [h2] at g2; exact g2.1.1
    | refuse r => trivial
  | exit e w => trivial
  | abort w => rw [h1] at g1; exact g1.1.1
  | refuse r => trivial

theorem Sound.ipiVirtualization {s : State} (v : IntVector) (a : ApicId) (h : Sound s) (hm : s.mode = .vmxNonRoot) :
    (Machine.ipiVirtualization v a s).Stays Sound := by
  unfold Machine.ipiVirtualization
  split
  · trivial
  · split
    · split
      · simp only
        split
        · split
          · trivial
          · split
            · trivial
            · next hp => exact h.postInterrupt v hm (by simpa using hp)
        · trivial
      · trivial
    · trivial

theorem Sound.drainPir {s : State} {p : Nat} (gs : List (BitVec 256)) (got : BitVec 256) (h : Sound s)
    (hm : s.mode = .vmxNonRoot)
    (hp : p + 64 ≤ s.vmcs.vapicAddr.toNat ∨ s.vmcs.vapicAddr.toNat + 4096 ≤ p) :
    (Machine.drainPir p gs got s).Stays Sound := by
  induction gs generalizing got s with
  | nil => exact h.acceptPosted got
  | cons g gs ih =>
    rw [Machine.drainPir]
    have hx : Sound (exchangeGroup p g s).2 :=
      h.setMem_outside fun _ _ _ => Memory.read_writeLe_outside _ _ _ _ _ (by omega)
    have g1 := (hx.agentGap hm).and (foot_agentGap _)
    cases h1 : Machine.agentGap (exchangeGroup p g s).2 with
    | done u =>
      rw [h1] at g1
      exact ih _ g1.1.1 g1.1.2 (by rw [g1.2.vmcs, (foot_exchangeGroup p g s).vmcs]; exact hp)
    | exit e w => trivial
    | abort w => rw [h1] at g1; exact g1.1.1
    | refuse r => trivial

theorem Sound.enclaveExit {s : State} (h : Sound s) : Sound (Machine.enclaveExit s) := by
  unfold Machine.enclaveExit; split
  · exact h.of_mem rfl rfl rfl rfl rfl
  · exact h

theorem Sound.processPosted {s : State} (h : Sound s) (hm : s.mode = .vmxNonRoot)
    (hp : s.vmcs.ctl.postedIntr = true) : (Machine.processPosted s).Stays Sound := by
  have hap := ownPid_apart h.apart hp (usesVapic_of_vid h.vid)
  unfold Machine.processPosted
  simp only
  have hc : Sound (Machine.emit .localApicEoi (clearOn s.vmcs.piDescAddr.toNat s)) :=
    Sound.emit _ (h.setMem_outside fun _ _ _ => Memory.read_write_other _ _ (by omega))
  have g1 := (hc.agentGap hm).and (foot_agentGap _)
  cases h1 : Machine.agentGap (Machine.emit .localApicEoi (clearOn s.vmcs.piDescAddr.toNat s)) with
  | done u =>
    rw [h1] at g1
    obtain ⟨⟨su, mu⟩, fu⟩ := g1
    have hv : u.vmcs = s.vmcs := fu.vmcs
    show ((Machine.drainPir _ _ _ u).andThen _).Stays Sound
    exact Res.Stays.seq (su.drainPir _ _ mu (by rw [hv]; exact hap)) fun w hw =>
      Sound.of_mem (t := afterPosted w) hw rfl rfl rfl rfl rfl
  | exit e w => trivial
  | abort w => rw [h1] at g1; exact g1.1.1
  | refuse r => trivial

theorem Sound.postedInterruptProcessing {s : State} (pv : IntVector) (x : Bool) (h : Sound s)
    (hm : s.mode = .vmxNonRoot) (hp : s.vmcs.ctl.postedIntr = true) :
    (Machine.postedInterruptProcessing pv x s).Stays Sound := by
  have h1 : Sound (aexBefore x s) := by unfold aexBefore; split; exacts [h.enclaveExit, h]
  have hw := wideFoot_aexBefore x s
  unfold Machine.postedInterruptProcessing
  simp only
  split
  · trivial
  · split
    · trivial
    · split
      · exact onVapicPage_stays ((h1.emit _).processPosted (hw.mode.trans hm) (by rw [emit_vmcs, hw.vmcs]; exact hp))
      · trivial

theorem Sound.externalInterrupt {s : State} (pv : IntVector) (x : Bool) (h : Sound s) (hm : s.mode = .vmxNonRoot) :
    (Machine.externalInterrupt pv x s).Stays Sound := by
  unfold Machine.externalInterrupt
  split
  · trivial
  · split
    · next hp => exact h.postedInterruptProcessing pv x hm hp
    · trivial

theorem Sound.afterDelivery {s : State} (pv : IntVector) (x : Bool) (h : Sound s) (hm : s.mode = .vmxNonRoot) :
    (afterDelivery (Machine.externalInterrupt pv x) s).Stays Sound := by
  unfold Machine.afterDelivery
  by_cases hd : deliverNow false s = true
  · rw [if_pos hd]
    have hs := h.deliver ((deliverNow_iff s false).1 hd).1.pending
    refine onVapicPage_stays ?_
    split
    · exact hs
    · exact hs.externalInterrupt pv x (by rw [(wideFoot_deliver s).mode, hm])
  · rw [if_neg hd]; exact h.externalInterrupt pv x hm

/-! ### Accesses to the APIC-access page -/

theorem Sound.pageWriteDefault {s : State} (off : PageOff) (d : List Byte) (_h : Sound s) :
    (Machine.pageWriteDefault off d s).Stays Sound := by
  unfold Machine.pageWriteDefault
  split
  · split
    · exact onVapicPage_stays trivial
    · trivial
  · trivial

theorem Sound.pageWriteUntaken {s : State} (b : Bool) (off : PageOff) (d : List Byte) (h : Sound s) :
    (Machine.pageWriteUntaken b off d s).Stays Sound := by
  unfold Machine.pageWriteUntaken
  split
  · trivial
  · exact h.pageWriteDefault _ _

theorem qualifies_le {s : State} {n : Nat} (h : sizeQualifies s n = true) : n ≤ 4 := by
  simp only [sizeQualifies, Bool.and_eq_true, decide_eq_true_eq] at h; exact h.2

theorem Sound.pageWriteTpr {s : State} (d : List Byte) (h : Sound s) : (Machine.pageWriteTpr d s).Stays Sound := by
  unfold Machine.pageWriteTpr
  split
  · next hc =>
    have := qualifies_le (by rw [Bool.and_eq_true] at hc; exact hc.2)
    refine onVapicPage_stays (h.tprVirtualization rfl rfl rfl ?_ ?_)
    · exact vreg_virtualWrite s (by simp only [offTpr, offIsr]; omega)
    · exact vreg_virtualWrite s (by simp only [offTpr, offIrr]; omega)
  · exact h.pageWriteDefault _ _

theorem Sound.pageWriteEoi {s : State} (d : List Byte) (h : Sound s) : (Machine.pageWriteEoi d s).Stays Sound := by
  unfold Machine.pageWriteEoi
  split
  · next hc =>
    have := qualifies_le (by rw [Bool.and_eq_true] at hc; exact hc.2)
    refine onVapicPage_stays (h.eoiVirtualization rfl rfl ?_)
    exact vreg_virtualWrite s (by simp only [offEoi, offIrr]; omega)
  · exact h.pageWriteUntaken _ _ _

theorem Sound.icrVirtualization {s : State} (h : Sound s) (hm : s.mode = .vmxNonRoot) :
    (Machine.icrVirtualization s).Stays Sound := by
  unfold Machine.icrVirtualization
  split
  · exact h.selfIpi _
  · exact h.ipiVirtualization _ _ hm
  · trivial

theorem Sound.pageWriteIcrLo {s : State} (d : List Byte) (h : Sound s) (hm : s.mode = .vmxNonRoot) :
    (Machine.pageWriteIcrLo d s).Stays Sound := by
  unfold Machine.pageWriteIcrLo
  split
  · next hc =>
    have := qualifies_le (by rw [Bool.and_eq_true] at hc; exact hc.2)
    refine onVapicPage_stays (Sound.icrVirtualization (s := Machine.virtualWrite offIcrLo d s) ?_ hm)
    refine h.of_eq rfl rfl rfl rfl ?_ ?_ ?_ fun _ => ?_
    · exact vreg_virtualWrite s (by simp only [offIcrLo, offIsr]; omega)
    · exact vreg_virtualWrite s (by simp only [offIcrLo, offIrr]; omega)
    · exact vapic32_virtualWrite s (by simp only [offIcrLo, offPpr]; omega)
    · exact vapic32_virtualWrite s (by simp only [offIcrLo, offTpr]; omega)
  · exact h.pageWriteUntaken _ _ _

theorem Sound.pageWriteOther {s : State} (off : PageOff) (d : List Byte) (h : Sound s) :
    (Machine.pageWriteOther off d s).Stays Sound := h.pageWriteUntaken _ _ _

theorem Sound.pageWrite {s : State} (off : PageOff) (d : List Byte) (h : Sound s) (hm : s.mode = .vmxNonRoot) :
    (Machine.pageWrite off d s).Stays Sound := by
  unfold Machine.pageWrite
  split
  · exact h.pageWriteTpr d
  · split
    · exact h.pageWriteEoi d
    · split
      · exact h.pageWriteIcrLo d hm
      · exact h.pageWriteOther off d

theorem Sound.pageRead {s : State} (kind : AccessKind) (off : PageOff) (n : Nat) (h : Sound s) :
    (Machine.pageRead kind off n s).Stays Sound := by
  unfold Machine.pageRead
  split
  · trivial
  · split
    · exact onVapicPage_stays (h.of_mem rfl rfl rfl rfl rfl)
    · trivial

theorem Sound.plainWrite {s : State} (pa : PhysAddr) (d : List Byte) (h : Sound s) :
    (Machine.plainWrite pa d s).Stays Sound := by
  unfold Machine.plainWrite
  split
  · trivial
  · split
    · trivial
    · next ht =>
      split
      · trivial
      · split
        · trivial
        · exact h.setMem_untouched (by simpa using ht) fun x hx => Memory.read_writeBytes_outside _ _ _ _ hx

theorem outsideEnclave_stays {P : State → Prop} {k : State → Res} {s : State} (h : (k s).Stays P) :
    (outsideEnclave k s).Stays P := by
  unfold outsideEnclave; split
  · trivial
  · exact h

theorem special_stays {P : State → Prop} {pa : PhysAddr} {n : Nat} {f g : State → Res} {s : State}
    (hf : (f s).Stays P) (hg : (g s).Stays P) : (special pa n f g s).Stays P := by
  unfold special
  split
  · split
    · exact outsideEnclave_stays hf
    · split
      · trivial
      · exact hg
  · exact hg

theorem translated_stays {P : State → Prop} {x : Xlat} {kind : AccessKind} {k : State → Res} {s : State}
    (he : ∀ e, P (Machine.emit e (beginAccess false s))) (hk : (k (setPagingFlags kind s)).Stays P) :
    (translated x kind k s).Stays P := by
  cases x
  · exact hk
  · exact he _
  · exact he _

theorem Sound.plainRead {s : State} (pa : PhysAddr) (n : Nat) (h : Sound s) : (Machine.plainRead pa n s).Stays Sound := by
  unfold Machine.plainRead
  split
  · exact h.of_mem rfl rfl rfl rfl rfl
  · trivial

theorem Sound.linearAccess {s : State} (a : LinearAccess) (h : Sound s) (hm : s.mode = .vmxNonRoot) :
    (Machine.linearAccess a s).Stays Sound := by
  have he : ∀ e, Sound (Machine.emit e (beginAccess false s)) := fun e =>
    (Sound.of_mem (t := beginAccess false s) h rfl rfl rfl rfl rfl).emit e
  have hp : ∀ k, Sound (setPagingFlags k s) := fun k => h.emit _
  unfold Machine.linearAccess
  cases a with
  | read pa n x | fetch pa n x =>
    exact translated_stays he (special_stays ((hp _).pageRead _ _ _) ((hp _).plainRead _ _))
  | write pa d x b =>
    refine translated_stays he ?_
    cases b
    · exact special_stays ((hp _).pageWrite _ _ hm) ((hp _).plainWrite _ _)
    · exact (hp _).plainWrite _ _

theorem Sound.linearAccesses {s : State} (as : List LinearAccess) (h : Sound s) (hm : s.mode = .vmxNonRoot) :
    (Machine.linearAccesses as s).Stays Sound := by
  induction as generalizing s with
  | nil => exact h
  | cons a as ih =>
    rw [Machine.linearAccesses]
    have h1 := h.linearAccess a hm
    have h2 := foot_linearAccess a s
    cases hr : Machine.linearAccess a s with
    | done u =>
      rw [hr] at h1 h2
      exact ih h1 (h2.mode.trans hm)
    | exit e w => trivial
    | abort w => rw [hr] at h1; exact h1
    | refuse r => trivial

/-! ### The environment -/

theorem Sound.applyEnv {s : State} (u : EnvUpdate) (h : Sound s) (hm : s.mode = .vmxNonRoot) :
    (Machine.applyEnv u s).All fun t => Sound t ∧ t.mode = .vmxNonRoot := by
  cases u <;> try exact ⟨h.of_mem rfl rfl rfl rfl rfl, hm⟩
  · simp [Machine.applyEnv, byVmm, hm, Res.All]
  · simp only [Machine.applyEnv, byVmm, hm]
    split <;> simp [Res.All]

theorem Sound.applyEnvs {s : State} (us : List EnvUpdate) (h : Sound s) (hm : s.mode = .vmxNonRoot) :
    (Machine.applyEnvs us s).All fun t => Sound t ∧ t.mode = .vmxNonRoot := by
  induction us generalizing s with
  | nil => exact ⟨h, hm⟩
  | cons u us ih => exact (h.applyEnv u hm).seq fun w hw => ih hw.1 hw.2

end Sys2Proof.Machine
end

