-- ==== Sys2Proof/Laws/PerInstr.lean ====
section
/-! SUPPORT. Per-instruction laws: the decoder reads back what the encoder wrote. -/

namespace Sys2Proof

/-- The low byte of an APIC MSR index. -/
theorem extract_apicMsr (idx : BitVec 8) : (apicMsr idx).extractLsb' 0 8 = idx := by
  revert idx; decide

/-- An APIC MSR index lies in the range of format `MSR`. -/
theorem range_apicMsr (idx : BitVec 8) : (apicMsr idx).extractLsb' 8 24 = 8 := by
  revert idx; decide

/-- Every index of the range is one. -/
theorem apicMsr_of_range {ecx : BitVec 32} (h : ecx.extractLsb' 8 24 = 8) : apicMsr (ecx.extractLsb' 0 8) = ecx := by
  rw [apicMsr]
  have : ecx = ecx.extractLsb' 8 24 ++ ecx.extractLsb' 0 8 := by
    apply BitVec.eq_of_getLsbD_eq
    intro i hi
    simp only [BitVec.getLsbD_append, BitVec.getLsbD_extractLsb']
    by_cases h8 : i < 8
    · simp [h8]
    · simp [h8, show 8 + (i - 8) = i by omega, show i - 8 < 24 by omega]
  rw [h] at this
  exact this.symm

end Sys2Proof

namespace Sys2Proof.Laws.Roundtrip

open Sys2Proof

/-- Decoding the encoding of a well-formed instruction gives it back. -/
def Statement (i : Instr) : Prop := i.wf = true → decode (encode i) = .ok i

theorem movToCr8 (r : Reg) : Statement (.movToCr8 r) := fun _ => rfl

theorem movFromCr8 (r : Reg) : Statement (.movFromCr8 r) := fun _ => rfl

theorem wrmsrTpr : Statement .wrmsrTpr := fun _ => rfl

theorem wrmsrEoi : Statement .wrmsrEoi := fun _ => rfl

theorem wrmsrSelfIpi : Statement .wrmsrSelfIpi := fun _ => rfl

theorem wrmsrIcr : Statement .wrmsrIcr := fun _ => rfl

theorem wrmsrApicOther (idx : BitVec 8) : Statement (.wrmsrApicOther idx) := by
  intro h
  simp only [Instr.wf, isNamedMsr, Bool.not_eq_true', Bool.or_eq_false_iff, beq_eq_false_iff_ne] at h
  have ne : ∀ k : BitVec 8, idx ≠ k → apicMsr idx ≠ apicMsr k := fun k hk e =>
    hk (by rw [← extract_apicMsr idx, e, extract_apicMsr])
  have n1 : apicMsr idx ≠ 0x808 := ne 0x08 h.1.1.1
  have n2 : apicMsr idx ≠ 0x80B := ne 0x0B h.1.1.2
  have n3 : apicMsr idx ≠ 0x83F := ne 0x3F h.2
  have n4 : apicMsr idx ≠ 0x830 := ne 0x30 h.1.2
  simp only [encode, decode, decodeWrmsr]
  rw [if_neg n1, if_neg n2, if_neg n3, if_neg n4, if_pos (range_apicMsr idx), extract_apicMsr]

theorem rdmsrApic (idx : BitVec 8) : Statement (.rdmsrApic idx) := by
  intro _
  simp only [encode, decode, decodeRdmsr]
  rw [if_pos (range_apicMsr idx), extract_apicMsr]

theorem pageWriteTpr (d : List Byte) (env : AccessEnv) : Statement (.pageWriteTpr d env) := by
  intro h
  simp_all [Instr.wf, encode, decode, decodePage, decodePageWrite]

theorem pageWriteEoi (d : List Byte) (env : AccessEnv) : Statement (.pageWriteEoi d env) := by
  intro h
  simp_all [Instr.wf, encode, decode, decodePage, decodePageWrite]

theorem pageWriteIcrLo (d : List Byte) (env : AccessEnv) : Statement (.pageWriteIcrLo d env) := by
  intro h
  simp_all [Instr.wf, encode, decode, decodePage, decodePageWrite]

theorem pageWriteOther (off : PageOff) (d : List Byte) (env : AccessEnv) : Statement (.pageWriteOther off d env) := by
  intro h
  simp_all [Instr.wf, isTriggerOff, encode, decode, decodePage, decodePageWrite]

theorem pageRead (off : PageOff) (n : Nat) (env : AccessEnv) : Statement (.pageRead off n env) := by
  intro h
  simp only [Instr.wf, decide_eq_true_eq] at h
  simp only [encode, decode, decodePage]
  rw [if_neg (by omega)]

theorem pageFetch (off : PageOff) (n : Nat) (env : AccessEnv) : Statement (.pageFetch off n env) := by
  intro h
  simp only [Instr.wf, decide_eq_true_eq] at h
  simp only [encode, decode, decodePage]
  rw [if_neg (by omega)]

theorem senduipi (v : IntVector) (t : ApicId) : Statement (.senduipi v t) := fun _ => rfl

theorem sti (a b : Bool) : Statement (.sti a b) := fun _ => rfl

theorem movSs (b : Bool) : Statement (.movSs b) := fun _ => rfl

theorem popSs (b : Bool) : Statement (.popSs b) := fun _ => rfl

theorem hlt : Statement .hlt := fun _ => rfl

theorem mwait : Statement .mwait := fun _ => rfl

theorem repStringIteration (it : RepIter) : Statement (.repStringIteration it) := by
  intro h
  simp only [Instr.wf] at h
  simp only [encode, decode, decodeEvent, h, if_true]

theorem vmEntry : Statement .vmEntry := fun _ => rfl

theorem instructionBoundary (h : Bool) : Statement (.instructionBoundary h) := fun _ => rfl

theorem externalInterrupt (pv : IntVector) (x : Bool) : Statement (.externalInterrupt pv x) := fun _ => rfl

theorem tprVirtualization : Statement .tprVirtualization := fun _ => rfl

theorem pprVirtualization : Statement .pprVirtualization := fun _ => rfl

theorem eoiVirtualization : Statement .eoiVirtualization := fun _ => rfl

theorem selfIpiVirtualization (v : IntVector) : Statement (.selfIpiVirtualization v) := fun _ => rfl

theorem ipiVirtualization (v : IntVector) (t : ApicId) : Statement (.ipiVirtualization v t) := fun _ => rfl

theorem evaluatePendingVirtualInterrupts : Statement .evaluatePendingVirtualInterrupts := fun _ => rfl

theorem virtualInterruptDelivery : Statement .virtualInterruptDelivery := fun _ => rfl

theorem postedInterruptProcessing (pv : IntVector) (x : Bool) : Statement (.postedInterruptProcessing pv x) := fun _ => rfl

end Sys2Proof.Laws.Roundtrip
end

