-- ==== Sys2Proof/Laws/Shape.lean ====
section
/-! SUPPORT. Everything an operation can come to, said once: the inversion of `exec` for the rules about the whole
machine. -/

namespace Sys2Proof.Machine

/-- How an operation can end in `u`: there, at the completion of the instruction, or in a VM exit from there. -/
inductive EndsAt (u : State) : State → Prop where
  | here : EndsAt u u
  | completed : EndsAt u (retire u)
  | exited (e : VmExit) : EndsAt u (takeVmExit e u)

/-- The next states of the operations, by group, from the state `s`. -/
inductive Shape (s : State) : Instr → State → Prop where
  /-- the virtualization operations, their triggers by register and MSR, and the rows of format PAGE -/
  | ordinary {i : Instr} {u t : State} (hm : s.mode = .vmxNonRoot) (hf : Foot s u) (he : EndsAt u t) : Shape s i t
  | readTpr (r : Reg) (v : BitVec 64) (hm : s.mode = .vmxNonRoot) : Shape s (.movFromCr8 r) (retire (setReg r v s))
  | sti (a b : Bool) (hm : s.mode = .vmxNonRoot) :
      Shape s (.sti a b) (retire { s with rflagsIf := a, blockingBySti := b })
  | movSs (b : Bool) (hm : s.mode = .vmxNonRoot) : Shape s (.movSs b) (retire { s with blockingByMovSs := b })
  | popSs (b : Bool) (hm : s.mode = .vmxNonRoot) : Shape s (.popSs b) (retire { s with blockingByMovSs := b })
  | hlt (hm : s.mode = .vmxNonRoot) : Shape s .hlt (retire { s with activity := .hlt })
  | mwait (hm : s.mode = .vmxNonRoot) : Shape s .mwait (retire { s with activity := .mwait })
  | iterated (it : RepIter) {u : State} (hm : s.mode = .vmxNonRoot) (hf : Foot s u) :
      Shape s (.repStringIteration it) (completeIteration it u)
  | iterationFault (it : RepIter) {u : State} (hm : s.mode = .vmxNonRoot) (hf : Foot s u) :
      Shape s (.repStringIteration it) u
  | iterationExit (it : RepIter) {u : State} (e : VmExit) (hm : s.mode = .vmxNonRoot) (hf : Foot s u) :
      Shape s (.repStringIteration it) (takeVmExit e (if e.trapLike then completeIteration it u else u))
  | entered (hm : s.mode = .vmxRoot) : Shape s .vmEntry (vmEntry s)
  | delivered (hm : s.mode = .vmxNonRoot) (hd : Deliverable s) : Shape s .virtualInterruptDelivery (deliver s)
  | notDelivered (hm : s.mode = .vmxNonRoot) : Shape s .virtualInterruptDelivery s
  | deliveredAt (b : Bool) (hm : s.mode = .vmxNonRoot) (hd : Deliverable s) :
      Shape s (.instructionBoundary b) (deliver s)
  | undelivered (b : Bool) (hm : s.mode = .vmxNonRoot) : Shape s (.instructionBoundary b) s
  | external (pv : IntVector) (x : Bool) {u t : State} (hm : s.mode = .vmxNonRoot) (hf : WideFoot s u)
      (he : EndsAt u t) : Shape s (.externalInterrupt pv x) t
  | posted (pv : IntVector) (x : Bool) {u t : State} (hm : s.mode = .vmxNonRoot) (hf : WideFoot s u)
      (he : EndsAt u t) : Shape s (.postedInterruptProcessing pv x) t

theorem endsAt_inGuest {F : State → Prop} {k : State → Res} {s t : State} (h : inGuest k s = .next t)
    (hk : (k s).All F) : s.mode = .vmxNonRoot ∧ ∃ u, F u ∧ EndsAt u t := by
  obtain ⟨hm, hd | ⟨e, u, he, rfl⟩ | ha⟩ := inGuest_next h
  · rw [hd] at hk; exact ⟨hm, t, hk, .here⟩
  · rw [he] at hk; exact ⟨hm, u, hk, .exited e⟩
  · rw [ha] at hk; exact ⟨hm, t, hk, .here⟩

theorem shape_event {i : Instr} {k : State → Res} {s t : State} (h : inGuest k s = .next t)
    (hk : (k s).All (Foot s)) : Shape s i t := by
  obtain ⟨hm, u, hu, he⟩ := endsAt_inGuest h hk
  exact .ordinary hm hu he

theorem shape_instruction {i : Instr} {c : Bool} {k : State → Res} {s t : State}
    (h : instruction c k s = .next t) (hk : (k s).All (Foot s)) : Shape s i t := by
  obtain ⟨hm, -, -, ⟨u, hu, rfl⟩ | ⟨e, u, he, rfl⟩ | ha⟩ := instruction_next h
  · rw [hu] at hk; exact .ordinary hm hk .completed
  · rw [he] at hk; exact .ordinary hm hk (.exited e)
  · rw [ha] at hk; exact .ordinary hm hk .here

/-- An instruction whose virtualization is one plain update. -/
theorem instruction_update {c : Bool} {f : State → State} {s t : State}
    (h : instruction c (fun s => .done (f s)) s = .next t) : s.mode = .vmxNonRoot ∧ t = retire (f s) := by
  obtain ⟨hm, -, -, ⟨u, hu, rfl⟩ | ⟨e, u, he, rfl⟩ | ha⟩ := instruction_next h
  · injection hu with hu; exact ⟨hm, by rw [hu]⟩
  · cases he
  · cases ha

theorem shape_page {i : Instr} {c : Bool} {env : AccessEnv} {kind : AccessKind} {k : State → Res} {s t : State}
    (h0 : inGuest (whenActive (enabledBy c (pageStep env kind k))) s = .next t) (hk : ∀ u, (k u).All (Foot u)) :
    Shape s i t := by
  obtain ⟨hm, h⟩ := inGuest_next h0
  have hf : (translated env.xlat kind k (beginAccess env.cont s)).All (Foot s) :=
    translated_all (fun e => Foot.trans (t := beginAccess false (beginAccess env.cont s)) rfl (foot_emit e _))
      ((hk _).imp fun u hu => Foot.trans (t := treatedState kind env s) rfl hu)
  unfold whenActive at h
  split at h
  · unfold enabledBy at h
    split at h
    · unfold pageStep at h
      split at h
      · rcases h with h | ⟨e, u, h, -⟩ | h <;> cases h
      · cases hr : translated env.xlat kind k (beginAccess env.cont s) with
        | done u =>
          rw [hr] at h hf
          rcases h with h | ⟨e, w, h, -⟩ | h
          · injection h with h
            subst h
            split
            · exact .ordinary hm hf .here
            · exact .ordinary hm hf .completed
          · cases h
          · cases h
        | exit e u =>
          rw [hr] at h hf
          rcases h with h | ⟨e', w, h, rfl⟩ | h
          · cases h
          · injection h with h1 h2
            subst h1; subst h2
            exact .ordinary hm hf (.exited e)
          · cases h
        | abort u =>
          rw [hr] at h hf
          rcases h with h | ⟨e, w, h, -⟩ | h
          · cases h
          · cases h
          · injection h with h; subst h; exact .ordinary hm hf .here
        | refuse r =>
          rw [hr] at h
          rcases h with h | ⟨e, w, h, -⟩ | h <;> cases h
    · rcases h with h | ⟨e, u, h, -⟩ | h <;> cases h
  · rcases h with h | ⟨e, u, h, -⟩ | h <;> cases h

theorem shape_pageWrite {i : Instr} {c : Bool} {off : PageOff} {d : List Byte} {env : AccessEnv} {k : State → Res}
    {s t : State} (h : inGuest (whenActive (enabledBy c (pageWriteStep off d env k))) s = .next t)
    (hk : ∀ u, (k u).All (Foot u)) : Shape s i t := by
  refine shape_page (env := env) (kind := .write) (c := c)
    (k := if env.subPage then plainWrite (apicPageAddr s off) d else outsideEnclave k) ?_ fun u => ?_
  · rw [← h]
    simp only [inGuest, whenActive, enabledBy, pageWriteStep]
  · split
    · exact foot_plainWrite _ _ _
    · exact outsideEnclave_all fun _ => hk u

theorem shape_iteration {it : RepIter} {s t : State} (h0 : exec (.repStringIteration it) s = .next t) :
    Shape s (.repStringIteration it) t := by
  obtain ⟨hm, h⟩ := inGuest_next h0
  have hb : Foot s (beginAccess false s) := rfl
  have hf : (linearAccesses it.accs (beginAccess false s)).All (Foot s) :=
    (foot_linearAccesses it.accs (beginAccess false s)).imp fun u hu => hb.trans hu
  unfold whenActive at h
  split at h
  · unfold repIteration at h
    cases hr : linearAccesses it.accs (beginAccess false s) with
    | done u =>
      rw [hr] at h hf
      rcases h with h | ⟨e, w, h, -⟩ | h
      · injection h with h; subst h; exact .iterated it hm hf
      · cases h
      · cases h
    | exit e u =>
      rw [hr] at h hf
      rcases h with h | ⟨e', w, h, rfl⟩ | h
      · cases h
      · injection h with h1 h2
        subst h1; subst h2
        exact .iterationExit it e hm hf
      · cases h
    | abort u =>
      rw [hr] at h hf
      rcases h with h | ⟨e, w, h, -⟩ | h
      · cases h
      · cases h
      · injection h with h; subst h; exact .iterationFault it hm hf
    | refuse r =>
      rw [hr] at h
      rcases h with h | ⟨e, w, h, -⟩ | h <;> cases h
  · rcases h with h | ⟨e, u, h, -⟩ | h <;> cases h

/-- What a boundary can come to: delivery where its conditions hold, or nothing. -/
theorem boundary_next {b : Bool} {s t : State} (h0 : inGuest (boundary b) s = .next t) :
    s.mode = .vmxNonRoot ∧ ((t = deliver s ∧ Deliverable s) ∨ t = s) := by
  obtain ⟨hm, h⟩ := inGuest_next h0
  refine ⟨hm, ?_⟩
  unfold boundary onVapicPage at h
  split at h
  · next hd =>
    split at h
    · rcases h with h | ⟨e, u, h, -⟩ | h
      · injection h with h; exact .inl ⟨h.symm, ((deliverNow_iff s b).1 hd).1⟩
      · cases h
      · cases h
    · rcases h with h | ⟨e, u, h, -⟩ | h <;> cases h
  · rcases h with h | ⟨e, u, h, -⟩ | h
    · injection h with h; exact .inr h.symm
    · cases h
    · cases h

/-- A next state with an enabling condition is one without. -/
theorem inGuest_enabled {c : Bool} {k : State → Res} {s t : State} (h : inGuest (enabledBy c k) s = .next t) :
    inGuest k s = .next t := by
  cases c
  · obtain ⟨-, h | ⟨e, u, h, -⟩ | h⟩ := inGuest_next h <;> cases h
  · exact h

/-- Everything an operation can come to. -/
theorem exec_shape {i : Instr} {s t : State} (h : exec i s = .next t) : Shape s i t := by
  cases i with
  | movToCr8 src =>
    exact shape_instruction h (onVapicPage_all fun _ =>
      (foot_tprVirtualization _).imp fun u hu => (foot_setVapic32 _ _ s).trans hu)
  | movFromCr8 dst =>
    obtain ⟨hm, -, -, ⟨u, hu, rfl⟩ | ⟨e, u, hu, -⟩ | hu⟩ := instruction_next h
    all_goals unfold onVapicPage at hu; split at hu
    · injection hu with hu; subst hu; exact .readTpr dst _ hm
    all_goals cases hu
  | wrmsrTpr =>
    exact shape_instruction h (onVapicPage_all fun _ =>
      (foot_tprVirtualization _).imp fun u hu => (foot_setVapic32 _ _ s).trans hu)
  | wrmsrEoi =>
    exact shape_instruction h (onVapicPage_all fun _ =>
      (foot_eoiVirtualization _).imp fun u hu => (foot_setVapic32 _ _ s).trans hu)
  | wrmsrSelfIpi => exact shape_instruction h (onVapicPage_all fun _ => foot_selfIpi _ s)
  | wrmsrIcr => exact shape_instruction h (foot_ipiVirtualization _ _ s)
  | wrmsrApicOther idx => exact shape_instruction h trivial
  | rdmsrApic idx => exact shape_instruction h trivial
  | pageWriteTpr d env => exact shape_pageWrite h (foot_pageWriteTpr d)
  | pageWriteEoi d env => exact shape_pageWrite h (foot_pageWriteEoi d)
  | pageWriteIcrLo d env => exact shape_pageWrite h (foot_pageWriteIcrLo d)
  | pageWriteOther off d env => exact shape_pageWrite h (foot_pageWriteOther off d)
  | pageRead off n env => exact shape_page h fun u => outsideEnclave_all fun _ => foot_pageRead _ off n u
  | pageFetch off n env => exact shape_page h fun u => outsideEnclave_all fun _ => foot_pageRead _ off n u
  | senduipi v a => exact shape_instruction h (foot_ipiVirtualization v a s)
  | sti a b => obtain ⟨hm, rfl⟩ := instruction_update h; exact .sti a b hm
  | movSs b => obtain ⟨hm, rfl⟩ := instruction_update h; exact .movSs b hm
  | popSs b => obtain ⟨hm, rfl⟩ := instruction_update h; exact .popSs b hm
  | hlt => obtain ⟨hm, rfl⟩ := instruction_update h; exact .hlt hm
  | mwait => obtain ⟨hm, rfl⟩ := instruction_update h; exact .mwait hm
  | repStringIteration it => exact shape_iteration h
  | vmEntry =>
    simp only [exec, execVmEntry] at h
    by_cases hm : s.mode = .vmxNonRoot
    · rw [if_pos hm] at h; cases h
    · rw [if_neg hm] at h
      have hm : s.mode = .vmxRoot := by cases hs : s.mode <;> simp_all
      split at h
      · cases h
      · split at h
        · cases h
        · split at h
          · cases h
          · injection h with h; subst h; exact .entered hm
  | instructionBoundary b =>
    obtain ⟨hm, ⟨rfl, hd⟩ | rfl⟩ := boundary_next h
    · exact .deliveredAt b hm hd
    · exact .undelivered b hm
  | externalInterrupt pv x =>
    have hk : (interruptible (afterDelivery (externalInterrupt pv x)) s).All (WideFoot s) := by
      unfold interruptible
      split
      · exact afterDelivery_all (fun _ => wideFoot_deliver s) (fun _ => wideFoot_externalInterrupt pv x s)
          fun _ hd => (wideFoot_externalInterrupt pv x _).imp fun u hu => hd.trans hu
      · trivial
    obtain ⟨hm, u, hu, he⟩ := endsAt_inGuest h hk
    exact .external pv x hm hu he
  | tprVirtualization =>
    exact shape_event h (enabledBy_all fun _ => onVapicPage_all fun _ => foot_tprVirtualization s)
  | pprVirtualization =>
    exact shape_event h (enabledBy_all fun _ => onVapicPage_all fun _ => foot_pprVirtualization s)
  | eoiVirtualization =>
    exact shape_event h (enabledBy_all fun _ => onVapicPage_all fun _ => foot_eoiVirtualization s)
  | selfIpiVirtualization v =>
    exact shape_event h (enabledBy_all fun _ => onVapicPage_all fun _ => foot_selfIpi v s)
  | ipiVirtualization v a => exact shape_event h (enabledBy_all fun _ => foot_ipiVirtualization v a s)
  | evaluatePendingVirtualInterrupts =>
    exact shape_event h (enabledBy_all fun _ => onVapicPage_all fun _ => foot_evaluate s)
  | virtualInterruptDelivery =>
    obtain ⟨hm, ⟨rfl, hd⟩ | rfl⟩ := boundary_next (inGuest_enabled h)
    · exact .delivered hm hd
    · exact .notDelivered hm
  | postedInterruptProcessing pv x =>
    have hk : (enabledBy (s.vmcs.ctl.extIntrExiting && s.vmcs.ctl.postedIntr)
        (interruptible (postedInterruptProcessing pv x)) s).All (WideFoot s) := by
      refine enabledBy_all fun _ => ?_
      unfold interruptible
      split
      · exact wideFoot_postedInterruptProcessing pv x s
      · trivial
    obtain ⟨hm, u, hu, he⟩ := endsAt_inGuest h hk
    exact .posted pv x hm hu he

/-- What VM entry keeps. -/
theorem vmEntry_keeps (s : State) :
    SameConfiguration s (vmEntry s) ∧ SameProcessorState s (vmEntry s) ∧ (vmEntry s).gpr = s.gpr ∧ Still s (vmEntry s) := by
  unfold vmEntry
  simp only
  split <;> exact ⟨⟨rfl, rfl, rfl, rfl, rfl, rfl, rfl, rfl⟩, ⟨rfl, rfl, rfl, rfl, rfl, rfl, rfl, rfl⟩, rfl, rfl, rfl, rfl⟩

end Sys2Proof.Machine
end

