-- ==== Sys2Proof/Laws/Writes.lean ====
section
/-! SUPPORT. Writes to the APIC-access page: which of the ways a write goes (R128 to R131), once for every row and for
the accesses of string iterations, and what one that a trigger takes comes to. -/

namespace Sys2Proof.Machine

/-! ### Which way a write goes -/

/-- The model's condition on directed writes is the rules' words. -/
theorem writeDirected_iff (s : State) (off n : Nat) : writeDirected s off n = true ↔ DirectedWrite s off n := by
  have byte : ∀ a, neverDirected a = false ↔
      ¬(0x0A0 ≤ a ∧ a < 0x0A4) ∧ ¬(((0x100 ≤ a ∧ a < 0x180) ∨ (0x200 ≤ a ∧ a < 0x280)) ∧ 4 ≤ a % 16) := by
    intro a
    simp only [neverDirected, Bool.or_eq_false_iff, Bool.and_eq_false_iff, decide_eq_false_iff_not, offPpr, offIsr, offIrr]
    omega
  simp only [writeDirected, inSomeRange, DirectedWrite, Bool.and_eq_true, List.any_eq_true, decide_eq_true_eq,
    List.all_eq_true, List.mem_range, Bool.not_eq_true', byte]
  refine and_congr ⟨fun ⟨r, h1, h2, h3⟩ => ⟨r, h1, h2, h3⟩, fun ⟨r, h1, h2, h3⟩ => ⟨r, h1, h2, h3⟩⟩
    ⟨fun h a h1 h2 => ?_, fun h i hi => h (off + i) (by omega) (by omega)⟩
  have := h (a - off) (by omega)
  rwa [show off + (a - off) = a by omega] at this

/-- What a write that no row virtualizes comes to. -/
theorem pageWriteDefault_directed {s : State} {off : PageOff} {d : List Byte} (hp : vapicPlaced s = true)
    (ha : s.vmcs.ctl.apicRegVirt = true) (hd : DirectedWrite s off.toNat d.length) :
    pageWriteDefault off d s = .exit (.apicWrite off) (virtualWrite off.toNat d s) := by
  rw [pageWriteDefault, if_pos ha, if_pos ((writeDirected_iff _ _ _).2 hd), onVapicPage_eq hp]

theorem pageWriteDefault_undirected {s : State} {off : PageOff} {d : List Byte}
    (ha : s.vmcs.ctl.apicRegVirt = true) (hd : ¬DirectedWrite s off.toNat d.length) :
    pageWriteDefault off d s = .refuse .absentWriteSection := by
  rw [pageWriteDefault, if_pos ha, if_neg fun h => hd ((writeDirected_iff _ _ _).1 h)]

theorem pageWriteDefault_exits {s : State} {off : PageOff} {d : List Byte} (ha : s.vmcs.ctl.apicRegVirt = false) :
    pageWriteDefault off d s = .exit (.apicAccess off .write) s := by
  rw [pageWriteDefault, if_neg (by simp [ha])]

/-- A write that no trigger takes: refused where another control may apply, the default otherwise. -/
theorem pageWrite_untaken {s : State} {off : PageOff} {d : List Byte} (h : ¬TriggerOn s off d.length) :
    (s.vmcs.ctl.apicRegVirt = false → ControlApplies s off → pageWrite off d s = .refuse .absentWriteSection) ∧
      (s.vmcs.ctl.apicRegVirt = true ∨ ¬ControlApplies s off → pageWrite off d s = pageWriteDefault off d s) := by
  have untaken : ∀ b off, (s.vmcs.ctl.apicRegVirt = false → b = true →
      pageWriteUntaken b off d s = .refuse .absentWriteSection) ∧
      (s.vmcs.ctl.apicRegVirt = true ∨ b = false → pageWriteUntaken b off d s = pageWriteDefault off d s) := by
    intro b off
    refine ⟨fun h1 h2 => ?_, fun h => ?_⟩
    · rw [pageWriteUntaken, h1, h2]; rfl
    · rw [pageWriteUntaken]; rcases h with h | h <;> rw [h] <;> simp
  have q : ∀ {c : Bool}, ¬(d.length ∈ s.params.writeSizes ∧ d.length ≤ 4 ∧ c = true) →
      ¬(c && sizeQualifies s d.length) = true := by
    intro c hn
    rw [Bool.and_eq_true, sizeQualifies_iff]
    exact fun ⟨a, b⟩ => hn ⟨b.1, b.2, a⟩
  unfold pageWrite
  by_cases h1 : off = 0x080
  · subst h1
    rw [if_pos rfl, pageWriteTpr, if_neg (q fun ⟨a, b, c⟩ => h ⟨a, b, .inl ⟨rfl, c⟩⟩)]
    refine ⟨fun _ hc => ?_, fun _ => rfl⟩
    simp [ControlApplies] at hc
  by_cases h2 : off = 0x0B0
  · subst h2
    rw [if_neg h1, if_pos rfl, pageWriteEoi, if_neg (q fun ⟨a, b, c⟩ => h ⟨a, b, .inr (.inl ⟨rfl, c⟩)⟩)]
    have hc : ControlApplies s 0x0B0 ↔ s.vmcs.ctl.vid = true := by simp [ControlApplies]
    rw [hc, Bool.not_eq_true]
    exact untaken _ _
  by_cases h3 : off = 0x300
  · subst h3
    rw [if_neg h1, if_neg h2, if_pos rfl, pageWriteIcrLo,
      if_neg (q fun ⟨a, b, c⟩ => h ⟨a, b, .inr (.inr ⟨rfl, by simpa using c⟩)⟩)]
    have hc : ControlApplies s 0x300 ↔ (s.vmcs.ctl.vid || s.vmcs.ctl.ipiVirt) = true := by simp [ControlApplies]
    rw [hc, Bool.not_eq_true]
    exact untaken _ _
  · rw [if_neg h1, if_neg h2, if_neg h3, pageWriteOther]
    have hc : ControlApplies s off ↔ writeControlApplies s = true := by
      simp only [ControlApplies, h1, h2, h3, false_and, false_or, ne_eq, not_false_eq_true, true_and,
        writeControlApplies, Bool.or_eq_true, or_assoc]
    rw [hc, Bool.not_eq_true]
    exact untaken _ _

/-- One that a trigger takes is stored, then its virtualization follows. -/
theorem pageWrite_taken {s : State} {off : PageOff} {d : List Byte} (hp : vapicPlaced s = true)
    (h : TriggerOn s off d.length) :
    pageWrite off d s =
      if off = 0x080 then tprVirtualization (virtualWrite offTpr d s)
      else if off = 0x0B0 then eoiVirtualization (virtualWrite offEoi d s)
      else icrVirtualization (virtualWrite offIcrLo d s) := by
  obtain ⟨a, b, c⟩ := h
  have hq := (sizeQualifies_iff s d.length).2 ⟨a, b⟩
  unfold pageWrite
  rcases c with ⟨rfl, c⟩ | ⟨rfl, c⟩ | ⟨rfl, c⟩
  · rw [if_pos rfl, if_pos rfl, pageWriteTpr, c, hq, if_pos (by rfl), onVapicPage_eq hp]
  · rw [if_neg (by decide), if_pos rfl, if_neg (by decide), if_pos rfl, pageWriteEoi, c, hq, if_pos (by rfl), onVapicPage_eq hp]
  · rw [if_neg (by decide), if_neg (by decide), if_pos rfl, if_neg (by decide), if_neg (by decide), pageWriteIcrLo, hq,
      if_pos (by rcases c with c | c <;> simp [c]), onVapicPage_eq hp]

/-- The four rows of writes are one step each of the same write. -/
theorem exec_pageWriteRow {s : State} {off : PageOff} {d : List Byte} {env : AccessEnv} (ht : Treated env s) :
    exec (pageWriteRow off d env) s =
      finish ((pageWrite off d (treatedState .write env s)).andThen
        fun s1 => .done (if env.more then s1 else retire s1)) := by
  have key : ∀ k, inGuest (whenActive (enabledBy s.vmcs.ctl.virtApicAccesses (pageWriteStep off d env k))) s =
      finish ((k (treatedState .write env s)).andThen fun s1 => .done (if env.more then s1 else retire s1)) := by
    intro k; rw [page_eq ht.toRunning ht.virtualized, pageWriteStep_eq ht]
  unfold pageWriteRow pageWrite
  by_cases h1 : off = 0x080
  · subst h1; rw [if_pos rfl, if_pos rfl]; exact key _
  by_cases h2 : off = 0x0B0
  · subst h2; rw [if_neg h1, if_pos rfl, if_neg h1, if_pos rfl]; exact key _
  by_cases h3 : off = 0x300
  · subst h3; rw [if_neg h1, if_neg h2, if_pos rfl, if_neg h1, if_neg h2, if_pos rfl]; exact key _
  · rw [if_neg h1, if_neg h2, if_neg h3, if_neg h1, if_neg h2, if_neg h3]; exact key _

/-! ### What the rules of the triggers depend on -/

/-- `t` agrees with `u` in everything the rules of a trigger say of the state after. -/
structure SameOutcome (u t : State) : Prop where
  mode     : t.mode = u.mode
  lastExit : t.lastExit = u.lastExit
  vmcs     : t.vmcs = u.vmcs
  mem      : t.mem = u.mem
  rvi      : t.rvi = u.rvi
  svi      : t.svi = u.svi
  pending  : t.pending = u.pending
  history  : t.history = u.history

theorem sameOutcome_retire (u : State) : SameOutcome u (retire u) := ⟨rfl, rfl, rfl, rfl, rfl, rfl, rfl, rfl⟩

theorem sameOutcome_completeIteration (it : RepIter) (u : State) : SameOutcome u (completeIteration it u) :=
  ⟨rfl, rfl, rfl, rfl, rfl, rfl, rfl, rfl⟩

/-- A trap-like exit from the completed iteration is the exit from the state before its completion. -/
theorem sameOutcome_exit (it : RepIter) {e : VmExit} (h : e.trapLike = true) (u : State) :
    SameOutcome (takeVmExit e u) (takeVmExit e (completeIteration it u)) := by
  refine ⟨rfl, rfl, ?_, rfl, rfl, rfl, rfl, rfl⟩
  simp only [takeVmExit_vmcs, savedIp, h, if_true]; rfl

section
variable {u t : State} (h : SameOutcome u t)
include h

theorem SameOutcome.vapic32 (off : Nat) : Machine.vapic32 t off = Machine.vapic32 u off := by
  simp only [Machine.vapic32, vapicAt, h.vmcs, h.mem]

theorem SameOutcome.vreg (base : Nat) : Machine.vreg t base = Machine.vreg u base := by
  simp only [Machine.vreg, h.vapic32]

theorem SameOutcome.still {s : State} (k : Still s u) : Still s t := ⟨h.mode.trans k.1, h.lastExit.trans k.2.1, h.vmcs.trans k.2.2⟩

theorem SameOutcome.exited {e : VmExit} {ip : InstrPtr} (k : Exited e ip u) : Exited e ip t :=
  ⟨h.mode.trans k.1, h.lastExit.trans k.2.1, by rw [h.vmcs, h.rvi, h.svi]; exact k.2.2⟩

theorem SameOutcome.status {s : State} (k : SameInterruptStatus s u) : SameInterruptStatus s t :=
  ⟨h.rvi.trans k.1, h.svi.trans k.2.1, h.pending.trans k.2.2⟩

theorem SameOutcome.evaluation (k : EvaluationRule u) : EvaluationRule t := by
  rw [EvaluationRule, h.pending, h.vmcs, vppr, h.vapic32, h.rvi]; exact k

theorem SameOutcome.tpr {s : State} (k : TprRule s u) : TprRule s t := by
  obtain ⟨a, b, c⟩ := k
  refine ⟨h.rvi.trans a, h.svi.trans b, ?_⟩
  rw [vtpr, vppr, h.vapic32, h.vapic32]
  by_cases hv : s.vmcs.ctl.vid = true
  · rw [if_pos hv] at c ⊢; exact ⟨h.still c.1, c.2.1, h.evaluation c.2.2⟩
  · rw [if_neg hv] at c ⊢
    refine ⟨c.1, h.pending.trans c.2.1, ?_⟩
    have c := c.2.2
    rw [vtpr] at c
    split at c
    · next hl => rw [if_pos hl]; exact h.exited c
    · next hl => rw [if_neg hl]; exact h.still c

theorem SameOutcome.eoi {s : State} (k : EoiRule s u) : EoiRule s t := by
  obtain ⟨a, b, c, d, e, f, g⟩ := k
  refine ⟨fun x => ?_, ?_, ?_, ?_, ?_, h.rvi.trans f, ?_⟩
  · rw [vregBit, h.vapic32]; exact a x
  · rw [visr, h.vreg, h.svi]; exact b
  · rw [vppr, h.vapic32, h.svi]; exact c
  · rw [vtpr, h.vapic32]; exact d
  · rw [virr, h.vreg]; exact e
  · split at g
    · next hb => rw [if_pos hb]; exact ⟨h.exited g.1, h.pending.trans g.2⟩
    · next hb => rw [if_neg hb]; exact ⟨h.still g.1, h.evaluation g.2⟩

theorem SameOutcome.selfIpi {v : IntVector} {s : State} (k : SelfIpiRule v s u) : SelfIpiRule v s t := by
  obtain ⟨a, b, c, d, e, f, g, i⟩ := k
  refine ⟨fun x => ?_, ?_, h.evaluation c, h.svi.trans d, ?_, ?_, ?_, h.still i⟩
  · rw [vregBit, h.vapic32]; exact a x
  · rw [h.rvi]; exact b
  · rw [visr, h.vreg]; exact e
  · rw [vppr, h.vapic32]; exact f
  · rw [vtpr, h.vapic32]; exact g

theorem SameOutcome.ipi {v : IntVector} {a : ApicId} {s : State} (k : IpiRule v a s u) : IpiRule v a s t := by
  obtain ⟨x, y, z⟩ := k
  refine ⟨h.status x, fun i => ⟨h.exited (y i).1, h.history.trans (y i).2⟩, fun i => ⟨h.still (z i).1, ?_⟩⟩
  have p := (z i).2
  simp only [PostedIn, h.mem, h.history] at p ⊢
  exact p

theorem SameOutcome.trigger {off : PageOff} {s : State} (k : TriggerRule off s u) : TriggerRule off s t := by
  unfold TriggerRule at k ⊢
  split
  · next h1 => rw [if_pos h1] at k; exact h.tpr k
  · next h1 =>
    rw [if_neg h1] at k
    split
    · next h2 => rw [if_pos h2] at k; exact h.eoi k
    · next h2 =>
      rw [if_neg h2] at k
      unfold IcrRule at k ⊢
      rw [vicrLo, h.vapic32]
      rw [vicrLo] at k
      split at k
      · split at k
        · next hv => rw [if_pos hv]; exact h.selfIpi k
        · next hv => rw [if_neg hv]; exact h.exited k
      · split at k
        · next hv => rw [if_pos hv]; exact h.ipi k
        · next hv => rw [if_neg hv]; exact h.exited k
      · exact h.exited k
end

/-- What the rules of a trigger read of the state before it. -/
def State.seen (s : State) : State :=
  { State.reset with rvi := s.rvi, svi := s.svi, pending := s.pending, mem := s.mem, vmcs := s.vmcs, params := s.params,
                     lastExit := s.lastExit, nextIp := s.nextIp, history := s.history, apicBase := s.apicBase,
                     agents := s.agents }

theorem tprRule_seen (s t : State) : TprRule s.seen t ↔ TprRule s t := Iff.rfl
theorem eoiRule_seen (s t : State) : EoiRule s.seen t ↔ EoiRule s t := Iff.rfl
theorem icrRule_seen (s t : State) : IcrRule s.seen t ↔ IcrRule s t := Iff.rfl

theorem triggerRule_seen (off : PageOff) (s t : State) : TriggerRule off s.seen t ↔ TriggerRule off s t := by
  unfold TriggerRule
  split
  · exact tprRule_seen s t
  · split
    · exact eoiRule_seen s t
    · exact icrRule_seen s t

theorem tableUsable_seen (s : State) : TableUsable s.seen ↔ TableUsable s := Iff.rfl

/-! ### What a write that a trigger takes comes to -/

/-- How an operation that neither faults nor is refused ends: it goes on, or it raises a VM exit. -/
def Res.EndsAs (r : Res) (done : State → Prop) (exit : VmExit → State → Prop) : Prop :=
  match r with
  | .done s => done s
  | .exit e s => exit e s
  | .abort _ => False
  | .refuse _ => False

/-- The rules of a trigger, said of what it comes to, with what the state after shares with the state before. -/
theorem Res.Ends.endsAs {r : Res} {s : State} {R P : State → Prop} (h : r.Ends R R) (hf : r.All (Foot s))
    (hp : r.All P) (ht : r.EndsAs (fun _ => True) fun e _ => e.trapLike = true) :
    r.EndsAs (fun u => Foot s u ∧ P u ∧ R u) fun e u => e.trapLike = true ∧ Foot s u ∧ P u ∧ R (takeVmExit e u) := by
  cases r with
  | done u => exact ⟨hf, hp, h⟩
  | exit e u => exact ⟨ht, hf, hp, h⟩
  | abort u => exact h.elim
  | refuse x => exact h.elim

/-- The written bytes stand where nothing stores to them after the write. -/
theorem Wrote.bytes {off : Nat} {d : List Byte} {s w u : State} (W : Wrote off d s w)
    (h : ∀ a, vapicAt s off ≤ a → a < vapicAt s off + d.length → u.mem.read a = w.mem.read a) :
    u.mem.readBytes (vapicAt s off) d.length = d := by
  rw [Memory.readBytes_congr (n := w.mem) h]; exact W.stored

/-- The predicate of `trigger_ends` on what a write shares with the state before it. -/
def Landed (off : Nat) (d : List Byte) (s u : State) : Prop :=
  u.wroteVirt = true ∧ u.mem.readBytes (vapicAt s off) d.length = d

/-- An operation after a virtualized write that stores nowhere in it, one byte at a time. -/
theorem Wrote.landed {off : Nat} {d : List Byte} {s w : State} {r : Res} (W : Wrote off d s w)
    (h : r.All fun u => u.wroteVirt = w.wroteVirt)
    (hm : ∀ a, vapicAt s off ≤ a → a < vapicAt s off + d.length → r.All fun u => u.mem.read a = w.mem.read a) :
    r.All (Landed off d s) := by
  cases r with
  | done u | exit e u | abort u => exact ⟨h.trans W.wrote, W.bytes hm⟩
  | refuse x => trivial

/-- A write at 0x080 (R128). -/
theorem tprTrigger_ends {s : State} {d : List Byte} (hm : s.mode = .vmxNonRoot) (hl : d.length ≤ 4) :
    (tprVirtualization (virtualWrite offTpr d s)).EndsAs
      (fun u => Foot s u ∧ Landed offTpr d s u ∧ TprRule s u)
      fun e u => e.trapLike = true ∧ Foot s u ∧ Landed offTpr d s u ∧ TprRule s (takeVmExit e u) := by
  have W := wrote_virtualWrite offTpr d s
  generalize virtualWrite offTpr d s = w at *
  have hv : ∀ o, vapicAt w o = vapicAt s o := fun o => by rw [vapicAt, vapicAt, W.foot.vmcs]
  have far : ∀ a, vapicAt s offTpr ≤ a → a < vapicAt s offTpr + d.length →
      a < vapicAt w offPpr ∨ vapicAt w offPpr + 4 ≤ a := by
    intro a h1 h2; rw [hv]; simp only [vapicAt, offTpr, offPpr] at *; omega
  refine Res.Ends.endsAs ?_ ((foot_tprVirtualization w).imp fun u => W.foot.trans) (W.landed ?_ fun a h1 h2 =>
    (read_tprVirtualization w (far a h1 h2)).imp fun _ h => h.1) ?_
  · have := tprRule_tprVirtualization (s := s) (w := w) (W.foot.mode.trans hm) W.foot W.status.1 W.status.2.1
      W.status.2.2 (W.other _ (by simp only [offPpr, offTpr]; omega))
    cases hr : tprVirtualization w <;> rw [hr] at this <;> first | exact this.1 | exact this
  · unfold tprVirtualization; repeat' split
    all_goals rfl
  · unfold tprVirtualization; repeat' split
    all_goals trivial

/-- A write at 0x0B0 (R129). -/
theorem eoiTrigger_ends {s : State} {d : List Byte} (hm : s.mode = .vmxNonRoot) (hl : d.length ≤ 4) :
    (eoiVirtualization (virtualWrite offEoi d s)).EndsAs
      (fun u => Foot s u ∧ Landed offEoi d s u ∧ EoiRule s u)
      fun e u => e.trapLike = true ∧ Foot s u ∧ Landed offEoi d s u ∧ EoiRule s (takeVmExit e u) := by
  have W := wrote_virtualWrite offEoi d s
  generalize virtualWrite offEoi d s = w at *
  have hv : ∀ o, vapicAt w o = vapicAt s o := fun o => by rw [vapicAt, vapicAt, W.foot.vmcs]
  have hr := fieldOff_isr_range w.svi
  refine Res.Ends.endsAs ?_ ((foot_eoiVirtualization w).imp fun u => W.foot.trans) (W.landed ?_ fun a h1 h2 =>
    (read_eoiVirtualization w (a := a) ?_ ?_).imp fun _ h => h.1) ?_
  · have := eoiRule_eoiVirtualization (s := s) (w := w) (W.foot.mode.trans hm) W.foot W.status.1 W.status.2.1
      W.status.2.2 (W.others _ (by simp only [offEoi, offIsr]; omega)) (W.others _ (by simp only [offEoi, offIrr]; omega))
      (W.other _ (by simp only [offEoi, offTpr]; omega))
    cases hr : eoiVirtualization w <;> rw [hr] at this <;> first | exact this.1 | exact this
  · have h3 := retireInService_wroteVirt w
    unfold eoiVirtualization
    simp only
    generalize retireInService w = q at *
    split <;> exact h3
  · rw [hv]; simp only [vapicAt, offEoi, offPpr] at *; omega
  · rw [hv]; simp only [vapicAt, offEoi] at *; omega
  · unfold eoiVirtualization; simp only; split
    · exact rfl
    · trivial

/-- The PID-pointer table does not overlap the virtual-APIC page (D15). -/
theorem table_apart {v : Vmcs} (h : regionsDisjoint (vmcsRegions v) = true) (hi : v.ctl.ipiVirt = true) :
    v.vapicAddr.toNat + 4096 ≤ v.pidTableAddr.toNat ∨
      v.pidTableAddr.toNat + 8 * (v.lastPidIndex + 1) ≤ v.vapicAddr.toNat := by
  have hv : usesVapic v.ctl = true := by simp [usesVapic, hi]
  have drop : ∀ l r, regionsDisjoint (l ++ r) = true → regionsDisjoint r = true := by
    intro l r; induction l with
    | nil => exact id
    | cons x l ih => intro h; simp only [List.cons_append, regionsDisjoint, Bool.and_eq_true] at h; exact ih h.2
  have h' := drop _ _ h
  simp only [vmcsTables, hv, hi, if_true, regionsDisjoint, Bool.and_eq_true, List.all_append,
    List.all_cons, List.cons_append, disjoint, Bool.or_eq_true, decide_eq_true_eq] at h'
  omega

theorem notifyPid_same (p : Nat) (s : State) :
    (notifyPid p s).wroteVirt = s.wroteVirt ∧
      ∀ a, (a < p + 32 ∨ p + 40 ≤ a) → (notifyPid p s).mem.read a = s.mem.read a := by
  unfold notifyPid
  simp only
  split <;> exact ⟨rfl, fun a h => Memory.read_writeLe_outside _ _ _ _ _ (by omega)⟩

/-- Posting stores in the descriptor only. -/
theorem post_same (p : Nat) (v : IntVector) (s : State) :
    (post p v s).wroteVirt = s.wroteVirt ∧
      ∀ a, (a < p ∨ p + 64 ≤ a) → (post p v s).mem.read a = s.mem.read a := by
  obtain ⟨h1, h2⟩ := notifyPid_same p (postInPir p v s)
  exact ⟨h1, fun a h => (h2 a (by omega)).trans (Memory.read_writeLe_outside _ _ _ _ _ (by omega))⟩

/-- A virtualized write to VICR_LO leaves the table and the descriptors it names alone. -/
theorem Wrote.table {d : List Byte} {s w : State} (W : Wrote offIcrLo d s w) (hl : d.length ≤ 4)
    (hap : regionsDisjoint (vmcsRegions s.vmcs) = true) (hi : s.vmcs.ctl.ipiVirt = true) (b : ApicId)
    (hb : b.toNat ≤ s.vmcs.lastPidIndex) :
    w.mem.read64 (s.vmcs.pidTableAddr.toNat + 8 * b.toNat) = s.mem.read64 (s.vmcs.pidTableAddr.toNat + 8 * b.toNat) := by
  have := table_apart hap hi
  rw [Memory.read64, Memory.read64, Memory.readLe_congr]
  intro x h1 h2
  refine W.frame _ ?_
  rw [vapicAt]; simp only [offIcrLo]; omega

theorem Wrote.illegal {d : List Byte} {s w : State} (W : Wrote offIcrLo d s w) (hl : d.length ≤ 4)
    (hap : regionsDisjoint (vmcsRegions s.vmcs) = true) (hi : s.vmcs.ctl.ipiVirt = true) (v : IntVector) (a : ApicId) :
    IpiIllegal v a w ↔ IpiIllegal v a s := by
  unfold IpiIllegal
  rw [W.foot.vmcs, W.foot.params]
  by_cases h : s.vmcs.lastPidIndex < a.toNat
  · simp [h]
  · rw [W.table hl hap hi a (by omega)]

theorem Wrote.usable {d : List Byte} {s w : State} (W : Wrote offIcrLo d s w) (hl : d.length ≤ 4)
    (hap : regionsDisjoint (vmcsRegions s.vmcs) = true) (hi : s.vmcs.ctl.ipiVirt = true) (ht : TableUsable s) :
    TableUsable w := by
  have hpl : ∀ x n, placed w x n = placed s x n := fun x n => by rw [placed, placed, W.foot.params]
  intro b hb
  rw [W.foot.vmcs] at hb
  obtain ⟨h1, h2⟩ := ht b hb
  have he : pidEntry w b = pidEntry s b := by rw [pidEntry_eq, pidEntry_eq, W.foot.vmcs, W.table hl hap hi b hb]
  refine ⟨by rw [hpl, pidEntryAddr, W.foot.vmcs]; exact h1, fun hv => ?_⟩
  rw [he] at hv ⊢
  have := h2 (by rw [pidEntryValid] at hv ⊢; rwa [W.foot.params] at hv)
  exact ⟨by rw [hpl]; exact this.1, by rw [W.foot.vmcs]; exact this.2⟩

/-- What posting comes to after a virtualized write to VICR_LO, from the state before it. -/
theorem Wrote.posted {d : List Byte} {s w : State} {p : Nat} {v : IntVector} (W : Wrote offIcrLo d s w)
    (hl : d.length ≤ 4) (hp : p + 64 ≤ s.vmcs.vapicAddr.toNat ∨ s.vmcs.vapicAddr.toNat + 4096 ≤ p) {u : State}
    (h : PostedIn p v w u) : PostedIn p v s u := by
  have hsame : ∀ x, p ≤ x → x < p + 64 → w.mem.read x = s.mem.read x := by
    intro x h1 h2; refine W.frame _ ?_; rw [vapicAt]; simp only [offIcrLo]; omega
  have h256 : w.mem.read256 p = s.mem.read256 p := by
    rw [Memory.read256, Memory.read256, Memory.readLe_congr]; intro x h1 h2; exact hsame x h1 (by omega)
  have h64 : w.mem.read64 (p + 32) = s.mem.read64 (p + 32) := by
    rw [Memory.read64, Memory.read64, Memory.readLe_congr]; intro x h1 h2; exact hsame x (by omega) (by omega)
  have hn : notification w (s.mem.read64 (p + 32)) = notification s (s.mem.read64 (p + 32)) := by
    unfold notification; rw [W.foot.params, W.foot.apicBase]
  unfold PostedIn at h ⊢
  rwa [h256, h64, W.foot.params, W.events, hn] at h

/-- Self-IPI virtualization after it. -/
theorem Wrote.selfIpi {d : List Byte} {s w : State} (W : Wrote offIcrLo d s w) (_hl : d.length ≤ 4)
    (hm : s.mode = .vmxNonRoot) (v : IntVector) : SelfIpiRule v s (selfIpiVirtualization v w) := by
  obtain ⟨a, b, c, e, f, g, i, j⟩ := selfIpiRule_selfIpi v (W.foot.mode.trans hm)
  refine ⟨fun x => ?_, by rw [b, W.status.1], c, by rw [e, W.status.2.1], ?_, ?_, ?_, ?_⟩
  · rw [a x, vregBit_irr_congr (W.others offIrr (by simp only [offIcrLo, offIrr]; omega))]
  · rw [f]; exact W.others offIsr (by simp only [offIcrLo, offIsr]; omega)
  · rw [g]; exact W.other offPpr (by simp only [offIcrLo, offPpr]; omega)
  · rw [i]; exact W.other offTpr (by simp only [offIcrLo, offTpr]; omega)
  · exact ⟨j.1, by rw [j.2.1, W.foot.lastExit], by rw [j.2.2, W.foot.vmcs]⟩

/-- A write at 0x300 (R130). -/
theorem icrTrigger_ends {s : State} {d : List Byte} (hm : s.mode = .vmxNonRoot) (hl : d.length ≤ 4) (hal : Alone s)
    (ht : TableUsable s) (hap : regionsDisjoint (vmcsRegions s.vmcs) = true) :
    (icrVirtualization (virtualWrite offIcrLo d s)).EndsAs
      (fun u => Foot s u ∧ Landed offIcrLo d s u ∧ IcrRule s u)
      fun e u => e.trapLike = true ∧ Foot s u ∧ Landed offIcrLo d s u ∧ IcrRule s (takeVmExit e u) := by
  have W := wrote_virtualWrite offIcrLo d s
  generalize virtualWrite offIcrLo d s = w at *
  have hhi : vicrHi w = vicrHi s := W.other _ (by simp only [offIcrHi, offIcrLo]; omega)
  have hv : ∀ o, vapicAt w o = vapicAt s o := fun o => by rw [vapicAt, vapicAt, W.foot.vmcs]
  have landed : Landed offIcrLo d s w := ⟨W.wrote, W.stored⟩
  have exited : Exited (.apicWrite 0x300) s.nextIp (takeVmExit (.apicWrite 0x300) w) := by
    have := exited_takeVmExit (.apicWrite 0x300) w
    rwa [savedIp, if_pos (by rfl), W.foot.nextIp] at this
  unfold icrVirtualization icrAction
  rw [hhi, W.foot.vmcs]
  cases hd : Config.icrPageDispatch (vicrLo w) (vicrHi s) s.vmcs.ctl with
  | exit =>
    refine ⟨rfl, W.foot, landed, ?_⟩
    rw [IcrRule, vicrLo, vapic32_takeVmExit, ← vicrLo, hd]; exact exited
  | selfIpi v =>
    by_cases hc : s.vmcs.ctl.vid = true
    · simp only [if_pos hc]
      have hr := fieldOff_irr_range v
      refine ⟨W.foot.trans (foot_selfIpi v w), ⟨?_, W.bytes fun a h1 h2 => read_selfIpi v w ?_⟩, ?_⟩
      · rw [selfIpiVirtualization, evaluate_wroteVirt, raiseRvi_wroteVirt, setVregBit_wroteVirt, W.wrote]
      · rw [hv]; simp only [vapicAt, offIcrLo] at *; omega
      · have hlo : vicrLo (selfIpiVirtualization v w) = vicrLo w := by
          rw [vicrLo, selfIpiVirtualization, vapic32_evaluate, raiseRvi, vapic32_setRvi,
            vapic32_setVregBit_irr _ _ _ (by decide)]; rfl
        rw [IcrRule, hlo, hd]
        simp only [if_pos hc]
        exact W.selfIpi hl hm v
    · simp only [if_neg hc]
      refine ⟨rfl, W.foot, landed, ?_⟩
      rw [IcrRule, vicrLo, vapic32_takeVmExit, ← vicrLo, hd]
      simp only [if_neg hc]; exact exited
  | ipi v a =>
    by_cases hi : s.vmcs.ctl.ipiVirt = true
    · simp only [if_pos hi]
      have hill := W.illegal hl hap hi v a
      have he := ipiVirtualization_ends (v := v) (a := a) (W.foot.mode.trans hm) (W.agents.trans hal)
        (W.usable hl hap hi ht)
      cases hr : ipiVirtualization v a w with
      | done u =>
        rw [hr] at he
        obtain ⟨h1, rfl, ⟨r1, -, r3⟩, -⟩ := he
        have hleg := h1
        rw [hill] at hleg
        have hle : a.toNat ≤ s.vmcs.lastPidIndex := by simp only [IpiIllegal, not_or] at hleg; omega
        have hpid : targetPid w a = targetPid s a := by
          rw [targetPid, targetPid, W.foot.vmcs, W.table hl hap hi a hle]
        have hus : PidUsable s (targetPid s a) := by
          have := (ht a hle).2 ((pidEntryValid_iff _ _).2 (by
            rw [pidEntry_eq]; simp only [IpiIllegal, not_or, not_not] at hleg; exact hleg.2.2))
          rwa [pidAddr_eq, pidEntry_eq] at this
        have hpa := pidApart_vapic hus.2 (show usesVapic s.vmcs.ctl = true by simp [usesVapic, hi])
        obtain ⟨r4, r5⟩ := r3 h1
        rw [hpid] at r1 r4 r5 ⊢
        have hs := post_same (targetPid s a) v w
        have hf := W.foot.trans (foot_post (targetPid s a) v w)
        generalize post (targetPid s a) v w = u at *
        have hva : vapicAt s offIcrLo = s.vmcs.vapicAddr.toNat + 0x300 := rfl
        have hlo : vicrLo u = vicrLo w := by
          rw [vicrLo, vicrLo, vapic32, vapic32, vapicAt, vapicAt, hf.vmcs, W.foot.vmcs, Memory.read32, Memory.read32,
            Memory.readLe_congr]
          intro x h1 h2; exact hs.2 x (by simp only [offIcrLo] at *; omega)
        refine ⟨hf, ⟨hs.1.trans W.wrote, W.bytes fun x h1 h2 => hs.2 x (by omega)⟩, ?_⟩
        rw [IcrRule, hlo, hd]
        simp only [if_pos hi]
        exact ⟨⟨r1.1.trans W.status.1, r1.2.1.trans W.status.2.1, r1.2.2.trans W.status.2.2⟩, fun h => absurd h hleg,
          fun _ => ⟨⟨r4.1, r4.2.1.trans W.foot.lastExit, r4.2.2.trans W.foot.vmcs⟩, W.posted hl hpa r5⟩⟩
      | exit e u =>
        have hx : e = .apicWrite 0x300 ∧ u = w := by
          rw [hr] at he
          have := ipiVirtualization_illegal (s := w) he.1 (by
            by_cases h2 : a.toNat ≤ w.vmcs.lastPidIndex
            · exact .inr (.inr ((W.usable hl hap hi ht) a h2).1)
            · exact .inr (.inl (by omega)))
          rw [hr] at this; injection this with h1 h2; exact ⟨h1, h2⟩
        obtain ⟨rfl, rfl⟩ := hx
        rw [hr] at he
        refine ⟨rfl, W.foot, landed, ?_⟩
        rw [IcrRule, vicrLo, vapic32_takeVmExit, ← vicrLo, hd]
        simp only [if_pos hi]
        exact ⟨W.status, fun _ => ⟨exited, W.events⟩, fun h => absurd (hill.1 he.1) h⟩
      | abort u => rw [hr] at he; exact he.elim
      | refuse r => rw [hr] at he; exact he.elim
    · simp only [if_neg hi]
      refine ⟨rfl, W.foot, landed, ?_⟩
      rw [IcrRule, vicrLo, vapic32_takeVmExit, ← vicrLo, hd]
      simp only [if_neg hi]; exact exited

/-- What a write that a trigger takes comes to: the rule of the trigger, with the bytes on the page. -/
theorem pageWrite_ends {s : State} {off : PageOff} {d : List Byte} (hm : s.mode = .vmxNonRoot)
    (hp : vapicPlaced s = true) (h : TriggerOn s off d.length)
    (hi : off = 0x300 → Alone s ∧ TableUsable s ∧ regionsDisjoint (vmcsRegions s.vmcs) = true) :
    (pageWrite off d s).EndsAs
      (fun u => Foot s u ∧ Landed off.toNat d s u ∧ TriggerRule off s u)
      fun e u => e.trapLike = true ∧ Foot s u ∧ Landed off.toNat d s u ∧ TriggerRule off s (takeVmExit e u) := by
  have hl := h.2.1
  rw [pageWrite_taken hp h]
  rcases h.2.2 with ⟨rfl, -⟩ | ⟨rfl, -⟩ | ⟨rfl, -⟩
  · exact tprTrigger_ends hm hl
  · exact eoiTrigger_ends hm hl
  · obtain ⟨a, b, c⟩ := hi rfl
    exact icrTrigger_ends hm hl a b c

end Sys2Proof.Machine
end

