-- ==== Sys2Proof/Laws/Strings.lean ====
section
/-! SUPPORT. The accesses of string iterations (R138, R200 to R205): what each kind of access comes to, one after the
other, and what an iteration makes of it. -/

namespace Sys2Proof.Machine

/-! ### Accesses one after the other -/

theorem linearAccesses_append (as bs : List LinearAccess) (s : State) :
    linearAccesses (as ++ bs) s = (linearAccesses as s).andThen (linearAccesses bs) := by
  induction as generalizing s with
  | nil => rfl
  | cons a as ih =>
    rw [List.cons_append, linearAccesses, linearAccesses]
    cases linearAccess a s with
    | done u => exact ih u
    | exit e u => rfl
    | abort u => rfl
    | refuse r => rfl

theorem linearAccesses_single (a : LinearAccess) (s : State) : linearAccesses [a] s = linearAccess a s := by
  rw [linearAccesses]
  cases linearAccess a s <;> rfl

/-! ### Where an access goes -/

theorem special_onPage {pa : PhysAddr} {n : Nat} {f g : State → Res} {s : State}
    (hc : s.vmcs.ctl.virtApicAccesses = true) (ho : onApicPage s pa = true) (he : s.enclave = false) :
    special pa n f g s = f s := by
  rw [special, if_pos hc, if_pos ho, outsideEnclave, if_neg (by simp [he])]

theorem special_offPage {pa : PhysAddr} {n : Nat} {f g : State → Res} {s : State}
    (h : s.vmcs.ctl.virtApicAccesses = true → onApicPage s pa = false ∧ straddles s pa n = false) :
    special pa n f g s = g s := by
  unfold special
  split
  · next hc => rw [(h hc).1, (h hc).2, if_neg (by simp), if_neg (by simp)]
  · rfl

theorem Foot.onApicPage {s u : State} (h : Foot s u) (pa : PhysAddr) : Machine.onApicPage u pa = Machine.onApicPage s pa := by
  rw [Machine.onApicPage, Machine.onApicPage, h.vmcs]

theorem Foot.straddles {s u : State} (h : Foot s u) (pa : PhysAddr) (n : Nat) :
    Machine.straddles u pa n = Machine.straddles s pa n := by
  rw [Machine.straddles, Machine.straddles, h.onApicPage, apicPageAddr, apicPageAddr, h.vmcs]

theorem Foot.placed {s u : State} (h : Foot s u) (a n : Nat) : Machine.placed u a n = Machine.placed s a n := by
  rw [Machine.placed, Machine.placed, h.params]

theorem Foot.vapicPlaced {s u : State} (h : Foot s u) : Machine.vapicPlaced u = Machine.vapicPlaced s := by
  rw [Machine.vapicPlaced, Machine.vapicPlaced, h.placed, h.vmcs]

theorem Foot.vapicAt {s u : State} (h : Foot s u) (off : Nat) : Machine.vapicAt u off = Machine.vapicAt s off := by
  rw [Machine.vapicAt, Machine.vapicAt, h.vmcs]

theorem Foot.triggerOn {s u : State} (h : Foot s u) (off : PageOff) (n : Nat) : TriggerOn u off n ↔ TriggerOn s off n := by
  rw [TriggerOn, TriggerOn, h.vmcs, h.params]

theorem Foot.controlApplies {s u : State} (h : Foot s u) (off : PageOff) : ControlApplies u off ↔ ControlApplies s off := by
  rw [ControlApplies, ControlApplies, h.vmcs]

theorem Foot.directedWrite {s u : State} (h : Foot s u) (off n : Nat) : DirectedWrite u off n ↔ DirectedWrite s off n := by
  rw [DirectedWrite, DirectedWrite, h.params]

theorem Foot.readFromPage {s u : State} (h : Foot s u) (w : Bool) (off n : Nat) :
    ReadFromPage u w off n ↔ ReadFromPage s w off n := by
  rw [ReadFromPage, ReadFromPage, h.vmcs, h.params]

theorem Foot.pagingEvent {s u : State} (h : Foot s u) (a : LinearAccess) :
    Machine.pagingEvent u a = Machine.pagingEvent s a := by
  cases a <;> simp only [Machine.pagingEvent, h.cr0Pg]

/-- A plain write that memory can serve. -/
theorem plainWrite_done {s : State} {pa : PhysAddr} {d : List Byte} (hp : placed s pa.toNat d.length = true)
    (h1 : touchesLive s pa.toNat d.length = false) (h2 : touchesOwnPid s pa.toNat d.length = false)
    (h3 : touchesPidTable s pa.toNat d.length = false) :
    plainWrite pa d s = .done (setMem (s.mem.writeBytes pa.toNat d) s) := by
  rw [plainWrite, hp, h1, h2, h3]; rfl

/-! ### Accesses that neither exit nor trigger anything -/

/-- What the accesses `as` leave from `s`, none of them a treated write. -/
structure After (as : List LinearAccess) (s w : State) : Prop where
  foot   : Foot s w
  status : SameInterruptStatus s w
  wrote  : w.wroteVirt = s.wroteVirt
  mem    : w.mem = as.foldl storeAccess s.mem
  events : w.history = s.history ++ as.map (pagingEvent s)
  agents : w.agents = s.agents

theorem After.nil (s : State) : After [] s s :=
  ⟨Foot.refl s, ⟨rfl, rfl, rfl⟩, rfl, rfl, by simp, rfl⟩

theorem After.append {as bs : List LinearAccess} {s u w : State} (h : After as s u) (k : After bs u w) :
    After (as ++ bs) s w where
  foot := h.foot.trans k.foot
  status := ⟨k.status.1.trans h.status.1, k.status.2.1.trans h.status.2.1, k.status.2.2.trans h.status.2.2⟩
  wrote := k.wrote.trans h.wrote
  mem := by rw [k.mem, h.mem, List.foldl_append]
  events := by
    rw [k.events, h.events, List.map_append, List.append_assoc]
    congr 2
    exact List.map_congr_left fun a _ => h.foot.pagingEvent a
  agents := k.agents.trans h.agents

/-- A plain access is no virtualized read. -/
theorem PlainAccess.not_virtualizedRead {s : State} {a : LinearAccess} (h : PlainAccess s a) : ¬VirtualizedRead s a := by
  intro hv
  cases a with
  | read pa n x =>
    obtain ⟨-, hc, -, ho, -⟩ := hv
    rw [(h.2.2 hc).1] at ho; cases ho
  | fetch pa n x => exact hv
  | write pa d x b => exact hv

/-- One quiet access; a virtualized read needs that the iteration has virtualized no write (R203). -/
theorem quietAccess_done {s u : State} {a : LinearAccess} (hf : Foot s u) (hw : VirtualizedRead s a → u.wroteVirt = false)
    (hp : vapicPlaced s = true) (h : QuietAccess s a) :
    ∃ w, linearAccess a u = .done w ∧ After [a] u w ∧
      (∀ pa d x b, a = .write pa d x b → w.loaded = u.loaded) ∧
      (∀ pa n, a = .read pa n .ok → VirtualizedRead s a →
        w.loaded = u.mem.readBytes (vapicAt s (pageOff pa).toNat) n) := by
  have hq : ∀ k, Foot s (setPagingFlags k u) := fun k => hf.trans (foot_setPagingFlags k u)
  have off : ∀ k {pa n}, (s.vmcs.ctl.virtApicAccesses = true → onApicPage s pa = false ∧ straddles s pa n = false) →
      (setPagingFlags k u).vmcs.ctl.virtApicAccesses = true →
        onApicPage (setPagingFlags k u) pa = false ∧ straddles (setPagingFlags k u) pa n = false := by
    intro k pa n h hc
    rw [(hq k).vmcs] at hc
    rw [(hq k).onApicPage, (hq k).straddles]; exact h hc
  rcases h with h | h
  · cases a with
    | read pa n x =>
      obtain ⟨rfl, h2, h3⟩ := h
      refine ⟨{ setPagingFlags .read u with loaded := u.mem.readBytes pa.toNat n }, ?_,
        ⟨rfl, ⟨rfl, rfl, rfl⟩, rfl, rfl, rfl, rfl⟩, nofun,
        fun _ _ _ hv => absurd hv (PlainAccess.not_virtualizedRead ⟨rfl, h2, h3⟩)⟩
      rw [linearAccess, translated, special_offPage (off _ h3), plainRead, (hq _).placed, if_pos h2]; rfl
    | fetch pa n x =>
      obtain ⟨rfl, h2, h3⟩ := h
      refine ⟨{ setPagingFlags .fetch u with loaded := u.mem.readBytes pa.toNat n }, ?_,
        ⟨rfl, ⟨rfl, rfl, rfl⟩, rfl, rfl, rfl, rfl⟩, nofun, nofun⟩
      rw [linearAccess, translated, special_offPage (off _ h3), plainRead, (hq _).placed, if_pos h2]; rfl
    | write pa d x sub =>
      obtain ⟨rfl, h2, h3, h4, h5, h6⟩ := h
      refine ⟨setMem (u.mem.writeBytes pa.toNat d) (setPagingFlags .write u), ?_,
        ⟨rfl, ⟨rfl, rfl, rfl⟩, rfl, rfl, rfl, rfl⟩, fun _ _ _ _ _ => rfl, nofun⟩
      have hl : touchesLive (setPagingFlags .write u) pa.toNat d.length = false := by
        rw [touchesLive] at h3 ⊢; simp only [(hq .write).vapicAt, (hq .write).vmcs]; exact h3
      have hd : plainWrite pa d (setPagingFlags .write u) =
          .done (setMem (u.mem.writeBytes pa.toNat d) (setPagingFlags .write u)) := by
        refine plainWrite_done (by rw [(hq _).placed, h2]) hl ?_ ?_
        · rw [touchesOwnPid] at h4 ⊢; rw [(hq .write).vmcs, h4]
        · rw [touchesPidTable] at h5 ⊢; rw [(hq .write).vmcs, h5]
      cases sub
      · exact (special_offPage (off _ (h6 rfl))).trans hd
      · exact hd
  · cases a with
    | read pa n x =>
      replace hw := hw h
      obtain ⟨rfl, hc, he, ho, hn, hr⟩ := h
      refine ⟨virtualRead (pageOff pa).toNat n (setPagingFlags .read u), ?_,
        ⟨rfl, ⟨rfl, rfl, rfl⟩, rfl, rfl, rfl, rfl⟩, nofun, fun pa' n' hh _ => ?_⟩
      · rw [linearAccess, translated, special_onPage (by rw [(hq _).vmcs, hc]) (by rw [(hq _).onApicPage, ho])
          (by rw [(hq _).enclave, he]), pageRead_virtualized hn (by rw [(hq _).vapicPlaced, hp])]
        rw [setPagingFlags_wroteVirt, hw, (hq _).readFromPage]; exact hr
      · injection hh with h1 h2; subst h1; subst h2
        rw [virtualRead_loaded, (hq _).vapicAt]; rfl
    | fetch pa n x => exact h.elim
    | write pa d x b => exact h.elim

/-- Quiet accesses one after the other. -/
theorem quietAccesses_done {s u : State} {as : List LinearAccess} (hf : Foot s u)
    (hw : ∀ a ∈ as, VirtualizedRead s a → u.wroteVirt = false)
    (hp : vapicPlaced s = true) (h : ∀ a ∈ as, QuietAccess s a) :
    ∃ w, linearAccesses as u = .done w ∧ After as u w ∧
      ((∀ a ∈ as, ∃ pa d x b, a = .write pa d x b) → w.loaded = u.loaded) := by
  induction as generalizing u with
  | nil => exact ⟨u, rfl, After.nil u, fun _ => rfl⟩
  | cons a as ih =>
    obtain ⟨v, h1, h2, h3, -⟩ := quietAccess_done hf (hw a (by simp)) hp (h a (by simp))
    obtain ⟨w, k1, k2, k3⟩ := ih (hf.trans h2.foot)
      (fun b hb hv => h2.wrote.trans (hw b (by simp [hb]) hv)) fun b hb => h b (by simp [hb])
    refine ⟨w, by rw [linearAccesses, h1]; exact k1, h2.append k2, fun hall => ?_⟩
    obtain ⟨pa, d, x, b, rfl⟩ := hall a (by simp)
    rw [k3 fun c hc => hall c (by simp [hc]), h3 pa d x b rfl]

/-- The quiet accesses with which an iteration begins. -/
theorem quietAccesses_first {s : State} {as : List LinearAccess} (hp : vapicPlaced s = true)
    (h : ∀ a ∈ as, QuietAccess s a) :
    ∃ w, linearAccesses as (beginAccess false s) = .done w ∧ Foot s w ∧ After as (beginAccess false s) w ∧
      w.wroteVirt = false ∧
      ((∀ a ∈ as, ∃ pa d x b, a = .write pa d x b) → w.loaded = s.loaded) := by
  obtain ⟨w, h1, h2, h3⟩ := quietAccesses_done (u := beginAccess false s) (s := s) rfl (fun _ _ _ => rfl) hp h
  exact ⟨w, h1, h2.foot, h2, h2.wrote, h3⟩

/-- An access whose translation faults ends the iteration there (R197, R200). -/
theorem faultingAccess_aborts (a : LinearAccess) (u : State) :
    (accessXlat a = .pageFault → linearAccess a u = .abort (emit .pageFault (beginAccess false u))) ∧
      (accessXlat a = .eptViolation → linearAccess a u = .abort (emit .eptViolation (beginAccess false u))) := by
  constructor <;> intro h <;> cases a <;> cases h <;> rfl

/-! ### Accesses to the APIC-access page -/

/-- A treated write is a write of the page. -/
theorem treatedWrite_eq {s u : State} {off : PageOff} {d : List Byte} {a : LinearAccess} (hf : Foot s u)
    (h : TreatedWrite s off d a) : linearAccess a u = pageWrite off d (setPagingFlags .write u) := by
  have hq : Foot s (setPagingFlags .write u) := hf.trans (foot_setPagingFlags _ u)
  cases a with
  | read pa n x => exact h.elim
  | fetch pa n x => exact h.elim
  | write pa d' x sub =>
    obtain ⟨rfl, rfl, hc, he, ho, rfl, rfl⟩ := h
    exact special_onPage (by rw [hq.vmcs, hc]) (by rw [hq.onApicPage, ho]) (by rw [hq.enclave, he])

/-- An access that is not virtualized raises the APIC-access VM exit. -/
theorem unvirtualizedAccess_exits {s u : State} {off : PageOff} {kind : AccessKind} {a : LinearAccess} (hf : Foot s u)
    (h : UnvirtualizedAccess s u.wroteVirt off kind a) :
    linearAccess a u = .exit (.apicAccess off kind) (setPagingFlags kind u) := by
  have hq : Foot s (setPagingFlags kind u) := hf.trans (foot_setPagingFlags _ u)
  obtain ⟨hc, he, h⟩ := h
  have hc' : (setPagingFlags kind u).vmcs.ctl.virtApicAccesses = true := by rw [hq.vmcs, hc]
  have he' : (setPagingFlags kind u).enclave = false := by rw [hq.enclave, he]
  cases a with
  | read pa n x =>
    obtain ⟨rfl, rfl, ho, rfl, hn, hr⟩ := h
    rw [linearAccess, translated, special_onPage hc' (by rw [hq.onApicPage, ho]) he', pageRead_exits hn]
    rw [setPagingFlags_wroteVirt, hq.readFromPage]; exact hr
  | fetch pa n x =>
    obtain ⟨rfl, rfl, ho, rfl⟩ := h
    rw [linearAccess, translated, special_onPage hc' (by rw [hq.onApicPage, ho]) he', pageFetch_exits]
  | write pa d x sub =>
    obtain ⟨rfl, rfl, rfl, ho, rfl, hr, ht, hca⟩ := h
    have hr' : (setPagingFlags .write u).vmcs.ctl.apicRegVirt = false := by rw [hq.vmcs, hr]
    refine (special_onPage hc' (by rw [hq.onApicPage, ho]) he').trans ?_
    rw [(pageWrite_untaken (by rw [hq.triggerOn]; exact ht)).2 (.inr (by rw [hq.controlApplies]; exact hca)),
      pageWriteDefault_exits hr']

/-! ### Iterations -/

theorem getReg_completeIteration (it : RepIter) (u : State) (r : Reg) :
    getReg (completeIteration it u) r =
      if r = Reg.rdi then it.rdi else if r = Reg.rsi then it.rsi else if r = Reg.rcx then it.rcx else getReg u r := by
  show getReg (setReg Reg.rdi it.rdi (setReg Reg.rsi it.rsi (setReg Reg.rcx it.rcx u))) r = _
  rw [getReg_setReg, getReg_setReg, getReg_setReg]

/-- The completed iteration. -/
theorem reflects_completeIteration {s u : State} (it : RepIter) (hf : Foot s u) :
    ReflectsIteration it s (completeIteration it u) ∧ StandsAfter it s (completeIteration it u) := by
  refine ⟨⟨?_, ?_, ?_, fun r h1 h2 h3 => ?_⟩, ?_, rfl⟩
  · rw [getReg_completeIteration, if_neg (by decide), if_neg (by decide), if_pos rfl]
  · rw [getReg_completeIteration, if_neg (by decide), if_pos rfl]
  · rw [getReg_completeIteration, if_pos rfl]
  · rw [getReg_completeIteration, if_neg h3, if_neg h2, if_neg h1, getReg, getReg, hf.gpr]
  · rw [completeIteration_ip, hf.ip, hf.nextIp]

/-- What the first accesses of an iteration leave differs from its beginning only where accesses write. -/
theorem AccessesReach.foot {before : List LinearAccess} {s u : State} (h : AccessesReach before s u) : Foot s u := by
  have hf := foot_linearAccesses before (beginAccess false s)
  rw [show linearAccesses before (beginAccess false s) = .done u from h] at hf
  exact (show Foot s (beginAccess false s) from rfl).trans hf

/-- The step of an iteration. -/
theorem exec_iteration {s : State} (it : RepIter) (hg : Running s) :
    exec (.repStringIteration it) s = finish (repIteration it s) := by
  show inGuest _ s = _
  rw [inGuest_eq hg.guest, whenActive_eq hg.active]

/-- An iteration whose accesses all go on. -/
theorem exec_iteration_done {s u : State} {it : RepIter} (hg : Running s)
    (h : linearAccesses it.accs (beginAccess false s) = .done u) :
    exec (.repStringIteration it) s = .next (completeIteration it u) := by
  rw [exec_iteration it hg, repIteration, h]; rfl

/-- An iteration ended by one access of it. -/
theorem linearAccesses_ended {s u : State} {before : List LinearAccess} {a : LinearAccess} {after : List LinearAccess}
    (h1 : linearAccesses before s = .done u) :
    (∀ e w, linearAccess a u = .exit e w → linearAccesses (before ++ a :: after) s = .exit e w) ∧
      (∀ w, linearAccess a u = .abort w → linearAccesses (before ++ a :: after) s = .abort w) ∧
      ∀ w, linearAccess a u = .done w → linearAccesses (before ++ a :: after) s = linearAccesses after w := by
  rw [linearAccesses_append, h1]
  refine ⟨fun e w h => ?_, fun w h => ?_, fun w h => ?_⟩ <;> show linearAccesses (a :: after) u = _ <;>
    rw [linearAccesses, h] <;> rfl

theorem exec_iteration_exits {s w : State} {it : RepIter} {e : VmExit} (hg : Running s)
    (h : linearAccesses it.accs (beginAccess false s) = .exit e w) :
    exec (.repStringIteration it) s = .next (takeVmExit e (if e.trapLike then completeIteration it w else w)) := by
  rw [exec_iteration it hg, repIteration, h]; rfl

theorem exec_iteration_aborts {s w : State} {it : RepIter} (hg : Running s)
    (h : linearAccesses it.accs (beginAccess false s) = .abort w) : exec (.repStringIteration it) s = .next w := by
  rw [exec_iteration it hg, repIteration, h]; rfl

end Sys2Proof.Machine
end

