-- ==== Sys2Proof/Tests/Slice0.lean ====
section
/-! SUPPORT. The model's own tests: the well-formedness checks, decoding, one step on small states with results
taken from `95_test_vectors.md`, and for every obligation with hypotheses a state that meets them. -/

set_option Elab.async false

namespace Sys2Proof.Machine.Slice0

open Sys2Proof

/-! ### Helpers -/

/-- The next state, if the outcome is one. -/
def nextOf : Out → Option State
  | .next t => some t
  | .fault _ => none
  | .refused _ => none

/-- An outcome that is a next state with a property has one. -/
theorem next_of {o : Out} {p : State → Bool} (h : (nextOf o).any p = true) : ∃ t, o = .next t ∧ p t = true := by
  cases o with
  | next t => exact ⟨t, rfl, h⟩
  | fault _ => exact absurd h (by simp [nextOf])
  | refused _ => exact absurd h (by simp [nextOf])

/-- An outcome that is a next state is one. -/
theorem next_exists {o : Out} (h : (nextOf o).any (fun _ => true) = true) : ∃ t, o = .next t :=
  (next_of h).imp fun _ h => h.1

/-- Every control but "interrupt-window exiting". -/
def allCtl : Controls := { Controls.all true with intrWindowExiting := false }

/-- The set-up of V316, V320 and the programs: the virtual-APIC page at 0x5000, the APIC-access page at 0x6000, the
own descriptor at 0x8000, four PID pointers at 0x10000, a physical-address width of 36 bits. -/
def vmcs0 : Vmcs :=
  { Vmcs.reset with
    ctl := allCtl, vapicAddr := 0x5000, apicAccessAddr := 0x6000, tprThreshold := 3, pidTableAddr := 0x10000,
    lastPidIndex := 3, piNv := 0xF2, piDescAddr := 0x8000, uinv := 0xEC }

/-- The memory of V316: the table's entries and the descriptor at 0x23000. -/
def mem0 : Memory :=
  [(0x10000, 0x20001), (0x10008, 0x21000), (0x10010, 0x23001), (0x10018, 0x1000024001), (0x10020, 0x25001),
    (0x23020, 0x0000000500F20000)].foldl (fun m e => Memory.writeLe m e.1 8 e.2) []

/-- A guest that runs, with empty bitmaps. -/
def guest0 : State :=
  { State.reset with
    mode := .vmxNonRoot, ip := { cs := 8, rip := 0x100 }, nextIp := { cs := 8, rip := 0x102 }, rflagsIf := true,
    params := { Params.reset with paw := 36, apicMode := .x2apic, readRanges := [slot 0x020, slot 0x100] },
    vmcs := vmcs0, mem := mem0 }

/-- The guest with 32-bit fields of its page set. -/
def fields (fs : List (Nat × BitVec 32)) (s : State) : State := fs.foldl (fun s f => setVapic32 f.1 f.2 s) s

/-- The guest with other controls. -/
def withCtl (c : Controls) (s : State) : State := { s with vmcs := { s.vmcs with ctl := c } }

/-- The guest with bits of a 256-bit register set. -/
def bits (base : Nat) (vs : List IntVector) (s : State) : State := vs.foldl (fun s v => setVregBit base v true s) s

/-- The 256-bit value with the given bits. -/
def ofVectors (vs : List IntVector) : BitVec 256 := vs.foldl (fun x v => x ||| BitVec.twoPow 256 v.toNat) 0

/-- The guest with a given operation as its only input. -/
def withOp (op : Carrier) (s : State) : State := { s with inputs := [{ env := [], op := op }] }

/-- A guest in service of nothing, with 0x51 and 0x31 requested and 0x51 recognized (V330, step 0). -/
def ready : State :=
  { bits offIrr [0x31, 0x51] (fields [(offTpr, 0x20), (offPpr, 0x20)] guest0) with rvi := 0x51, pending := true }

/-- The same guest without a recognized interrupt. -/
def idle : State := { ready with pending := false }

/-- The guest before its VM entry. -/
def beforeEntry : State :=
  { idle with mode := .vmxRoot, vmcs := { vmcs0 with guest := { ip := { cs := 8, rip := 0x200 }, rvi := 0x51, svi := 0 } } }

/-- No control but "use TPR shadow" and "virtualize APIC accesses" (V334). -/
def tprOnly : Controls := { Controls.all false with tprShadow := true, virtApicAccesses := true }

/-- No control but "virtualize APIC accesses" (V319). -/
def accessOnly : Controls := { Controls.all false with virtApicAccesses := true }

/-! ### Well-formed operations -/

theorem test_wf_accepts : Instr.wf .hlt = true ∧ Instr.wf (.wrmsrApicOther 0x10) = true ∧
    Instr.wf (.pageWriteOther 0x320 [1] AccessEnv.plain) = true ∧
    Instr.wf (.pageRead 0x080 1 AccessEnv.plain) = true := by decide

/-- A row of format MSR with an index that has a row of its own. -/
theorem test_wf_refuses_named_msr : Instr.wf (.wrmsrApicOther 0x08) = false ∧ Instr.wf (.wrmsrApicOther 0x0B) = false ∧
    Instr.wf (.wrmsrApicOther 0x30) = false ∧ Instr.wf (.wrmsrApicOther 0x3F) = false := by decide

/-- The default row of page writes with an offset that has a row of its own. -/
theorem test_wf_refuses_trigger_offset : Instr.wf (.pageWriteOther 0x080 [1] AccessEnv.plain) = false ∧
    Instr.wf (.pageWriteOther 0x0B0 [1] AccessEnv.plain) = false ∧
    Instr.wf (.pageWriteOther 0x300 [1] AccessEnv.plain) = false := by decide

/-- Accesses of no byte. -/
theorem test_wf_refuses_empty : Instr.wf (.pageWriteTpr [] AccessEnv.plain) = false ∧
    Instr.wf (.pageWriteEoi [] AccessEnv.plain) = false ∧ Instr.wf (.pageWriteIcrLo [] AccessEnv.plain) = false ∧
    Instr.wf (.pageWriteOther 0x320 [] AccessEnv.plain) = false ∧
    Instr.wf (.pageRead 0x080 0 AccessEnv.plain) = false ∧
    Instr.wf (.pageFetch 0x080 0 AccessEnv.plain) = false ∧
    Instr.wf (.repStringIteration { accs := [.read 0 0 .ok], rcx := 0, rsi := 0, rdi := 0, more := false }) = false ∧
    Instr.wf (.repStringIteration { accs := [.write 0 [] .ok false], rcx := 0, rsi := 0, rdi := 0, more := false }) = false ∧
    Instr.wf (.repStringIteration { accs := [.fetch 0 0 .ok], rcx := 0, rsi := 0, rdi := 0, more := false }) = false := by
  decide

/-! ### Decoding (selectors written out from R101 to R104 and the table R112) -/

theorem test_decode_msr : decode (.msr .wrmsr 0x808) = .ok .wrmsrTpr ∧ decode (.msr .wrmsr 0x80B) = .ok .wrmsrEoi ∧
    decode (.msr .wrmsr 0x83F) = .ok .wrmsrSelfIpi ∧ decode (.msr .wrmsr 0x830) = .ok .wrmsrIcr ∧
    decode (.msr .wrmsr 0x8FF) = .ok (.wrmsrApicOther 0xFF) ∧ decode (.msr .rdmsr 0x800) = .ok (.rdmsrApic 0) :=
  ⟨rfl, rfl, rfl, rfl, rfl, rfl⟩

theorem test_decode_msr_outside : decode (.msr .wrmsr 0x7FF) = .error (.notApicMsr 0x7FF) ∧
    decode (.msr .rdmsr 0x900) = .error (.notApicMsr 0x900) := ⟨rfl, rfl⟩

theorem test_decode_page : decode (.page (.write 0x080 [1] AccessEnv.plain)) = .ok (.pageWriteTpr [1] AccessEnv.plain) ∧
    decode (.page (.write 0x0B0 [1] AccessEnv.plain)) = .ok (.pageWriteEoi [1] AccessEnv.plain) ∧
    decode (.page (.write 0x300 [1] AccessEnv.plain)) = .ok (.pageWriteIcrLo [1] AccessEnv.plain) ∧
    decode (.page (.write 0x310 [1] AccessEnv.plain)) = .ok (.pageWriteOther 0x310 [1] AccessEnv.plain) ∧
    decode (.page (.read 0x0A0 4 AccessEnv.plain)) = .ok (.pageRead 0x0A0 4 AccessEnv.plain) ∧
    decode (.page (.fetch 0x000 1 AccessEnv.plain)) = .ok (.pageFetch 0x000 1 AccessEnv.plain) :=
  ⟨rfl, rfl, rfl, rfl, rfl, rfl⟩

theorem test_decode_cr8 : decode (.cr8 .toCr8 0) = .ok (.movToCr8 0) ∧ decode (.cr8 .fromCr8 15) = .ok (.movFromCr8 15) :=
  ⟨rfl, rfl⟩

theorem test_decode_named : decode (.event (.senduipi 0xEC 1)) = .ok (.senduipi 0xEC 1) ∧
    decode (.event (.sti true false)) = .ok (.sti true false) ∧ decode (.event (.movSs true)) = .ok (.movSs true) ∧
    decode (.event (.popSs true)) = .ok (.popSs true) ∧ decode (.event .hlt) = .ok .hlt ∧
    decode (.event .mwait) = .ok .mwait ∧
    decode (.event (.repStringIteration { accs := [], rcx := 7, rsi := 1, rdi := 2, more := true })) =
      .ok (.repStringIteration { accs := [], rcx := 7, rsi := 1, rdi := 2, more := true }) :=
  ⟨rfl, rfl, rfl, rfl, rfl, rfl, rfl⟩

theorem test_decode_event : decode (.event .vmEntry) = .ok .vmEntry ∧
    decode (.event (.instructionBoundary true)) = .ok (.instructionBoundary true) ∧
    decode (.event (.externalInterrupt 0xF2 true)) = .ok (.externalInterrupt 0xF2 true) ∧
    decode (.event .tprVirtualization) = .ok .tprVirtualization ∧
    decode (.event .pprVirtualization) = .ok .pprVirtualization ∧
    decode (.event .eoiVirtualization) = .ok .eoiVirtualization ∧
    decode (.event (.selfIpiVirtualization 0x61)) = .ok (.selfIpiVirtualization 0x61) ∧
    decode (.event (.ipiVirtualization 0x41 2)) = .ok (.ipiVirtualization 0x41 2) ∧
    decode (.event .evaluatePendingVirtualInterrupts) = .ok .evaluatePendingVirtualInterrupts ∧
    decode (.event .virtualInterruptDelivery) = .ok .virtualInterruptDelivery ∧
    decode (.event (.postedInterruptProcessing 0xF2 false)) = .ok (.postedInterruptProcessing 0xF2 false) :=
  ⟨rfl, rfl, rfl, rfl, rfl, rfl, rfl, rfl, rfl, rfl, rfl⟩

/-- The table's words (`match` of opcode_table.json). -/
theorem test_table_words : decodeTableWord 32 0x808 = some .wrmsrTpr ∧ decodeTableWord 32 0x80B = some .wrmsrEoi ∧
    decodeTableWord 32 0x83F = some .wrmsrSelfIpi ∧ decodeTableWord 32 0x830 = some .wrmsrIcr ∧
    decodeTableWord 32 0x801 = some (.wrmsrApicOther 1) ∧
    decodeTableWord 16 0x080 = some (.pageWriteTpr [0, 0, 0, 0] AccessEnv.plain) ∧
    decodeTableWord 16 0x0B0 = some (.pageWriteEoi [0, 0, 0, 0] AccessEnv.plain) ∧
    decodeTableWord 16 0x300 = some (.pageWriteIcrLo [0, 0, 0, 0] AccessEnv.plain) ∧
    decodeTableWord 32 0x10 = none := ⟨rfl, rfl, rfl, rfl, rfl, rfl, rfl, rfl, rfl⟩

/-- The bytes of R110 and of the programs V330, V331 and V333 read back. -/
theorem test_gk_bytes :
    decodeBytes [0xB9, 0x0B, 0x08, 0, 0, 0x31, 0xC0] = some (.movEcxImm 0x80B, [0x31, 0xC0]) ∧
    decodeBytes [0x31, 0xC0] = some (.xorEaxEax, []) ∧ decodeBytes [0x31, 0xD2] = some (.xorEdxEdx, []) ∧
    decodeBytes [0x0F, 0x30] = some (.wrmsr, []) ∧ decodeBytes [0x0F, 0x32] = some (.rdmsr, []) ∧
    decodeBytes [0x44, 0x0F, 0x22, 0xC0] = some (.movToCr8 0, []) ∧
    decodeBytes [0x44, 0x0F, 0x20, 0xC0] = some (.movFromCr8 0, []) := by decide +kernel

theorem test_gk_bytes_more :
    decodeBytes [0xF3, 0x0F, 0xC7, 0xF0] = some (.senduipi 0, []) ∧ decodeBytes [0xFB] = some (.sti, []) ∧
    decodeBytes [0xF4] = some (.hlt, []) ∧ decodeBytes [0x0F, 0x01, 0xC9] = some (.mwait, []) ∧
    decodeBytes [0x17] = some (.popSs, []) ∧ decodeBytes [0xF3, 0x6C] = some (.ins true false, []) ∧
    decodeBytes [0x6F] = some (.outs false true, []) ∧
    decodeBytes [0xBA, 2, 0, 0, 0] = some (.movEdxImm 2, []) := by decide +kernel

theorem test_gk_encode : GkInstr.bytes (.movToCr8 0) = [0x44, 0x0F, 0x22, 0xC0] ∧
    GkInstr.bytes (.senduipi 0) = [0xF3, 0x0F, 0xC7, 0xF0] ∧
    GkInstr.bytes (.movEaxImm 0x41) = [0xB8, 0x41, 0, 0, 0] := by decide +kernel

/-! ### Operations (vectors of `95_test_vectors.md`) -/

/-- Some view of the next state. -/
def after {α : Type} (i : Instr) (s : State) (f : State → α) : Option α := (nextOf (exec i s)).map f

/-- The view most vectors give: VPPR, RVI, SVI and the latch. -/
def status (t : State) : BitVec 32 × IntVector × IntVector × Bool := (vppr t, t.rvi, t.svi, t.pending)

/-- V302: the field and bit of a vector. -/
theorem test_vector_bits : (fieldOff offIsr 0x1F, fieldBit 0x1F) = (0x100, 31) ∧
    (fieldOff offIrr 0x20, fieldBit 0x20) = (0x210, 0) ∧ (fieldOff offIrr 0x31, fieldBit 0x31) = (0x210, 17) ∧
    (fieldOff offIsr 0xEC, fieldBit 0xEC) = (0x170, 12) ∧ (fieldOff offIrr 0xFF, fieldBit 0xFF) = (0x270, 31) := by
  decide +kernel

/-- V310: TPR virtualization without "virtual-interrupt delivery". -/
theorem test_tpr_threshold :
    ([(0x2F, 3), (0x30, 3), (0x00, 0), (0xE0, 15), (0xFF, 15), (0xFFFFFF0F, 1)].map
      fun r : BitVec 32 × BitVec 4 =>
        after .tprVirtualization
          (fields [(offTpr, r.1)] { guest0 with vmcs := { vmcs0 with ctl := tprOnly, tprThreshold := r.2 } })
          fun t => t.lastExit.isSome) =
      [some true, some false, some false, some true, some false, some true] := by decide +kernel

/-- V313: TPR virtualization with "virtual-interrupt delivery"; VPPR and the latch. -/
theorem test_tpr_with_vid :
    ([(0x20, 0x00, 0x31, false), (0x40, 0x00, 0x31, true), (0x20, 0x30, 0x31, false), (0x00, 0x30, 0x41, false),
        (0x3F, 0x00, 0x30, false)].map
      fun r : BitVec 32 × IntVector × IntVector × Bool =>
        after .tprVirtualization (fields [(offTpr, r.1)] { guest0 with svi := r.2.1, rvi := r.2.2.1, pending := r.2.2.2 })
          fun t => (vppr t, t.pending)) =
      [some (0x20, true), some (0x40, false), some (0x30, false), some (0x30, true), some (0x3F, false)] := by
  decide +kernel

/-- V311: PPR virtualization, the whole of VPPR. -/
theorem test_ppr :
    ([(0x35, 0x42), (0x4C, 0x41), (0x00, 0x00), (0xFF, 0xF0), (0x12345678, 0x30), (0x2F, 0x30), (0x30, 0x3F),
        (0xE0, 0xF1), (0x100, 0x10)].map
      fun r : BitVec 32 × IntVector =>
        after .pprVirtualization (fields [(offTpr, r.1), (offPpr, 0xFFFFFFFF)] { guest0 with svi := r.2 }) vppr) =
      [some 0x40, some 0x4C, some 0, some 0xFF, some 0x78, some 0x30, some 0x30, some 0xF0, some 0x10] := by
  decide +kernel

/-- V312: evaluation, whatever the latch held. -/
theorem test_evaluation :
    ([(false, 0x51, 0x40), (false, 0x4F, 0x40), (false, 0x40, 0x4F), (true, 0xFF, 0x00), (false, 0x0F, 0x00),
        (false, 0x10, 0x0F), (false, 0xFF, 0xEF), (false, 0xF0, 0xF0), (false, 0x00, 0x00)].map
      fun r : Bool × IntVector × BitVec 32 =>
        after .evaluatePendingVirtualInterrupts
          (fields [(offPpr, r.2.2)]
            (withCtl { allCtl with intrWindowExiting := r.1 } { guest0 with rvi := r.2.1, pending := true }))
          fun t => t.pending) =
      [some true, some false, some false, some false, some false, some true, some true, some false, some false] := by
  decide +kernel

/-- V314, rows 1, 4 and 6: VISR and the status after EOI virtualization that evaluates. -/
theorem test_eoi :
    ([([0x31, 0x51], 0x51, 0x20, 0x41), ([], 0x00, 0x10, 0x00), ([0x31, 0x51], 0x31, 0x00, 0x00)].map
      fun r : List IntVector × IntVector × BitVec 32 × IntVector =>
        after .eoiVirtualization
          (bits offIsr r.1 (fields [(offTpr, r.2.2.1)] { guest0 with svi := r.2.1, rvi := r.2.2.2 }))
          fun t => (visr t, status t)) =
      [some (ofVectors [0x31], 0x30, 0x41, 0x31, true), some (0, 0x10, 0, 0, false),
        some (ofVectors [0x51], 0x50, 0, 0x51, false)] := by decide +kernel

/-- V314, rows 3 and 5: the EOI-induced VM exit, trap-like, without evaluation. -/
theorem test_eoi_exit :
    ([([0x51], 0x51, 0x31), ([], 0x00, 0x00)].map
      fun r : List IntVector × IntVector × IntVector =>
        after .eoiVirtualization
          (bits offIsr r.1 (fields [(offTpr, 0x20)] { guest0 with svi := r.2.1, rvi := r.2.2, pending := true, vmcs := { vmcs0 with eoiExitBitmap := ofVectors [0x51, 0] } }))
          fun t => (t.lastExit, t.vmcs.guest.ip.rip, vppr t, t.pending)) =
      [some (some (.eoiInduced 0x51), 0x102, 0x20, true), some (some (.eoiInduced 0), 0x102, 0x20, true)] := by
  decide +kernel

/-- V315: self-IPI virtualization; VIRR, RVI and the latch. -/
theorem test_self_ipi :
    ([(0x61, 0x20, [0x20], 0x00), (0x30, 0x61, [0x61], 0x60), (0x61, 0x61, [0x61], 0x50), (0x0F, 0x00, [], 0x00),
        (0xFF, 0x00, [], 0xF0)].map
      fun r : IntVector × IntVector × List IntVector × BitVec 32 =>
        after (.selfIpiVirtualization r.1) (bits offIrr r.2.2.1 (fields [(offPpr, r.2.2.2)] { guest0 with rvi := r.2.1 }))
          fun t => (virr t, t.rvi, t.pending)) =
      [some (ofVectors [0x20, 0x61], 0x61, true), some (ofVectors [0x30, 0x61], 0x61, false),
        some (ofVectors [0x61], 0x61, true), some (ofVectors [0x0F], 0x0F, false),
        some (ofVectors [0xFF], 0xFF, false)] := by decide +kernel

/-- V316, rows 1 to 3 and 11: posting and notifying; the bytes at 0x23008 and 0x2301F, NotifyInfo, the event. -/
theorem test_ipi_posts :
    ([(0x41, 0x0000000500F20000), (0x41, 0x0000000500F20001), (0x41, 0x0000000500F20002), (0xFF, 0x0000000500F20000)].map
      fun r : IntVector × Nat =>
        after (.ipiVirtualization r.1 2) { guest0 with mem := mem0.writeLe 0x23020 8 r.2 }
          fun t => (t.mem.read 0x23008, t.mem.read 0x2301F, t.mem.read64 0x23020, t.history)) =
      [some (2, 0, 0x0000000500F20001, [.sendIpi 5 0xF2 .x2apic]), some (2, 0, 0x0000000500F20001, []),
        some (2, 0, 0x0000000500F20002, []), some (0, 0x80, 0x0000000500F20001, [.sendIpi 5 0xF2 .x2apic])] := by
  decide +kernel

/-- V316, the rows that exit, and the lowest legal vector. -/
theorem test_ipi_exits :
    ([(0x0F, 2), (0x0F, 9), (0x10, 0), (0x41, 1), (0x41, 3), (0x41, 4), (0x41, 0xFFFFFFFF)].map
      fun r : IntVector × ApicId =>
        after (.ipiVirtualization r.1 r.2) guest0 fun t => (t.lastExit, t.mem.read 0x20002, decide (t.mem = mem0))) =
      [some (some (.apicWrite 0x300), 0, true), some (some (.apicWrite 0x300), 0, true), some (none, 1, false),
        some (some (.apicWrite 0x300), 0, true), some (some (.apicWrite 0x300), 0, true),
        some (some (.apicWrite 0x300), 0, true), some (some (.apicWrite 0x300), 0, true)] := by decide +kernel

/-- R161: in xAPIC mode the destination is `NDST[15:8]`, by the two registers on the page frame of `IA32_APIC_BASE`. -/
theorem test_senduipi_xapic :
    after (.senduipi 0x41 2) { guest0 with
        params := { guest0.params with apicMode := .xapic }, apicBase := 0xFEE00900,
        mem := mem0.writeLe 0x23020 8 0x0000050000F20000 } (fun t => (t.history, t.ip.rip)) =
      some ([.sendIpi 5 0xF2 (.xapic 0xFEE00310 0xFEE00300)], 0x102) := by decide +kernel

/-- V317, state changes, rows 1 to 4: VISR, VIRR, VPPR, and RVI beside SVI. -/
theorem test_delivery :
    ([(0x51, [0x31, 0x51], [], 0x20), (0x61, [0x61], [0x31], 0x30), (0x6A, [0x6A], [], 0xFF), (0x51, [0x31], [], 0)].map
      fun r : IntVector × List IntVector × List IntVector × BitVec 32 =>
        after .virtualInterruptDelivery
          (bits offIrr r.2.1 (bits offIsr r.2.2.1 (fields [(offPpr, r.2.2.2)] { guest0 with rvi := r.1, pending := true })))
          fun t => (visr t, virr t, vppr t, t.rvi ++ t.svi)) =
      [some (ofVectors [0x51], ofVectors [0x31], 0x50, 0x3151), some (ofVectors [0x31, 0x61], 0, 0x60, 0x0061),
        some (ofVectors [0x6A], 0, 0x60, 0x006A), some (ofVectors [0x51], ofVectors [0x31], 0x50, 0x3151)] := by
  decide +kernel

/-- V317, rows 5 and 6: the order of the events in enclave mode and a transaction, and the user-interrupt branch. -/
theorem test_delivery_events :
    after .virtualInterruptDelivery { ready with enclave := true, transactional := true } (fun t => (t.history, t.enclave, t.transactional)) =
        some ([.abortTransaction, .aex, .deliverThroughIdt 0x51], false, false) ∧
      after .virtualInterruptDelivery { ready with rvi := 0xEC, cr4Uintr := true, eferLma := true } (fun t => (t.history, t.userNotified)) =
        some ([.userInterruptNotification], true) := by decide +kernel

/-- V317, the gate: whether the guest is delivered its interrupt at a boundary. -/
theorem test_boundary_gate :
    ([(ready, false), ({ ready with rflagsIf := false }, false), ({ ready with blockingBySti := true }, false),
        ({ ready with blockingByMovSs := true }, false), (ready, true), ({ ready with activity := .hlt }, false),
        ({ ready with activity := .mwait }, false), ({ ready with activity := .shutdown }, false),
        ({ ready with activity := .waitForSipi }, false), (idle, false)].map
      fun r : State × Bool =>
        after (.instructionBoundary r.2) r.1 fun t => (t.pending, decide (t.history = [.deliverThroughIdt 0x51]), t.activity)) =
      [some (false, true, .active), some (true, false, .active), some (true, false, .active), some (true, false, .active),
        some (true, false, .active), some (false, true, .active), some (false, true, .active),
        some (true, false, .shutdown), some (true, false, .waitForSipi), some (false, false, .active)] := by decide +kernel

/-- R33, R41: delivery as a step of its own needs the same conditions. -/
theorem test_delivery_gate :
    ([ready, { ready with rflagsIf := false }, withCtl { allCtl with intrWindowExiting := true } ready,
        { ready with activity := .shutdown }].map
      fun s => after .virtualInterruptDelivery s fun t => (t.history, t.pending)) =
      [some ([.deliverThroughIdt 0x51], false), some ([], true), some ([], true), some ([], true)] := by decide +kernel

/-- V318: which reads are virtualized ("use TPR shadow", VID, APIC-register virtualization, offset, size). -/
theorem test_page_read :
    ([(false, false, false, 0x080, 4), (true, false, false, 0x080, 4), (true, false, false, 0x083, 1),
        (true, false, false, 0x082, 2), (true, false, false, 0x082, 4), (true, false, false, 0x084, 4),
        (true, false, false, 0x080, 8), (true, false, false, 0x0B0, 4), (true, true, false, 0x0B0, 4),
        (true, true, false, 0x300, 4), (true, true, false, 0x310, 4), (true, true, false, 0x0A0, 4),
        (true, false, true, 0x0A0, 4), (true, false, true, 0x020, 4)].map
      fun r : Bool × Bool × Bool × PageOff × Nat =>
        after (.pageRead r.2.2.2.1 r.2.2.2.2 AccessEnv.plain)
          (withCtl { accessOnly with tprShadow := r.1, vid := r.2.1, apicRegVirt := r.2.2.1 } guest0)
          fun t => t.lastExit.isNone) =
      [some false, some true, some true, some true, some false, some false, some false, some false, some true, some true,
        some false, some false, some false, some true] := by decide +kernel

/-- V318, last row, and V334: after a virtualized write of the same operation the read exits; else it returns VTPR. -/
theorem test_page_read_value :
    after (.pageRead 0x080 4 { AccessEnv.plain with cont := true }) { guest0 with wroteVirt := true } (fun t => t.lastExit) =
        some (some (.apicAccess 0x080 .read)) ∧
      after (.pageRead 0x080 4 AccessEnv.plain) (fields [(offTpr, 0x35)] (withCtl tprOnly guest0))
        (fun t => (t.loaded, t.ip.rip, t.mode)) = some ([0x35, 0, 0, 0], 0x102, .vmxNonRoot) := by decide +kernel

/-- V318: an instruction fetch exits, fault-like. -/
theorem test_page_fetch :
    after (.pageFetch 0x080 4 AccessEnv.plain) guest0 (fun t => (t.lastExit, t.vmcs.guest.ip.rip)) =
      some (some (.apicAccess 0x080 .fetch), 0x100) := by decide +kernel

/-- V319: writes with only "virtualize APIC accesses". -/
theorem test_page_write_exits :
    after (.pageWriteOther 0x320 [1, 2, 3, 4] AccessEnv.plain) (withCtl accessOnly guest0)
        (fun t => (t.lastExit, t.vmcs.guest.ip.rip, decide (t.mem = mem0))) =
        some (some (.apicAccess 0x320 .write), 0x100, true) ∧
      after (.pageWriteTpr [1, 2, 3, 4] AccessEnv.plain) (withCtl accessOnly guest0) (fun t => t.lastExit) =
        some (some (.apicAccess 0x080 .write)) ∧
      after (.pageWriteEoi [1] AccessEnv.plain) (withCtl accessOnly guest0) (fun t => t.lastExit) =
        some (some (.apicAccess 0x0B0 .write)) ∧
      after (.pageWriteIcrLo [1] AccessEnv.plain) (withCtl accessOnly guest0) (fun t => t.lastExit) =
        some (some (.apicAccess 0x300 .write)) ∧
      after (.pageWriteOther 0x320 [1] { AccessEnv.plain with xlat := .pageFault }) (withCtl accessOnly guest0)
        (fun t => (t.lastExit, t.history)) = some (none, [.pageFault]) := by decide +kernel

/-- R128, example: a 4-byte store of 0x30 with threshold 2 does not exit; R205: the operation has virtualized a write while
it has accesses to come; R129: an EOI by the page. -/
theorem test_page_write_virtualized :
    ([false, true].map fun more =>
      after (.pageWriteTpr [0x30, 0, 0, 0] { AccessEnv.plain with more := more })
        { guest0 with vmcs := { vmcs0 with ctl := tprOnly, tprThreshold := 2 } }
        fun t => (vtpr t, t.lastExit, t.wroteVirt, t.ip.rip)) =
      [some (0x30, none, false, 0x102), some (0x30, none, true, 0x100)] ∧
      after (.pageWriteEoi [0, 0, 0, 0] AccessEnv.plain) { bits offIsr [0x51] guest0 with svi := 0x51 }
        (fun t => (visr t, t.svi)) = some (0, 0) := by decide +kernel

/-- The guest where every offset is one that APIC-register virtualization directs. -/
def directing : State := { guest0 with params := { guest0.params with writeRanges := [(0, 0xFFF)] } }

/-- R131: a directed write; R23, R25, R26: none reaches VPPR or bytes 4 to 15 of a slot of VISR or VIRR. -/
theorem test_page_write_directed :
    ([(0x0A0, 4), (0x0A4, 4), (0x100, 4), (0x104, 4), (0x200, 16), (0x270, 4), (0x280, 16)].map
      fun r : PageOff × Nat =>
        after (.pageWriteOther r.1 (List.replicate r.2 7) AccessEnv.plain) directing
          fun t => (t.lastExit, t.mem.read (0x5000 + r.1.toNat))) =
      [none, some (some (.apicWrite 0x0A4), 7), some (some (.apicWrite 0x100), 7), none, none,
        some (some (.apicWrite 0x270), 7), some (some (.apicWrite 0x280), 7)] := by decide +kernel

/-- U17: with another control 1 a write at another offset is refused; so is an unqualified size at 0x0B0 (R131). -/
theorem test_page_write_refused :
    exec (.pageWriteOther 0x320 [1, 2, 3, 4] AccessEnv.plain) (withCtl tprOnly guest0) = .refused .absentWriteSection ∧
      exec (.pageWriteEoi [1] AccessEnv.plain) (withCtl { allCtl with apicRegVirt := false } guest0) =
        .refused .absentWriteSection := ⟨rfl, rfl⟩

/-- V319: the sixth iteration of a string store touches the page; the registers reflect five. -/
theorem test_string_exit :
    after (.repStringIteration { accs := [.write 0x6320 [1] .ok false], rcx := 2, rsi := 0, rdi := 6, more := true })
      (setReg Reg.rcx 3 (withCtl accessOnly guest0)) (fun t => (t.lastExit, t.vmcs.guest.ip.rip, getReg t Reg.rcx)) =
      some (some (.apicAccess 0x320 .write), 0x100, 3) := by decide +kernel

/-- R47, R138: while iterations remain `RIP` refers to the string instruction. -/
theorem test_string_completes :
    ([true, false].map fun more =>
      after (.repStringIteration { accs := [.read 0x9000 1 .ok, .write 0xA000 [7] .ok false], rcx := 2, rsi := 1, rdi := 6, more := more })
        guest0 fun t => (t.mem.read 0xA000, [Reg.rcx, Reg.rsi, Reg.rdi].map (getReg t), t.midRep, t.ip.rip)) =
      [some (7, [2, 1, 6], true, 0x100), some (7, [2, 1, 6], false, 0x102)] := by decide +kernel

/-- A guest with a posted-interrupt descriptor whose bits 63:0 of PIR are `pir` and byte 32 is `on`. -/
def posted (pirBits : List IntVector) (on : Byte) (rvi : IntVector) (irr : List IntVector) (ppr : BitVec 32) : State :=
  let s := bits offIrr irr (fields [(offPpr, ppr)] { guest0 with rvi := rvi })
  { s with mem := (s.mem.writeLe 0x8000 32 (ofVectors pirBits).toNat).write 0x8020 on }

/-- V320, rows 1 to 4: ON, PIR, VIRR, RVI, the latch; byte 32 keeps its other bits. -/
theorem test_posted :
    ([posted [0x61] 1 0x20 [0x20] 0x20, posted [] 1 0x20 [0x20] 0x20, posted [0x31, 0x41] 0 0x51 [0x51] 0x50,
        posted [0xFF] 0xA5 0 [] 0].map
      fun s => after (.postedInterruptProcessing 0xF2 false) s
        fun t => (t.mem.read 0x8020, pirAt t.mem 0x8000, virr t, t.rvi, t.pending)) =
      [some (0, 0, ofVectors [0x20, 0x61], 0x61, true), some (0, 0, ofVectors [0x20], 0x20, false),
        some (0, 0, ofVectors [0x31, 0x41, 0x51], 0x51, false), some (0xA4, 0, ofVectors [0xFF], 0xFF, true)] := by
  decide +kernel

/-- V320, rows 5 and 6: another vector, and posting off, exit. -/
theorem test_external_interrupt :
    after (.externalInterrupt 0x30 false) (posted [0x61] 1 0x20 [0x20] 0x20)
        (fun t => (t.lastExit, t.history, t.mem.read 0x8020, t.rvi)) =
        some (some (.externalInterrupt 0x30), [.localApicAck 0x30], 1, 0x20) ∧
      after (.externalInterrupt 0xF2 false) (withCtl { allCtl with postedIntr := false } (posted [0x61] 1 0x20 [0x20] 0x20))
        (fun t => (t.lastExit, t.history)) = some (some (.externalInterrupt 0xF2), []) := by decide +kernel

/-- R259: an external interrupt that exits ends the HLT and MWAIT states; R245: an AEX comes before the exit. -/
theorem test_external_interrupt_wakes :
    ([.hlt, .mwait].map fun a =>
      after (.externalInterrupt 0x30 false) { guest0 with activity := a, enclave := true }
        fun t => (t.activity, t.enclave, t.history)) =
      [some (.active, false, [.localApicAck 0x30, .aex]), some (.active, false, [.localApicAck 0x30, .aex])] := by
  decide +kernel

/-- V332, step 5: the halted guest returns to HLT with a recognized interrupt. -/
theorem test_external_interrupt_posts :
    after (.externalInterrupt 0xF2 false) { posted [0x61] 1 0 [] 0 with activity := .hlt }
      (fun t => (t.activity, virr t, t.rvi, t.pending, t.history)) =
      some (.hlt, ofVectors [0x61], 0x61, true, [.localApicAck 0xF2, .localApicEoi]) := by decide +kernel

/-- V320, interleaving: a bit of group 1 set after its exchange stays in PIR. -/
theorem test_posted_interleaving :
    after (.postedInterruptProcessing 0xF2 false) { posted [0x61] 1 0 [] 0 with
        params := { guest0.params with pirGroups := [0xFFFFFFFF, 0xFFFFFFFF00000000] },
        agents := [[], [], [{ addr := 0x8004, keep := 0xFF, set := 0x02 }]] }
      (fun t => (pirAt t.mem 0x8000, virr t, t.rvi)) = some (ofVectors [0x21], ofVectors [0x61], 0x61) := by decide +kernel

/-- V321: VM entry; VPPR and the latch. -/
theorem test_vm_entry :
    ([(allCtl, 0x00), (allCtl, 0x60), ({ allCtl with intrWindowExiting := true }, 0x00), ({ allCtl with vid := false }, 0x00)].map
      fun r : Controls × IntVector =>
        after .vmEntry (fields [(offTpr, 0x20), (offPpr, 0x77)]
          { beforeEntry with vmcs := { vmcs0 with ctl := r.1, guest := { ip := { cs := 8, rip := 0x200 }, rvi := 0x51, svi := r.2 } } })
          fun t => (vppr t, t.pending, t.rvi, t.svi, t.ip.rip)) =
      [some (0x20, true, 0x51, 0, 0x200), some (0x60, false, 0x51, 0x60, 0x200), some (0x20, false, 0x51, 0, 0x200),
        some (0x77, false, 0x51, 0, 0x200)] := by decide +kernel

/-- R134 to R137: the named effects. -/
theorem test_named_effects :
    after (.sti true true) guest0 (fun t => (t.rflagsIf, t.blockingBySti, t.ip.rip)) = some (true, true, 0x102) ∧
      after (.movSs true) guest0 (fun t => t.blockingByMovSs) = some true ∧
      after (.popSs true) guest0 (fun t => t.blockingByMovSs) = some true ∧
      after .hlt guest0 (fun t => t.activity) = some .hlt ∧
      after .mwait guest0 (fun t => t.activity) = some .mwait := by decide +kernel

/-- R122: the destination receives what the open mapping makes of VTPR. -/
theorem test_mov_from_cr8 (dst : Reg) :
    after (.movFromCr8 dst) guest0 (fun t => getReg t dst) = some (Config.tprReadValue (vtpr guest0)) := by
  show some ((guest0.gpr.set dst (Config.tprReadValue (vtpr guest0))).get dst) = _
  simp [Vector.get_eq_getElem]

/-- V330, step 3: `WRMSR` 0x80B, whatever the open mapping stores in VEOI; the registers of the retiring side. -/
theorem test_wrmsr_eoi :
    after .wrmsrEoi { bits offIsr [0x51] (fields [(offTpr, 0x20), (offPpr, 0x50)] guest0) with svi := 0x51, rvi := 0x31 }
      (fun t => (t.rvi, t.ip.rip, t.mode)) = some (0x31, 0x102, .vmxNonRoot) := by decide +kernel

/-- R127: the forms the spec refuses. -/
theorem test_msr_refused : exec (.rdmsrApic 0x08) guest0 = .refused .absentMsrSection ∧
    exec (.wrmsrApicOther 0x10) guest0 = .refused .absentMsrSection := ⟨rfl, rfl⟩

/-- A table word placed by the host's reading is the next operation, in a guest that selects it. -/
theorem test_fetch_word : (State.reset.withFetchWord 32 0x801).inputs = [{ env := [], op := .msr .wrmsr }] ∧
    ecx (State.reset.withFetchWord 32 0x801) = 0x801 ∧
    (nextOf (step (State.reset.withFetchWord 16 0x0B0))).map (fun t => (t.inputs, t.mode)) = some ([], .vmxNonRoot) := by
  refine ⟨rfl, by decide +kernel, by decide +kernel⟩

/-! ### Witnesses: for every obligation with hypotheses, states and operands that meet them -/

theorem guest0_runs : Running guest0 := { guest := rfl, placed := by decide +kernel, active := rfl }

theorem ready_runs : Running ready := { guest := by decide +kernel, placed := by decide +kernel, active := by decide +kernel }

/-- The table of V316 can be used: entries 0 and 2 are valid, 1 and 3 are not. -/
theorem guest0_table : TableUsable guest0 := by
  intro t ht
  have ht3 : t.toNat ≤ 3 := ht
  have h : t = 0 ∨ t = 1 ∨ t = 2 ∨ t = 3 := by
    have : t.toNat = 0 ∨ t.toNat = 1 ∨ t.toNat = 2 ∨ t.toNat = 3 := by omega
    rcases this with h | h | h | h
    · exact .inl (BitVec.eq_of_toNat_eq h)
    · exact .inr (.inl (BitVec.eq_of_toNat_eq h))
    · exact .inr (.inr (.inl (BitVec.eq_of_toNat_eq h)))
    · exact .inr (.inr (.inr (BitVec.eq_of_toNat_eq h)))
  rcases h with rfl | rfl | rfl | rfl
  · exact ⟨by decide +kernel, fun _ => ⟨by decide +kernel, by decide +kernel⟩⟩
  · exact ⟨by decide +kernel, fun h => absurd h (by decide +kernel)⟩
  · exact ⟨by decide +kernel, fun _ => ⟨by decide +kernel, by decide +kernel⟩⟩
  · exact ⟨by decide +kernel, fun h => absurd h (by decide +kernel)⟩

/-- The conditions of `ApicInv`, evaluated. -/
def apicCheck (s : State) : Bool :=
  decide (s.mode = .vmxNonRoot) && s.vmcs.ctl.vid && regionsDisjoint (vmcsRegions s.vmcs)
    && decide (s.svi = highest (visr s)) && decide (s.rvi = highest (virr s))
    && decide (cls s.svi ≤ fieldCls (vppr s)) && decide ((vppr s).extractLsb' 8 24 = 0)
    && (!s.pending || (decide (fieldCls (vppr s) < cls s.rvi) && !s.vmcs.ctl.intrWindowExiting))
    && (!s.vmcs.ctl.tprShadow || decide (fieldCls (vtpr s) ≤ fieldCls (vppr s)))

theorem apicInv_of_check {s : State} (h : apicCheck s = true) : ApicInv s := by
  simp only [apicCheck, Bool.and_eq_true, decide_eq_true_eq, Bool.or_eq_true, Bool.not_eq_true'] at h
  obtain ⟨⟨⟨⟨⟨⟨⟨⟨h1, h2⟩, h3⟩, h4⟩, h5⟩, h6⟩, h7⟩, h8⟩, h9⟩ := h
  refine ⟨h1, h2, h3, ⟨h4, h5, h6, h7, fun hp => ?_⟩, fun ht => ?_⟩
  · rcases h8 with h8 | h8
    · simp [h8] at hp
    · exact h8
  · rcases h9 with h9 | h9
    · simp [h9] at ht
    · exact h9

/-- The conditions of `GuestInv`, evaluated. -/
def guestCheck (s : State) : Bool :=
  s.mem.wf && vmEntryChecks s && (s.vmcs.ctl.vid || !s.pending) && (!s.vmcs.ctl.intrWindowExiting || !s.pending)

theorem guestInv_of_check {s : State} (h : guestCheck s = true) : GuestInv s := by
  simp only [guestCheck, Bool.and_eq_true, Bool.or_eq_true, Bool.not_eq_true'] at h
  obtain ⟨⟨⟨h1, h2⟩, h3⟩, h4⟩ := h
  refine ⟨h1, fun _ => h2, fun _ hv => ?_, fun _ hw => ?_⟩
  · simpa [hv] using h3
  · simpa [hw] using h4

/-- A guest that can be delivered its interrupt. -/
theorem ready_deliverable : Deliverable ready :=
  { vid := by decide +kernel, pending := by decide +kernel, ifSet := by decide +kernel, noSti := by decide +kernel,
    noMovSs := by decide +kernel, window := by decide +kernel, state := .inl (by decide +kernel) }

theorem not_deliverable {s : State} (h : s.pending = false) : ¬Deliverable s := fun d => by
  simpa [h] using d.pending

theorem guest0_treated : Treated AccessEnv.plain guest0 :=
  { guest0_runs with virtualized := rfl, linear := rfl, xlat := rfl, plain := rfl, outside := rfl }

/-- The guest with other controls runs, and its accesses to the APIC-access page are treated. -/
theorem withCtl_runs (c : Controls) : Running (withCtl c guest0) :=
  { guest := rfl, placed := show vapicPlaced guest0 = true by decide +kernel, active := rfl }

theorem withCtl_treated {c : Controls} (h : c.virtApicAccesses = true) : Treated AccessEnv.plain (withCtl c guest0) :=
  { withCtl_runs c with virtualized := h, linear := rfl, xlat := rfl, plain := rfl, outside := rfl }

/-- A guest with one input. -/
def stepping (s : State) (op : Carrier) : State := { s with inputs := [{ env := [], op := op }] }

theorem witness_StepRunsDecodedOperation :
    ∃ (s s1 : State) (inp : StepInput) (rest : List StepInput) (i : Instr), s.userNotified = false ∧
      s.inputs = inp :: rest ∧ prepare inp.env { s with inputs := rest } = .done s1 ∧
      decode (inp.op.selector (ecx s1)) = .ok i :=
  ⟨stepping guest0 (.event .hlt), guest0, { env := [], op := .event .hlt }, [], .hlt, rfl, rfl, rfl, rfl⟩

theorem witness_StopsOutsideARun :
    (∃ s : State, s.userNotified = false ∧ s.inputs = []) ∧ (∃ s : State, s.userNotified = true) ∧
      (∃ (s : State) (op : Carrier) (e : DecodeError), decode (op.selector (ecx s)) = .error e) ∧
      (∃ (s : State) (i : Instr), s.mode = .vmxRoot ∧ i ≠ .vmEntry) ∧ ∃ s : State, s.mode = .vmxNonRoot :=
  ⟨⟨guest0, rfl, rfl⟩, ⟨{ guest0 with userNotified := true }, rfl⟩,
    ⟨setReg Reg.rcx 0x7FF guest0, .msr .wrmsr, .notApicMsr 0x7FF, rfl⟩,
    ⟨State.reset, .hlt, rfl, by decide⟩, ⟨guest0, rfl⟩⟩

theorem witness_EncodeDecodeRoundTrip : ∃ i : Instr, i.wf = true :=
  ⟨.pageWriteOther 0x081 [1] AccessEnv.plain, by decide⟩

theorem witness_DecodeEncodeRoundTrip : ∃ (sel : Selector) (i : Instr), decode sel = .ok i :=
  ⟨.msr .wrmsr 0x8FF, .wrmsrApicOther 0xFF, rfl⟩

theorem witness_GuestInvKeptByEveryStep : ∃ s t : State, GuestInv s ∧ step s = .next t := by
  obtain ⟨t, h⟩ := next_exists (o := step (stepping ready (.event (.instructionBoundary false)))) (by decide +kernel)
  exact ⟨_, t, guestInv_of_check (by decide +kernel), h⟩

theorem witness_ConsistencyKeptByEveryStep :
    ∃ (s t : State) (inp : StepInput) (rest : List StepInput), ApicInv s ∧ s.inputs = inp :: rest ∧
      inp.op ≠ .event .pprVirtualization ∧ step s = .next t ∧ t.mode = .vmxNonRoot := by
  obtain ⟨t, h, hm⟩ := next_of (o := step (stepping ready (.event (.instructionBoundary false))))
    (p := fun t => decide (t.mode = .vmxNonRoot)) (by decide +kernel)
  exact ⟨_, t, _, _, apicInv_of_check (by decide +kernel), rfl, by decide, h, of_decide_eq_true hm⟩

theorem witness_InternalOperationsKeepConsistency :
    (∃ s t : State, ApicInv s ∧ s.pending = true ∧ exec .virtualInterruptDelivery s = .next t) ∧
      ∃ s t : State, ApicInv s ∧ s.vmcs.ctl.tprShadow = true ∧ exec .pprVirtualization s = .next t := by
  obtain ⟨t, h⟩ := next_exists (o := exec .virtualInterruptDelivery ready) (by decide +kernel)
  obtain ⟨u, k⟩ := next_exists (o := exec .pprVirtualization ready) (by decide +kernel)
  exact ⟨⟨ready, t, apicInv_of_check (by decide +kernel), by decide +kernel, h⟩,
    ⟨ready, u, apicInv_of_check (by decide +kernel), by decide +kernel, k⟩⟩

/-- A 256-bit value with the highest of its bits, evaluated. -/
def highestCheck (x : BitVec 256) (v : IntVector) : Bool :=
  x.getLsbD v.toNat && (List.range 256).all fun n => !x.getLsbD n || decide (n ≤ v.toNat)

theorem isHighest_of_check {x : BitVec 256} {v : IntVector} (h : highestCheck x v = true) : IsHighest x v := by
  simp only [highestCheck, Bool.and_eq_true, List.all_eq_true, List.mem_range, Bool.or_eq_true, Bool.not_eq_true',
    decide_eq_true_eq] at h
  refine .inr ⟨h.1, fun n hn => ?_⟩
  have hlt : n < 256 := by
    by_contra hge
    rw [BitVec.getLsbD_of_ge _ _ (by omega)] at hn
    exact absurd hn (by decide)
  rcases h.2 n hlt with h0 | h0
  · simp [h0] at hn
  · exact h0

theorem witness_VmEntryEstablishesConsistency :
    ∃ s t : State, s.vmcs.ctl.vid = true ∧ IsHighest (visr s) s.vmcs.guest.svi ∧
      IsHighest (virr s) s.vmcs.guest.rvi ∧ exec .vmEntry s = .next t := by
  obtain ⟨t, h⟩ := next_exists (o := exec .vmEntry beforeEntry) (by decide +kernel)
  exact ⟨beforeEntry, t, by decide +kernel, .inl ⟨by decide +kernel, by decide +kernel⟩,
    isHighest_of_check (by decide +kernel), h⟩

theorem witness_EoiExitKeepsConsistency :
    ∃ s t : State, ApicInv s ∧ s.vmcs.ctl.tprShadow = true ∧ exec .eoiVirtualization s = .next t ∧
      t.mode = .vmxRoot := by
  obtain ⟨t, h, hm⟩ := next_of (o := exec .eoiVirtualization { ready with vmcs := { vmcs0 with eoiExitBitmap := 1 } })
    (p := fun t => decide (t.mode = .vmxRoot)) (by decide +kernel)
  exact ⟨_, t, apicInv_of_check (by decide +kernel), rfl, h, of_decide_eq_true hm⟩

theorem witness_ConfigurationIsConstant : ∃ i s t, exec i s = .next t ∧ t ≠ s := by
  obtain ⟨t, h, hm⟩ := next_of (o := exec .hlt ready) (p := fun t => decide (t ≠ ready)) (by decide +kernel)
  exact ⟨_, ready, t, h, of_decide_eq_true hm⟩

theorem witness_GeneralRegistersKept :
    ∃ (i : Instr) (s t : State) (r : Reg), exec i s = .next t ∧ i ≠ .movFromCr8 r ∧
      ∀ it, i = .repStringIteration it → r ≠ Reg.rcx ∧ r ≠ Reg.rsi ∧ r ≠ Reg.rdi := by
  obtain ⟨t, h⟩ := next_exists
    (o := exec (.repStringIteration { accs := [], rcx := 1, rsi := 2, rdi := 3, more := true }) guest0) (by decide +kernel)
  exact ⟨_, guest0, t, Reg.rax, h, by decide, fun _ _ => by decide⟩

theorem witness_FlagsAndBlockingKept : ∃ (i : Instr) (s t : State), exec i s = .next t ∧ (∀ a b, i ≠ .sti a b) ∧
    (∀ b, i ≠ .movSs b) ∧ (∀ b, i ≠ .popSs b) ∧ (∀ pv x, i ≠ .externalInterrupt pv x) ∧
    ∀ pv x, i ≠ .postedInterruptProcessing pv x := by
  obtain ⟨t, h⟩ := next_exists (o := exec (.instructionBoundary false) ready) (by decide +kernel)
  exact ⟨_, ready, t, h, by simp, by simp, by simp, by simp, by simp⟩

theorem witness_ActivityAndModesKept : ∃ (i : Instr) (s t : State), exec i s = .next t ∧ i ≠ .hlt ∧ i ≠ .mwait ∧
    i ≠ .virtualInterruptDelivery ∧ (∀ h, i ≠ .instructionBoundary h) ∧ (∀ pv x, i ≠ .externalInterrupt pv x) ∧
    ∀ pv x, i ≠ .postedInterruptProcessing pv x := by
  obtain ⟨t, h⟩ := next_exists (o := exec .eoiVirtualization ready) (by decide +kernel)
  exact ⟨_, ready, t, h, by simp, by simp, by simp, by simp, by simp, by simp⟩

theorem witness_VmExitSavesTheGuest : (∃ (i : Instr) (s t : State), exec i s = .next t ∧ t.mode = .vmxRoot) ∧
    ∃ (i : Instr) (s t : State), exec i s = .next t ∧ t.mode = .vmxNonRoot := by
  obtain ⟨t, h, hm⟩ := next_of (o := exec (.pageFetch 0 1 AccessEnv.plain) guest0)
    (p := fun t => decide (t.mode = .vmxRoot)) (by decide +kernel)
  obtain ⟨u, k, km⟩ := next_of (o := exec .hlt guest0) (p := fun t => decide (t.mode = .vmxNonRoot)) (by decide +kernel)
  exact ⟨⟨_, _, t, h, of_decide_eq_true hm⟩, ⟨_, _, u, k, of_decide_eq_true km⟩⟩

/-- Both exits of the triggers: TPR virtualization below the threshold, and EOI virtualization of a vector of the
EOI-exit bitmap. -/
theorem witness_TprAndEoiExitsOnlyByTheirTriggers :
    (∃ (i : Instr) (s t : State), s.mode = .vmxNonRoot ∧ exec i s = .next t ∧ t.mode = .vmxRoot ∧
      t.lastExit = some .tprBelowThreshold) ∧
    ∃ (i : Instr) (s t : State) (v : IntVector), s.mode = .vmxNonRoot ∧ exec i s = .next t ∧ t.mode = .vmxRoot ∧
      t.lastExit = some (.eoiInduced v) := by
  obtain ⟨t, h, hm⟩ := next_of (o := exec .tprVirtualization (fields [(offTpr, 0x2F)] (withCtl tprOnly guest0)))
    (p := fun t => decide (t.mode = .vmxRoot ∧ t.lastExit = some .tprBelowThreshold)) (by decide +kernel)
  obtain ⟨u, k, km⟩ := next_of (o := exec .eoiVirtualization { ready with vmcs := { vmcs0 with eoiExitBitmap := 1 } })
    (p := fun t => decide (t.mode = .vmxRoot ∧ t.lastExit = some (.eoiInduced 0))) (by decide +kernel)
  exact ⟨⟨_, _, t, rfl, h, of_decide_eq_true hm⟩, ⟨_, _, u, 0, rfl, k, of_decide_eq_true km⟩⟩

theorem witness_VpprWrittenOnlyByItsCauses : ∃ (i : Instr) (s t : State), exec i s = .next t ∧ s.vmcs.ctl.vid = true ∧
    regionsDisjoint (vmcsRegions s.vmcs) = true ∧ ∃ off d e, i = .pageWriteOther off d e := by
  obtain ⟨t, h⟩ := next_exists (o := exec (.pageWriteOther 0x09C [1, 2, 3, 4] AccessEnv.plain) directing) (by decide +kernel)
  exact ⟨_, _, t, h, rfl, rfl, _, _, _, rfl⟩

theorem witness_RecognitionChangesOnlyByItsCauses : ∃ (i : Instr) (s t : State), exec i s = .next t ∧
    (∃ v a, i = .ipiVirtualization v a) := by
  obtain ⟨t, h⟩ := next_exists (o := exec (.ipiVirtualization 0x10 3) guest0) (by decide +kernel)
  exact ⟨_, _, t, h, 0x10, 3, rfl⟩

theorem witness_AgentsLeaveLiveFieldsAlone : ∃ s t : State, s.mode = .vmxNonRoot ∧ agentGap s = .done t :=
  ⟨guest0, guest0, rfl, rfl⟩

/-- The clauses of VM entry: both kinds of guest, and each failing check. -/
theorem witness_VmEntryResult :
    (∃ s : State, s.mode = .vmxRoot ∧ (s.vmcs.ctl.tprShadow = true → s.vmcs.vapicAddr.extractLsb' 0 12 = 0) ∧
      (s.vmcs.ctl.postedIntr = true → s.vmcs.ctl.extIntrExiting = true) ∧ runPremises s = true ∧
      vapicPlaced s = true ∧ s.vmcs.ctl.vid = true) ∧
    (∃ s : State, s.mode = .vmxRoot ∧ runPremises s = true ∧ s.vmcs.ctl = Controls.all false) ∧
    (∃ s : State, s.mode = .vmxRoot ∧ s.vmcs.ctl.tprShadow = true ∧ s.vmcs.vapicAddr.extractLsb' 0 12 ≠ 0) ∧
    ∃ s : State, s.mode = .vmxRoot ∧ s.vmcs.ctl.postedIntr = true ∧ s.vmcs.ctl.extIntrExiting = false :=
  ⟨⟨{ guest0 with mode := .vmxRoot }, rfl, fun _ => by decide +kernel, fun _ => rfl, by decide +kernel,
      by decide +kernel, rfl⟩,
    ⟨State.reset, rfl, by decide +kernel, rfl⟩,
    ⟨{ guest0 with mode := .vmxRoot, vmcs := { vmcs0 with vapicAddr := 0x5008 } }, rfl, rfl, by decide +kernel⟩,
    ⟨{ guest0 with mode := .vmxRoot, vmcs := { vmcs0 with ctl := { allCtl with extIntrExiting := false } } }, rfl, rfl, rfl⟩⟩

/-- TPR virtualization: with VID, and without VID below and at the threshold (V310). -/
theorem witness_TprVirtualizationResult :
    (∃ s : State, InGuest s ∧ s.vmcs.ctl.tprShadow = true ∧ s.vmcs.ctl.vid = true) ∧
    (∃ s : State, InGuest s ∧ s.vmcs.ctl.tprShadow = true ∧ s.vmcs.ctl.vid = false ∧
      (vtpr s).extractLsb' 4 4 < s.vmcs.tprThreshold) ∧
    ∃ s : State, InGuest s ∧ s.vmcs.ctl.tprShadow = true ∧ s.vmcs.ctl.vid = false ∧
      (vtpr s).extractLsb' 4 4 = s.vmcs.tprThreshold :=
  ⟨⟨guest0, guest0_runs.toInGuest, rfl, rfl⟩,
    ⟨fields [(offTpr, 0x2F)] (withCtl tprOnly guest0), ⟨rfl, by decide +kernel⟩, rfl, rfl, by decide +kernel⟩,
    ⟨fields [(offTpr, 0x30)] (withCtl tprOnly guest0), ⟨rfl, by decide +kernel⟩, rfl, rfl, by decide +kernel⟩⟩

/-- PPR virtualization, at equal classes and one below (R153). -/
theorem witness_PprVirtualizationResult :
    (∃ s : State, InGuest s ∧ s.vmcs.ctl.vid = true ∧ s.svi.extractLsb' 4 4 = (vtpr s).extractLsb' 4 4) ∧
    ∃ s : State, InGuest s ∧ s.vmcs.ctl.vid = true ∧ (vtpr s).extractLsb' 4 4 < s.svi.extractLsb' 4 4 :=
  ⟨⟨guest0, guest0_runs.toInGuest, rfl, by decide +kernel⟩,
    ⟨{ guest0 with svi := 0x10 }, ⟨rfl, by decide +kernel⟩, rfl, by decide +kernel⟩⟩

/-- EOI virtualization, with the exit bitmap's bit 1 and 0. -/
theorem witness_EoiVirtualizationResult :
    (∃ s : State, InGuest s ∧ s.vmcs.ctl.vid = true ∧ s.vmcs.eoiExitBitmap.getLsbD s.svi.toNat = true) ∧
    ∃ s : State, InGuest s ∧ s.vmcs.ctl.vid = true ∧ s.vmcs.eoiExitBitmap.getLsbD s.svi.toNat = false :=
  ⟨⟨{ guest0 with vmcs := { vmcs0 with eoiExitBitmap := 1 } }, ⟨rfl, by decide +kernel⟩, rfl, by decide +kernel⟩,
    ⟨guest0, guest0_runs.toInGuest, rfl, by decide +kernel⟩⟩

theorem witness_SelfIpiVirtualizationResult : ∃ s : State, InGuest s ∧ s.vmcs.ctl.vid = true :=
  ⟨guest0, guest0_runs.toInGuest, rfl⟩

/-- IPI virtualization: vectors 15 and 16, the last index and the one after it, a valid and an invalid entry. -/
theorem witness_IpiVirtualizationResult :
    ∃ s : State, s.mode = .vmxNonRoot ∧ s.vmcs.ctl.ipiVirt = true ∧ Alone s ∧ TableUsable s ∧ s.activity = .active ∧
      IpiIllegal 0x0F 2 s ∧ ¬IpiIllegal 0x10 2 s ∧ IpiIllegal 0x10 3 s ∧ IpiIllegal 0x10 4 s := by
  refine ⟨guest0, rfl, rfl, rfl, guest0_table, rfl, .inl (by decide), ?_, ?_, ?_⟩ <;> unfold IpiIllegal <;> decide +kernel

theorem witness_IpiIllegalVectorExits :
    ∃ s : State, s.mode = .vmxNonRoot ∧ s.vmcs.ctl.ipiVirt = true ∧
      ((0x0F : IntVector).toNat < 16 ∨ s.vmcs.lastPidIndex < (2 : ApicId).toNat) ∧
      ((0xFF : IntVector).toNat < 16 ∨ s.vmcs.lastPidIndex < (4 : ApicId).toNat) :=
  ⟨guest0, rfl, rfl, .inl (by decide), .inr (by decide)⟩

theorem witness_IpiLeavesTheSenderAlone : ∃ s t : State, exec (.ipiVirtualization 0x41 2) s = .next t ∧
    s.vmcs.ctl.vid = true ∧ t.mem ≠ s.mem := by
  obtain ⟨t, h, hm⟩ := next_of (o := exec (.ipiVirtualization 0x41 2) guest0)
    (p := fun t => decide (t.mem ≠ guest0.mem)) (by decide +kernel)
  exact ⟨guest0, t, h, rfl, of_decide_eq_true hm⟩

theorem witness_EvaluationResult : ∃ s : State, InGuest s ∧ s.vmcs.ctl.vid = true := ⟨ready, ready_runs.toInGuest, by decide +kernel⟩

theorem witness_DeliveryResult : (∃ s : State, InGuest s ∧ Deliverable s) ∧
    ∃ s : State, s.mode = .vmxNonRoot ∧ s.vmcs.ctl.vid = true ∧ ¬Deliverable s :=
  ⟨⟨ready, ready_runs.toInGuest, ready_deliverable⟩, ⟨guest0, rfl, rfl, not_deliverable rfl⟩⟩

theorem witness_DeliveryAtBoundaries : (∃ s : State, InGuest s ∧ Deliverable s) ∧
    (∃ s : State, s.mode = .vmxNonRoot ∧ Deliverable s) ∧ ∃ s : State, s.mode = .vmxNonRoot ∧ ¬Deliverable s :=
  ⟨⟨ready, ready_runs.toInGuest, ready_deliverable⟩, ⟨ready, ready_runs.guest, ready_deliverable⟩,
    ⟨guest0, rfl, not_deliverable rfl⟩⟩

theorem witness_DeliveryBeforeExternalInterrupt : ∃ s u : State, InGuest s ∧ Deliverable s ∧
    exec (.instructionBoundary false) s = .next u ∧ u.userNotified = false := by
  obtain ⟨u, h, hm⟩ := next_of (o := exec (.instructionBoundary false) ready)
    (p := fun t => !t.userNotified) (by decide +kernel)
  exact ⟨ready, u, ready_runs.toInGuest, ready_deliverable, h, by simpa using hm⟩

theorem witness_DeliveryBeforeExternalInterrupt_user : ∃ s u : State, InGuest s ∧ Deliverable s ∧
    exec (.instructionBoundary false) s = .next u ∧ u.userNotified = true := by
  obtain ⟨u, h, hm⟩ := next_of
    (o := exec (.instructionBoundary false) { ready with cr4Uintr := true, eferLma := true, vmcs := { vmcs0 with uinv := 0x51 } })
    (p := fun t => t.userNotified) (by decide +kernel)
  exact ⟨_, u, ⟨by decide +kernel, by decide +kernel⟩,
    ⟨rfl, by decide +kernel, by decide +kernel, by decide +kernel, by decide +kernel, rfl, .inl (by decide +kernel)⟩, h, hm⟩

theorem guest0_posted : PostedReady guest0 :=
  { guest0_runs.toInGuest with
    posted := rfl, ext := rfl, vid := rfl, desc := by decide +kernel, apart := rfl, state := .inl rfl }

theorem witness_PostedProcessingResult : ∃ s : State, PostedReady s ∧ Alone s ∧ ¬Deliverable s :=
  ⟨guest0, guest0_posted, rfl, not_deliverable rfl⟩

/-- With posted interrupts another vector, and without them any. -/
theorem witness_ExternalInterruptExits :
    (∃ s : State, s.mode = .vmxNonRoot ∧ s.vmcs.ctl.extIntrExiting = true ∧ s.activity = .active ∧ ¬Deliverable s ∧
      s.vmcs.ctl.postedIntr = true ∧ (0x30 : IntVector) ≠ s.vmcs.piNv) ∧
    (∃ s : State, s.mode = .vmxNonRoot ∧ s.vmcs.ctl.extIntrExiting = true ∧ s.activity = .mwait ∧
      s.vmcs.ctl.postedIntr = true ∧ (0x30 : IntVector) ≠ s.vmcs.piNv ∧ Deliverable s) ∧
    ∃ s : State, s.mode = .vmxNonRoot ∧ s.vmcs.ctl.extIntrExiting = true ∧ s.activity = .active ∧ ¬Deliverable s ∧
      s.vmcs.ctl.postedIntr = false :=
  ⟨⟨guest0, rfl, rfl, rfl, not_deliverable rfl, rfl, by decide⟩,
    ⟨{ ready with activity := .mwait }, by decide +kernel, by decide +kernel, rfl, by decide +kernel, by decide +kernel,
      { ready_deliverable with state := .inr (.inr rfl) }⟩,
    ⟨withCtl { allCtl with postedIntr := false } guest0, rfl, rfl, rfl, not_deliverable rfl, rfl⟩⟩

theorem witness_ExternalInterruptRefusals :
    (∃ s : State, s.mode = .vmxNonRoot ∧ ¬Deliverable s ∧ s.vmcs.ctl.extIntrExiting = false ∧ s.activity = .active) ∧
    (∃ s : State, s.mode = .vmxNonRoot ∧ s.activity = .shutdown) ∧ ∃ s : State, s.mode = .vmxNonRoot ∧ s.activity = .waitForSipi :=
  ⟨⟨withCtl tprOnly guest0, rfl, not_deliverable rfl, rfl, rfl⟩, ⟨{ guest0 with activity := .shutdown }, rfl, rfl⟩,
    ⟨{ guest0 with activity := .waitForSipi }, rfl, rfl⟩⟩

theorem witness_TprWritesVirtualize :
    (∃ s : State, Running s ∧ s.vmcs.ctl.virtX2apic = true ∧ s.vmcs.ctl.tprShadow = true ∧ s.vmcs.ctl.vid = true) ∧
    ∃ s : State, Running s ∧ s.vmcs.ctl.virtX2apic = true ∧ s.vmcs.ctl.tprShadow = true ∧ s.vmcs.ctl.vid = false :=
  ⟨⟨guest0, guest0_runs, rfl, rfl, rfl⟩,
    ⟨withCtl { tprOnly with virtX2apic := true } guest0, withCtl_runs _, rfl, rfl, rfl⟩⟩

theorem witness_TprReadResult : ∃ s : State, Running s ∧ s.vmcs.ctl.tprShadow = true := ⟨guest0, guest0_runs, rfl⟩

theorem witness_MsrEoiAndSelfIpi : ∃ s : State, Running s ∧ s.vmcs.ctl.virtX2apic = true ∧ s.vmcs.ctl.vid = true :=
  ⟨guest0, guest0_runs, rfl, rfl⟩

theorem witness_MsrIcrSendsIpi : ∃ (s : State) (v : IntVector) (a : ApicId), Running s ∧ s.vmcs.ctl.virtX2apic = true ∧
    s.vmcs.ctl.ipiVirt = true ∧ Alone s ∧ TableUsable s ∧
    Config.icrMsrOperands ((getReg s Reg.rdx).extractLsb' 0 32 ++ (getReg s Reg.rax).extractLsb' 0 32) = (v, a) :=
  ⟨guest0, _, _, guest0_runs, rfl, rfl, rfl, guest0_table, rfl⟩

/-- The refused forms, and each enabling control at 0. -/
theorem witness_MsrRefusals : (∃ s : State, Running s ∧ s.vmcs.ctl.virtX2apic = true) ∧
    ∃ s : State, Running s ∧ s.vmcs.ctl.tprShadow = false ∧ s.vmcs.ctl.vid = false ∧ s.vmcs.ctl.ipiVirt = false ∧
      s.vmcs.ctl.virtX2apic = false :=
  ⟨⟨guest0, guest0_runs, rfl⟩, ⟨withCtl accessOnly guest0, withCtl_runs _, rfl, rfl, rfl, rfl⟩⟩

theorem witness_NamedEffects : ∃ s : State, Running s := ⟨guest0, guest0_runs⟩

/-- Virtualized reads at the edges of the three fields and of an open range. -/
theorem witness_PageReadVirtualized : Treated AccessEnv.plain guest0 ∧ ReadFromPage guest0 false 0x080 4 ∧
    ReadFromPage guest0 false 0x083 1 ∧ ReadFromPage guest0 false 0x0B3 1 ∧ ReadFromPage guest0 false 0x300 4 ∧
    ReadFromPage guest0 false 0x020 4 ∧ ReadFromPage guest0 false 0x103 1 := by
  refine ⟨guest0_treated, ?_, ?_, ?_, ?_, ?_, ?_⟩ <;> unfold ReadFromPage <;> decide +kernel

/-- Reads that exit, one for each condition of R203 and for R204 (d). -/
theorem witness_PageReadExits : Treated AccessEnv.plain guest0 ∧ ¬ReadFromPage guest0 false 0x080 8 ∧
    ¬ReadFromPage guest0 true 0x080 4 ∧ ¬ReadFromPage guest0 false 0x084 4 ∧ ¬ReadFromPage guest0 false 0x082 4 ∧
    ¬ReadFromPage guest0 false 0x0A0 4 ∧ Treated AccessEnv.plain (withCtl accessOnly guest0) ∧
    ¬ReadFromPage (withCtl accessOnly guest0) false 0x080 4 := by
  refine ⟨guest0_treated, ?_, ?_, ?_, ?_, ?_, withCtl_treated rfl, ?_⟩ <;> unfold ReadFromPage <;> decide +kernel

theorem witness_PageWriteTprAndEoi : ∃ (s : State) (data : List Byte), Treated AccessEnv.plain s ∧
    data.length ∈ s.params.writeSizes ∧ data.length ≤ 4 ∧ s.vmcs.ctl.tprShadow = true ∧ s.vmcs.ctl.vid = true :=
  ⟨guest0, [0x30, 0, 0, 0], guest0_treated, by decide +kernel, by decide, rfl, rfl⟩

theorem witness_PageWriteIcr : ∃ (s : State) (data : List Byte), Treated AccessEnv.plain s ∧
    data.length ∈ s.params.writeSizes ∧ data.length ≤ 4 ∧ (s.vmcs.ctl.vid = true ∨ s.vmcs.ctl.ipiVirt = true) ∧ Alone s ∧
    TableUsable s ∧ regionsDisjoint (vmcsRegions s.vmcs) = true :=
  ⟨guest0, [0x41, 0, 0, 0], guest0_treated, by decide +kernel, by decide, .inl rfl, rfl, guest0_table, rfl⟩

/-- Writes that exit: at 0x080 by their size, and at each kind of offset with no control that virtualizes them. -/
theorem witness_PageWriteExits :
    (Treated AccessEnv.plain (withCtl tprOnly guest0) ∧ WriteExits (withCtl tprOnly guest0) 0x080 1) ∧
    Treated AccessEnv.plain (withCtl accessOnly guest0) ∧
      ∀ off ∈ ([0x080, 0x0B0, 0x300, 0x320] : List PageOff), WriteExits (withCtl accessOnly guest0) off 4 := by
  refine ⟨⟨withCtl_treated rfl, ?_⟩, withCtl_treated rfl, ?_⟩ <;> unfold WriteExits TriggerOn ControlApplies <;>
    decide +kernel

theorem directing_treated : Treated AccessEnv.plain directing :=
  { guest := rfl, placed := by decide +kernel, active := rfl, virtualized := rfl, linear := rfl, xlat := rfl, plain := rfl,
    outside := rfl }

/-- Directed writes up to the bytes no such write reaches, a trigger offset's own among them; writes outside; and the
refusals of R131 without APIC-register virtualization. -/
theorem witness_PageWriteDirected :
    (Treated AccessEnv.plain directing ∧ directing.vmcs.ctl.apicRegVirt = true ∧
      ¬TriggerOn directing 0x0B0 1 ∧ DirectedWrite directing 0x0B0 1 ∧
      ∀ r ∈ ([(0x320, 4), (0x09F, 1), (0x0A4, 1), (0x103, 1)] : List (PageOff × Nat)),
        ¬TriggerOn directing r.1 r.2 ∧ DirectedWrite directing r.1.toNat r.2) ∧
    (∀ r ∈ ([(0x0A3, 1), (0x104, 1), (0xFFF, 2)] : List (PageOff × Nat)),
      ¬TriggerOn directing r.1 r.2 ∧ ¬DirectedWrite directing r.1.toNat r.2) ∧
    ∃ s : State, Treated AccessEnv.plain s ∧ s.vmcs.ctl.apicRegVirt = false ∧
      ∀ r ∈ ([(0x0B0, 1), (0x300, 1), (0x320, 4)] : List (PageOff × Nat)),
        ¬TriggerOn s r.1 r.2 ∧ ControlApplies s r.1 := by
  refine ⟨⟨directing_treated, rfl, ?_, ?_, ?_⟩, ?_, withCtl { allCtl with apicRegVirt := false } guest0,
    withCtl_treated rfl, rfl, ?_⟩ <;> (try unfold TriggerOn) <;> (try unfold DirectedWrite) <;>
    (try unfold ControlApplies) <;> decide +kernel

/-- Plain accesses: just below and just above the APIC-access page. -/
theorem guest0_plain : PlainAccess guest0 (.read 0x7000 4 .ok) ∧ PlainAccess guest0 (.fetch 0x5FFC 4 .ok) ∧
    PlainAccess guest0 (.write 0x5084 [1] .ok false) := by
  refine ⟨?_, ?_, ?_⟩ <;> unfold PlainAccess <;> decide +kernel

/-- Virtualized reads of an iteration: the last byte of VTPR's field, and the first of an open range. -/
theorem guest0_virtualizedRead : VirtualizedRead guest0 (.read 0x6083 1 .ok) ∧
    VirtualizedRead guest0 (.read 0x6020 4 .ok) := by
  refine ⟨?_, ?_⟩ <;> unfold VirtualizedRead ReadFromPage <;> decide +kernel

theorem guest0_quiet : ∀ a ∈ [LinearAccess.read 0x7000 4 .ok, .read 0x6083 1 .ok], QuietAccess guest0 a := by
  simp only [List.forall_mem_cons, List.not_mem_nil, false_imp_iff, implies_true, and_true]
  exact ⟨.inl guest0_plain.1, .inr guest0_virtualizedRead.1⟩

/-- A write of 0x41 to the field at `off` of the APIC-access page. -/
def storeAt (off : PageOff) : LinearAccess := .write (0x6000 + off.setWidth 64) [0x41, 0, 0, 0] .ok false

/-- What an iteration leaves after a write at 0x080 that its trigger took. -/
def reached (s : State) : State :=
  match linearAccesses [storeAt 0x080] (beginAccess false s) with
  | .done u => u
  | .exit _ _ | .abort _ | .refuse _ => s

theorem guest0_reaches : AccessesReach [storeAt 0x080] guest0 (reached guest0) := by unfold AccessesReach; decide +kernel

theorem directing_reaches : AccessesReach [storeAt 0x080] directing (reached directing) := by
  unfold AccessesReach; decide +kernel

theorem reached_table : TableUsable (reached guest0) := by
  intro t ht
  have h : pidEntry (reached guest0) t = pidEntry guest0 t := by
    have ht3 : t.toNat ≤ 3 := ht
    have : t = 0 ∨ t = 1 ∨ t = 2 ∨ t = 3 := by bv_omega
    rcases this with rfl | rfl | rfl | rfl <;> decide +kernel
  rw [h]
  exact guest0_table t ht

/-- Page accesses that fault, and a string iteration whose store of the APIC-access page faults after a virtualized read,
and one after a virtualized write. -/
theorem witness_FaultsComeFirst : (∃ (s : State) (e f : AccessEnv), Running s ∧ s.vmcs.ctl.virtApicAccesses = true ∧
    e.linear = true ∧ e.xlat = .pageFault ∧ f.linear = true ∧ f.xlat = .eptViolation) ∧
    ∃ (s : State) (it : RepIter) (before : List LinearAccess) (a b : LinearAccess) (after : List LinearAccess),
      Running s ∧ it.accs = before ++ a :: after ∧ (∀ c ∈ before, QuietAccess s c) ∧ accessXlat a = .pageFault ∧
      accessXlat b = .eptViolation ∧ after ≠ [] ∧ ∃ u, AccessesReach [storeAt 0x080] s u ∧ u.wroteVirt = true :=
  ⟨⟨guest0, { AccessEnv.plain with xlat := .pageFault }, { AccessEnv.plain with xlat := .eptViolation }, guest0_runs,
      rfl, rfl, rfl, rfl, rfl⟩,
    ⟨guest0,
      { accs := [.read 0x7000 4 .ok, .read 0x6083 1 .ok] ++ [.write 0x6080 [1] .pageFault false, .read 0x7000 4 .ok],
        rcx := 0, rsi := 0, rdi := 0, more := true }, _, .write 0x6080 [1] .pageFault false,
      .write 0x6080 [1] .eptViolation false, _, guest0_runs, rfl, guest0_quiet, rfl, rfl, by simp,
      _, guest0_reaches, by decide +kernel⟩⟩

/-- A write at each trigger offset is one that its trigger takes. -/
theorem guest0_trigger (off : PageOff) (h : off ∈ ([0x080, 0x0B0, 0x300] : List PageOff)) :
    TreatedWrite guest0 off [0x41, 0, 0, 0] (.write (0x6000 + off.setWidth 64) [0x41, 0, 0, 0] .ok false) ∧
      TriggerOn guest0 off 4 := by
  revert off
  unfold TreatedWrite TriggerOn
  decide +kernel

theorem guest0_plain_store : PlainAccess guest0 (.write 0x9000 [7] .ok false) := by unfold PlainAccess; decide +kernel

/-- Quiet accesses with both kinds of read; an iteration with a write at each trigger offset before a plain one; and one
after another such write. -/
theorem witness_StringIterationCompletes :
    (∃ (s : State) (it : RepIter), Running s ∧ (∀ a ∈ it.accs, QuietAccess s a) ∧
      ∃ before pa n after, it.accs = before ++ .read pa n .ok :: after ∧ VirtualizedRead s (.read pa n .ok) ∧
        ∀ a ∈ after, ∃ pa d x b, a = .write pa d x b) ∧
    ∀ off ∈ ([0x080, 0x0B0, 0x300] : List PageOff), ∃ (s : State) (it : RepIter) (before : List LinearAccess)
      (a : LinearAccess) (d : List Byte), Running s ∧ it.accs = before ++ a :: [.write 0x9000 [7] .ok false] ∧
        (∀ b ∈ before, QuietAccess s b) ∧ TreatedWrite s off d a ∧ TriggerOn s off d.length ∧
        (∀ b ∈ [LinearAccess.write 0x9000 [7] .ok false], PlainAccess s b) ∧ Alone s ∧
        TableUsable (afterAccesses before (before ++ [a]) s) ∧ regionsDisjoint (vmcsRegions s.vmcs) = true ∧
        ∃ u, AccessesReach [storeAt 0x080] s u ∧ Alone u ∧ TableUsable u :=
  ⟨⟨guest0, { accs := [.read 0x7000 4 .ok, .read 0x6083 1 .ok], rcx := 0, rsi := 0, rdi := 0, more := false },
      guest0_runs, guest0_quiet, [.read 0x7000 4 .ok], 0x6083, 1, [], rfl, guest0_virtualizedRead.1,
      fun _ h => absurd h List.not_mem_nil⟩,
    fun off h => ⟨guest0,
      { accs := [.read 0x7000 4 .ok, .read 0x6083 1 .ok] ++
          .write (0x6000 + off.setWidth 64) [0x41, 0, 0, 0] .ok false :: [.write 0x9000 [7] .ok false],
        rcx := 0, rsi := 0, rdi := 0, more := true }, _, _, _,
      guest0_runs, rfl, guest0_quiet, (guest0_trigger off h).1, (guest0_trigger off h).2,
      by simpa using guest0_plain_store, rfl, guest0_table, rfl, _, guest0_reaches, rfl, reached_table⟩⟩

/-- Each kind of access that exits, at the page's last byte and its first, with and without "use TPR shadow"; a
directed write; and, after a write that its trigger took, a read of the page and a directed write. -/
theorem witness_StringIterationExits :
    Running (withCtl accessOnly guest0) ∧ PlainAccess (withCtl accessOnly guest0) (.read 0x7000 4 .ok) ∧
      UnvirtualizedAccess (withCtl accessOnly guest0) false 0xFFF .read (.read 0x6FFF 1 .ok) ∧
      UnvirtualizedAccess (withCtl accessOnly guest0) false 0x000 .fetch (.fetch 0x6000 1 .ok) ∧
      UnvirtualizedAccess (withCtl accessOnly guest0) false 0x080 .write (.write 0x6080 [1, 0, 0, 0] .ok false) ∧
      UnvirtualizedAccess guest0 false 0x084 .read (.read 0x6084 4 .ok) ∧ Running directing ∧
      TreatedWrite directing 0x320 [1] (.write 0x6320 [1] .ok false) ∧ directing.vmcs.ctl.apicRegVirt = true ∧
      ¬TriggerOn directing 0x320 1 ∧ DirectedWrite directing 0x320 1 ∧
      AccessesReach [storeAt 0x080] directing (reached directing) ∧
      UnvirtualizedAccess directing (reached directing).wroteVirt 0x080 .read (.read 0x6080 4 .ok) := by
  refine ⟨withCtl_runs _, ?_, ?_, ?_, ?_, ?_, directing_treated.toRunning, ?_, rfl, ?_, ?_, directing_reaches, ?_⟩ <;>
    simp only [PlainAccess, UnvirtualizedAccess, ReadFromPage, WriteExits, TriggerOn, ControlApplies, TreatedWrite,
      DirectedWrite] <;> decide +kernel

theorem witness_MemoryKeptByNonStores : ∃ (s t : State), exec (.pageRead 0x080 4 AccessEnv.plain) s = .next t := by
  obtain ⟨t, h⟩ := next_exists (o := exec (.pageRead 0x080 4 AccessEnv.plain) guest0) (by decide +kernel)
  exact ⟨guest0, t, h⟩

theorem witness_MemoryFrameRegisterForms : (∃ s t : State, exec .tprVirtualization s = .next t) ∧
    (∃ s t : State, exec .pprVirtualization s = .next t) ∧ (∃ s t : State, exec .wrmsrEoi s = .next t) ∧
    (∃ s t : State, exec .eoiVirtualization s = .next t) ∧
    (∃ s t : State, exec (.selfIpiVirtualization 0xFF) s = .next t) ∧ ∃ s t : State, exec .vmEntry s = .next t := by
  obtain ⟨a, ha⟩ := next_exists (o := exec .tprVirtualization guest0) (by decide +kernel)
  obtain ⟨b, hb⟩ := next_exists (o := exec .pprVirtualization guest0) (by decide +kernel)
  obtain ⟨c, hc⟩ := next_exists (o := exec .wrmsrEoi guest0) (by decide +kernel)
  obtain ⟨d, hd⟩ := next_exists (o := exec .eoiVirtualization guest0) (by decide +kernel)
  obtain ⟨e, he⟩ := next_exists (o := exec (.selfIpiVirtualization 0xFF) guest0) (by decide +kernel)
  obtain ⟨f, hf⟩ := next_exists (o := exec .vmEntry beforeEntry) (by decide +kernel)
  exact ⟨⟨_, a, ha⟩, ⟨_, b, hb⟩, ⟨_, c, hc⟩, ⟨_, d, hd⟩, ⟨_, e, he⟩, ⟨_, f, hf⟩⟩

theorem witness_MemoryFrameDelivery : ∃ s t : State, exec .virtualInterruptDelivery s = .next t := by
  obtain ⟨t, h⟩ := next_exists (o := exec .virtualInterruptDelivery ready) (by decide +kernel)
  exact ⟨_, t, h⟩

theorem witness_MemoryFrameIpi : ∃ s t u : State, Alone s ∧ exec (.ipiVirtualization 0x10 2) s = .next t ∧
    exec (.senduipi 0x10 3) s = .next u ∧ IpiIllegal 0x10 3 s := by
  obtain ⟨t, h⟩ := next_exists (o := exec (.ipiVirtualization 0x10 2) guest0) (by decide +kernel)
  obtain ⟨u, k⟩ := next_exists (o := exec (.senduipi 0x10 3) guest0) (by decide +kernel)
  exact ⟨guest0, t, u, rfl, h, k, by unfold IpiIllegal; decide +kernel⟩

theorem witness_MemoryFramePosted : ∃ s t u : State, Alone s ∧ exec (.postedInterruptProcessing 0xF2 false) s = .next t ∧
    exec (.externalInterrupt 0xF2 false) s = .next u := by
  obtain ⟨t, h⟩ := next_exists (o := exec (.postedInterruptProcessing 0xF2 false) guest0) (by decide +kernel)
  obtain ⟨u, k⟩ := next_exists (o := exec (.externalInterrupt 0xF2 false) guest0) (by decide +kernel)
  exact ⟨guest0, t, u, rfl, h, k⟩

/-- Writes that R192 lets the processor treat as untreated, and treated ones. -/
theorem witness_MemoryFramePageWrites :
    (∃ s t : State, exec (.pageWriteOther 0x320 [1] { AccessEnv.plain with subPage := true }) s = .next t) ∧
    (∃ s t : State, exec (.pageWriteTpr [1, 0, 0, 0] AccessEnv.plain) s = .next t) ∧
    (∃ s t : State, exec (.pageWriteEoi [1, 0, 0, 0] AccessEnv.plain) s = .next t) ∧
    (∃ s t : State, exec (.pageWriteOther 0x320 [1] AccessEnv.plain) s = .next t) ∧
    ∃ s t : State, Alone s ∧ regionsDisjoint (vmcsRegions s.vmcs) = true ∧
      exec (.pageWriteIcrLo [1, 0, 0, 0] AccessEnv.plain) s = .next t := by
  obtain ⟨a, ha⟩ := next_exists
    (o := exec (.pageWriteOther 0x320 [1] { AccessEnv.plain with subPage := true }) guest0) (by decide +kernel)
  obtain ⟨b, hb⟩ := next_exists (o := exec (.pageWriteTpr [1, 0, 0, 0] AccessEnv.plain) guest0) (by decide +kernel)
  obtain ⟨c, hc⟩ := next_exists (o := exec (.pageWriteEoi [1, 0, 0, 0] AccessEnv.plain) guest0) (by decide +kernel)
  obtain ⟨d, hd⟩ := next_exists
    (o := exec (.pageWriteOther 0x320 [1] AccessEnv.plain) (withCtl accessOnly guest0)) (by decide +kernel)
  obtain ⟨e, he⟩ := next_exists
    (o := exec (.pageWriteIcrLo [1, 0, 0, 0] AccessEnv.plain) (withCtl accessOnly guest0)) (by decide +kernel)
  exact ⟨⟨_, a, ha⟩, ⟨_, b, hb⟩, ⟨_, c, hc⟩, ⟨_, d, hd⟩, ⟨withCtl accessOnly guest0, e, rfl, rfl, he⟩⟩

/-- Stores beside the page, and an iteration that ends in a write at each kind of offset. -/
theorem witness_MemoryFrameStringIteration :
    (∃ (s t : State) (it : RepIter), exec (.repStringIteration it) s = .next t ∧ storesOf it.accs = [(0xA000, 1)] ∧
      ∀ a ∈ it.accs, ¬WritesPage s a) ∧
    ∀ off ∈ ([0x080, 0x0B0, 0x320] : List PageOff), ∃ (s t : State) (it : RepIter) (before : List LinearAccess)
      (pa : PhysAddr) (d : List Byte) (x : Xlat), exec (.repStringIteration it) s = .next t ∧
        it.accs = before ++ [.write pa d x false] ∧ (∀ a ∈ before, ¬WritesPage s a) ∧
        WritesPage s (.write pa d x false) ∧ pageOff pa = off := by
  have hb : ¬WritesPage directing (.write 0xA000 [7] .ok false) := by unfold WritesPage; decide +kernel
  have hs (as : List LinearAccess) (h : as = [.write 0xA000 [7] .ok false]) : ∀ a ∈ as, ¬WritesPage directing a := by
    subst h
    simpa using hb
  refine ⟨?_, fun off h => ?_⟩
  · obtain ⟨t, h⟩ := next_exists
      (o := exec (.repStringIteration { accs := [.write 0xA000 [7] .ok false], rcx := 0, rsi := 0, rdi := 0, more := false })
        directing) (by decide +kernel)
    exact ⟨_, t, _, h, rfl, hs _ rfl⟩
  · have hn : ∀ off ∈ ([0x080, 0x0B0, 0x320] : List PageOff), (nextOf (exec (.repStringIteration
        { accs := [.write 0xA000 [7] .ok false] ++ [.write (0x6000 + off.setWidth 64) [1, 0, 0, 0] .ok false], rcx := 0,
          rsi := 0, rdi := 0, more := true }) directing)).any (fun _ => true) = true := by decide +kernel
    have hw : ∀ off ∈ ([0x080, 0x0B0, 0x320] : List PageOff),
        WritesPage directing (.write (0x6000 + off.setWidth 64) [1, 0, 0, 0] .ok false) ∧
          pageOff (0x6000 + off.setWidth 64) = off := by
      unfold WritesPage
      decide +kernel
    obtain ⟨t, ht⟩ := next_exists (hn off h)
    exact ⟨_, t, _, _, _, _, _, ht, rfl, hs _ rfl, (hw off h).1, (hw off h).2⟩

end Sys2Proof.Machine.Slice0
end

section
/-! Proofs of the family of the trigger instructions: the refusals of R120 and R127. -/

namespace Sys2Proof.Machine

/-- An instruction whose enabling condition is false is not virtualized, whatever it would have done (R120). -/
theorem instruction_notVirtualized {c : Bool} {k : State → Res} {s : State} (hr : Running s) (hc : c = false) :
    instruction c k s = .refused .notVirtualized := by
  rw [instruction, inGuest_eq hr.guest, whenActive_eq hr.active, hc]
  rfl

/-- The forms that R127 leaves to the absent section 30.5. -/
theorem absentMsrForms_refused {s : State} (hr : Running s) (hc : s.vmcs.ctl.virtX2apic = true) (idx : BitVec 8) :
    exec (.wrmsrApicOther idx) s = .refused .absentMsrSection ∧
      exec (.rdmsrApic idx) s = .refused .absentMsrSection :=
  ⟨instruction_refuse hr.guest hr.active hc rfl, instruction_refuse hr.guest hr.active hc rfl⟩

/-- "Use TPR shadow" enables the accesses to CR8 and, together with x2APIC virtualization, `WRMSR` 0x808 (R121 to R123). -/
theorem notVirtualized_of_tprShadow {s : State} {i : Instr} (hr : Running s) (hc : s.vmcs.ctl.tprShadow = false)
    (hi : (∃ r, i = .movToCr8 r) ∨ (∃ r, i = .movFromCr8 r) ∨ i = .wrmsrTpr) : exec i s = .refused .notVirtualized := by
  obtain ⟨r, rfl⟩ | ⟨r, rfl⟩ | rfl := hi
  · exact instruction_notVirtualized hr hc
  · exact instruction_notVirtualized hr hc
  · exact instruction_notVirtualized hr (by rw [hc, Bool.and_false])

/-- "Virtual-interrupt delivery" is the second control of `WRMSR` 0x80B and 0x83F (R124, R125). -/
theorem notVirtualized_of_vid {s : State} {i : Instr} (hr : Running s) (hc : s.vmcs.ctl.vid = false)
    (hi : i = .wrmsrEoi ∨ i = .wrmsrSelfIpi) : exec i s = .refused .notVirtualized := by
  obtain rfl | rfl := hi <;> exact instruction_notVirtualized hr (by rw [hc, Bool.and_false])

/-- "IPI virtualization" enables `SENDUIPI` and is the second control of `WRMSR` 0x830 (R126, R133). -/
theorem notVirtualized_of_ipiVirt {s : State} {i : Instr} (hr : Running s) (hc : s.vmcs.ctl.ipiVirt = false)
    (hi : i = .wrmsrIcr ∨ ∃ v a, i = .senduipi v a) : exec i s = .refused .notVirtualized := by
  obtain rfl | ⟨v, a, rfl⟩ := hi
  · exact instruction_notVirtualized hr (by rw [hc, Bool.and_false])
  · exact instruction_notVirtualized hr hc

/-- "Virtualize x2APIC mode" enables every MSR form, alone or as its first control (R123 to R127). -/
theorem notVirtualized_of_virtX2apic {s : State} {i : Instr} (hr : Running s) (hc : s.vmcs.ctl.virtX2apic = false)
    (hi : i = .wrmsrTpr ∨ i = .wrmsrEoi ∨ i = .wrmsrSelfIpi ∨ i = .wrmsrIcr ∨
      (∃ idx, i = .wrmsrApicOther idx) ∨ ∃ idx, i = .rdmsrApic idx) : exec i s = .refused .notVirtualized := by
  have hand (b : Bool) : (s.vmcs.ctl.virtX2apic && b) = false := by rw [hc, Bool.false_and]
  obtain rfl | rfl | rfl | rfl | ⟨idx, rfl⟩ | ⟨idx, rfl⟩ := hi
  · exact instruction_notVirtualized hr (hand _)
  · exact instruction_notVirtualized hr (hand _)
  · exact instruction_notVirtualized hr (hand _)
  · exact instruction_notVirtualized hr (hand _)
  · exact instruction_notVirtualized hr hc
  · exact instruction_notVirtualized hr hc

/-- Settles O43: the two forms of the absent section, and one lemma for each enabling control that is 0. -/
theorem msrRefusals : Obligations.MsrRefusals := by
  refine ⟨fun s idx hr hc => absentMsrForms_refused hr hc idx, fun s i hr h => ?_⟩
  obtain ⟨hc, hi⟩ | ⟨hc, hi⟩ | ⟨hc, hi⟩ | ⟨hc, hi⟩ := h
  · exact notVirtualized_of_tprShadow hr hc hi
  · exact notVirtualized_of_vid hr hc hi
  · exact notVirtualized_of_ipiVirt hr hc hi
  · exact notVirtualized_of_virtX2apic hr hc hi

end Sys2Proof.Machine
end

section
/-! Proofs of the family of the virtual-APIC operations: PPR virtualization as a row of its own (R153). -/

namespace Sys2Proof.Machine

/-- With its enabling condition, in a guest, PPR virtualization completes: it is neither refused nor does it exit. -/
theorem exec_pprVirtualization_next {s : State} (hg : InGuest s) (hc : s.vmcs.ctl.vid = true) :
    exec .pprVirtualization s = .next (pprVirtualization s) := by
  change execPprVirtualization s = _
  rw [execPprVirtualization, inGuest_eq hg.guest, enabledBy_eq hc, onVapicPage_eq hg.placed, finish]

theorem pprRule_pprVirtualization (s : State) : PprRule (vtpr s) s.svi (vppr (pprVirtualization s)) := by
  rw [pprVirtualization, vppr_setVppr]
  exact pprRule_pprValue _ _

/-- A footprint holds no flag, blocking, activity or execution mode. -/
theorem Foot.sameProcessorState {s u : State} (h : Foot s u) : SameProcessorState s u :=
  ⟨h.rflagsIf, h.rflagsRf, h.blockingBySti, h.blockingByMovSs, h.activity, h.transactional, h.enclave, h.userNotified⟩

/-- An operation within a footprint stays in the guest. -/
theorem Foot.still {s u : State} (h : Foot s u) (hm : s.mode = .vmxNonRoot) : Still s u :=
  ⟨h.mode.trans hm, h.lastExit, h.vmcs⟩

theorem memoryOutside_setVapic32 (off : Nat) (v : BitVec 32) (s : State) :
    MemoryOutside [(vapicAt s off, 4)] s (setVapic32 off v s) := fun _ h =>
  Memory.read_writeLe_outside _ _ _ _ _ (h _ (List.mem_singleton_self _))

/-- A store to the virtual-APIC page is a store to memory and nothing else. -/
theorem setVapic32_onlyMem (off : Nat) (v : BitVec 32) (s : State) : { setVapic32 off v s with mem := s.mem } = s := rfl

/-- Settles O26: PPR virtualization is one store to VPPR, of the value of R153. -/
theorem pprVirtualizationResult : Obligations.PprVirtualizationResult := fun s hg hc =>
  have hf := foot_pprVirtualization s
  ⟨pprVirtualization s, exec_pprVirtualization_next hg hc, pprRule_pprVirtualization s,
    ⟨pprVirtualization_rvi s, pprVirtualization_svi s, pprVirtualization_pending s⟩, hf.sameProcessorState,
    hf.still hg.guest, memoryOutside_setVapic32 _ _ s, setVapic32_onlyMem _ _ s⟩

end Sys2Proof.Machine
end

section
/-! Proofs about the selectors (`30_encoding.md`): the decoder and the encoder are inverse to each other, and which
selectors the decoder refuses. -/

namespace Sys2Proof.Machine

/-! ### The encoding of a well-formed operation -/

/-- Settles O4: the round trip of each row, gathered over the operations. -/
theorem encodeDecodeRoundTrip : Obligations.EncodeDecodeRoundTrip
  | .movToCr8 r => Laws.Roundtrip.movToCr8 r
  | .movFromCr8 r => Laws.Roundtrip.movFromCr8 r
  | .wrmsrTpr => Laws.Roundtrip.wrmsrTpr
  | .wrmsrEoi => Laws.Roundtrip.wrmsrEoi
  | .wrmsrSelfIpi => Laws.Roundtrip.wrmsrSelfIpi
  | .wrmsrIcr => Laws.Roundtrip.wrmsrIcr
  | .wrmsrApicOther idx => Laws.Roundtrip.wrmsrApicOther idx
  | .rdmsrApic idx => Laws.Roundtrip.rdmsrApic idx
  | .pageWriteTpr d env => Laws.Roundtrip.pageWriteTpr d env
  | .pageWriteEoi d env => Laws.Roundtrip.pageWriteEoi d env
  | .pageWriteIcrLo d env => Laws.Roundtrip.pageWriteIcrLo d env
  | .pageWriteOther off d env => Laws.Roundtrip.pageWriteOther off d env
  | .pageRead off n env => Laws.Roundtrip.pageRead off n env
  | .pageFetch off n env => Laws.Roundtrip.pageFetch off n env
  | .senduipi v t => Laws.Roundtrip.senduipi v t
  | .sti a b => Laws.Roundtrip.sti a b
  | .movSs b => Laws.Roundtrip.movSs b
  | .popSs b => Laws.Roundtrip.popSs b
  | .hlt => Laws.Roundtrip.hlt
  | .mwait => Laws.Roundtrip.mwait
  | .repStringIteration it => Laws.Roundtrip.repStringIteration it
  | .vmEntry => Laws.Roundtrip.vmEntry
  | .instructionBoundary h => Laws.Roundtrip.instructionBoundary h
  | .externalInterrupt pv x => Laws.Roundtrip.externalInterrupt pv x
  | .tprVirtualization => Laws.Roundtrip.tprVirtualization
  | .pprVirtualization => Laws.Roundtrip.pprVirtualization
  | .eoiVirtualization => Laws.Roundtrip.eoiVirtualization
  | .selfIpiVirtualization v => Laws.Roundtrip.selfIpiVirtualization v
  | .ipiVirtualization v t => Laws.Roundtrip.ipiVirtualization v t
  | .evaluatePendingVirtualInterrupts => Laws.Roundtrip.evaluatePendingVirtualInterrupts
  | .virtualInterruptDelivery => Laws.Roundtrip.virtualInterruptDelivery
  | .postedInterruptProcessing pv x => Laws.Roundtrip.postedInterruptProcessing pv x

/-! ### What the decoder reads -/

/-- An operation and the selector it was read from belong to each other. -/
def ReadFrom (sel : Selector) (i : Instr) : Prop := i.wf = true ∧ encode i = sel

/-- An index of the APIC range with a named low byte is one of the four named indices (R101). -/
theorem named_of_isNamedMsr {ecx : BitVec 32} (hr : ecx.extractLsb' 8 24 = 8)
    (hn : isNamedMsr (ecx.extractLsb' 0 8) = true) :
    ecx = 0x808 ∨ ecx = 0x80B ∨ ecx = 0x830 ∨ ecx = 0x83F := by
  have he := apicMsr_of_range hr
  simp only [isNamedMsr, Bool.or_eq_true, beq_iff_eq] at hn
  obtain ((h | h) | h) | h := hn <;> rw [h] at he
  · exact .inl he.symm
  · exact .inr (.inl he.symm)
  · exact .inr (.inr (.inl he.symm))
  · exact .inr (.inr (.inr he.symm))

theorem readFrom_wrmsr {ecx : BitVec 32} {i : Instr} (h : decodeWrmsr ecx = .ok i) : ReadFrom (.msr .wrmsr ecx) i := by
  unfold decodeWrmsr at h
  split_ifs at h with h1 h2 h3 h4 h5 <;> cases h
  · exact ⟨rfl, by rw [h1]; rfl⟩
  · exact ⟨rfl, by rw [h2]; rfl⟩
  · exact ⟨rfl, by rw [h3]; rfl⟩
  · exact ⟨rfl, by rw [h4]; rfl⟩
  · refine ⟨?_, by rw [encode, apicMsr_of_range h5]⟩
    rw [Instr.wf, Bool.not_eq_true', Bool.eq_false_iff]
    intro hn
    obtain h | h | h | h := named_of_isNamedMsr h5 hn
    · exact h1 h
    · exact h2 h
    · exact h4 h
    · exact h3 h

theorem readFrom_rdmsr {ecx : BitVec 32} {i : Instr} (h : decodeRdmsr ecx = .ok i) : ReadFrom (.msr .rdmsr ecx) i := by
  unfold decodeRdmsr at h
  split_ifs at h with h1
  cases h
  exact ⟨rfl, by rw [encode, apicMsr_of_range h1]⟩

theorem readFrom_pageWrite {off : PageOff} {d : List Byte} {env : AccessEnv} {i : Instr}
    (h : decodePageWrite off d env = .ok i) : ReadFrom (.page (.write off d env)) i := by
  unfold decodePageWrite at h
  split_ifs at h with h0 h1 h2 h3 <;> cases h
  · exact ⟨by simpa [Instr.wf] using h0, by rw [h1]; rfl⟩
  · exact ⟨by simpa [Instr.wf] using h0, by rw [h2]; rfl⟩
  · exact ⟨by simpa [Instr.wf] using h0, by rw [h3]; rfl⟩
  · exact ⟨by simp_all [Instr.wf, isTriggerOff], rfl⟩

theorem readFrom_page {req : PageReq} {i : Instr} (h : decodePage req = .ok i) : ReadFrom (.page req) i := by
  cases req with
  | write off d env => exact readFrom_pageWrite h
  | read off n env | fetch off n env =>
    simp only [decodePage] at h
    split_ifs at h with h0
    cases h
    exact ⟨by simpa [Instr.wf] using Nat.pos_of_ne_zero h0, rfl⟩

/-- Format `EVENT` is checked for a string iteration only; each other member is its operation. -/
theorem readFrom_event {ev : EventOp} {i : Instr} (h : decodeEvent ev = .ok i) : ReadFrom (.event ev) i := by
  cases ev with
  | repStringIteration it =>
    simp only [decodeEvent] at h
    split_ifs at h with hw
    cases h
    exact ⟨hw, rfl⟩
  | _ => cases h; exact ⟨rfl, rfl⟩

/-- Settles O5: format by format. -/
theorem decodeEncodeRoundTrip : Obligations.DecodeEncodeRoundTrip
  | .msr .wrmsr _, _, h => readFrom_wrmsr h
  | .msr .rdmsr _, _, h => readFrom_rdmsr h
  | .page _, _, h => readFrom_page h
  | .cr8 .toCr8 _, _, h => by cases h; exact ⟨rfl, rfl⟩
  | .cr8 .fromCr8 _, _, h => by cases h; exact ⟨rfl, rfl⟩
  | .event _, _, h => readFrom_event h

/-! ### What the decoder refuses -/

/-- Bits 31:8 of an index are 8 exactly in the range of format `MSR` (R101). -/
theorem inApicRange_iff (ecx : BitVec 32) :
    ecx.extractLsb' 8 24 = 8 ↔ 0x800 ≤ ecx.toNat ∧ ecx.toNat ≤ 0x8FF := by
  rw [← BitVec.toNat_inj, BitVec.extractLsb'_toNat, Nat.shiftRight_eq_div_pow]
  change ecx.toNat / 256 % 2 ^ 24 = 8 ↔ _
  omega

theorem decodeRdmsr_error_iff (ecx : BitVec 32) :
    (∃ e, decodeRdmsr ecx = .error e) ↔ ¬(0x800 ≤ ecx.toNat ∧ ecx.toNat ≤ 0x8FF) := by
  rw [← inApicRange_iff]
  unfold decodeRdmsr
  split_ifs with h
  · exact iff_of_false (fun ⟨_, he⟩ => nomatch he) (not_not.2 h)
  · exact iff_of_true ⟨_, rfl⟩ h

/-- The four named indices lie in the range, so that the default's test decides. -/
theorem decodeWrmsr_error_iff (ecx : BitVec 32) :
    (∃ e, decodeWrmsr ecx = .error e) ↔ ¬(0x800 ≤ ecx.toNat ∧ ecx.toNat ≤ 0x8FF) := by
  rw [← inApicRange_iff]
  unfold decodeWrmsr
  split_ifs with h1 h2 h3 h4 h5
  · simp [h1]
  · simp [h2]
  · simp [h3]
  · simp [h4]
  · exact iff_of_false (fun ⟨_, he⟩ => nomatch he) (not_not.2 h5)
  · exact iff_of_true ⟨_, rfl⟩ h5

theorem decodePageWrite_error_iff (off : PageOff) (d : List Byte) (env : AccessEnv) :
    (∃ e, decodePageWrite off d env = .error e) ↔ d = [] := by
  unfold decodePageWrite
  rw [← List.isEmpty_iff]
  split_ifs with h0 <;> simp [h0]

/-- Settles O6: format by format; format `EVENT` refuses nothing but an ill-formed iteration. -/
theorem decoderRefusesExactly : Obligations.DecoderRefusesExactly := by
  refine ⟨fun dir ecx => ?_, fun off n env => ?_, fun off n env => ?_, decodePageWrite_error_iff, fun dir r => ?_,
    fun ev => ?_⟩
  · cases dir with
    | rdmsr => exact decodeRdmsr_error_iff ecx
    | wrmsr => exact decodeWrmsr_error_iff ecx
  · by_cases h : n = 0 <;> simp [decode, decodePage, h]
  · by_cases h : n = 0 <;> simp [decode, decodePage, h]
  · cases dir <;> exact ⟨_, rfl⟩
  · cases ev with
    | repStringIteration it =>
      by_cases hw : it.wf = true
      · exact .inl ⟨_, if_pos hw⟩
      · exact .inr ⟨it, rfl, by simpa using hw⟩
    | _ => exact .inl ⟨_, rfl⟩

/-- Settles O3: each selector of the three tables, decoded. -/
theorem selectorsDecode : Obligations.SelectorsDecode := by
  refine ⟨?_, ?_, ?_, ?_, ?_, ?_, ?_, ?_, ?_, ?_, ?_, ?_, ?_, ?_⟩ <;> rfl

end Sys2Proof.Machine
end

section
/-! Proofs about a step as a whole: what it runs and where it stops. -/

namespace Sys2Proof.Machine

/-- A step whose preparation goes on runs the operation its input presents. -/
theorem step_eq_runOp {s s1 : State} {inp : StepInput} {rest : List StepInput} (hu : s.userNotified = false)
    (hi : s.inputs = inp :: rest) (hp : prepare inp.env { s with inputs := rest } = .done s1) :
    step s = runOp inp.op s1 := by
  rw [step, if_neg (Bool.eq_false_iff.1 hu)]
  simp only [hi, hp]

theorem runOp_decoded {op : Carrier} {s : State} {i : Instr} (hd : decode (op.selector (ecx s)) = .ok i) :
    runOp op s = exec i s := by simp only [runOp, hd]

/-- Settles O1: the step's equation, then that of what its selector decodes to. -/
theorem stepRunsDecodedOperation : Obligations.StepRunsDecodedOperation :=
  fun _ _ _ _ _ hu hi hp hd => (step_eq_runOp hu hi hp).trans (runOp_decoded hd)

/-- Every operation but VM entry happens in the guest (R19). -/
theorem exec_eq_inGuest (s : State) : ∀ i : Instr, i ≠ .vmEntry → ∃ k, exec i s = inGuest k s
  | .vmEntry, h => absurd rfl h
  | .movToCr8 _, _ | .movFromCr8 _, _ | .wrmsrTpr, _ | .wrmsrEoi, _ | .wrmsrSelfIpi, _ | .wrmsrIcr, _
  | .wrmsrApicOther _, _ | .rdmsrApic _, _ | .pageWriteTpr _ _, _ | .pageWriteEoi _ _, _ | .pageWriteIcrLo _ _, _
  | .pageWriteOther _ _ _, _ | .pageRead _ _ _, _ | .pageFetch _ _ _, _ | .senduipi _ _, _ | .sti _ _, _
  | .movSs _, _ | .popSs _, _ | .hlt, _ | .mwait, _ | .repStringIteration _, _ | .instructionBoundary _, _
  | .externalInterrupt _ _, _ | .tprVirtualization, _ | .pprVirtualization, _ | .eoiVirtualization, _
  | .selfIpiVirtualization _, _ | .ipiVirtualization _ _, _ | .evaluatePendingVirtualInterrupts, _
  | .virtualInterruptDelivery, _ | .postedInterruptProcessing _ _, _ => ⟨_, rfl⟩

theorem inGuest_outside {k : State → Res} {s : State} (h : s.mode = .vmxRoot) :
    inGuest k s = .fault .notInGuest := by rw [inGuest, h]; rfl

/-- Settles O2: the branches of a step that run nothing, and the test of the mode that every operation makes. -/
theorem stopsOutsideARun : Obligations.StopsOutsideARun := by
  refine ⟨fun s hu hi => ?_, fun s hu => ?_, fun s op e he => ?_, fun s i hm hi => ?_, fun s hm => if_pos hm⟩
  · simp only [step, hu, hi, Bool.false_eq_true, if_false]
  · simp only [step, hu, if_true]
  · simp only [runOp, he]
  · obtain ⟨k, hk⟩ := exec_eq_inGuest s i hi
    rw [hk, inGuest_outside hm]

end Sys2Proof.Machine
end


section
/-! Proofs about the places of bits and fields in memory (`10_state.md` sections 2 and 5; byte order D3). -/

namespace Sys2Proof.Machine

/-- The bit of a vector within the byte of its field that holds it (R25, R26, R71). -/
theorem vregBit_eq_byte (s : State) (base : Nat) (x : IntVector) :
    vregBit s base x =
      (s.mem.read (vapicAt s (fieldOff base x) + x.toNat % 32 / 8)).getLsbD (x.toNat % 8) := by
  rw [vregBit, fieldBit_eq, vapic32, Memory.getLsbD_read32 _ _ _ (Nat.mod_lt _ (by decide)),
    Nat.mod_mod_of_dvd _ (by decide)]

/-- Settles O22: the byte of a bit of VISR, and of VIRR. -/
theorem placeOfVectorBits : Obligations.PlaceOfVectorBits := fun s x =>
  ⟨(getLsbD_visr s x).trans (vregBit_eq_byte s offIsr x), (getLsbD_virr s x).trans (vregBit_eq_byte s offIrr x)⟩

/-- The high half of a 64-bit value, byte by byte. -/
theorem highHalf_eq_bytes (x : BitVec 64) :
    x.extractLsb' 32 32 = x.extractLsb' 56 8 ++ x.extractLsb' 48 8 ++ x.extractLsb' 40 8 ++ x.extractLsb' 32 8 := by
  rw [BitVec.extractLsb'_append_extractLsb'_eq_extractLsb' (by rfl),
    BitVec.extractLsb'_append_extractLsb'_eq_extractLsb' (by rfl),
    BitVec.extractLsb'_append_extractLsb'_eq_extractLsb' (by rfl)]

/-- Settles O23: PIR by its bits, the fields of `NotifyInfo` by its bytes. -/
theorem placeOfDescriptorFields : Obligations.PlaceOfDescriptorFields := by
  intro m p v
  have byte (k : Nat) (hk : k < 8) : (notifyInfoAt m p).extractLsb' (8 * k) 8 = m.read (p + 32 + k) :=
    Memory.byte_read64 m (p + 32) k hk
  refine ⟨Memory.getLsbD_read256 m p _ v.isLt, Memory.getLsbD_read64 m (p + 32) 0 (by decide), byte 2 (by decide), ?_⟩
  rw [niNdst, highHalf_eq_bytes, byte 7 (by decide), byte 6 (by decide), byte 5 (by decide), byte 4 (by decide)]

end Sys2Proof.Machine
end

section
/-! Proofs about what every operation keeps: the configuration, the registers, the flags and modes, and what a VM exit
saves. Each is read off the inversion `exec_shape`. -/

namespace Sys2Proof.Machine

/-! ### Groups of fields along an operation -/

theorem SameConfiguration.trans {s t u : State} (h : SameConfiguration s t) (k : SameConfiguration t u) :
    SameConfiguration s u := by
  obtain ⟨h1, h2, h3, h4, h5, h6, h7, h8⟩ := h
  obtain ⟨k1, k2, k3, k4, k5, k6, k7, k8⟩ := k
  refine ⟨k1.trans h1, k2.trans h2, k3.trans h3, k4.trans h4, k5.trans h5, k6.trans h6, k7.trans h7, ?_⟩
  rw [← h8, ← k8]

theorem WideFoot.sameConfiguration {s u : State} (h : WideFoot s u) : SameConfiguration s u :=
  ⟨h.cr0Pg, h.cr4Uintr, h.cr8, h.eferLma, h.apicBase, h.vmxBasic, h.params, by rw [h.vmcs]⟩

/-- However an operation ends, it writes no more of the VMCS than the guest-state area. -/
theorem EndsAt.sameConfiguration {u t : State} (h : EndsAt u t) : SameConfiguration u t := by
  cases h <;> exact ⟨rfl, rfl, rfl, rfl, rfl, rfl, rfl, rfl⟩

theorem EndsAt.gpr {u t : State} (h : EndsAt u t) : t.gpr = u.gpr := by cases h <;> rfl

theorem EndsAt.sameProcessorState {u t : State} (h : EndsAt u t) : SameProcessorState u t := by
  cases h <;> exact ⟨rfl, rfl, rfl, rfl, rfl, rfl, rfl, rfl⟩

theorem SameProcessorState.trans {s t u : State} (h : SameProcessorState s t) (k : SameProcessorState t u) :
    SameProcessorState s u := by
  obtain ⟨h1, h2, h3, h4, h5, h6, h7, h8⟩ := h
  obtain ⟨k1, k2, k3, k4, k5, k6, k7, k8⟩ := k
  exact ⟨k1.trans h1, k2.trans h2, k3.trans h3, k4.trans h4, k5.trans h5, k6.trans h6, k7.trans h7, k8.trans h8⟩

/-- What an iteration leaves, whether it completes, faults or exits, but for its own three registers. -/
theorem iterationExit_sameProcessorState (it : RepIter) (e : VmExit) (u : State) :
    SameProcessorState u (takeVmExit e (if e.trapLike then completeIteration it u else u)) := by
  split <;> exact ⟨rfl, rfl, rfl, rfl, rfl, rfl, rfl, rfl⟩

theorem iterationExit_sameConfiguration (it : RepIter) (e : VmExit) (u : State) :
    SameConfiguration u (takeVmExit e (if e.trapLike then completeIteration it u else u)) := by
  split <;> exact ⟨rfl, rfl, rfl, rfl, rfl, rfl, rfl, rfl⟩

/-! ### The configuration -/

/-- Settles O13: a footprint keeps the configuration, and so does every way to end. -/
theorem configurationIsConstant : Obligations.ConfigurationIsConstant := by
  intro i s t h
  cases exec_shape h with
  | ordinary _ hf he => exact hf.wide.sameConfiguration.trans he.sameConfiguration
  | external _ _ _ hf he => exact hf.sameConfiguration.trans he.sameConfiguration
  | posted _ _ _ hf he => exact hf.sameConfiguration.trans he.sameConfiguration
  | iterated it _ hf => exact hf.wide.sameConfiguration.trans ⟨rfl, rfl, rfl, rfl, rfl, rfl, rfl, rfl⟩
  | iterationFault it _ hf => exact hf.wide.sameConfiguration
  | iterationExit it e _ hf => exact hf.wide.sameConfiguration.trans (iterationExit_sameConfiguration it e _)
  | entered => exact (vmEntry_keeps s).1
  | delivered => exact (wideFoot_deliver s).sameConfiguration
  | deliveredAt => exact (wideFoot_deliver s).sameConfiguration
  | readTpr | sti | movSs | popSs | hlt | mwait | notDelivered | undelivered =>
    exact ⟨rfl, rfl, rfl, rfl, rfl, rfl, rfl, rfl⟩

/-! ### The general registers -/

/-- An iteration writes RCX, RSI and RDI only. -/
theorem getReg_completeIteration_other {it : RepIter} {r : Reg} (u : State) (hc : r ≠ Reg.rcx) (hs : r ≠ Reg.rsi)
    (hd : r ≠ Reg.rdi) : getReg (completeIteration it u) r = getReg u r := by
  rw [getReg_completeIteration, if_neg hd, if_neg hs, if_neg hc]

/-- Settles O14: the registers are in every footprint; the two operations excepted write theirs. -/
theorem generalRegistersKept : Obligations.GeneralRegistersKept := by
  intro i s t r h hcr hit
  have same {u : State} (hu : u.gpr = s.gpr) : getReg u r = getReg s r := by rw [getReg, hu, getReg]
  cases exec_shape h with
  | ordinary _ hf he => exact same (he.gpr.trans hf.gpr)
  | external _ _ _ hf he => exact same (he.gpr.trans hf.gpr)
  | posted _ _ _ hf he => exact same (he.gpr.trans hf.gpr)
  | readTpr q v => exact (getReg_setReg q r v s).trans (if_neg fun hq => hcr (by rw [hq]))
  | iterated it _ hf =>
    obtain ⟨hc, hs, hd⟩ := hit it rfl
    exact (getReg_completeIteration_other _ hc hs hd).trans (same hf.gpr)
  | iterationFault _ _ hf => exact same hf.gpr
  | iterationExit it e _ hf =>
    obtain ⟨hc, hs, hd⟩ := hit it rfl
    split
    · exact (getReg_completeIteration_other _ hc hs hd).trans (same hf.gpr)
    · exact same hf.gpr
  | entered => exact same (vmEntry_keeps s).2.2.1
  | delivered => exact same (wideFoot_deliver s).gpr
  | deliveredAt => exact same (wideFoot_deliver s).gpr
  | sti | movSs | popSs | hlt | mwait | notDelivered | undelivered => rfl

/-! ### The flags, blocking, activity and modes -/

theorem abortTransaction_rflagsRf (s : State) : (abortTransaction s).rflagsRf = s.rflagsRf := by
  unfold abortTransaction; split <;> rfl

theorem enclaveExit_rflagsRf (s : State) : (enclaveExit s).rflagsRf = s.rflagsRf := by
  unfold enclaveExit; split <;> rfl

theorem deliverEvent_rflagsRf (v : IntVector) (s : State) : (deliverEvent v s).rflagsRf = s.rflagsRf := by
  unfold deliverEvent; split <;> rfl

/-- Delivery wakes the processor and ends its modes, and keeps its flags and blocking. -/
theorem deliver_flags (s : State) :
    (deliver s).rflagsIf = s.rflagsIf ∧ (deliver s).blockingBySti = s.blockingBySti ∧
      (deliver s).blockingByMovSs = s.blockingByMovSs ∧ (deliver s).rflagsRf = s.rflagsRf := by
  refine ⟨(wideFoot_deliver s).rflagsIf, (wideFoot_deliver s).blockingBySti, (wideFoot_deliver s).blockingByMovSs, ?_⟩
  rw [deliver, deliverEvent_rflagsRf, enclaveExit_rflagsRf, abortTransaction_rflagsRf]
  exact (foot_acceptVector s).rflagsRf

/-- The flags and the blocking that a state which keeps the processor state has. -/
theorem flags_of_sameProcessorState {i : Instr} {s t : State} (h : SameProcessorState s t) :
    ((∀ a b, i ≠ .sti a b) → t.rflagsIf = s.rflagsIf ∧ t.blockingBySti = s.blockingBySti) ∧
    ((∀ b, i ≠ .movSs b) → (∀ b, i ≠ .popSs b) → t.blockingByMovSs = s.blockingByMovSs) ∧
    ((∀ pv x, i ≠ .externalInterrupt pv x) → (∀ pv x, i ≠ .postedInterruptProcessing pv x) →
      t.rflagsRf = s.rflagsRf) := by
  obtain ⟨hif, hrf, hsti, hss, -⟩ := h
  exact ⟨fun _ => ⟨hif, hsti⟩, fun _ _ => hss, fun _ _ => hrf⟩

/-- Settles O15: the wide footprint of the external interrupt leaves RFLAGS.RF out, the others keep the processor
state. -/
theorem flagsAndBlockingKept : Obligations.FlagsAndBlockingKept := by
  intro i s t h
  have wide {u : State} (hf : WideFoot s u) (he : EndsAt u t) :
      t.rflagsIf = s.rflagsIf ∧ t.blockingBySti = s.blockingBySti ∧ t.blockingByMovSs = s.blockingByMovSs := by
    obtain ⟨hif, -, hsti, hss, -⟩ := he.sameProcessorState
    exact ⟨hif.trans hf.rflagsIf, hsti.trans hf.blockingBySti, hss.trans hf.blockingByMovSs⟩
  cases exec_shape h with
  | ordinary _ hf he => exact flags_of_sameProcessorState (hf.sameProcessorState.trans he.sameProcessorState)
  | external pv x _ hf he =>
    obtain ⟨hif, hsti, hss⟩ := wide hf he
    exact ⟨fun _ => ⟨hif, hsti⟩, fun _ _ => hss, fun hn => absurd rfl (hn pv x)⟩
  | posted pv x _ hf he =>
    obtain ⟨hif, hsti, hss⟩ := wide hf he
    exact ⟨fun _ => ⟨hif, hsti⟩, fun _ _ => hss, fun _ hn => absurd rfl (hn pv x)⟩
  | iterated it _ hf => exact flags_of_sameProcessorState hf.sameProcessorState
  | iterationFault _ _ hf => exact flags_of_sameProcessorState hf.sameProcessorState
  | iterationExit it e _ hf =>
    exact flags_of_sameProcessorState (hf.sameProcessorState.trans (iterationExit_sameProcessorState it e _))
  | entered => exact flags_of_sameProcessorState (vmEntry_keeps s).2.1
  | delivered | deliveredAt =>
    obtain ⟨hif, hsti, hss, hrf⟩ := deliver_flags s
    exact ⟨fun _ => ⟨hif, hsti⟩, fun _ _ => hss, fun _ _ => hrf⟩
  | sti a b => exact ⟨fun hn => absurd rfl (hn a b), fun _ _ => rfl, fun _ _ => rfl⟩
  | movSs b => exact ⟨fun _ => ⟨rfl, rfl⟩, fun hn => absurd rfl (hn b), fun _ _ => rfl⟩
  | popSs b => exact ⟨fun _ => ⟨rfl, rfl⟩, fun _ hn => absurd rfl (hn b), fun _ _ => rfl⟩
  | readTpr | hlt | mwait | notDelivered | undelivered => exact ⟨fun _ => ⟨rfl, rfl⟩, fun _ _ => rfl, fun _ _ => rfl⟩

/-- Settles O16: what keeps the processor state keeps these; the operations excepted are the other shapes. -/
theorem activityAndModesKept : Obligations.ActivityAndModesKept := by
  intro i s t h hhlt hmwait hdel hbound hext hpost
  have kept (k : SameProcessorState s t) : t.activity = s.activity ∧ t.transactional = s.transactional ∧
      t.enclave = s.enclave ∧ t.userNotified = s.userNotified := by
    obtain ⟨-, -, -, -, ha, ht, he, hu⟩ := k
    exact ⟨ha, ht, he, hu⟩
  cases exec_shape h with
  | ordinary _ hf he => exact kept (hf.sameProcessorState.trans he.sameProcessorState)
  | iterated it _ hf => exact kept hf.sameProcessorState
  | iterationFault _ _ hf => exact kept hf.sameProcessorState
  | iterationExit it e _ hf => exact kept (hf.sameProcessorState.trans (iterationExit_sameProcessorState it e _))
  | entered => exact kept (vmEntry_keeps s).2.1
  | hlt => exact absurd rfl hhlt
  | mwait => exact absurd rfl hmwait
  | delivered | notDelivered => exact absurd rfl hdel
  | deliveredAt b | undelivered b => exact absurd rfl (hbound b)
  | external pv x => exact absurd rfl (hext pv x)
  | posted pv x => exact absurd rfl (hpost pv x)
  | readTpr | sti | movSs | popSs => exact ⟨rfl, rfl, rfl, rfl⟩

/-! ### What a VM exit saves -/

/-- A state in which an operation from `s` can leave the guest: after one of the five VM exits (R240, R250). -/
def LeftGuest (s t : State) : Prop :=
  Exited .tprBelowThreshold s.nextIp t ∨ (∃ v, Exited (.eoiInduced v) s.nextIp t) ∨
    (∃ off, Exited (.apicWrite off) s.nextIp t) ∨ (∃ off k, Exited (.apicAccess off k) s.ip t) ∨
    (∃ v, Exited (.externalInterrupt v) s.ip t)

/-- Each kind of VM exit saves the instruction pointer of its rule. -/
theorem leftGuest_takeVmExit {s u : State} (e : VmExit) (hn : u.nextIp = s.nextIp)
    (hi : e.trapLike = false → u.ip = s.ip) : LeftGuest s (takeVmExit e u) := by
  have hx := exited_takeVmExit e u
  cases e with
  | tprBelowThreshold => exact .inl (hn ▸ hx)
  | eoiInduced v => exact .inr (.inl ⟨v, hn ▸ hx⟩)
  | apicWrite off => exact .inr (.inr (.inl ⟨off, hn ▸ hx⟩))
  | apicAccess off k => exact .inr (.inr (.inr (.inl ⟨off, k, hi rfl ▸ hx⟩)))
  | externalInterrupt v => exact .inr (.inr (.inr (.inr ⟨v, hi rfl ▸ hx⟩)))

/-- An operation that ends from a footprint of its state leaves the guest or changes nothing of the VMCS. -/
theorem WideFoot.exit_or_still {s u t : State} (hm : s.mode = .vmxNonRoot) (hf : WideFoot s u) (he : EndsAt u t) :
    (t.mode = .vmxRoot → LeftGuest s t) ∧ (t.mode = .vmxNonRoot → t.lastExit = s.lastExit ∧ t.vmcs = s.vmcs) := by
  have hmu : u.mode = .vmxNonRoot := hf.mode.trans hm
  cases he with
  | here | completed => exact ⟨fun hr => absurd (hr.symm.trans hmu) (by decide), fun _ => ⟨hf.lastExit, hf.vmcs⟩⟩
  | exited e =>
    exact ⟨fun _ => leftGuest_takeVmExit e hf.nextIp fun _ => hf.ip,
      fun hr => nomatch (hr : Mode.vmxRoot = .vmxNonRoot)⟩

/-- Settles O17: the five ways to leave, and what stays where the guest goes on. -/
theorem vmExitSavesTheGuest : Obligations.VmExitSavesTheGuest := by
  intro i s t h
  have stays {u : State} (hm : u.mode = .vmxNonRoot) (hl : u.lastExit = s.lastExit ∧ u.vmcs = s.vmcs) :
      (u.mode = .vmxRoot → LeftGuest s u) ∧ (u.mode = .vmxNonRoot → u.lastExit = s.lastExit ∧ u.vmcs = s.vmcs) :=
    ⟨fun hr => absurd (hr.symm.trans hm) (by decide), fun _ => hl⟩
  cases exec_shape h with
  | ordinary hm hf he => exact hf.wide.exit_or_still hm he
  | external _ _ hm hf he => exact hf.exit_or_still hm he
  | posted _ _ hm hf he => exact hf.exit_or_still hm he
  | iterated _ hm hf => exact stays (hf.mode.trans hm) ⟨hf.lastExit, hf.vmcs⟩
  | iterationFault _ hm hf => exact stays (hf.mode.trans hm) ⟨hf.lastExit, hf.vmcs⟩
  | iterationExit it e hm hf =>
    refine ⟨fun _ => leftGuest_takeVmExit e ?_ fun ht => ?_, fun hr => nomatch (hr : Mode.vmxRoot = .vmxNonRoot)⟩
    · split <;> exact hf.nextIp
    · rw [if_neg (by rw [ht]; decide)]; exact hf.ip
  | entered =>
    obtain ⟨hm, hl, hv⟩ := (vmEntry_keeps s).2.2.2
    exact stays hm ⟨hl, hv⟩
  | delivered hm | deliveredAt _ hm =>
    have hf := wideFoot_deliver s
    exact stays (hf.mode.trans hm) ⟨hf.lastExit, hf.vmcs⟩
  | readTpr _ _ hm | sti _ _ hm | movSs _ hm | popSs _ hm | hlt hm | mwait hm | notDelivered hm | undelivered _ hm =>
    exact stays hm ⟨rfl, rfl⟩

end Sys2Proof.Machine
end

section
/-! What precedes an operation, and the operations whose steps are made of others: the rules by which a predicate of
states is carried through a page access, a string iteration, an instruction and a whole step. -/

namespace Sys2Proof.Machine

/-! ### Preparation -/

/-- The result of what precedes an operation: it goes on or is refused, and raises no VM exit. -/
def Res.Goes (r : Res) : Prop := (∃ u, r = .done u) ∨ ∃ x, r = .refuse x

theorem Res.Goes.andThen {r : Res} {k : State → Res} (h : r.Goes) (hk : ∀ u, (k u).Goes) : (r.andThen k).Goes := by
  obtain ⟨u, rfl⟩ | ⟨x, rfl⟩ := h
  · exact hk u
  · exact .inr ⟨x, rfl⟩

theorem agentSteps_goes : ∀ (as : List AgentRmw) (s : State), (agentSteps as s).Goes
  | [], s => .inl ⟨s, rfl⟩
  | a :: as, s => Res.Goes.andThen (agentStep_cases a s) (agentSteps_goes as)

theorem agentGap_goes (s : State) : (agentGap s).Goes := by
  unfold agentGap
  split
  · exact .inl ⟨s, rfl⟩
  · exact agentSteps_goes _ _

theorem byVmm_goes (k : State → State) (s : State) : (byVmm k s).Goes := by
  unfold byVmm
  split
  · exact .inl ⟨_, rfl⟩
  · exact .inr ⟨_, rfl⟩

theorem applyEnv_goes (u : EnvUpdate) (s : State) : (applyEnv u s).Goes := by
  cases u with
  | vmmVmcs v => exact byVmm_goes (fun s => { s with vmcs := v }) s
  | vmmMemory a d =>
    rw [applyEnv]
    split
    · exact byVmm_goes _ s
    · exact .inr ⟨_, rfl⟩
  | _ => exact .inl ⟨_, rfl⟩

theorem applyEnvs_goes : ∀ (us : List EnvUpdate) (s : State), (applyEnvs us s).Goes
  | [], s => .inl ⟨s, rfl⟩
  | u :: us, s => (applyEnv_goes u s).andThen (applyEnvs_goes us)

theorem prepare_goes (env : List EnvUpdate) (s : State) : (prepare env s).Goes :=
  (agentGap_goes s).andThen (applyEnvs_goes env)

/-- A step that answers a next state has prepared the machine and run what its selector decodes to. -/
theorem step_next {s t : State} (h : step s = .next t) :
    ∃ inp rest s1 i, s.inputs = inp :: rest ∧ prepare inp.env { s with inputs := rest } = .done s1 ∧
      decode (inp.op.selector (ecx s1)) = .ok i ∧ exec i s1 = .next t := by
  by_cases hu : s.userNotified = true
  · rw [step, if_pos hu] at h; cases h
  cases hi : s.inputs with
  | nil => rw [step, if_neg hu] at h; simp only [hi] at h; cases h
  | cons inp rest =>
    obtain ⟨s1, hp⟩ | ⟨x, hp⟩ := prepare_goes inp.env { s with inputs := rest }
    · rw [step_eq_runOp (Bool.eq_false_iff.2 hu) hi hp] at h
      cases hd : decode (inp.op.selector (ecx s1)) with
      | ok i => exact ⟨inp, rest, s1, i, rfl, hp, hd, by rwa [runOp_decoded hd] at h⟩
      | error e => simp only [runOp, hd] at h; cases h
    · rw [step, if_neg hu] at h
      simp only [hi, hp] at h
      cases h

/-! ### Through the wrappers of an operation -/

theorem completing_all {P : State → Prop} {k : State → Res} {s : State} (h : (k s).All P)
    (hr : ∀ u, P u → P (retire u)) : (completing k s).All P := h.seq hr

/-- An instruction keeps what its virtualization leaves and completion and a VM exit keep. -/
theorem instruction_next_all {P : State → Prop} {c : Bool} {k : State → Res} {s t : State}
    (h : instruction c k s = .next t) (hk : c = true → (k s).All P) (hr : ∀ u, P u → P (retire u))
    (hx : ∀ e u, P u → P (takeVmExit e u)) : P t :=
  inGuest_next_all h (whenActive_all fun _ => enabledBy_all fun hc => completing_all (hk hc) hr) hx

/-- An instruction that stays in the guest leaves what its virtualization leaves, completed. -/
theorem instruction_stays {P : State → Prop} {c : Bool} {k : State → Res} {s t : State}
    (h : instruction c k s = .next t) (ht : t.mode = .vmxNonRoot) (hk : s.mode = .vmxNonRoot → (k s).Stays P)
    (hr : ∀ u, P u → P (retire u)) : P t :=
  inGuest_stays h ht fun hm => whenActive_stays (enabledBy_stays fun _ => (hk hm).seq hr)

theorem interruptible_stays {P : State → Prop} {k : State → Res} {s : State} (h : (k s).Stays P) :
    (interruptible k s).Stays P := by
  unfold interruptible; split
  · exact h
  · trivial

theorem pageStep_all {P : State → Prop} {env : AccessEnv} {kind : AccessKind} {k : State → Res} {s : State}
    (he : ∀ e, P (emit e (beginAccess false (beginAccess env.cont s)))) (hk : (k (treatedState kind env s)).All P)
    (hr : ∀ u, P u → P (retire u)) : (pageStep env kind k s).All P := by
  unfold pageStep
  split
  · trivial
  · refine (translated_all he hk).seq fun u hu => ?_
    cases env.more
    · exact hr u hu
    · exact hu

theorem pageStep_stays {P : State → Prop} {env : AccessEnv} {kind : AccessKind} {k : State → Res} {s : State}
    (he : ∀ e, P (emit e (beginAccess false (beginAccess env.cont s)))) (hk : (k (treatedState kind env s)).Stays P)
    (hr : ∀ u, P u → P (retire u)) : (pageStep env kind k s).Stays P := by
  unfold pageStep
  split
  · trivial
  · refine (translated_stays he hk).seq fun u hu => ?_
    cases env.more
    · exact hr u hu
    · exact hu

/-- A write step is the plain store of R192 or the treatment, as its access. -/
theorem pageWriteStep_all {P : State → Prop} {off : PageOff} {d : List Byte} {env : AccessEnv} {k : State → Res}
    {s : State} (he : ∀ e, P (emit e (beginAccess false (beginAccess env.cont s))))
    (hp : env.subPage = true → (plainWrite (apicPageAddr s off) d (treatedState .write env s)).All P)
    (hk : env.subPage = false → (k (treatedState .write env s)).All P) (hr : ∀ u, P u → P (retire u)) :
    (pageWriteStep off d env k s).All P := by
  refine pageStep_all he ?_ hr
  cases hs : env.subPage with
  | true => exact hp hs
  | false => exact outsideEnclave_all fun _ => hk hs

theorem pageWriteStep_stays {P : State → Prop} {off : PageOff} {d : List Byte} {env : AccessEnv} {k : State → Res}
    {s : State} (he : ∀ e, P (emit e (beginAccess false (beginAccess env.cont s))))
    (hp : env.subPage = true → (plainWrite (apicPageAddr s off) d (treatedState .write env s)).Stays P)
    (hk : env.subPage = false → (k (treatedState .write env s)).Stays P) (hr : ∀ u, P u → P (retire u)) :
    (pageWriteStep off d env k s).Stays P := by
  refine pageStep_stays he ?_ hr
  cases hs : env.subPage with
  | true => exact hp hs
  | false => exact outsideEnclave_stays (hk hs)

theorem repIteration_all {P : State → Prop} {it : RepIter} {s : State}
    (h : (linearAccesses it.accs (beginAccess false s)).All P) (hc : ∀ u, P u → P (completeIteration it u)) :
    (repIteration it s).All P := by
  unfold repIteration
  cases hr : linearAccesses it.accs (beginAccess false s) with
  | done u => rw [hr] at h; exact hc u h
  | abort u => rw [hr] at h; exact h
  | refuse x => trivial
  | exit e u =>
    rw [hr] at h
    change P (if e.trapLike then completeIteration it u else u)
    split
    · exact hc u h
    · exact h

theorem repIteration_stays {P : State → Prop} {it : RepIter} {s : State}
    (h : (linearAccesses it.accs (beginAccess false s)).Stays P) (hc : ∀ u, P u → P (completeIteration it u)) :
    (repIteration it s).Stays P := by
  unfold repIteration
  cases hr : linearAccesses it.accs (beginAccess false s) with
  | done u => rw [hr] at h; exact hc u h
  | abort u => rw [hr] at h; exact h
  | exit e u => trivial
  | refuse x => trivial

/-- A boundary delivers where the conditions hold and the page can be reached, or leaves the state alone. -/
theorem boundary_all {P : State → Prop} {b : Bool} {s : State} (hs : P s) (hd : Deliverable s → P (deliver s)) :
    (boundary b s).All P := by
  unfold boundary
  split
  · next hn => exact onVapicPage_all fun _ => hd ((deliverNow_iff s b).1 hn).1
  · exact hs

/-- VM entry happens in VMX root operation, once its checks and the premises of a run hold (R281). -/
theorem execVmEntry_next {s t : State} (h : exec .vmEntry s = .next t) :
    s.mode = .vmxRoot ∧ vmEntryChecks s = true ∧ runPremises s = true ∧ t = vmEntry s := by
  have h : execVmEntry s = .next t := h
  unfold execVmEntry at h
  split_ifs at h with hm hc hp hv
  have hroot : s.mode = .vmxRoot := by
    cases hs : s.mode with
    | vmxRoot => rfl
    | vmxNonRoot => exact absurd hs hm
  cases h
  exact ⟨hroot, by simpa using hc, by simpa using hp, rfl⟩

end Sys2Proof.Machine
end

section
/-! Proofs about the guest invariant (`GuestInv`): it holds at reset and every step keeps it. -/

namespace Sys2Proof.Machine

/-- Settles O7: memory is empty, and the reset state is in VMX root operation. -/
theorem resetMeetsGuestInv : Obligations.ResetMeetsGuestInv :=
  ⟨rfl, (fun h => nomatch h), (fun h => nomatch h), (fun h => nomatch h)⟩

theorem GuestInv.latch {s : State} (h : GuestInv s) (hm : s.mode = .vmxNonRoot) : LatchInv s :=
  ⟨h.memory, h.novid hm, h.window hm⟩

theorem LatchInv.guestInv {s : State} (h : LatchInv s) (hc : s.mode = .vmxNonRoot → vmEntryChecks s = true) :
    GuestInv s := ⟨h.memory, hc, fun _ => h.novid, fun _ => h.window⟩

theorem GuestInv.of_eq {s t : State} (h : GuestInv s) (hw : t.mem.wf = true) (hm : t.mode = s.mode)
    (hv : t.vmcs = s.vmcs) (hp : t.pending = s.pending) : GuestInv t :=
  ⟨hw, by simpa only [hm, vmEntryChecks, hv] using h.entered, by simpa only [hm, hv, hp] using h.novid,
    by simpa only [hm, hv, hp] using h.window⟩

/-- In VMX root operation only memory matters. -/
theorem guestInv_of_root {s : State} (hw : s.mem.wf = true) (hm : s.mode = .vmxRoot) : GuestInv s :=
  have out {p : Prop} (h : s.mode = .vmxNonRoot) : p := nomatch (hm.symm.trans h : Mode.vmxRoot = .vmxNonRoot)
  ⟨hw, out, out, out⟩

/-! ### Before the operation -/

theorem GuestInv.agentGap {s : State} (h : GuestInv s) : (Machine.agentGap s).All GuestInv := by
  refine agentGap_all h (fun u l hu => hu.of_eq hu.memory rfl rfl rfl) fun a u v hu hv => ?_
  rw [agentStep_done hv]
  exact hu.of_eq (Memory.wf_write _ _ hu.memory) rfl rfl rfl

/-- What the VMM does, it does in VMX root operation. -/
theorem byVmm_guestInv {k : State → State} {s : State} (hw : (k s).mem.wf = true) (hm : (k s).mode = s.mode) :
    (byVmm k s).All GuestInv := by
  unfold byVmm
  split
  · next hr => exact guestInv_of_root hw (hm.trans hr)
  · trivial

theorem GuestInv.applyEnv {s : State} (h : GuestInv s) (u : EnvUpdate) : (Machine.applyEnv u s).All GuestInv := by
  cases u with
  | vmmVmcs v => exact byVmm_guestInv (k := fun s => { s with vmcs := v }) h.memory rfl
  | vmmMemory a d =>
    rw [Machine.applyEnv]
    split
    · exact byVmm_guestInv (Memory.wf_writeBytes _ _ h.memory) rfl
    · trivial
  | _ => exact h.of_eq h.memory rfl rfl rfl

theorem GuestInv.applyEnvs {s : State} (h : GuestInv s) (us : List EnvUpdate) :
    (Machine.applyEnvs us s).All GuestInv := by
  induction us generalizing s with
  | nil => exact h
  | cons u us ih => exact (h.applyEnv u).seq fun w hw => ih hw

theorem GuestInv.prepare {s : State} (h : GuestInv s) (env : List EnvUpdate) : (Machine.prepare env s).All GuestInv :=
  h.agentGap.seq fun _ hu => hu.applyEnvs env

/-! ### The operation -/

theorem LatchInv.takeVmExit {s : State} (e : VmExit) (h : LatchInv s) : LatchInv (Machine.takeVmExit e s) :=
  ⟨h.memory, h.novid, h.window⟩

theorem LatchInv.retire {s : State} (h : LatchInv s) : LatchInv (Machine.retire s) := h.of_eq rfl rfl rfl

theorem LatchInv.treatedState {s : State} (kind : AccessKind) (env : AccessEnv) (h : LatchInv s) :
    LatchInv (Machine.treatedState kind env s) := h.of_eq rfl rfl rfl

/-- VM entry recognizes nothing, and evaluates with "virtual-interrupt delivery" only (R281). -/
theorem latchInv_vmEntry {s : State} (hw : s.mem.wf = true) : LatchInv (vmEntry s) := by
  have h : LatchInv (enterGuest s) := ⟨hw, fun _ => rfl, fun _ => rfl⟩
  unfold vmEntry
  simp only
  split
  · next hv => exact h.pprVirtualization.evaluate hv
  · exact h

/-- An instruction whose virtualization keeps the latch's invariant keeps it. -/
theorem latchInv_of_instruction {s t : State} {c : Bool} {k : State → Res} (hn : instruction c k s = .next t)
    (hk : c = true → (k s).All LatchInv) : LatchInv t :=
  instruction_next_all hn hk (fun _ hu => hu.retire) fun e _ hu => hu.takeVmExit e

theorem latchInv_of_event {s t : State} {c : Bool} {k : State → Res}
    (hn : inGuest (enabledBy c k) s = .next t) (hk : c = true → (k s).All LatchInv) : LatchInv t :=
  inGuest_next_all hn (enabledBy_all hk) fun e _ hu => hu.takeVmExit e

section Rows
variable {s t : State} (h : LatchInv s)
include h

theorem LatchInv.of_page {c : Bool} {env : AccessEnv} {kind : AccessKind} {k : State → Res}
    (hn : inGuest (whenActive (enabledBy c (pageStep env kind (outsideEnclave k)))) s = .next t)
    (hk : ∀ u, LatchInv u → (k u).All LatchInv) : LatchInv t := by
  refine inGuest_next_all hn (whenActive_all fun _ => enabledBy_all fun _ => ?_) fun e _ hu => hu.takeVmExit e
  exact pageStep_all (fun e => ((h.beginAccess _).beginAccess _).emit e)
    (outsideEnclave_all fun _ => hk _ (h.treatedState kind env)) fun _ hu => hu.retire

theorem LatchInv.of_pageWrite {c : Bool} {off : PageOff} {d : List Byte} {env : AccessEnv} {k : State → Res}
    (hn : inGuest (whenActive (enabledBy c (pageWriteStep off d env k))) s = .next t)
    (hk : ∀ u, LatchInv u → (k u).All LatchInv) : LatchInv t := by
  have hw := h.treatedState .write env
  refine inGuest_next_all hn (whenActive_all fun _ => enabledBy_all fun _ => ?_) fun e _ hu => hu.takeVmExit e
  exact pageWriteStep_all (fun e => ((h.beginAccess _).beginAccess _).emit e) (fun _ => hw.plainWrite _ d)
    (fun _ => hk _ hw) fun _ hu => hu.retire

theorem LatchInv.boundary (b : Bool) : (Machine.boundary b s).All LatchInv := boundary_all h fun _ => h.deliver

end Rows

/-- Every operation of a guest keeps the invariant of the latch and of memory. -/
theorem LatchInv.exec {s t : State} (h : LatchInv s) {i : Instr} (hi : i ≠ .vmEntry) (hn : Machine.exec i s = .next t) :
    LatchInv t := by
  cases i with
  | movToCr8 | wrmsrTpr =>
    exact latchInv_of_instruction hn fun _ => onVapicPage_all fun _ => (h.setVapic32 _ _).tprVirtualization
  | movFromCr8 dst =>
    exact latchInv_of_instruction hn fun _ => onVapicPage_all fun _ => h.of_eq rfl rfl rfl
  | wrmsrEoi =>
    exact latchInv_of_instruction hn fun hc => onVapicPage_all fun _ =>
      (h.setVapic32 _ _).eoiVirtualization (Bool.and_eq_true_iff.1 hc).2
  | wrmsrSelfIpi =>
    exact latchInv_of_instruction hn fun hc => onVapicPage_all fun _ => h.selfIpi _ (Bool.and_eq_true_iff.1 hc).2
  | wrmsrIcr | senduipi => exact latchInv_of_instruction hn fun _ => h.ipiVirtualization _ _
  | wrmsrApicOther | rdmsrApic => exact latchInv_of_instruction hn fun _ => trivial
  | sti | movSs | popSs | hlt | mwait => exact latchInv_of_instruction hn fun _ => h.of_eq rfl rfl rfl
  | pageWriteTpr d => exact h.of_pageWrite hn fun _ hu => hu.pageWriteTpr d
  | pageWriteEoi d => exact h.of_pageWrite hn fun _ hu => hu.pageWriteEoi d
  | pageWriteIcrLo d => exact h.of_pageWrite hn fun _ hu => hu.pageWriteIcrLo d
  | pageWriteOther off d => exact h.of_pageWrite hn fun _ hu => hu.pageWriteOther off d
  | pageRead off n | pageFetch off n => exact h.of_page hn fun _ hu => hu.pageRead _ off n
  | repStringIteration it =>
    refine inGuest_next_all hn (whenActive_all fun _ => ?_) fun e _ hu => hu.takeVmExit e
    exact repIteration_all ((h.beginAccess false).linearAccesses it.accs) fun _ hu => hu.of_eq rfl rfl rfl
  | vmEntry => exact absurd rfl hi
  | instructionBoundary b => exact inGuest_next_all hn (h.boundary b) fun e _ hu => hu.takeVmExit e
  | virtualInterruptDelivery => exact latchInv_of_event hn fun _ => h.boundary false
  | externalInterrupt pv x =>
    refine inGuest_next_all hn (interruptible_all ?_) fun e _ hu => hu.takeVmExit e
    exact afterDelivery_all (fun _ => h.deliver) (fun _ => h.externalInterrupt pv x)
      fun _ hd => hd.externalInterrupt pv x
  | postedInterruptProcessing pv x =>
    exact latchInv_of_event hn fun _ => interruptible_all (h.postedInterruptProcessing pv x)
  | tprVirtualization => exact latchInv_of_event hn fun _ => onVapicPage_all fun _ => h.tprVirtualization
  | pprVirtualization => exact latchInv_of_event hn fun _ => onVapicPage_all fun _ => h.pprVirtualization
  | eoiVirtualization => exact latchInv_of_event hn fun hc => onVapicPage_all fun _ => h.eoiVirtualization hc
  | selfIpiVirtualization v => exact latchInv_of_event hn fun hc => onVapicPage_all fun _ => h.selfIpi v hc
  | ipiVirtualization v a => exact latchInv_of_event hn fun _ => h.ipiVirtualization v a
  | evaluatePendingVirtualInterrupts => exact latchInv_of_event hn fun hc => onVapicPage_all fun _ => h.evaluate hc

/-- The checks of VM entry read the configuration only (R38). -/
theorem SameConfiguration.vmEntryChecks {s t : State} (h : SameConfiguration s t) :
    Machine.vmEntryChecks t = Machine.vmEntryChecks s := by
  obtain ⟨-, -, -, -, -, -, -, hv⟩ := h
  rw [Machine.vmEntryChecks, Machine.vmEntryChecks, ← hv]

theorem GuestInv.exec {s t : State} (h : GuestInv s) {i : Instr} (hn : Machine.exec i s = .next t) : GuestInv t := by
  by_cases hi : i = .vmEntry
  · subst hi
    obtain ⟨-, hc, -, rfl⟩ := execVmEntry_next hn
    obtain ⟨hcfg, -⟩ := vmEntry_keeps s
    exact (latchInv_vmEntry h.memory).guestInv fun _ => hcfg.vmEntryChecks.trans hc
  · obtain ⟨k, hk⟩ := exec_eq_inGuest s i hi
    obtain ⟨hm, -⟩ := inGuest_next (hk.symm.trans hn)
    exact ((h.latch hm).exec hi hn).guestInv fun _ =>
      (configurationIsConstant i s t hn).vmEntryChecks.trans (h.entered hm)

/-- Settles O8: the invariant through what precedes the operation, then through the operation. -/
theorem guestInvKeptByEveryStep : Obligations.GuestInvKeptByEveryStep := by
  intro s t h hs
  obtain ⟨inp, rest, s1, i, -, hp, -, hn⟩ := step_next hs
  have h0 : GuestInv { s with inputs := rest } := h.of_eq h.memory rfl rfl rfl
  have h1 := h0.prepare inp.env
  rw [hp] at h1
  exact GuestInv.exec h1 hn

end Sys2Proof.Machine
end

section
/-! Proofs about the consistency of the interrupt state (`70_reset_and_hazards.md` R283): VM entry establishes it and
every step of a guest that stays in the guest keeps it. -/

namespace Sys2Proof.Machine

/-! ### Steps that stay in the guest -/

theorem Sound.beginAccess {s : State} (b : Bool) (h : Sound s) : Sound (Machine.beginAccess b s) :=
  h.of_mem rfl rfl rfl rfl rfl

theorem Sound.treatedState {s : State} (kind : AccessKind) (env : AccessEnv) (h : Sound s) :
    Sound (Machine.treatedState kind env s) := h.of_mem rfl rfl rfl rfl rfl

theorem Sound.completeIteration {s : State} (it : RepIter) (h : Sound s) : Sound (Machine.completeIteration it s) :=
  h.of_mem rfl rfl rfl rfl rfl

theorem sound_of_instruction {c : Bool} {k : State → Res} {s t : State} (hn : instruction c k s = .next t)
    (ht : t.mode = .vmxNonRoot) (hk : s.mode = .vmxNonRoot → (k s).Stays Sound) : Sound t :=
  instruction_stays hn ht hk fun _ hu => hu.retire

theorem sound_of_event {c : Bool} {k : State → Res} {s t : State} (hn : inGuest (enabledBy c k) s = .next t)
    (ht : t.mode = .vmxNonRoot) (hk : s.mode = .vmxNonRoot → (k s).Stays Sound) : Sound t :=
  inGuest_stays hn ht fun hm => enabledBy_stays fun _ => hk hm

theorem Sound.of_page {s t : State} (h : Sound s) {c : Bool} {env : AccessEnv} {kind : AccessKind} {k : State → Res}
    (hn : inGuest (whenActive (enabledBy c (pageStep env kind (outsideEnclave k)))) s = .next t)
    (ht : t.mode = .vmxNonRoot) (hk : ∀ u, Sound u → (k u).Stays Sound) : Sound t := by
  refine inGuest_stays hn ht fun _ => whenActive_stays (enabledBy_stays fun _ => ?_)
  exact pageStep_stays (fun e => ((h.beginAccess _).beginAccess _).emit e)
    (outsideEnclave_stays (hk _ (h.treatedState kind env))) fun _ hu => hu.retire

theorem Sound.of_pageWrite {s t : State} (h : Sound s) {c : Bool} {off : PageOff} {d : List Byte} {env : AccessEnv}
    {k : State → Res} (hn : inGuest (whenActive (enabledBy c (pageWriteStep off d env k))) s = .next t)
    (ht : t.mode = .vmxNonRoot) (hk : ∀ u, Sound u → u.mode = .vmxNonRoot → (k u).Stays Sound) : Sound t := by
  have hw := h.treatedState .write env
  refine inGuest_stays hn ht fun hm => whenActive_stays (enabledBy_stays fun _ => ?_)
  exact pageWriteStep_stays (fun e => ((h.beginAccess _).beginAccess _).emit e) (fun _ => hw.plainWrite _ d)
    (fun _ => hk _ hw hm) fun _ hu => hu.retire

/-- Delivery needs a recognized virtual interrupt. -/
theorem Sound.boundary {s : State} (h : Sound s) (b : Bool) : (Machine.boundary b s).All Sound :=
  boundary_all h fun hd => h.deliver hd.pending

/-- Every operation of a guest but PPR virtualization as a row of its own keeps R283 where it stays in the guest. -/
theorem Sound.exec {s t : State} (h : Sound s) {i : Instr} (hi : i ≠ .pprVirtualization)
    (hn : Machine.exec i s = .next t) (ht : t.mode = .vmxNonRoot) (hs : s.mode = .vmxNonRoot) : Sound t := by
  cases i with
  | movToCr8 | wrmsrTpr =>
    exact sound_of_instruction hn ht fun _ => onVapicPage_stays
      (h.tprVirtualization rfl rfl rfl (visr_setVtpr _ s) (virr_setVtpr _ s))
  | movFromCr8 dst =>
    exact sound_of_instruction hn ht fun _ => onVapicPage_stays (h.of_mem rfl rfl rfl rfl rfl)
  | wrmsrEoi =>
    refine sound_of_instruction hn ht fun _ => onVapicPage_stays (h.eoiVirtualization rfl rfl ?_)
    exact vreg_setVapic32_other _ s (.inl (by decide))
  | wrmsrSelfIpi => exact sound_of_instruction hn ht fun _ => onVapicPage_stays (h.selfIpi _)
  | wrmsrIcr | senduipi => exact sound_of_instruction hn ht fun hm => h.ipiVirtualization _ _ hm
  | wrmsrApicOther | rdmsrApic => exact sound_of_instruction hn ht fun _ => trivial
  | sti | movSs | popSs | hlt | mwait => exact sound_of_instruction hn ht fun _ => h.of_mem rfl rfl rfl rfl rfl
  | pageWriteTpr d => exact h.of_pageWrite hn ht fun _ hu _ => hu.pageWriteTpr d
  | pageWriteEoi d => exact h.of_pageWrite hn ht fun _ hu _ => hu.pageWriteEoi d
  | pageWriteIcrLo d => exact h.of_pageWrite hn ht fun _ hu hm => hu.pageWriteIcrLo d hm
  | pageWriteOther off d => exact h.of_pageWrite hn ht fun _ hu _ => hu.pageWriteOther off d
  | pageRead off n | pageFetch off n => exact h.of_page hn ht fun _ hu => hu.pageRead _ off n
  | repStringIteration it =>
    refine inGuest_stays hn ht fun hm => whenActive_stays ?_
    exact repIteration_stays ((h.beginAccess false).linearAccesses it.accs hm) fun _ hu => hu.completeIteration it
  | vmEntry =>
    obtain ⟨hm, -⟩ := execVmEntry_next hn
    exact nomatch (hm.symm.trans hs : Mode.vmxRoot = .vmxNonRoot)
  | instructionBoundary b => exact inGuest_stays hn ht fun _ => (h.boundary b).stays
  | virtualInterruptDelivery => exact sound_of_event hn ht fun _ => (h.boundary false).stays
  | externalInterrupt pv x =>
    exact inGuest_stays hn ht fun hm => interruptible_stays (h.afterDelivery pv x hm)
  | postedInterruptProcessing pv x =>
    refine inGuest_stays hn ht fun hm => enabledBy_stays fun hc => interruptible_stays ?_
    exact h.postedInterruptProcessing pv x hm (Bool.and_eq_true_iff.1 hc).2
  | tprVirtualization =>
    exact sound_of_event hn ht fun _ => onVapicPage_stays (h.tprVirtualization rfl rfl rfl rfl rfl)
  | pprVirtualization => exact absurd rfl hi
  | eoiVirtualization => exact sound_of_event hn ht fun _ => onVapicPage_stays (h.eoiVirtualization rfl rfl rfl)
  | selfIpiVirtualization v => exact sound_of_event hn ht fun _ => onVapicPage_stays (h.selfIpi v)
  | ipiVirtualization v a => exact sound_of_event hn ht fun hm => h.ipiVirtualization v a hm
  | evaluatePendingVirtualInterrupts =>
    exact sound_of_event hn ht fun _ => onVapicPage_stays
      (Sound.evaluate h.vid h.apart h.state.svi h.state.rvi h.state.ppr h.state.pprHigh h.covered)

theorem Sound.prepare {s : State} (h : Sound s) (hm : s.mode = .vmxNonRoot) (env : List EnvUpdate) :
    (Machine.prepare env s).All fun u => Sound u ∧ u.mode = .vmxNonRoot :=
  (h.agentGap hm).seq fun _ hu => hu.1.applyEnvs env hu.2

/-- Only the selector that names it decodes to PPR virtualization. -/
theorem carrier_of_decode_ppr {op : Carrier} {c : BitVec 32} (h : decode (op.selector c) = .ok .pprVirtualization) :
    op = .event .pprVirtualization := by
  obtain ⟨-, he⟩ := decodeEncodeRoundTrip _ _ h
  cases op <;> cases he
  rfl

/-- Settles O9: through what precedes the operation, then through the operation. -/
theorem consistencyKeptByEveryStep : Obligations.ConsistencyKeptByEveryStep := by
  intro s t inp rest h hi hop hs ht
  obtain ⟨inp', rest', s1, i, hi', hp, hd, hn⟩ := step_next hs
  cases hi.symm.trans hi'
  have h0 : Sound { s with inputs := rest } := h.sound.of_mem rfl rfl rfl rfl rfl
  have h1 := h0.prepare h.guest inp.env
  rw [hp] at h1
  refine (h1.1.exec ?_ hn ht h1.2).apicInv ht
  rintro rfl
  exact hop (carrier_of_decode_ppr hd)

/-! ### PPR virtualization and delivery as rows of their own -/

/-- Under R283, with VTPR live, PPR virtualization lowers VPPR or keeps it. -/
theorem fieldCls_ppr_le {s : State} {svi : IntVector} (h : Sound s) (ht : s.vmcs.ctl.tprShadow = true)
    (hs : cls svi ≤ cls s.svi) : fieldCls (pprValue (vtpr s) svi) ≤ fieldCls (vppr s) := by
  rw [fieldCls_pprValue]
  exact max_le (h.covered ht) (hs.trans h.state.ppr)

/-- The bitmaps agree with RVI and SVI, VPPR has the value of PPR virtualization, and the latch is from before, when
VPPR was not lower. -/
theorem consistent_of_ppr {s t : State} (h : Sound s) (hle : fieldCls (vppr t) ≤ fieldCls (vppr s))
    (hi : t.svi = highest (visr t)) (hr : t.rvi = s.rvi) (hq : virr t = virr s)
    (hp : vppr t = pprValue (vtpr t) t.svi) (hl : t.pending = s.pending) (hc : t.vmcs.ctl = s.vmcs.ctl) :
    Consistent t where
  svi := hi
  rvi := by rw [hr, hq]; exact h.state.rvi
  ppr := by rw [hp, fieldCls_pprValue]; exact le_max_right _ _
  pprHigh := by rw [hp]; exact high_pprValue _ _
  latch hpend := by
    rw [hl] at hpend
    obtain ⟨hlt, hw⟩ := h.state.latch hpend
    rw [hr, hc]
    exact ⟨hle.trans_lt hlt, hw⟩

theorem Sound.pprVirtualization {s : State} (h : Sound s) (ht : s.vmcs.ctl.tprShadow = true) :
    Sound (Machine.pprVirtualization s) where
  vid := h.vid
  apart := h.apart
  state := consistent_of_ppr h (by rw [Machine.pprVirtualization, vppr_setVppr]; exact fieldCls_ppr_le h ht le_rfl)
    (by rw [Machine.pprVirtualization, visr_setVppr]; exact h.state.svi) rfl (virr_setVppr _ s)
    (by rw [Machine.pprVirtualization, vppr_setVppr, vtpr_setVppr]; rfl) rfl rfl
  covered _ := by
    rw [Machine.pprVirtualization, vppr_setVppr, vtpr_setVppr, fieldCls_pprValue]
    exact le_max_left _ _

/-- The next state of PPR virtualization as a row of its own. -/
theorem execPprVirtualization_next {s t : State} (h : exec .pprVirtualization s = .next t) :
    t = pprVirtualization s := by
  have hk : (enabledBy s.vmcs.ctl.vid (onVapicPage fun s => .done (pprVirtualization s)) s).Stays
      (· = pprVirtualization s) := enabledBy_stays fun _ => onVapicPage_stays rfl
  obtain ⟨-, hd | ⟨e, u, he, -⟩ | ha⟩ := inGuest_next h
  · rwa [hd] at hk
  · unfold enabledBy onVapicPage at he
    split_ifs at he
  · rwa [ha] at hk

/-- Settles O10: delivery by the boundary it is, PPR virtualization by its one store. -/
theorem internalOperationsKeepConsistency : Obligations.InternalOperationsKeepConsistency := by
  refine ⟨fun s t h hn => ?_, fun s t h ht hn => ?_⟩
  · obtain ⟨-, ⟨rfl, hd⟩ | rfl⟩ := boundary_next (inGuest_enabled hn)
    · exact (h.sound.deliver hd.pending).apicInv ((wideFoot_deliver s).mode.trans h.guest)
    · exact h
  · rw [execPprVirtualization_next hn]
    exact (h.sound.pprVirtualization ht).apicInv h.guest

/-! ### VM entry and the EOI-induced VM exit -/

/-- Settles O11: the loads of VM entry make RVI and SVI agree with the bitmaps, its evaluation does the rest. -/
theorem vmEntryEstablishesConsistency : Obligations.VmEntryEstablishesConsistency := by
  intro s t hv hi hr hn
  obtain ⟨-, -, hp, rfl⟩ := execVmEntry_next hn
  have ha : regionsDisjoint (vmcsRegions s.vmcs) = true := by
    unfold runPremises at hp
    exact (Bool.and_eq_true_iff.1 hp).2
  have hs : Sound (vmEntry s) := by
    unfold vmEntry
    rw [if_pos (show (enterGuest s).vmcs.ctl.vid = true from hv)]
    exact Sound.pprEvaluate (s := enterGuest s) hv ha hi.eq hr.eq
  exact hs.apicInv (vmEntry_keeps s).2.2.2.1

/-- Retiring the vector in service lowers the class of SVI or keeps it. -/
theorem cls_retired_le {s : State} (h : s.svi = highest (visr s)) :
    cls (highest (withBit (visr s) s.svi false)) ≤ cls s.svi :=
  cls_le_of_le ((highest_withBit_clear_le _ _).trans (by rw [← h]))

theorem consistent_retireInService {s : State} (h : Sound s) (ht : s.vmcs.ctl.tprShadow = true) :
    Consistent (retireInService s) :=
  consistent_of_ppr h
    (by rw [retireInService_vppr]; exact fieldCls_ppr_le h ht (cls_retired_le h.state.svi))
    (by rw [retireInService_svi, retireInService_visr]) (retireInService_rvi s) (retireInService_virr s)
    (by rw [retireInService_vppr, retireInService_vtpr, retireInService_svi]) (retireInService_pending s)
    (by rw [(foot_retireInService s).vmcs])

/-- Nothing that R283 speaks of changes where a VM exit is taken. -/
theorem Consistent.takeVmExit {s : State} (e : VmExit) (h : Consistent s) : Consistent (Machine.takeVmExit e s) :=
  ⟨h.svi, h.rvi, h.ppr, h.pprHigh, h.latch⟩

/-- Settles O12: an exit comes before evaluation, from the state in which the vector is retired. -/
theorem eoiExitKeepsConsistency : Obligations.EoiExitKeepsConsistency := by
  intro s t h ht hn
  have hstay := h.sound.eoiVirtualization rfl rfl rfl
  have hk : (enabledBy s.vmcs.ctl.vid (onVapicPage eoiVirtualization) s).All Consistent := by
    refine enabledBy_all fun _ => onVapicPage_all fun _ => ?_
    unfold eoiVirtualization at hstay ⊢
    simp only at hstay ⊢
    split_ifs at hstay ⊢
    · exact consistent_retireInService h.sound ht
    · exact Sound.state hstay
  exact inGuest_next_all hn hk fun e _ hu => hu.takeVmExit e

end Sys2Proof.Machine
end

section
/-! Proofs about the other agents (`10_state.md` R30; D5). -/

namespace Sys2Proof.Machine

/-- The agents of a running guest touch no live field. -/
theorem agentStep_untouched {a : AgentRmw} {s u : State} (hm : s.mode = .vmxNonRoot) (h : agentStep a s = .done u) :
    touchesLive s a.addr.toNat 1 = false := by
  unfold agentStep at h
  simp only at h
  split_ifs at h with h1 h2
  simpa [hm] using h2

/-- A byte outside the live fields holds no part of one. -/
theorem vapic32_setMem_untouched {s : State} {m : Memory} {a n off : Nat} (ht : touchesLive s a n = false)
    (ho : off ∈ liveOffsets s.vmcs.ctl) (hm : ∀ x, (x < a ∨ a + n ≤ x) → m.read x = s.mem.read x) :
    vapic32 (setMem m s) off = vapic32 s off := by
  rw [touchesLive, List.any_eq_false] at ht
  have hd := ht off ho
  simp only [disjoint, Bool.not_eq_true', Bool.or_eq_false_iff, decide_eq_false_iff_not] at hd
  have hread : ∀ x, vapicAt s off ≤ x → x < vapicAt s off + 4 → m.read x = s.mem.read x :=
    fun x h1 h2 => hm x (by omega)
  exact congrArg (BitVec.ofNat 32) (Memory.readLe_congr hread)

/-- What the agents of a running guest, and IPI virtualization, leave alone (R30, R163). -/
structure LiveKept (s u : State) : Prop where
  foot   : Foot s u
  fields : ∀ off ∈ liveOffsets s.vmcs.ctl, vapic32 u off = vapic32 s off
  status : SameInterruptStatus s u

theorem LiveKept.refl (s : State) : LiveKept s s := ⟨.refl s, fun _ _ => rfl, rfl, rfl, rfl⟩

theorem LiveKept.agentGap {s u : State} (h : LiveKept s u) (hm : s.mode = .vmxNonRoot) :
    (Machine.agentGap u).All (LiveKept s) := by
  refine agentGap_all h (fun u l hu => ⟨hu.foot.trans rfl, hu.fields, hu.status⟩) fun a u v hu hv => ?_
  have hl := agentStep_untouched (hu.foot.mode.trans hm) hv
  rw [agentStep_done hv]
  refine ⟨hu.foot.trans (foot_setMem _ u), fun off ho => ?_, hu.status⟩
  rw [← hu.fields off ho]
  rw [← hu.foot.vmcs] at ho
  exact vapic32_setMem_untouched hl ho fun x hx => Memory.read_write_other _ _ (by omega)

/-- Settles O21: agent by agent. -/
theorem agentsLeaveLiveFieldsAlone : Obligations.AgentsLeaveLiveFieldsAlone := by
  intro s t hm h
  have hk := (LiveKept.refl s).agentGap hm
  rw [h] at hk
  exact ⟨hk.fields, hk.status, hk.foot.gpr⟩

end Sys2Proof.Machine
end

section
/-! Proofs about what IPI virtualization leaves alone in the sender, and about what changes the recognition of a virtual
interrupt and VPPR (`41_virtual_apic_operations.md` R163; `42_virtual_interrupts.md` R172, R177; `10_state.md` R23). -/

namespace Sys2Proof.Machine

/-! ### IPI virtualization and the sender (R163) -/

theorem LiveKept.emit {s u : State} (e : Event) (h : LiveKept s u) : LiveKept s (Machine.emit e u) :=
  ⟨h.foot.trans (foot_emit e u), h.fields, h.status⟩

/-- A store outside the virtual-APIC page reaches no live field. -/
theorem LiveKept.setMem {s u : State} {m : Memory} (h : LiveKept s u)
    (hm : ∀ a, s.vmcs.vapicAddr.toNat ≤ a → a < s.vmcs.vapicAddr.toNat + 4096 → m.read a = u.mem.read a) :
    LiveKept s (Machine.setMem m u) := by
  refine ⟨h.foot.trans (foot_setMem m u), fun off ho => ?_, h.status⟩
  rw [← h.foot.vmcs] at hm
  exact (vapic32_agree (s := u) (t := Machine.setMem m u) rfl hm (liveOffsets_lt ho)).trans (h.fields off ho)

section Descriptor
variable {s u : State} {p : Nat} (h : LiveKept s u)
  (hp : p + 64 ≤ s.vmcs.vapicAddr.toNat ∨ s.vmcs.vapicAddr.toNat + 4096 ≤ p)
include h hp

theorem LiveKept.postInPir (v : IntVector) : LiveKept s (Machine.postInPir p v u) :=
  h.setMem fun a _ _ => Memory.read_writeLe_outside _ _ _ _ _ (by omega)

theorem LiveKept.notifyPid : LiveKept s (Machine.notifyPid p u) := by
  have hw (v : Nat) : LiveKept s (Machine.setMem (u.mem.writeLe (p + 32) 8 v) u) :=
    h.setMem fun a _ _ => Memory.read_writeLe_outside _ _ _ _ _ (by omega)
  unfold Machine.notifyPid
  simp only
  split
  · exact (hw _).emit _
  · exact hw _

theorem LiveKept.postInterrupt (v : IntVector) (hm : s.mode = .vmxNonRoot) :
    (Machine.postInterrupt p v u).All (LiveKept s) :=
  (h.agentGap hm).seq fun _ h1 => ((h1.postInPir hp v).agentGap hm).seq fun _ h2 => h2.notifyPid hp

end Descriptor

/-- IPI virtualization reaches no live field of the sender: the descriptor it posts in is apart from the page (D15). -/
theorem liveKept_ipiVirtualization (v : IntVector) (t : ApicId) {s : State} (hm : s.mode = .vmxNonRoot)
    (hu : usesVapic s.vmcs.ctl = true) : (ipiVirtualization v t s).All (LiveKept s) := by
  unfold ipiVirtualization
  simp only
  split_ifs with h1 h2 h3 h4 h5 h6
  · exact .refl s
  · trivial
  · trivial
  · exact (LiveKept.refl s).postInterrupt (pidApart_vapic (by simpa using h6) hu) v hm
  · exact .refl s
  · trivial
  · exact .refl s

theorem usesVapic_of_ipiVirt {c : Controls} (h : c.ipiVirt = true) : usesVapic c = true := by
  simp [usesVapic, h]

/-- The sender's own interrupt state is as before. -/
def SenderKept (s t : State) : Prop :=
  SameInterruptStatus s t ∧ visr t = visr s ∧ virr t = virr s ∧ vppr t = vppr s

/-- With "virtual-interrupt delivery" the fields of VISR, VIRR and VPPR are live (R29). -/
theorem LiveKept.sender {s u : State} (h : LiveKept s u) (hv : s.vmcs.ctl.vid = true) : SenderKept s u := by
  obtain ⟨hppr, hisr, hirr, -⟩ := mem_liveOffsets hv
  have isr (k : Nat) (hk : k < 8) := h.fields _ (hisr k hk)
  have irr (k : Nat) (hk : k < 8) := h.fields _ (hirr k hk)
  refine ⟨h.status, ?_, ?_, h.fields _ hppr⟩
  · simp only [visr, vreg]
    rw [isr 0 (by decide), isr 1 (by decide), isr 2 (by decide), isr 3 (by decide), isr 4 (by decide),
      isr 5 (by decide), isr 6 (by decide), isr 7 (by decide)]
  · simp only [virr, vreg]
    rw [irr 0 (by decide), irr 1 (by decide), irr 2 (by decide), irr 3 (by decide), irr 4 (by decide),
      irr 5 (by decide), irr 6 (by decide), irr 7 (by decide)]

/-- The operations that are IPI virtualization leave what it leaves, once completed or exited. -/
theorem ipiForms_next_all {P : State → Prop} {s t : State} {i : Instr} (hn : exec i s = .next t)
    (hi : i = .wrmsrIcr ∨ (∃ v a, i = .senduipi v a) ∨ ∃ v a, i = .ipiVirtualization v a)
    (hk : ∀ v a, s.mode = .vmxNonRoot → s.vmcs.ctl.ipiVirt = true → (ipiVirtualization v a s).All P)
    (hr : ∀ u, P u → P (retire u)) (hx : ∀ e u, P u → P (takeVmExit e u)) : P t := by
  obtain rfl | ⟨v, a, rfl⟩ | ⟨v, a, rfl⟩ := hi
  · obtain ⟨hm, -⟩ := instruction_next hn
    exact instruction_next_all hn (fun hc => hk _ _ hm (Bool.and_eq_true_iff.1 hc).2) hr hx
  · obtain ⟨hm, -⟩ := instruction_next hn
    exact instruction_next_all hn (fun hc => hk _ _ hm hc) hr hx
  · obtain ⟨hm, -⟩ := inGuest_next hn
    exact inGuest_next_all hn (enabledBy_all fun hc => hk _ _ hm hc) hx

/-- Settles O31: the live fields and the guest interrupt status are kept, whatever the agents do meanwhile. -/
theorem ipiLeavesTheSenderAlone : Obligations.IpiLeavesTheSenderAlone := by
  intro s t i hi hn hv
  exact ipiForms_next_all (P := SenderKept s) hn hi
    (fun v a hm hc => (liveKept_ipiVirtualization v a hm (usesVapic_of_ipiVirt hc)).imp fun _ hu => hu.sender hv)
    (fun _ hu => hu) fun _ _ hu => hu

/-! ### Rows of format PAGE -/

/-- A page access that is treated or faults keeps what its treatment keeps. -/
theorem page_next_all {P : State → Prop} {s t : State} {c : Bool} {env : AccessEnv} {kind : AccessKind}
    {k : State → Res} (hn : inGuest (whenActive (enabledBy c (pageStep env kind (outsideEnclave k)))) s = .next t)
    (he : ∀ e, P (emit e (beginAccess false (beginAccess env.cont s)))) (hk : (k (treatedState kind env s)).All P)
    (hr : ∀ u, P u → P (retire u)) (hx : ∀ e u, P u → P (takeVmExit e u)) : P t :=
  inGuest_next_all hn (whenActive_all fun _ => enabledBy_all fun _ =>
    pageStep_all he (outsideEnclave_all fun _ => hk) hr) hx

theorem pageWrite_next_all {P : State → Prop} {s t : State} {c : Bool} {off : PageOff} {d : List Byte}
    {env : AccessEnv} {k : State → Res}
    (hn : inGuest (whenActive (enabledBy c (pageWriteStep off d env k))) s = .next t)
    (he : ∀ e, P (emit e (beginAccess false (beginAccess env.cont s))))
    (hp : env.subPage = true → (plainWrite (apicPageAddr s off) d (treatedState .write env s)).All P)
    (hk : env.subPage = false → (k (treatedState .write env s)).All P)
    (hr : ∀ u, P u → P (retire u)) (hx : ∀ e u, P u → P (takeVmExit e u)) : P t :=
  inGuest_next_all hn (whenActive_all fun _ => enabledBy_all fun _ => pageWriteStep_all he hp hk hr) hx

/-! ### The recognition of a virtual interrupt (R172, R177) -/

/-- A read of the page changes the loaded bytes at most. -/
theorem pageRead_all {P : State → Prop} {kind : AccessKind} {off : PageOff} {n : Nat} {s : State} (hs : P s)
    (hv : P (virtualRead off.toNat n s)) : (pageRead kind off n s).All P := by
  unfold pageRead
  split_ifs
  · exact hs
  · exact onVapicPage_all fun _ => hv
  · exact hs

/-- A write that no trigger takes is stored on the virtual-APIC page where it is directed there, and nowhere else. -/
theorem pageWriteDefault_all {P : State → Prop} {off : PageOff} {d : List Byte} {s : State} (hs : P s)
    (hv : DirectedWrite s off.toNat d.length → P (virtualWrite off.toNat d s)) : (pageWriteDefault off d s).All P := by
  unfold pageWriteDefault
  split_ifs with ha hd
  · exact onVapicPage_all fun _ => hv ((writeDirected_iff s off.toNat d.length).1 hd)
  · trivial
  · exact hs

theorem plainWrite_all {P : State → Prop} {pa : PhysAddr} {d : List Byte} {s : State}
    (h : touchesLive s pa.toNat d.length = false → P (setMem (s.mem.writeBytes pa.toNat d) s)) :
    (plainWrite pa d s).All P := by
  unfold plainWrite
  split_ifs with h1 h2
  · trivial
  · trivial
  · trivial
  · trivial
  · exact h (by simpa using h2)

/-- Settles O20: of the operations that are left none evaluates or delivers. -/
theorem recognitionChangesOnlyByItsCauses : Obligations.RecognitionChangesOnlyByItsCauses := by
  intro i s t hn hcr8 hwtpr hweoi hwself htpr heoi hicr hrep hentry hbound hext hptpr hpeoi hself heval hdel hpost
  have ipi (hi : i = .wrmsrIcr ∨ (∃ v a, i = .senduipi v a) ∨ ∃ v a, i = .ipiVirtualization v a) :
      t.pending = s.pending := by
    refine ipiForms_next_all (P := fun u => u.pending = s.pending) hn hi (fun v a hm hc => ?_) (fun _ hu => hu)
      fun _ _ hu => hu
    refine (liveKept_ipiVirtualization v a hm (usesVapic_of_ipiVirt hc)).imp fun u hu => ?_
    obtain ⟨-, -, hpend⟩ := hu.status
    exact hpend
  cases i with
  | wrmsrIcr => exact ipi (.inl rfl)
  | senduipi v a => exact ipi (.inr (.inl ⟨v, a, rfl⟩))
  | ipiVirtualization v a => exact ipi (.inr (.inr ⟨v, a, rfl⟩))
  | movFromCr8 dst =>
    exact instruction_next_all (P := fun u => u.pending = s.pending) hn (fun _ => onVapicPage_all fun _ => rfl)
      (fun _ hu => hu) fun _ _ hu => hu
  | wrmsrApicOther | rdmsrApic =>
    exact instruction_next_all (P := fun u => u.pending = s.pending) hn (fun _ => trivial) (fun _ hu => hu)
      fun _ _ hu => hu
  | sti | movSs | popSs | hlt | mwait => obtain ⟨-, rfl⟩ := instruction_update hn; rfl
  | pageRead off n env | pageFetch off n env =>
    exact page_next_all (P := fun u => u.pending = s.pending) hn (fun _ => rfl) (pageRead_all rfl rfl) (fun _ hu => hu)
      fun _ _ hu => hu
  | pageWriteOther off d env =>
    obtain ⟨-, -, hw⟩ := treatedState_status .write env s
    exact pageWrite_next_all (P := fun u => u.pending = s.pending) hn (fun _ => rfl)
      (fun _ => plainWrite_all fun _ => (setMem_pending _ _).trans hw)
      (fun _ => pageWriteUntaken_all (pageWriteDefault_all hw fun _ => (virtualWrite_pending _ _ _).trans hw))
      (fun _ hu => hu) fun _ _ hu => hu
  | pprVirtualization => rw [execPprVirtualization_next hn, pprVirtualization_pending]
  | movToCr8 r => exact absurd rfl (hcr8 r)
  | wrmsrTpr => exact absurd rfl hwtpr
  | wrmsrEoi => exact absurd rfl hweoi
  | wrmsrSelfIpi => exact absurd rfl hwself
  | pageWriteTpr d e => exact absurd rfl (htpr d e)
  | pageWriteEoi d e => exact absurd rfl (heoi d e)
  | pageWriteIcrLo d e => exact absurd rfl (hicr d e)
  | repStringIteration it => exact absurd rfl (hrep it)
  | vmEntry => exact absurd rfl hentry
  | instructionBoundary b => exact absurd rfl (hbound b)
  | externalInterrupt pv x => exact absurd rfl (hext pv x)
  | tprVirtualization => exact absurd rfl hptpr
  | eoiVirtualization => exact absurd rfl hpeoi
  | selfIpiVirtualization v => exact absurd rfl (hself v)
  | evaluatePendingVirtualInterrupts => exact absurd rfl heval
  | virtualInterruptDelivery => exact absurd rfl hdel
  | postedInterruptProcessing pv x => exact absurd rfl (hpost pv x)

/-! ### VPPR (R23, R154) -/

/-- A guest in which VPPR has not been written since `s`. -/
structure PprKept (s u : State) : Prop where
  wide : WideFoot s u
  ppr  : vppr u = vppr s

theorem PprKept.refl (s : State) : PprKept s s := ⟨.refl s, rfl⟩

theorem PprKept.step {s u v : State} (h : PprKept s u) (hf : WideFoot u v) (hp : vppr v = vppr u) : PprKept s v :=
  ⟨h.wide.trans hf, hp.trans h.ppr⟩

theorem PprKept.agentGap {s u : State} (h : PprKept s u) (hm : s.mode = .vmxNonRoot) (hv : s.vmcs.ctl.vid = true) :
    (Machine.agentGap u).All (PprKept s) := by
  rw [← h.wide.mode] at hm
  rw [← h.wide.vmcs] at hv
  refine ((LiveKept.refl u).agentGap hm).imp fun w hw => ?_
  obtain ⟨-, -, -, hppr⟩ := hw.sender hv
  exact h.step hw.foot.wide hppr

/-- The own descriptor is apart from the virtual-APIC page. -/
theorem PprKept.setMem {s u : State} {m : Memory} (h : PprKept s u)
    (hm : ∀ a, s.vmcs.vapicAddr.toNat ≤ a → a < s.vmcs.vapicAddr.toNat + 4096 → m.read a = u.mem.read a) :
    PprKept s (Machine.setMem m u) := by
  rw [← h.wide.vmcs] at hm
  exact h.step (foot_setMem m u).wide
    (vapic32_agree (s := u) (t := Machine.setMem m u) rfl hm (off := offPpr) (by decide))

theorem vppr_acceptPosted (got : BitVec 256) (s : State) : vppr (acceptPosted got s) = vppr s := by
  rw [acceptPosted, vppr_evaluate, apply_ite vppr, raiseRvi, vppr_setRvi, ite_self, vppr_orVirr]

section OwnDescriptor
variable {s : State} (hm : s.mode = .vmxNonRoot) (hv : s.vmcs.ctl.vid = true) {p : Nat}
  (hp : p + 64 ≤ s.vmcs.vapicAddr.toNat ∨ s.vmcs.vapicAddr.toNat + 4096 ≤ p)
include hm hv hp

theorem PprKept.drainPir {u : State} (h : PprKept s u) (gs : List (BitVec 256)) (got : BitVec 256) :
    (Machine.drainPir p gs got u).All (PprKept s) := by
  induction gs generalizing u got with
  | nil => exact h.step (foot_acceptPosted got u).wide (vppr_acceptPosted got u)
  | cons g gs ih =>
    have hx : PprKept s (exchangeGroup p g u).2 :=
      h.setMem fun a _ _ => Memory.read_writeLe_outside _ _ _ _ _ (by omega)
    exact (hx.agentGap hm hv).seq fun w hw => ih hw _

end OwnDescriptor

theorem PprKept.processPosted {s u : State} (h : PprKept s u) (hm : s.mode = .vmxNonRoot)
    (hv : s.vmcs.ctl.vid = true) (ha : regionsDisjoint (vmcsRegions s.vmcs) = true)
    (hc : s.vmcs.ctl.postedIntr = true) : (Machine.processPosted u).All (PprKept s) := by
  have hp := ownPid_apart ha hc (usesVapic_of_vid hv)
  unfold Machine.processPosted
  simp only
  rw [h.wide.vmcs]
  have hclear : PprKept s (emit .localApicEoi (clearOn s.vmcs.piDescAddr.toNat u)) :=
    (h.setMem (m := u.mem.write _ _) fun a _ _ => Memory.read_write_other _ _ (by omega)).step (foot_emit _ _).wide rfl
  refine (hclear.agentGap hm hv).seq fun w hw => (hw.drainPir hm hv hp _ _).seq fun x hx => ?_
  exact hx.step (wideFoot_afterPosted x) rfl

theorem vppr_enclaveExit (s : State) : vppr (enclaveExit s) = vppr s := by unfold enclaveExit; split <;> rfl

theorem PprKept.postedInterruptProcessing {s : State} (hm : s.mode = .vmxNonRoot)
    (hv : s.vmcs.ctl.vid = true) (ha : regionsDisjoint (vmcsRegions s.vmcs) = true)
    (hc : s.vmcs.ctl.postedIntr = true) (pv : IntVector) (x : Bool) :
    (Machine.postedInterruptProcessing pv x s).All (PprKept s) := by
  have hack : PprKept s (emit (.localApicAck pv) (aexBefore x s)) := by
    refine (PprKept.refl s).step ((wideFoot_aexBefore x s).trans (foot_emit _ _).wide) ?_
    rw [vppr_emit, aexBefore]
    split
    · exact vppr_enclaveExit s
    · rfl
  unfold Machine.postedInterruptProcessing
  simp only
  split_ifs
  · exact hack.step (wideFoot_interruptExit pv _) (vppr_enclaveExit _)
  · trivial
  · exact onVapicPage_all fun _ => hack.processPosted hm hv ha hc
  · trivial

/-- A directed write reaches no byte of VPPR (log 27). -/
theorem vppr_directedWrite {s : State} {off : Nat} {d : List Byte} (h : DirectedWrite s off d.length) :
    vppr (virtualWrite off d s) = vppr s := by
  obtain ⟨-, hclear⟩ := h
  refine congrArg (BitVec.ofNat 32) (Memory.readLe_congr fun x h1 h2 => read_virtualWrite off d s ?_)
  by_contra hx
  simp only [vapicAt] at h1 h2 hx
  obtain ⟨hppr, -⟩ := hclear (x - s.vmcs.vapicAddr.toNat) (by omega) (by omega)
  simp only [virtualWrite, setMem_vmcs, offPpr] at h1 h2
  omega

/-- No byte of VPPR is a live field's byte that a plain store touches. -/
theorem vppr_plainWrite {s : State} {a : Nat} {d : List Byte} (hv : s.vmcs.ctl.vid = true)
    (h : touchesLive s a d.length = false) : vppr (setMem (s.mem.writeBytes a d) s) = vppr s :=
  vapic32_setMem_untouched h (mem_liveOffsets hv).1 fun _ hx => Memory.read_writeBytes_outside _ _ _ _ hx

theorem vppr_pageWriteDefault (off : PageOff) (d : List Byte) (s : State) :
    (pageWriteDefault off d s).All fun u => vppr u = vppr s :=
  pageWriteDefault_all rfl fun hd => vppr_directedWrite hd

theorem vppr_selfIpi (v : IntVector) (s : State) : vppr (selfIpiVirtualization v s) = vppr s := by
  rw [selfIpiVirtualization, vppr_evaluate, raiseRvi, vppr_setRvi, vppr_setVregBit_irr]

/-- What the open dispatch selects at page offset 0x300 does not write VPPR (R158, R163). -/
theorem vppr_icrVirtualization {s : State} (hm : s.mode = .vmxNonRoot) (hv : s.vmcs.ctl.vid = true) :
    (icrVirtualization s).All fun u => vppr u = vppr s := by
  unfold icrVirtualization
  split
  · exact vppr_selfIpi _ s
  · refine (liveKept_ipiVirtualization _ _ hm (usesVapic_of_vid hv)).imp fun u hu => ?_
    obtain ⟨-, -, -, hppr⟩ := hu.sender hv
    exact hppr
  · rfl

theorem vppr_pageWriteIcrLo (d : List Byte) {s : State} (hm : s.mode = .vmxNonRoot) (hv : s.vmcs.ctl.vid = true) :
    (pageWriteIcrLo d s).All fun u => vppr u = vppr s := by
  unfold pageWriteIcrLo
  split
  · next hq =>
    have hw : vppr (virtualWrite offIcrLo d s) = vppr s := vapic32_virtualWrite s (.inl (by decide))
    exact onVapicPage_all fun _ => (vppr_icrVirtualization (s := virtualWrite offIcrLo d s) hm hv).imp
      fun u hu => Eq.trans hu hw
  · exact pageWriteUntaken_all (vppr_pageWriteDefault _ d s)

/-- Settles O19: row by row of those that are left. -/
theorem vpprWrittenOnlyByItsCauses : Obligations.VpprWrittenOnlyByItsCauses := by
  intro i s t hn hv ha hcr8 hwtpr hweoi htpr heoi hrep hentry hbound hext hptpr hppr hpeoi hdel
  have ipi (hi : i = .wrmsrIcr ∨ (∃ v a, i = .senduipi v a) ∨ ∃ v a, i = .ipiVirtualization v a) :
      vppr t = vppr s := by
    obtain ⟨-, -, -, h⟩ := ipiLeavesTheSenderAlone s t i hi hn hv
    exact h
  cases i with
  | wrmsrIcr => exact ipi (.inl rfl)
  | senduipi v a => exact ipi (.inr (.inl ⟨v, a, rfl⟩))
  | ipiVirtualization v a => exact ipi (.inr (.inr ⟨v, a, rfl⟩))
  | movFromCr8 dst =>
    exact instruction_next_all (P := fun u => vppr u = vppr s) hn (fun _ => onVapicPage_all fun _ => rfl)
      (fun _ hu => hu) fun _ _ hu => hu
  | wrmsrSelfIpi =>
    exact instruction_next_all (P := fun u => vppr u = vppr s) hn
      (fun _ => onVapicPage_all fun _ => vppr_selfIpi _ s) (fun _ hu => hu) fun _ _ hu => hu
  | wrmsrApicOther | rdmsrApic =>
    exact instruction_next_all (P := fun u => vppr u = vppr s) hn (fun _ => trivial) (fun _ hu => hu)
      fun _ _ hu => hu
  | sti | movSs | popSs | hlt | mwait => obtain ⟨-, rfl⟩ := instruction_update hn; rfl
  | pageRead off n env | pageFetch off n env =>
    exact page_next_all (P := fun u => vppr u = vppr s) hn (fun _ => rfl) (pageRead_all rfl rfl) (fun _ hu => hu)
      fun _ _ hu => hu
  | pageWriteOther off d env =>
    exact pageWrite_next_all (P := fun u => vppr u = vppr s) hn (fun _ => rfl)
      (fun _ => plainWrite_all (s := treatedState .write env s) fun hl => vppr_plainWrite hv hl)
      (fun _ => pageWriteUntaken_all (vppr_pageWriteDefault off d _)) (fun _ hu => hu) fun _ _ hu => hu
  | pageWriteIcrLo d env =>
    obtain ⟨hm, -⟩ := inGuest_next hn
    exact pageWrite_next_all (P := fun u => vppr u = vppr s) hn (fun _ => rfl)
      (fun _ => plainWrite_all (s := treatedState .write env s) fun hl => vppr_plainWrite hv hl)
      (fun _ => vppr_pageWriteIcrLo d (s := treatedState .write env s) hm hv) (fun _ hu => hu) fun _ _ hu => hu
  | selfIpiVirtualization v =>
    exact inGuest_next_all (P := fun u => vppr u = vppr s) hn
      (enabledBy_all fun _ => onVapicPage_all fun _ => vppr_selfIpi v s) fun _ _ hu => hu
  | evaluatePendingVirtualInterrupts =>
    exact inGuest_next_all (P := fun u => vppr u = vppr s) hn
      (enabledBy_all fun _ => onVapicPage_all fun _ => vppr_evaluate s) fun _ _ hu => hu
  | postedInterruptProcessing pv x =>
    obtain ⟨hm, -⟩ := inGuest_next hn
    refine inGuest_next_all (P := fun u => vppr u = vppr s) hn
      (enabledBy_all fun hc => interruptible_all ?_) fun _ _ hu => hu
    exact (PprKept.postedInterruptProcessing hm hv ha (Bool.and_eq_true_iff.1 hc).2 pv x).imp fun _ hu => hu.ppr
  | movToCr8 r => exact absurd rfl (hcr8 r)
  | wrmsrTpr => exact absurd rfl hwtpr
  | wrmsrEoi => exact absurd rfl hweoi
  | pageWriteTpr d e => exact absurd rfl (htpr d e)
  | pageWriteEoi d e => exact absurd rfl (heoi d e)
  | repStringIteration it => exact absurd rfl (hrep it)
  | vmEntry => exact absurd rfl hentry
  | instructionBoundary b => exact absurd rfl (hbound b)
  | externalInterrupt pv x => exact absurd rfl (hext pv x)
  | tprVirtualization => exact absurd rfl hptpr
  | pprVirtualization => exact absurd rfl hppr
  | eoiVirtualization => exact absurd rfl hpeoi
  | virtualInterruptDelivery => exact absurd rfl hdel

end Sys2Proof.Machine
end

section
/-! Proofs about which operations raise a TPR-below-threshold or an EOI-induced VM exit (`60_exceptions.md` R241,
R242). -/

namespace Sys2Proof.Machine

/-! ### The VM exit an operation raises -/

/-- `X` holds of the VM exit an operation raises and of the state it is raised in, if it raises one. -/
def Res.Exits (X : VmExit → State → Prop) : Res → Prop
  | .exit e u => X e u
  | .done _ | .abort _ | .refuse _ => True

section Rules
variable {X : VmExit → State → Prop} {k : State → Res} {s : State}

theorem Res.Exits.imp {Y : VmExit → State → Prop} {r : Res} (h : r.Exits X) (f : ∀ e u, X e u → Y e u) : r.Exits Y := by
  cases r with
  | exit e u => exact f e u h
  | done | abort | refuse => trivial

theorem Res.Exits.andThen {r : Res} (h : r.Exits X) (hk : ∀ u, (k u).Exits X) : (r.andThen k).Exits X := by
  cases r with
  | done u => exact hk u
  | exit e u => exact h
  | abort | refuse => trivial

theorem Res.Goes.exits {r : Res} (h : r.Goes) : r.Exits X := by
  obtain ⟨u, rfl⟩ | ⟨x, rfl⟩ := h <;> trivial

theorem onVapicPage_exits (h : (k s).Exits X) : (onVapicPage k s).Exits X := by
  unfold onVapicPage; split
  · exact h
  · trivial

theorem enabledBy_exits {c : Bool} (h : c = true → (k s).Exits X) : (enabledBy c k s).Exits X := by
  unfold enabledBy; split
  · next hc => exact h hc
  · trivial

theorem whenActive_exits (h : (k s).Exits X) : (whenActive k s).Exits X := by
  unfold whenActive; split
  · exact h
  · trivial

theorem interruptible_exits (h : (k s).Exits X) : (interruptible k s).Exits X := by
  unfold interruptible; split
  · exact h
  · trivial

theorem outsideEnclave_exits (h : s.enclave = false → (k s).Exits X) : (outsideEnclave k s).Exits X := by
  unfold outsideEnclave; split
  · trivial
  · next he => exact h (by simpa using he)

theorem completing_exits (h : (k s).Exits X) : (completing k s).Exits X := h.andThen fun _ => trivial

theorem translated_exits {x : Xlat} {kind : AccessKind} (h : x = .ok → (k (setPagingFlags kind s)).Exits X) :
    (translated x kind k s).Exits X := by
  cases x with
  | ok => exact h rfl
  | pageFault | eptViolation => trivial

theorem pageStep_exits {env : AccessEnv} {kind : AccessKind} (h : (k (treatedState kind env s)).Exits X) :
    (pageStep env kind k s).Exits X := by
  unfold pageStep; split
  · trivial
  · exact (translated_exits fun _ => h).andThen fun _ => trivial

theorem plainWrite_exits (pa : PhysAddr) (d : List Byte) : (plainWrite pa d s).Exits X := by
  unfold plainWrite; split_ifs <;> trivial

theorem plainRead_exits (pa : PhysAddr) (n : Nat) : (plainRead pa n s).Exits X := by
  unfold plainRead; split <;> trivial

theorem pageWriteStep_exits {off : PageOff} {d : List Byte} {env : AccessEnv}
    (h : (k (treatedState .write env s)).Exits X) : (pageWriteStep off d env k s).Exits X := by
  refine pageStep_exits ?_
  cases env.subPage
  · exact outsideEnclave_exits fun _ => h
  · exact plainWrite_exits _ d

/-- An operation of the guest that leaves it does so by a VM exit it raises. -/
theorem left_of_inGuest {t : State} (h : inGuest k s = .next t) (ht : t.mode = .vmxRoot)
    (hf : (k s).All fun u => u.mode = s.mode) (hx : (k s).Exits X) : ∃ e u, X e u ∧ t = takeVmExit e u := by
  obtain ⟨hm, hd | ⟨e, u, he, rfl⟩ | ha⟩ := inGuest_next h
  · rw [hd] at hf; exact nomatch (ht.symm.trans (Eq.trans hf hm) : Mode.vmxRoot = .vmxNonRoot)
  · rw [he] at hx; exact ⟨e, u, hx, rfl⟩
  · rw [ha] at hf; exact nomatch (ht.symm.trans (Eq.trans hf hm) : Mode.vmxRoot = .vmxNonRoot)

theorem left_of_instruction {c : Bool} {t : State} (h : instruction c k s = .next t) (ht : t.mode = .vmxRoot)
    (hf : (k s).All (Foot s)) (hx : c = true → (k s).Exits X) : ∃ e u, X e u ∧ t = takeVmExit e u :=
  left_of_inGuest h ht
    (whenActive_all fun _ => enabledBy_all fun _ => completing_all (hf.imp fun _ hu => hu.mode) fun _ hu => hu)
    (whenActive_exits (enabledBy_exits fun hc => completing_exits (hx hc)))

theorem left_of_event {c : Bool} {t : State} (h : inGuest (enabledBy c k) s = .next t) (ht : t.mode = .vmxRoot)
    (hf : (k s).All (WideFoot s)) (hx : c = true → (k s).Exits X) : ∃ e u, X e u ∧ t = takeVmExit e u :=
  left_of_inGuest h ht (enabledBy_all fun _ => hf.imp fun _ hu => hu.mode) (enabledBy_exits hx)

theorem left_of_page {c : Bool} {env : AccessEnv} {kind : AccessKind} {t : State}
    (h : inGuest (whenActive (enabledBy c (pageStep env kind (outsideEnclave k)))) s = .next t) (ht : t.mode = .vmxRoot)
    (hf : (k (treatedState kind env s)).All (Foot (treatedState kind env s)))
    (hx : (k (treatedState kind env s)).Exits X) : ∃ e u, X e u ∧ t = takeVmExit e u :=
  left_of_inGuest h ht
    (whenActive_all fun _ => enabledBy_all fun _ => pageStep_all (fun _ => rfl)
      (outsideEnclave_all fun _ => hf.imp fun _ hu => hu.mode) fun _ hu => hu)
    (whenActive_exits (enabledBy_exits fun _ => pageStep_exits (outsideEnclave_exits fun _ => hx)))

theorem left_of_pageWrite {c : Bool} {off : PageOff} {d : List Byte} {env : AccessEnv} {t : State}
    (h : inGuest (whenActive (enabledBy c (pageWriteStep off d env k))) s = .next t) (ht : t.mode = .vmxRoot)
    (hf : (k (treatedState .write env s)).All (Foot (treatedState .write env s)))
    (hx : (k (treatedState .write env s)).Exits X) : ∃ e u, X e u ∧ t = takeVmExit e u :=
  left_of_inGuest h ht
    (whenActive_all fun _ => enabledBy_all fun _ => pageWriteStep_all (fun _ => rfl)
      (fun _ => (foot_plainWrite _ d _).imp fun _ hu => hu.mode) (fun _ => hf.imp fun _ hu => hu.mode) fun _ hu => hu)
    (whenActive_exits (enabledBy_exits fun _ => pageWriteStep_exits hx))

end Rules

/-! ### The two VM exits and the others -/

/-- Neither of the two. -/
def VmExit.Other (e : VmExit) : Prop := e ≠ .tprBelowThreshold ∧ ∀ v, e ≠ .eoiInduced v

/-- The TPR-below-threshold VM exit of TPR virtualization in `w` (R152). -/
def TprRaised (w : State) (e : VmExit) (u : State) : Prop :=
  e = .tprBelowThreshold ∧ u = w ∧ w.vmcs.ctl.vid = false ∧ tprBelow w = true

/-- The EOI-induced VM exit of EOI virtualization in `w` (R156). -/
def EoiRaised (w : State) (e : VmExit) (u : State) : Prop :=
  e = .eoiInduced w.svi ∧ u = retireInService w ∧ w.vmcs.eoiExitBitmap.getLsbD w.svi.toNat = true

theorem tprVirtualization_exits (w : State) : (tprVirtualization w).Exits (TprRaised w) := by
  unfold tprVirtualization
  split_ifs with hv hb
  · trivial
  · exact ⟨rfl, rfl, by simpa using hv, hb⟩
  · trivial

theorem eoiVirtualization_exits (w : State) : (eoiVirtualization w).Exits (EoiRaised w) := by
  unfold eoiVirtualization
  simp only
  split_ifs with hb
  · exact ⟨rfl, rfl, hb⟩
  · trivial

theorem other_apicWrite (off : PageOff) : (VmExit.apicWrite off).Other := ⟨nofun, nofun⟩
theorem other_apicAccess (off : PageOff) (k : AccessKind) : (VmExit.apicAccess off k).Other := ⟨nofun, nofun⟩
theorem other_externalInterrupt (v : IntVector) : (VmExit.externalInterrupt v).Other := ⟨nofun, nofun⟩

theorem postInterrupt_goes (p : Nat) (v : IntVector) (s : State) : (postInterrupt p v s).Goes :=
  (agentGap_goes s).andThen fun _ => (agentGap_goes _).andThen fun _ => .inl ⟨_, rfl⟩

theorem ipiVirtualization_exits (v : IntVector) (a : ApicId) (s : State) :
    (ipiVirtualization v a s).Exits fun e _ => e.Other := by
  unfold ipiVirtualization
  simp only
  split_ifs
  · exact other_apicWrite _
  · trivial
  · trivial
  · exact (postInterrupt_goes _ v s).exits
  · exact other_apicWrite _
  · trivial
  · exact other_apicWrite _

theorem icrVirtualization_exits (s : State) : (icrVirtualization s).Exits fun e _ => e.Other := by
  unfold icrVirtualization
  split
  · trivial
  · exact ipiVirtualization_exits _ _ s
  · exact other_apicWrite _

theorem pageRead_exits_other (kind : AccessKind) (off : PageOff) (n : Nat) (s : State) :
    (pageRead kind off n s).Exits fun e _ => e.Other := by
  unfold pageRead
  split_ifs
  · exact other_apicAccess _ _
  · exact onVapicPage_exits trivial
  · exact other_apicAccess _ _

theorem pageWriteDefault_exits_other (off : PageOff) (d : List Byte) (s : State) :
    (pageWriteDefault off d s).Exits fun e _ => e.Other := by
  unfold pageWriteDefault
  split_ifs
  · exact onVapicPage_exits (other_apicWrite _)
  · trivial
  · exact other_apicAccess _ _

theorem pageWriteUntaken_exits_other (b : Bool) (off : PageOff) (d : List Byte) (s : State) :
    (pageWriteUntaken b off d s).Exits fun e _ => e.Other := by
  unfold pageWriteUntaken
  split
  · trivial
  · exact pageWriteDefault_exits_other off d s

theorem pageWriteTpr_exits (d : List Byte) (s : State) :
    (pageWriteTpr d s).Exits fun e u => TprRaised (virtualWrite offTpr d s) e u ∨ e.Other := by
  unfold pageWriteTpr
  split
  · exact onVapicPage_exits ((tprVirtualization_exits _).imp fun _ _ h => .inl h)
  · exact (pageWriteDefault_exits_other _ d s).imp fun _ _ h => .inr h

theorem pageWriteEoi_exits (d : List Byte) (s : State) :
    (pageWriteEoi d s).Exits fun e u =>
      (s.vmcs.ctl.vid = true ∧ EoiRaised (virtualWrite offEoi d s) e u) ∨ e.Other := by
  unfold pageWriteEoi
  split
  · next hq =>
    exact onVapicPage_exits
      ((eoiVirtualization_exits _).imp fun _ _ h => .inl ⟨(Bool.and_eq_true_iff.1 hq).1, h⟩)
  · exact (pageWriteUntaken_exits_other _ _ d s).imp fun _ _ h => .inr h

theorem pageWriteIcrLo_exits (d : List Byte) (s : State) : (pageWriteIcrLo d s).Exits fun e _ => e.Other := by
  unfold pageWriteIcrLo
  split
  · exact onVapicPage_exits (icrVirtualization_exits _)
  · exact pageWriteUntaken_exits_other _ _ d s

/-- Which VM exit a write at `off` raises in `s`. -/
def WriteRaised (off : PageOff) (d : List Byte) (s : State) (e : VmExit) (u : State) : Prop :=
  (off = 0x080 ∧ TprRaised (virtualWrite offTpr d s) e u) ∨
    (off = 0x0B0 ∧ s.vmcs.ctl.vid = true ∧ EoiRaised (virtualWrite offEoi d s) e u) ∨ e.Other

theorem pageWrite_exits (off : PageOff) (d : List Byte) (s : State) :
    (pageWrite off d s).Exits (WriteRaised off d s) := by
  unfold pageWrite
  split_ifs with h1 h2 h3
  · exact (pageWriteTpr_exits d s).imp fun _ _ h => h.imp (fun h => ⟨h1, h⟩) .inr
  · exact (pageWriteEoi_exits d s).imp fun _ _ h => .inr (h.imp_left fun h => ⟨h2, h⟩)
  · exact (pageWriteIcrLo_exits d s).imp fun _ _ h => .inr (.inr h)
  · exact (pageWriteUntaken_exits_other _ off d s).imp fun _ _ h => .inr (.inr h)

/-! ### External interrupts -/

theorem drainPir_goes (p : Nat) (gs : List (BitVec 256)) (got : BitVec 256) (s : State) :
    (drainPir p gs got s).Goes := by
  induction gs generalizing got s with
  | nil => exact .inl ⟨_, rfl⟩
  | cons g gs ih => exact (agentGap_goes _).andThen fun u => ih _ u

theorem processPosted_goes (s : State) : (processPosted s).Goes :=
  (agentGap_goes _).andThen fun _ => (drainPir_goes _ _ _ _).andThen fun _ => .inl ⟨_, rfl⟩

theorem postedInterruptProcessing_exits_other (pv : IntVector) (x : Bool) (s : State) :
    (postedInterruptProcessing pv x s).Exits fun e _ => e.Other := by
  unfold postedInterruptProcessing
  simp only
  split_ifs
  · exact other_externalInterrupt _
  · trivial
  · exact onVapicPage_exits (processPosted_goes _).exits
  · trivial

theorem externalInterrupt_exits_other (pv : IntVector) (x : Bool) (s : State) :
    (externalInterrupt pv x s).Exits fun e _ => e.Other := by
  unfold externalInterrupt
  split_ifs
  · trivial
  · exact postedInterruptProcessing_exits_other pv x s
  · exact other_externalInterrupt _

theorem afterDelivery_exits {X : VmExit → State → Prop} {k : State → Res} (s : State) (hk : ∀ u, (k u).Exits X) :
    (afterDelivery k s).Exits X := by
  unfold afterDelivery
  split
  · refine onVapicPage_exits ?_
    split
    · trivial
    · exact hk _
  · exact hk s

/-! ### String iterations -/

theorem special_exits {X : VmExit → State → Prop} {pa : PhysAddr} {n : Nat} {f g : State → Res} {s : State}
    (hf : s.vmcs.ctl.virtApicAccesses = true → onApicPage s pa = true → s.enclave = false → (f s).Exits X)
    (hg : (g s).Exits X) : (special pa n f g s).Exits X := by
  unfold special
  split_ifs with hc hp
  · exact outsideEnclave_exits (hf hc hp)
  · trivial
  · exact hg
  · exact hg

/-- An access raises what a treated write raises, or another VM exit. -/
theorem linearAccess_exits (a : LinearAccess) (s : State) :
    (linearAccess a s).Exits fun e u =>
      (∃ off d, TreatedWrite s off d a ∧ WriteRaised off d (setPagingFlags .write s) e u) ∨ e.Other := by
  cases a with
  | read pa n x | fetch pa n x =>
    exact translated_exits fun _ => special_exits
      (fun _ _ _ => (pageRead_exits_other _ _ n _).imp fun _ _ h => .inr h) (plainRead_exits pa n)
  | write pa d x sub =>
    refine translated_exits fun hx => ?_
    cases sub with
    | true => exact plainWrite_exits pa d
    | false =>
      exact special_exits (s := setPagingFlags .write s)
        (fun hc hp he => (pageWrite_exits _ d _).imp fun _ _ h => .inl ⟨_, d, ⟨hx, rfl, hc, he, hp, rfl, rfl⟩, h⟩)
        (plainWrite_exits pa d)

/-- The accesses of an iteration raise what one of them raises, after those before it have gone on. -/
theorem linearAccesses_exits (as : List LinearAccess) (s : State) :
    (linearAccesses as s).Exits fun e w =>
      ∃ before a after u, as = before ++ a :: after ∧ linearAccesses before s = .done u ∧
        linearAccess a u = .exit e w := by
  induction as generalizing s with
  | nil => trivial
  | cons a as ih =>
    rw [linearAccesses]
    cases h : linearAccess a s with
    | done v =>
      refine (ih v).imp fun e w ⟨before, b, after, u, has, hb, he⟩ => ?_
      exact ⟨a :: before, b, after, u, by rw [has]; rfl, by rw [linearAccesses, h]; exact hb, he⟩
    | exit e w => exact ⟨[], a, as, s, rfl, rfl, h⟩
    | abort | refuse => trivial

/-! ### What raises the two -/

/-- The triggers of TPR virtualization, with what VTPR holds in `w` where each has stored it (R121, R123, R128). -/
def TprCause (s : State) (i : Instr) (w : State) : Prop :=
  (∃ r, i = .movToCr8 r ∧ vtpr w = Config.tprWriteValue .cr8 (getReg s r)) ∨
    (i = .wrmsrTpr ∧ vtpr w =
      Config.tprWriteValue .msr ((getReg s Reg.rdx).extractLsb' 0 32 ++ (getReg s Reg.rax).extractLsb' 0 32)) ∨
    (∃ d e, i = .pageWriteTpr d e ∧ w.mem.readBytes (vapicAt s 0x080) d.length = d) ∨
    (i = .tprVirtualization ∧ vtpr w = vtpr s) ∨
    ∃ it before a d after, i = .repStringIteration it ∧ it.accs = before ++ a :: after ∧
      TreatedWrite s 0x080 d a ∧ w.mem.readBytes (vapicAt s 0x080) d.length = d

/-- The triggers of EOI virtualization, with SVI and the latch as `w` finds them (R124, R129). -/
def EoiCause (s : State) (i : Instr) (w : State) : Prop :=
  ((i = .wrmsrEoi ∨ (∃ d e, i = .pageWriteEoi d e) ∨ i = .eoiVirtualization) ∧ w.svi = s.svi ∧
      w.pending = s.pending) ∨
    ∃ it before a d after u, i = .repStringIteration it ∧ it.accs = before ++ a :: after ∧
      TreatedWrite s 0x0B0 d a ∧ linearAccesses before (beginAccess false s) = .done u ∧ w.svi = u.svi ∧
      w.pending = u.pending

/-- The VM exit `e` that the operation `i` raises in `u`. -/
def RaisedBy (s : State) (i : Instr) (e : VmExit) (u : State) : Prop :=
  (∃ w, Foot s w ∧ TprCause s i w ∧ TprRaised w e u) ∨
    (∃ w, Foot s w ∧ EoiCause s i w ∧ s.vmcs.ctl.vid = true ∧ EoiRaised w e u) ∨ e.Other

theorem raisedBy_of_other {s : State} {i : Instr} {r : Res} (h : r.Exits fun e _ => e.Other) :
    r.Exits (RaisedBy s i) := h.imp fun _ _ h => .inr (.inr h)

theorem raisedBy_of_tpr {s w : State} {i : Instr} (hf : Foot s w) (hc : TprCause s i w) :
    (tprVirtualization w).Exits (RaisedBy s i) := (tprVirtualization_exits w).imp fun _ _ h => .inl ⟨w, hf, hc, h⟩

theorem raisedBy_of_eoi {s w : State} {i : Instr} (hf : Foot s w) (hc : EoiCause s i w) (hv : s.vmcs.ctl.vid = true) :
    (eoiVirtualization w).Exits (RaisedBy s i) :=
  (eoiVirtualization_exits w).imp fun _ _ h => .inr (.inl ⟨w, hf, hc, hv, h⟩)

theorem linearAccesses_raises (it : RepIter) (s : State) :
    (linearAccesses it.accs (beginAccess false s)).Exits (RaisedBy s (.repStringIteration it)) := by
  refine (linearAccesses_exits _ _).imp fun e w ⟨before, a, after, u, has, hb, he⟩ => ?_
  have hfu : Foot s u := AccessesReach.foot hb
  have hx := linearAccess_exits a u
  rw [he] at hx
  obtain ⟨off, d, htw, h⟩ | h := hx
  · have hts : TreatedWrite s off d a := by
      cases a with
      | read | fetch => exact htw
      | write pa d' x sub =>
        obtain ⟨hx, hsub, hc, hen, hp, ho, hd⟩ := htw
        rw [hfu.vmcs] at hc
        rw [hfu.enclave] at hen
        rw [hfu.onApicPage] at hp
        exact ⟨hx, hsub, hc, hen, hp, ho, hd⟩
    have hw (o : Nat) : Foot s (virtualWrite o d (setPagingFlags .write u)) :=
      (hfu.trans (foot_setPagingFlags _ u)).trans (foot_virtualWrite o d _)
    obtain ⟨rfl, h⟩ | ⟨rfl, hv, h⟩ | h := h
    · refine .inl ⟨_, hw _, .inr (.inr (.inr (.inr ⟨it, before, a, d, after, rfl, has, hts, ?_⟩))), h⟩
      rw [← hfu.vapicAt]
      exact readBytes_virtualWrite offTpr d (setPagingFlags .write u)
    · have hv : u.vmcs.ctl.vid = true := hv
      rw [hfu.vmcs] at hv
      exact .inr (.inl ⟨_, hw _, .inr ⟨it, before, a, d, after, u, rfl, has, hts, hb, rfl, rfl⟩, hv, h⟩)
    · exact .inr (.inr h)
  · exact .inr (.inr h)

theorem SameOutcome.refl (u : State) : SameOutcome u u := ⟨rfl, rfl, rfl, rfl, rfl, rfl, rfl, rfl⟩

theorem left_of_iteration {it : RepIter} {s t : State} (h : exec (.repStringIteration it) s = .next t)
    (ht : t.mode = .vmxRoot) :
    ∃ e u, RaisedBy s (.repStringIteration it) e u ∧ SameOutcome (takeVmExit e u) t := by
  have hf : (linearAccesses it.accs (beginAccess false s)).All fun u => u.mode = s.mode :=
    (foot_linearAccesses it.accs (beginAccess false s)).imp fun _ hu => hu.mode
  have hx : (repIteration it s).Exits fun e w =>
      ∃ u, RaisedBy s (.repStringIteration it) e u ∧ SameOutcome (takeVmExit e u) (takeVmExit e w) := by
    have hr := linearAccesses_raises it s
    unfold repIteration
    cases hl : linearAccesses it.accs (beginAccess false s) with
    | exit e u =>
      rw [hl] at hr
      refine ⟨u, hr, ?_⟩
      split
      · next htrap => exact sameOutcome_exit it htrap u
      · exact .refl _
    | done | abort | refuse => trivial
  obtain ⟨e, w, ⟨u, hu, ho⟩, rfl⟩ := left_of_inGuest h ht
    (whenActive_all fun _ => repIteration_all hf fun _ hu => hu) (whenActive_exits hx)
  exact ⟨e, u, hu, ho⟩

/-- A state that a raised VM exit leaves as it is. -/
theorem left_taken {s t : State} {i : Instr} (h : ∃ e u, RaisedBy s i e u ∧ t = takeVmExit e u) :
    ∃ e u, RaisedBy s i e u ∧ SameOutcome (takeVmExit e u) t := by
  obtain ⟨e, u, hu, rfl⟩ := h
  exact ⟨e, u, hu, .refl _⟩

/-- An operation that never leaves the guest. -/
theorem not_left {s t : State} {i : Instr} {k : State → Res} (h : inGuest k s = .next t) (ht : t.mode = .vmxRoot)
    (hf : (k s).All fun u => u.mode = s.mode) (hx : (k s).Exits fun _ _ => False) :
    ∃ e u, RaisedBy s i e u ∧ SameOutcome (takeVmExit e u) t := by
  obtain ⟨e, u, hfalse, -⟩ := left_of_inGuest h ht hf hx
  exact hfalse.elim

theorem boundary_not_left {s t : State} {i : Instr} {b : Bool} (h : inGuest (boundary b) s = .next t)
    (ht : t.mode = .vmxRoot) : ∃ e u, RaisedBy s i e u ∧ SameOutcome (takeVmExit e u) t := by
  obtain ⟨hm, ⟨rfl, -⟩ | rfl⟩ := boundary_next h
  · exact nomatch (ht.symm.trans ((wideFoot_deliver s).mode.trans hm) : Mode.vmxRoot = .vmxNonRoot)
  · exact nomatch (ht.symm.trans hm : Mode.vmxRoot = .vmxNonRoot)

/-- Every way an operation leaves the guest. -/
theorem exec_left {i : Instr} {s t : State} (hs : s.mode = .vmxNonRoot) (h : exec i s = .next t)
    (ht : t.mode = .vmxRoot) : ∃ e u, RaisedBy s i e u ∧ SameOutcome (takeVmExit e u) t := by
  have update {f : State → State} (hf : (f s).mode = s.mode)
      (hi : instruction true (fun s => .done (f s)) s = .next t) :
      ∃ e u, RaisedBy s i e u ∧ SameOutcome (takeVmExit e u) t := by
    obtain ⟨hm, rfl⟩ := instruction_update hi
    exact nomatch (ht.symm.trans (hf.trans hm) : Mode.vmxRoot = .vmxNonRoot)
  cases i with
  | movToCr8 r =>
    have hw : Foot s (setVapic32 offTpr (Config.tprWriteValue .cr8 (getReg s r)) s) := foot_setVapic32 _ _ s
    exact left_taken (left_of_instruction h ht
      (onVapicPage_all fun _ => (foot_tprVirtualization _).imp fun _ hu => hw.trans hu)
      fun _ => onVapicPage_exits (raisedBy_of_tpr hw (.inl ⟨r, rfl, vtpr_setVtpr _ s⟩)))
  | wrmsrTpr =>
    have hw : Foot s (setVapic32 offTpr (Config.tprWriteValue .msr (edxEax s)) s) := foot_setVapic32 _ _ s
    exact left_taken (left_of_instruction h ht
      (onVapicPage_all fun _ => (foot_tprVirtualization _).imp fun _ hu => hw.trans hu)
      fun _ => onVapicPage_exits (raisedBy_of_tpr hw (.inr (.inl ⟨rfl, vtpr_setVtpr _ s⟩))))
  | wrmsrEoi =>
    have hw : Foot s (setVapic32 offEoi (Config.eoiWriteValue (edxEax s)) s) := foot_setVapic32 _ _ s
    exact left_taken (left_of_instruction h ht
      (onVapicPage_all fun _ => (foot_eoiVirtualization _).imp fun _ hu => hw.trans hu)
      fun hc => onVapicPage_exits
        (raisedBy_of_eoi hw (.inl ⟨.inl rfl, rfl, rfl⟩) (Bool.and_eq_true_iff.1 hc).2))
  | tprVirtualization =>
    exact left_taken (left_of_event h ht (onVapicPage_all fun _ => (foot_tprVirtualization s).imp fun _ hu => hu.wide)
      fun _ => onVapicPage_exits (raisedBy_of_tpr (.refl s) (.inr (.inr (.inr (.inl ⟨rfl, rfl⟩))))))
  | eoiVirtualization =>
    exact left_taken (left_of_event h ht (onVapicPage_all fun _ => (foot_eoiVirtualization s).imp fun _ hu => hu.wide)
      fun hc => onVapicPage_exits (raisedBy_of_eoi (.refl s) (.inl ⟨.inr (.inr rfl), rfl, rfl⟩) hc))
  | pageWriteTpr d env =>
    have hw : Foot s (virtualWrite offTpr d (treatedState .write env s)) := foot_treatedState .write env s
    refine left_taken (left_of_pageWrite h ht (foot_pageWriteTpr d _) ((pageWriteTpr_exits d _).imp fun e u he => ?_))
    refine he.imp (fun he => ⟨_, hw, .inr (.inr (.inl ⟨d, env, rfl, ?_⟩)), he⟩) .inr
    exact readBytes_virtualWrite offTpr d (treatedState .write env s)
  | pageWriteEoi d env =>
    have hw : Foot s (virtualWrite offEoi d (treatedState .write env s)) := foot_treatedState .write env s
    refine left_taken (left_of_pageWrite h ht (foot_pageWriteEoi d _) ((pageWriteEoi_exits d _).imp fun e u he => ?_))
    obtain ⟨-, hsvi, hpend⟩ := treatedState_status .write env s
    exact .inr (he.imp_left fun ⟨hv, he⟩ => ⟨_, hw, .inl ⟨.inr (.inl ⟨d, env, rfl⟩),
      (virtualWrite_svi _ _ _).trans hsvi, (virtualWrite_pending _ _ _).trans hpend⟩, hv, he⟩)
  | pageWriteIcrLo d env =>
    exact left_taken (left_of_pageWrite h ht (foot_pageWriteIcrLo d _) (raisedBy_of_other (pageWriteIcrLo_exits d _)))
  | pageWriteOther off d env =>
    exact left_taken (left_of_pageWrite h ht (foot_pageWriteOther off d _)
      (raisedBy_of_other (pageWriteUntaken_exits_other _ off d _)))
  | pageRead off n env | pageFetch off n env =>
    exact left_taken (left_of_page h ht (foot_pageRead _ off n _)
      (raisedBy_of_other (pageRead_exits_other _ off n _)))
  | wrmsrIcr | senduipi =>
    exact left_taken (left_of_instruction h ht (foot_ipiVirtualization _ _ s)
      fun _ => raisedBy_of_other (ipiVirtualization_exits _ _ s))
  | ipiVirtualization v a =>
    exact left_taken (left_of_event h ht ((foot_ipiVirtualization v a s).imp fun _ hu => hu.wide)
      fun _ => raisedBy_of_other (ipiVirtualization_exits v a s))
  | externalInterrupt pv x =>
    refine left_taken (left_of_inGuest h ht (interruptible_all ?_)
      (interruptible_exits (afterDelivery_exits s fun u => raisedBy_of_other (externalInterrupt_exits_other pv x u))))
    exact afterDelivery_all (fun _ => (wideFoot_deliver s).mode)
      (fun _ => (wideFoot_externalInterrupt pv x s).imp fun _ hu => hu.mode)
      fun _ hd => (wideFoot_externalInterrupt pv x _).imp fun _ hu => hu.mode.trans hd
  | postedInterruptProcessing pv x =>
    exact left_taken (left_of_event h ht (interruptible_all (wideFoot_postedInterruptProcessing pv x s))
      fun _ => interruptible_exits (raisedBy_of_other (postedInterruptProcessing_exits_other pv x s)))
  | repStringIteration it => exact left_of_iteration h ht
  | vmEntry =>
    obtain ⟨hm, -⟩ := execVmEntry_next h
    exact nomatch (hm.symm.trans hs : Mode.vmxRoot = .vmxNonRoot)
  | instructionBoundary b => exact boundary_not_left h ht
  | virtualInterruptDelivery => exact boundary_not_left (inGuest_enabled h) ht
  | sti | movSs | popSs | hlt | mwait => exact update (by rfl) h
  | movFromCr8 =>
    exact left_taken (left_of_inGuest h ht
      (whenActive_all fun _ => enabledBy_all fun _ => completing_all (onVapicPage_all fun _ => rfl) fun _ hu => hu)
      (whenActive_exits (enabledBy_exits fun _ => completing_exits (onVapicPage_exits trivial))))
  | wrmsrSelfIpi =>
    exact left_taken (left_of_instruction h ht (onVapicPage_all fun _ => foot_selfIpi _ s)
      fun _ => onVapicPage_exits trivial)
  | wrmsrApicOther | rdmsrApic => exact left_taken (left_of_instruction h ht trivial fun _ => trivial)
  | pprVirtualization =>
    exact left_taken (left_of_event h ht (onVapicPage_all fun _ => (foot_pprVirtualization s).wide)
      fun _ => onVapicPage_exits trivial)
  | selfIpiVirtualization v =>
    exact left_taken (left_of_event h ht (onVapicPage_all fun _ => (foot_selfIpi v s).wide)
      fun _ => onVapicPage_exits trivial)
  | evaluatePendingVirtualInterrupts =>
    exact left_taken (left_of_event h ht (onVapicPage_all fun _ => (foot_evaluate s).wide)
      fun _ => onVapicPage_exits trivial)

/-- What TPR virtualization has done where it exits (R241). -/
theorem tprRaised_facts {s w t : State} (hf : Foot s w) (h : SameOutcome (takeVmExit .tprBelowThreshold w) t)
    (hv : w.vmcs.ctl.vid = false) (hb : tprBelow w = true) :
    s.vmcs.ctl.vid = false ∧ (vtpr t).extractLsb' 4 4 < s.vmcs.tprThreshold ∧ t.vmcs.guest.ip = s.nextIp := by
  have ht : vtpr t = vtpr w := h.vapic32 offTpr
  rw [tprBelow, decide_eq_true_eq, fieldCls_eq] at hb
  refine ⟨by rw [← hf.vmcs, hv], ?_, by rw [h.vmcs, ← hf.nextIp]; rfl⟩
  rw [ht, ← hf.vmcs]
  exact hb

/-- What EOI virtualization has done where it exits (R242). -/
theorem eoiRaised_facts {s w t : State} (hf : Foot s w)
    (h : SameOutcome (takeVmExit (.eoiInduced w.svi) (retireInService w)) t)
    (hb : w.vmcs.eoiExitBitmap.getLsbD w.svi.toNat = true) :
    s.vmcs.eoiExitBitmap.getLsbD w.svi.toNat = true ∧ t.vmcs.guest.ip = s.nextIp ∧
      vregBit t offIsr w.svi = false ∧ IsHighest (visr t) t.svi ∧ PprRule (vtpr t) t.svi (vppr t) ∧
      t.pending = w.pending := by
  have hvisr : visr t = withBit (visr w) w.svi false := (h.vreg offIsr).trans (retireInService_visr w)
  have hsvi : t.svi = highest (withBit (visr w) w.svi false) := h.svi.trans (retireInService_svi w)
  have hvtpr : vtpr t = vtpr w := (h.vapic32 offTpr).trans (retireInService_vtpr w)
  have hvppr : vppr t = pprValue (vtpr w) (highest (withBit (visr w) w.svi false)) :=
    (h.vapic32 offPpr).trans (retireInService_vppr w)
  refine ⟨by rw [← hf.vmcs, hb], ?_, ?_, ?_, ?_, h.pending.trans (retireInService_pending w)⟩
  · rw [h.vmcs, ← hf.nextIp, ← (foot_retireInService w).nextIp]; rfl
  · rw [vregBit_isr_withBit hvisr, if_pos rfl]
  · rw [hvisr, hsvi]; exact isHighest_highest _
  · rw [hvtpr, hsvi, hvppr]; exact pprRule_pprValue _ _

/-- Settles O18: the causes of the two, each with what its operation has done before it exits. -/
theorem tprAndEoiExitsOnlyByTheirTriggers : Obligations.TprAndEoiExitsOnlyByTheirTriggers := by
  intro i s t hs hn ht
  obtain ⟨e, u, hr, ho⟩ := exec_left hs hn ht
  have hlast : t.lastExit = some e := ho.lastExit
  refine ⟨fun hl => ?_, fun v hl => ?_⟩
  · cases hlast.symm.trans hl
    obtain ⟨w, hf, hc, -, rfl, hv, hb⟩ | ⟨w, -, -, -, he, -⟩ | hother := hr
    · obtain ⟨h1, h2, h3⟩ := tprRaised_facts hf ho hv hb
      have hmem : t.mem = u.mem := ho.mem
      have htpr : vtpr t = vtpr u := ho.vapic32 offTpr
      refine ⟨h1, h2, h3, ?_⟩
      rw [htpr, hmem]
      exact hc
    · cases he
    · exact absurd rfl hother.1
  · cases hlast.symm.trans hl
    obtain ⟨w, -, -, he, -⟩ | ⟨w, hf, hc, hv, he, rfl, hb⟩ | hother := hr
    · cases he
    · cases he
      obtain ⟨h1, h2, h3, h4, h5, h6⟩ := eoiRaised_facts hf ho hb
      refine ⟨hv, h1, h2, h3, h4, h5, ?_⟩
      rw [h6]
      exact hc
    · exact absurd rfl (hother.2 v)

end Sys2Proof.Machine
end

section
/-! Proofs about VM entry and the virtualization operations as rows of their own (`41_virtual_apic_operations.md`,
`70_reset_and_hazards.md` R281). -/

namespace Sys2Proof.Machine

/-! ### VM entry -/

theorem exec_vmEntry_next {s : State} (hm : s.mode = .vmxRoot) (hc : vmEntryChecks s = true)
    (hp : runPremises s = true) (hv : s.vmcs.ctl.vid = true → vapicPlaced s = true) :
    exec .vmEntry s = .next (vmEntry s) := by
  change execVmEntry s = _
  rw [execVmEntry, if_neg (by rw [hm]; decide), if_neg (by simp [hc]), if_neg (by simp [hp]), if_neg]
  rw [Bool.and_eq_true_iff]
  rintro ⟨hvid, hn⟩
  rw [hv hvid] at hn
  exact absurd hn (by decide)

theorem vmEntryChecks_iff (s : State) :
    vmEntryChecks s = true ↔ (s.vmcs.ctl.tprShadow = true → s.vmcs.vapicAddr.extractLsb' 0 12 = 0) ∧
      (s.vmcs.ctl.postedIntr = true → s.vmcs.ctl.extIntrExiting = true) := by
  simp [vmEntryChecks, Bool.or_eq_true, imp_iff_not_or]

theorem vmEntry_loads (s : State) :
    (vmEntry s).rvi = s.vmcs.guest.rvi ∧ (vmEntry s).svi = s.vmcs.guest.svi ∧ (vmEntry s).ip = s.vmcs.guest.ip := by
  unfold vmEntry
  simp only
  split <;> exact ⟨rfl, rfl, rfl⟩

theorem vmEntry_vid {s : State} (hv : s.vmcs.ctl.vid = true) :
    vmEntry s = evaluate (pprVirtualization (enterGuest s)) := if_pos hv

theorem vmEntry_noVid {s : State} (hv : s.vmcs.ctl.vid = false) : vmEntry s = enterGuest s :=
  if_neg (Bool.eq_false_iff.1 hv)

/-- PPR virtualization stores to VPPR only. -/
theorem memoryOutside_pprVirtualization (s : State) : MemoryOutside [(vapicAt s offPpr, 4)] s (pprVirtualization s) :=
  memoryOutside_setVapic32 offPpr _ s

/-- Settles O24: the loads, then what the two operations of its pseudocode do. -/
theorem vmEntryResult : Obligations.VmEntryResult := by
  refine ⟨fun s hm ht hx hp hv => ?_, fun s hm h => ?_⟩
  · obtain ⟨hrvi, hsvi, hip⟩ := vmEntry_loads s
    obtain ⟨-, -, -, hstill⟩ := vmEntry_keeps s
    refine ⟨vmEntry s, exec_vmEntry_next hm ((vmEntryChecks_iff s).2 ⟨ht, hx⟩) hp hv, hstill, hrvi, hsvi, hip,
      fun hvid => ?_, fun hvid => ?_⟩
    · rw [vmEntry_vid hvid]
      exact ⟨pprRule_pprVirtualization (enterGuest s), evaluationRule_evaluate _,
        memoryOutside_pprVirtualization (enterGuest s)⟩
    · rw [vmEntry_noVid hvid]
      exact ⟨rfl, fun _ _ => rfl⟩
  · have hc : vmEntryChecks s = false := by
      rw [Bool.eq_false_iff, Ne, vmEntryChecks_iff]
      rintro ⟨ht, hx⟩
      obtain ⟨h1, h2⟩ | ⟨h1, h2⟩ := h
      · exact h2 (ht h1)
      · exact absurd (h2.symm.trans (hx h1)) (by decide)
    change execVmEntry s = _
    rw [execVmEntry, if_neg (by rw [hm]; decide), if_pos (by simp [hc])]

/-! ### The next state of an operation that ends by its rule -/

theorem Res.Ends.next {r : Res} {D X : State → Prop} (h : r.Ends D X) : ∃ t, finish r = .next t ∧ (D t ∨ X t) := by
  cases r with
  | done u => exact ⟨u, rfl, .inl h⟩
  | exit e u => exact ⟨_, rfl, .inr h⟩
  | abort | refuse => exact h.elim

/-- The same of an instruction, which completes where the operation goes on. -/
theorem Res.Ends.completes {k : State → Res} {s : State} {D X : State → Prop} (h : (k s).Ends D X) :
    ∃ t, finish (completing k s) = .next t ∧ ((∃ u, D u ∧ t = retire u) ∨ X t) := by
  unfold completing
  cases hk : k s with
  | done u => rw [hk] at h; exact ⟨_, rfl, .inl ⟨u, h, rfl⟩⟩
  | exit e u => rw [hk] at h; exact ⟨_, rfl, .inr h⟩
  | abort | refuse => rw [hk] at h; exact h.elim

/-- An operation on the virtual-APIC page as a row of its own. -/
theorem vapicEvent_eq {c : Bool} {k : State → Res} {s : State} (hg : InGuest s) (hc : c = true) :
    inGuest (enabledBy c (onVapicPage k)) s = finish (k s) := by
  rw [inGuest_eq hg.guest, enabledBy_eq hc, onVapicPage_eq hg.placed]

/-! ### TPR, EOI and self-IPI virtualization -/

/-- Settles O25: the rule of the operation from the state itself, without a trigger before it. -/
theorem tprVirtualizationResult : Obligations.TprVirtualizationResult := by
  intro s hg hc
  obtain ⟨t, hn, ⟨hr, ht, -⟩ | ⟨hr, ht, -⟩⟩ :=
    (tprRule_tprVirtualization hg.guest (.refl s) rfl rfl rfl rfl).next
  · exact ⟨t, (vapicEvent_eq hg hc).trans hn, hr, ht⟩
  · exact ⟨t, (vapicEvent_eq hg hc).trans hn, hr, ht⟩

/-- Settles O27: the rule of the operation, whether it exits or evaluates. -/
theorem eoiVirtualizationResult : Obligations.EoiVirtualizationResult := by
  intro s hg hc
  obtain ⟨t, hn, ⟨hr, -⟩ | ⟨hr, -⟩⟩ :=
    (eoiRule_eoiVirtualization hg.guest (.refl s) rfl rfl rfl rfl rfl rfl).next
  · exact ⟨t, (vapicEvent_eq hg hc).trans hn, hr⟩
  · exact ⟨t, (vapicEvent_eq hg hc).trans hn, hr⟩

/-- Settles O28: the operation goes on for every vector. -/
theorem selfIpiVirtualizationResult : Obligations.SelfIpiVirtualizationResult := fun s v hg hc =>
  ⟨selfIpiVirtualization v s, vapicEvent_eq hg hc, selfIpiRule_selfIpi v hg.guest⟩

/-! ### IPI virtualization -/

/-- `SENDUIPI` and `WRMSR` 0x830: IPI virtualization as an instruction. -/
theorem ipiInstruction_next {s : State} {c : Bool} (v : IntVector) (a : ApicId) (hm : s.mode = .vmxNonRoot)
    (hact : s.activity = .active) (hc : c = true) (hal : Alone s) (ht : TableUsable s) :
    ∃ t, instruction c (ipiVirtualization v a) s = .next t ∧ IpiRule v a s t ∧
      (t.mode = .vmxNonRoot → t.ip = s.nextIp) := by
  obtain ⟨t, hn, ⟨u, ⟨-, hu, hr, -⟩, rfl⟩ | ⟨-, rfl, hr⟩⟩ :=
    (ipiVirtualization_ends (v := v) (a := a) hm hal ht).completes
  · refine ⟨_, (instruction_eq hm hact hc).trans hn, (sameOutcome_retire u).ipi hr, fun _ => ?_⟩
    rw [hu]
    exact (foot_post (targetPid s a) v s).nextIp
  · exact ⟨_, (instruction_eq hm hact hc).trans hn, hr, fun h => nomatch (h : Mode.vmxRoot = .vmxNonRoot)⟩

/-- Settles O29: the row of its own, and the instruction. -/
theorem ipiVirtualizationResult : Obligations.IpiVirtualizationResult := by
  intro s v a hm hc hal ht
  refine ⟨?_, fun hact => ipiInstruction_next v a hm hact hc hal ht⟩
  have hexec : exec (.ipiVirtualization v a) s = finish (ipiVirtualization v a s) := by
    change execIpiVirtualization v a s = _
    rw [execIpiVirtualization, inGuest_eq hm, enabledBy_eq hc]
  obtain ⟨t, hn, ⟨-, -, hr, -⟩ | ⟨-, -, hr⟩⟩ := (ipiVirtualization_ends (v := v) (a := a) hm hal ht).next
  · exact ⟨t, hexec.trans hn, hr⟩
  · exact ⟨t, hexec.trans hn, hr⟩

/-- Settles O30: the exit comes before the table is read. -/
theorem ipiIllegalVectorExits : Obligations.IpiIllegalVectorExits := by
  intro s v a hm hc h
  have hx : ipiVirtualization v a s = .exit (.apicWrite 0x300) s :=
    ipiVirtualization_illegal (h.imp_right .inl) (h.imp_right .inl)
  refine ⟨takeVmExit (.apicWrite 0x300) s, ?_, exited_takeVmExit _ s, rfl, rfl⟩
  change execIpiVirtualization v a s = _
  rw [execIpiVirtualization, inGuest_eq hm, enabledBy_eq hc, hx, finish]

end Sys2Proof.Machine
end

section
/-! Proofs about evaluation and delivery (`42_virtual_interrupts.md`). -/

namespace Sys2Proof.Machine

/-- Settles O32: evaluation assigns the latch. -/
theorem evaluationResult : Obligations.EvaluationResult := fun s hg hc =>
  ⟨evaluate s, vapicEvent_eq hg hc, evaluationRule_evaluate s, rfl⟩

/-- At a boundary where the conditions hold, delivery is performed (R173). -/
theorem boundary_delivers {s : State} (hp : vapicPlaced s = true) (hd : Deliverable s) :
    boundary false s = .done (deliver s) := by
  rw [boundary, if_pos ((deliverNow_iff s false).2 ⟨hd, rfl⟩), onVapicPage_eq hp]

/-- Where an event of higher priority is taken or a condition fails, nothing happens (R174). -/
theorem boundary_idle {s : State} {b : Bool} (h : b = true ∨ ¬Deliverable s) : boundary b s = .done s := by
  rw [boundary, if_neg]
  rw [deliverNow_iff]
  rintro ⟨hd, rfl⟩
  exact h.elim (by decide) fun hn => hn hd

/-- Settles O33: as a step of its own delivery is a boundary. -/
theorem deliveryResult : Obligations.DeliveryResult := by
  refine ⟨fun s hg hd => ⟨deliver s, ?_, deliveryRule_deliver hg.guest, (wideFoot_deliver s).gpr,
    (wideFoot_deliver s).ip⟩, fun s hm hv hd => ?_⟩
  · change execVirtualInterruptDelivery s = _
    rw [execVirtualInterruptDelivery, inGuest_eq hg.guest, enabledBy_eq hd.vid, boundary_delivers hg.placed hd, finish]
  · change execVirtualInterruptDelivery s = _
    rw [execVirtualInterruptDelivery, inGuest_eq hm, enabledBy_eq hv, boundary_idle (.inr hd), finish]

/-- A boundary without an event of higher priority delivers a deliverable interrupt. -/
theorem exec_boundary_delivers {s : State} (hg : InGuest s) (hd : Deliverable s) :
    exec (.instructionBoundary false) s = .next (deliver s) := by
  change execInstructionBoundary false s = _
  rw [execInstructionBoundary, inGuest_eq hg.guest, boundary_delivers hg.placed hd, finish]

/-- Settles O34: what the test of a boundary decides. -/
theorem deliveryAtBoundaries : Obligations.DeliveryAtBoundaries := by
  refine ⟨fun s hg hd => ⟨deliver s, exec_boundary_delivers hg hd, deliveryRule_deliver hg.guest⟩, fun s b hm h => ?_⟩
  change execInstructionBoundary b s = _
  rw [execInstructionBoundary, inGuest_eq hm, boundary_idle h, finish]

end Sys2Proof.Machine
end

section
/-! Proofs about external interrupts and posted-interrupt processing (`44_posted_interrupts.md`). -/

namespace Sys2Proof.Machine

/-! ### How the event comes to its handling -/

/-- The states in which an external interrupt is handled (R228). -/
theorem wakeable_of {a : Activity} (h : a = .active ∨ a = .hlt ∨ a = .mwait) : wakeable a = true := by
  obtain rfl | rfl | rfl := h <;> rfl

theorem interruptible_eq {k : State → Res} {s : State}
    (h : s.activity = .active ∨ s.activity = .hlt ∨ s.activity = .mwait) : interruptible k s = k s :=
  if_pos (wakeable_of h)

theorem afterDelivery_idle {k : State → Res} {s : State} (h : ¬Deliverable s) : afterDelivery k s = k s := by
  rw [afterDelivery, if_neg]
  rw [deliverNow_iff]
  exact fun hd => h hd.1

theorem afterDelivery_delivers {k : State → Res} {s : State} (hp : vapicPlaced s = true) (hd : Deliverable s) :
    afterDelivery k s = if (deliver s).userNotified then .done (deliver s) else k (deliver s) := by
  rw [afterDelivery, if_pos ((deliverNow_iff s false).2 ⟨hd, rfl⟩), onVapicPage_eq hp]

/-- With nothing deliverable first, the interrupt is handled under the controls. -/
theorem exec_externalInterrupt {s : State} (pv : IntVector) (x : Bool) (hm : s.mode = .vmxNonRoot)
    (ha : s.activity = .active ∨ s.activity = .hlt ∨ s.activity = .mwait) (hd : ¬Deliverable s) :
    exec (.externalInterrupt pv x) s = finish (externalInterrupt pv x s) := by
  change execExternalInterrupt pv x s = _
  rw [execExternalInterrupt, inGuest_eq hm, interruptible_eq ha, afterDelivery_idle hd]

theorem exec_postedInterruptProcessing {s : State} (pv : IntVector) (x : Bool) (hm : s.mode = .vmxNonRoot)
    (hx : s.vmcs.ctl.extIntrExiting = true) (hp : s.vmcs.ctl.postedIntr = true)
    (ha : s.activity = .active ∨ s.activity = .hlt ∨ s.activity = .mwait) :
    exec (.postedInterruptProcessing pv x) s = finish (postedInterruptProcessing pv x s) := by
  change execPostedInterruptProcessing pv x s = _
  rw [execPostedInterruptProcessing, inGuest_eq hm, enabledBy_eq (by rw [hx, hp]; rfl), interruptible_eq ha]

theorem externalInterrupt_posted {s : State} (pv : IntVector) (x : Bool) (hx : s.vmcs.ctl.extIntrExiting = true)
    (hp : s.vmcs.ctl.postedIntr = true) : externalInterrupt pv x s = postedInterruptProcessing pv x s := by
  simp only [externalInterrupt, hx, hp, Bool.not_true, Bool.false_eq_true, if_false, if_true]

theorem externalInterrupt_unposted {s : State} (pv : IntVector) (x : Bool) (hx : s.vmcs.ctl.extIntrExiting = true)
    (hp : s.vmcs.ctl.postedIntr = false) : externalInterrupt pv x s = interruptExit pv s := by
  simp only [externalInterrupt, hx, hp, Bool.not_true, Bool.false_eq_true, if_false]

/-! ### Before an external interrupt (R174) -/

/-- Delivery ends the recognition, so that nothing is deliverable after it. -/
theorem not_deliverable_deliver (s : State) : ¬Deliverable (deliver s) := fun h =>
  absurd ((deliver_pending s).symm.trans h.pending) (by decide)

/-- Settles O35: the delivery is that of the boundary, and the rest is the event in the state it leaves. -/
theorem deliveryBeforeExternalInterrupt : Obligations.DeliveryBeforeExternalInterrupt := by
  intro s u pv x hg hd hu
  rw [exec_boundary_delivers hg hd] at hu
  cases hu
  have hexec : exec (.externalInterrupt pv x) s =
      finish (if (deliver s).userNotified then .done (deliver s) else externalInterrupt pv x (deliver s)) := by
    change execExternalInterrupt pv x s = _
    rw [execExternalInterrupt, inGuest_eq hg.guest, interruptible_eq hd.state, afterDelivery_delivers hg.placed hd]
  refine ⟨fun hn => ?_, fun hn => ?_⟩
  · rw [hexec, if_neg (Bool.eq_false_iff.1 hn), exec_externalInterrupt pv x
      ((wideFoot_deliver s).mode.trans hg.guest) (.inl (deliver_activity s)) (not_deliverable_deliver s)]
  · rw [hexec, if_pos hn, finish]

/-! ### Posted-interrupt processing -/

theorem WideFoot.vapicPlaced {s u : State} (h : WideFoot s u) : Machine.vapicPlaced u = Machine.vapicPlaced s := by
  rw [Machine.vapicPlaced, placed, h.vmcs, h.params, Machine.vapicPlaced, placed]

/-- At the notification vector, with the descriptor and the page in reach, steps 3 to 7 follow the acknowledge. -/
theorem postedInterruptProcessing_eq {s : State} (x : Bool) (h : PostedReady s) :
    postedInterruptProcessing s.vmcs.piNv x s =
      processPosted (emit (.localApicAck s.vmcs.piNv) (aexBefore x s)) := by
  have hp := ((wideFoot_aexBefore x s).trans (foot_emit (.localApicAck s.vmcs.piNv) _).wide).vapicPlaced
  simp only [postedInterruptProcessing, ne_eq, not_true_eq_false, if_false, h.vid, Bool.not_true, Bool.false_eq_true,
    h.desc, if_true]
  exact onVapicPage_eq (hp.trans h.placed)

/-- Settles O36: the row of its own, and the event with nothing deliverable first. -/
theorem postedProcessingResult : Obligations.PostedProcessingResult := by
  intro s x h hal
  obtain ⟨t, ht, hr, -⟩ := postedRule_posted s.vmcs.piNv x h.guest hal h.posted h.vid h.apart h.state
  have hn : finish (postedInterruptProcessing s.vmcs.piNv x s) = .next t := by
    rw [postedInterruptProcessing_eq x h, ht, finish]
  refine ⟨⟨t, ?_, hr⟩, fun hd => ⟨t, ?_, hr⟩⟩
  · rw [exec_postedInterruptProcessing _ x h.guest h.ext h.posted h.state, hn]
  · rw [exec_externalInterrupt _ x h.guest h.state hd, externalInterrupt_posted _ x h.ext h.posted, hn]

/-! ### VM exits and refusals -/

/-- Settles O37: with another vector the acknowledge comes first; without posted interrupts the exit is all. -/
theorem externalInterruptExits : Obligations.ExternalInterruptExits := by
  intro s pv x hm hx ha hpv
  refine ⟨fun hd => ?_, fun hp => ?_⟩
  · rw [exec_externalInterrupt pv x hm ha hd]
    cases hp : s.vmcs.ctl.postedIntr with
    | true =>
      rw [externalInterrupt_posted pv x hx hp, if_pos rfl]
      obtain ⟨t, hn, he, h1, h2, h3, h4, h5⟩ := postedInterruptProcessing_exits x (hpv hp)
      exact ⟨t, hn, he, h1, h2, h3, h4, h5.trans (List.append_assoc _ _ _)⟩
    | false =>
      rw [externalInterrupt_unposted pv x hx hp, if_neg (by decide)]
      exact interruptExit_result pv s
  · rw [exec_postedInterruptProcessing pv x hm hx hp ha]
    exact postedInterruptProcessing_exits x (hpv hp)

/-- Settles O38: the control is tested after the activity state. -/
theorem externalInterruptRefusals : Obligations.ExternalInterruptRefusals := by
  refine ⟨fun s pv x hm hd hx ha => ?_, fun s pv x hm ha => ?_⟩
  · rw [exec_externalInterrupt pv x hm ha hd, externalInterrupt, if_pos (by rw [hx]; rfl), finish]
  · have hw : wakeable s.activity = false := by obtain h | h := ha <;> rw [h] <;> rfl
    change execExternalInterrupt pv x s = _
    rw [execExternalInterrupt, inGuest_eq hm, interruptible, if_neg (Bool.eq_false_iff.1 hw), finish]

end Sys2Proof.Machine
end

section
/-! Proofs about the triggers by register and MSR, and the instructions named for the state they set
(`40_trigger_instructions.md` R121 to R126, R134 to R137). -/

namespace Sys2Proof.Machine

/-- An instruction on the virtual-APIC page that ends by its rule: it completes, or its VM exit is taken. -/
theorem vapicInstruction_next {c : Bool} {k : State → Res} {s : State} {D X : State → Prop} (hr : Running s)
    (hc : c = true) (h : (k s).Ends D X) :
    ∃ t, instruction c (onVapicPage k) s = .next t ∧ ((∃ u, D u ∧ t = retire u) ∨ X t) := by
  have hk : (onVapicPage k s).Ends D X := by rwa [onVapicPage_eq hr.placed]
  obtain ⟨t, hn, ht⟩ := hk.completes
  exact ⟨t, (instruction_eq hr.guest hr.active hc).trans hn, ht⟩

/-- A write of VTPR by an instruction (R121, R123). -/
theorem writeTpr_next {c : Bool} {s : State} (form : TprForm) (operand : BitVec 64) (hr : Running s) (hc : c = true) :
    ∃ t, instruction c (onVapicPage (writeTpr form operand)) s = .next t ∧ TprRule s t ∧
      vtpr t = Config.tprWriteValue form operand ∧ (t.mode = .vmxNonRoot → t.ip = s.nextIp) := by
  have hppr : vppr (setVapic32 offTpr (Config.tprWriteValue form operand) s) = vppr s :=
    vapic32_setVapic32_other _ s (.inr (by decide))
  have hends : (writeTpr form operand s).Ends _ _ :=
    tprRule_tprVirtualization (s := s) (w := setVapic32 offTpr (Config.tprWriteValue form operand) s) hr.guest
      (foot_setVapic32 _ _ s) rfl rfl rfl hppr
  obtain ⟨t, hn, ⟨u, ⟨hrule, htpr, hf, hm, -⟩, rfl⟩ | ⟨hrule, htpr, hroot⟩⟩ := vapicInstruction_next hr hc hends
  · exact ⟨_, hn, hrule.retire hm, htpr.trans (vtpr_setVtpr _ s), fun _ => hf.nextIp⟩
  · exact ⟨t, hn, hrule, htpr.trans (vtpr_setVtpr _ s),
      fun hm => nomatch (hroot.symm.trans hm : Mode.vmxRoot = .vmxNonRoot)⟩

/-- Settles O39: both are writes of VTPR by an instruction. -/
theorem tprWritesVirtualize : Obligations.TprWritesVirtualize :=
  ⟨fun s r hr hc => writeTpr_next .cr8 (getReg s r) hr hc,
    fun s hr hx hc => writeTpr_next .msr (edxEax s) hr (by rw [hx, hc]; rfl)⟩

/-- Settles O40: one register is written, and the instruction completes. -/
theorem tprReadResult : Obligations.TprReadResult := by
  intro s r hr hc
  refine ⟨retire (setReg r (Config.tprReadValue (vtpr s)) s),
    instruction_done hr.guest hr.active hc (onVapicPage_eq hr.placed), ?_, fun q hq => ?_, rfl, rfl, ⟨rfl, rfl, rfl⟩,
    ⟨rfl, rfl, rfl, rfl, rfl, rfl, rfl, rfl⟩, ⟨hr.guest, rfl, rfl⟩, rfl, rfl, rfl⟩
  · exact (getReg_setReg r r _ s).trans (if_pos rfl)
  · exact (getReg_setReg r q _ s).trans (if_neg hq)

/-- Settles O41: VEOI is stored before EOI virtualization, and no field that its rule reads is VEOI. -/
theorem msrEoiAndSelfIpi : Obligations.MsrEoiAndSelfIpi := by
  refine ⟨fun s hr hx hc => ?_, fun s hr hx hc => ?_⟩
  · have hends := eoiRule_eoiVirtualization (s := s) (w := setVapic32 offEoi (Config.eoiWriteValue (edxEax s)) s)
      hr.guest (foot_setVapic32 _ _ s) rfl rfl rfl (vreg_setVapic32_other _ s (.inl (by decide)))
      (vreg_setVapic32_other _ s (.inl (by decide))) (vapic32_setVapic32_other _ s (.inl (by decide)))
    have heoi : veoi (setVapic32 offEoi (Config.eoiWriteValue (edxEax s)) s) = Config.eoiWriteValue (edxEax s) :=
      vapic32_setVapic32_same _ _ s
    obtain ⟨t, hn, ⟨u, ⟨hrule, hv, hf, hm, -⟩, rfl⟩ | ⟨hrule, hv, hroot⟩⟩ := vapicInstruction_next
      (k := fun s => eoiVirtualization (setVapic32 offEoi (Config.eoiWriteValue (edxEax s)) s)) hr
      (show (s.vmcs.ctl.virtX2apic && s.vmcs.ctl.vid) = true by rw [hx, hc]; rfl) hends
    · exact ⟨_, hn, hrule.retire hm, hv.trans heoi, fun _ => hf.nextIp⟩
    · exact ⟨t, hn, hrule, hv.trans heoi,
        fun hm => nomatch (hroot.symm.trans hm : Mode.vmxRoot = .vmxNonRoot)⟩
  · have hk := selfIpiRule_selfIpi (Config.selfIpiVector (edxEax s)) hr.guest
    exact ⟨retire (selfIpiVirtualization (Config.selfIpiVector (edxEax s)) s),
      instruction_done hr.guest hr.active (by rw [hx, hc]; rfl) (onVapicPage_eq hr.placed),
      (foot_selfIpi (Config.selfIpiVector (edxEax s)) s).nextIp, (sameOutcome_retire _).selfIpi hk⟩

/-- Settles O42: IPI virtualization as an instruction, of the pair that the open mapping gives. -/
theorem msrIcrSendsIpi : Obligations.MsrIcrSendsIpi := by
  intro s v a hr hx hc hal ht hva
  have hpair : Config.icrMsrOperands (edxEax s) = (v, a) := hva
  obtain ⟨t, hn, h⟩ := ipiInstruction_next v a hr.guest hr.active
    (show (s.vmcs.ctl.virtX2apic && s.vmcs.ctl.ipiVirt) = true by rw [hx, hc]; rfl) hal ht
  refine ⟨t, ?_, h⟩
  change execWrmsrIcr s = _
  rw [execWrmsrIcr, hpair, hn]

/-- Settles O44: each is an instruction of one update. -/
theorem namedEffects : Obligations.NamedEffects := by
  intro s a b hr
  have done {f : State → State} : instruction true (fun s => .done (f s)) s = .next (retire (f s)) :=
    instruction_done hr.guest hr.active rfl rfl
  exact ⟨done (f := fun s => { s with rflagsIf := a, blockingBySti := b }),
    done (f := fun s => { s with blockingByMovSs := b }), done (f := fun s => { s with blockingByMovSs := b }),
    done (f := fun s => { s with activity := .hlt }), done (f := fun s => { s with activity := .mwait })⟩

end Sys2Proof.Machine
end

section
/-! Proofs about the rows of format PAGE (`43_apic_access_page.md`; `40_trigger_instructions.md` R128 to R131). -/

namespace Sys2Proof.Machine

/-! ### Reads and fetches -/

/-- How a page access that goes on stands: at its instruction while accesses remain, then at the next. -/
def afterAccess (more : Bool) (u : State) : State := if more then u else retire u

theorem sameOutcome_afterAccess (more : Bool) (u : State) : SameOutcome u (afterAccess more u) := by
  cases more
  · exact sameOutcome_retire u
  · exact .refl u

theorem afterAccess_ip (more : Bool) (u : State) : (afterAccess more u).ip = if more then u.ip else u.nextIp := by
  cases more <;> rfl

theorem afterAccess_loaded (more : Bool) (u : State) : (afterAccess more u).loaded = u.loaded := by
  cases more <;> rfl

theorem afterAccess_gpr (more : Bool) (u : State) : (afterAccess more u).gpr = u.gpr := by
  cases more <;> rfl

theorem sameProcessorState_afterAccess {s u : State} (more : Bool) (h : SameProcessorState s u) :
    SameProcessorState s (afterAccess more u) := by
  cases more <;> exact h

theorem exec_pageRead {s : State} {off : PageOff} {n : Nat} {env : AccessEnv} (ht : Treated env s) :
    exec (.pageRead off n env) s =
      finish ((pageRead .read off n (treatedState .read env s)).andThen fun u => .done (afterAccess env.more u)) := by
  change execPageRead off n env s = _
  rw [execPageRead, page_eq ht.toRunning ht.virtualized, pageReadStep_eq ht]
  rfl

theorem exec_pageFetch {s : State} {off : PageOff} {n : Nat} {env : AccessEnv} (ht : Treated env s) :
    exec (.pageFetch off n env) s =
      finish ((pageRead .fetch off n (treatedState .fetch env s)).andThen fun u => .done (afterAccess env.more u)) := by
  change execPageFetch off n env s = _
  rw [execPageFetch, page_eq ht.toRunning ht.virtualized, pageReadStep_eq ht]
  rfl

/-- Settles O45: the read path loads the bytes, and completion leaves them. -/
theorem pageReadVirtualized : Obligations.PageReadVirtualized := by
  intro s off n env ht hn hr
  have hr' : ReadFromPage (treatedState .read env s) (treatedState .read env s).wroteVirt off.toNat n :=
    ((foot_treatedState .read env s).readFromPage _ _ _).2 hr
  have hf : Foot s (virtualRead off.toNat n (treatedState .read env s)) :=
    (foot_treatedState .read env s).trans (foot_virtualRead _ _ _)
  have hsame := sameOutcome_afterAccess env.more (virtualRead off.toNat n (treatedState .read env s))
  refine ⟨afterAccess env.more (virtualRead off.toNat n (treatedState .read env s)), ?_, afterAccess_loaded _ _,
    hsame.mem, ?_, hsame.history, ⟨hsame.rvi, hsame.svi, hsame.pending⟩,
    sameProcessorState_afterAccess _ hf.sameProcessorState, (afterAccess_gpr _ _).trans hf.gpr,
    hsame.mode.trans (hf.mode.trans ht.guest), hsame.lastExit.trans hf.lastExit, hsame.vmcs.trans hf.vmcs⟩
  · rw [exec_pageRead ht, pageRead_virtualized hn (vapicPlaced_treatedState ht.placed) hr']
    rfl
  · rw [afterAccess_ip, hf.ip, hf.nextIp]

/-- Settles O46: the exits of the read path, after the accessed flags. -/
theorem pageReadExits : Obligations.PageReadExits := by
  refine ⟨fun s off n env ht hn hr => ?_, fun s off n env ht => ?_⟩
  · have hr' : ¬ReadFromPage (treatedState .read env s) (treatedState .read env s).wroteVirt off.toNat n :=
      fun h => hr (((foot_treatedState .read env s).readFromPage _ _ _).1 h)
    refine ⟨takeVmExit (.apicAccess off .read) (treatedState .read env s), ?_, exited_takeVmExit _ _, rfl, rfl, rfl⟩
    rw [exec_pageRead ht, pageRead_exits hn hr']
    rfl
  · refine ⟨takeVmExit (.apicAccess off .fetch) (treatedState .fetch env s), ?_, exited_takeVmExit _ _, rfl, rfl, rfl⟩
    rw [exec_pageFetch ht, pageFetch_exits]
    rfl

/-! ### Writes that a trigger takes -/

/-- A write that a trigger takes does what its rule says, from the state in which the dirty flags are set. -/
theorem exec_triggerWrite {s : State} {off : PageOff} {d : List Byte} {env : AccessEnv} (ht : Treated env s)
    (htr : TriggerOn s off d.length)
    (hi : off = 0x300 → Alone s ∧ TableUsable s ∧ regionsDisjoint (vmcsRegions s.vmcs) = true) :
    ∃ t, exec (pageWriteRow off d env) s = .next t ∧ TriggerRule off (treatedState .write env s) t ∧
      t.mem.readBytes (vapicAt s off.toNat) d.length = d ∧
      (t.mode = .vmxNonRoot → t.ip = (if env.more then s.ip else s.nextIp) ∧ t.wroteVirt = env.more) := by
  have hfs := foot_treatedState .write env s
  have hends := pageWrite_ends (s := treatedState .write env s) ht.guest (vapicPlaced_treatedState ht.placed)
    ((hfs.triggerOn off d.length).2 htr) fun ho => hi ho
  rw [exec_pageWriteRow ht]
  cases hw : pageWrite off d (treatedState .write env s) with
  | done u =>
    rw [hw] at hends
    obtain ⟨hf, ⟨hwrote, hbytes⟩, hrule⟩ := hends
    have hsame := sameOutcome_afterAccess env.more u
    refine ⟨afterAccess env.more u, rfl, hsame.trigger hrule, by rw [hsame.mem]; exact hbytes, fun _ => ?_⟩
    cases env.more with
    | true => exact ⟨hf.ip, hwrote⟩
    | false => exact ⟨hf.nextIp, rfl⟩
  | exit e u =>
    rw [hw] at hends
    obtain ⟨-, -, ⟨-, hbytes⟩, hrule⟩ := hends
    exact ⟨takeVmExit e u, rfl, hrule, hbytes, fun hm => nomatch (hm : Mode.vmxRoot = .vmxNonRoot)⟩
  | abort | refuse => rw [hw] at hends; exact hends.elim

theorem triggerRule_tpr (s t : State) : TriggerRule 0x080 s t ↔ TprRule s t := by rw [TriggerRule, if_pos rfl]

theorem triggerRule_eoi (s t : State) : TriggerRule 0x0B0 s t ↔ EoiRule s t := by
  rw [TriggerRule, if_neg (by decide), if_pos rfl]

theorem triggerRule_icr (s t : State) : TriggerRule 0x300 s t ↔ IcrRule s t := by
  rw [TriggerRule, if_neg (by decide), if_neg (by decide)]

theorem pageWriteRow_tpr (d : List Byte) (env : AccessEnv) : pageWriteRow 0x080 d env = .pageWriteTpr d env := by
  rw [pageWriteRow, if_pos rfl]

theorem pageWriteRow_eoi (d : List Byte) (env : AccessEnv) : pageWriteRow 0x0B0 d env = .pageWriteEoi d env := by
  rw [pageWriteRow, if_neg (by decide), if_pos rfl]

theorem pageWriteRow_icr (d : List Byte) (env : AccessEnv) : pageWriteRow 0x300 d env = .pageWriteIcrLo d env := by
  rw [pageWriteRow, if_neg (by decide), if_neg (by decide), if_pos rfl]

theorem tprRule_treatedState (kind : AccessKind) (env : AccessEnv) (s t : State) :
    TprRule (treatedState kind env s) t ↔ TprRule s t := Iff.rfl

theorem eoiRule_treatedState (kind : AccessKind) (env : AccessEnv) (s t : State) :
    EoiRule (treatedState kind env s) t ↔ EoiRule s t := Iff.rfl

theorem seen_treatedState_write (env : AccessEnv) (s : State) :
    (treatedState .write env s).seen =
      State.seen { s with history := s.history ++ [.pagingFlagsSet s.cr0Pg true] } := rfl

/-- The rule at 0x300 sees the events that the access recorded, and none of the marks of the operation under way. -/
theorem icrRule_treatedState_write (env : AccessEnv) (s t : State) :
    IcrRule (treatedState .write env s) t ↔
      IcrRule { s with history := s.history ++ [.pagingFlagsSet s.cr0Pg true] } t := by
  rw [← icrRule_seen, seen_treatedState_write, icrRule_seen]

/-- Settles O47: the writes at 0x080 and 0x0B0 among those that a trigger takes. -/
theorem pageWriteTprAndEoi : Obligations.PageWriteTprAndEoi := by
  intro s d env ht hs hl
  refine ⟨fun hc => ?_, fun hc => ?_⟩
  · obtain ⟨t, hn, hrule, h⟩ := exec_triggerWrite (off := 0x080) ht ⟨hs, hl, .inl ⟨rfl, hc⟩⟩
      fun ho => absurd ho (by decide)
    rw [pageWriteRow_tpr] at hn
    rw [triggerRule_tpr, tprRule_treatedState] at hrule
    exact ⟨t, hn, hrule, h⟩
  · obtain ⟨t, hn, hrule, h⟩ := exec_triggerWrite (off := 0x0B0) ht ⟨hs, hl, .inr (.inl ⟨rfl, hc⟩)⟩
      fun ho => absurd ho (by decide)
    rw [pageWriteRow_eoi] at hn
    rw [triggerRule_eoi, eoiRule_treatedState] at hrule
    exact ⟨t, hn, hrule, h⟩

/-- Settles O48: the write at 0x300 among those that a trigger takes. -/
theorem pageWriteIcr : Obligations.PageWriteIcr := by
  intro s d env ht hs hl hc hal htab hap
  obtain ⟨t, hn, hrule, hbytes, hip⟩ := exec_triggerWrite (off := 0x300) ht ⟨hs, hl, .inr (.inr ⟨rfl, hc⟩)⟩
    fun _ => ⟨hal, htab, hap⟩
  rw [pageWriteRow_icr] at hn
  rw [triggerRule_icr, icrRule_treatedState_write] at hrule
  exact ⟨t, hn, hbytes, hip, hrule⟩

/-! ### Writes that no trigger takes -/

/-- Settles O49: the default of R193, after the dirty flags. -/
theorem pageWriteExits : Obligations.PageWriteExits := by
  intro s off d env ht ⟨ha, htr, hc⟩
  have hfs := foot_treatedState .write env s
  obtain ⟨-, hdefault⟩ := pageWrite_untaken (s := treatedState .write env s) (d := d)
    (fun h => htr ((hfs.triggerOn off d.length).1 h))
  have hw : pageWrite off d (treatedState .write env s) = .exit (.apicAccess off .write) (treatedState .write env s) :=
    (hdefault (.inr fun h => hc ((hfs.controlApplies off).1 h))).trans (pageWriteDefault_exits ha)
  refine ⟨takeVmExit (.apicAccess off .write) (treatedState .write env s), ?_, exited_takeVmExit _ _, rfl, rfl⟩
  rw [exec_pageWriteRow ht, hw]
  rfl

/-- Settles O50: the three ways of a write that no trigger takes where R193 does not apply. -/
theorem pageWriteDirected : Obligations.PageWriteDirected := by
  intro s off d env ht htr
  have hfs := foot_treatedState .write env s
  obtain ⟨hrefused, hdefault⟩ := pageWrite_untaken (s := treatedState .write env s) (d := d)
    (fun h => htr ((hfs.triggerOn off d.length).1 h))
  refine ⟨fun ha hd => ?_, fun ha hd => ?_, fun ha hc => ?_⟩
  · have hv : Foot s (virtualWrite off.toNat d (treatedState .write env s)) := hfs.trans (foot_virtualWrite _ _ _)
    have hw := (hdefault (.inl ha)).trans (pageWriteDefault_directed (vapicPlaced_treatedState ht.placed) ha
      ((hfs.directedWrite off.toNat d.length).2 hd))
    have hread (a : Nat) := read_virtualWrite off.toNat d (treatedState .write env s) (a := a)
    have hbytes := readBytes_virtualWrite off.toNat d (treatedState .write env s)
    rw [hfs.vapicAt] at hread hbytes
    refine ⟨takeVmExit (.apicWrite off) (virtualWrite off.toNat d (treatedState .write env s)), ?_, ?_, hbytes,
      fun a h => hread a (h _ (List.mem_singleton_self _))⟩
    · rw [exec_pageWriteRow ht, hw]
      rfl
    · rw [← hv.nextIp]
      exact exited_takeVmExit (.apicWrite off) (virtualWrite off.toNat d (treatedState .write env s))
  · have hw := (hdefault (.inl ha)).trans (pageWriteDefault_undirected ha
      fun h => hd ((hfs.directedWrite off.toNat d.length).1 h))
    rw [exec_pageWriteRow ht, hw]
    rfl
  · rw [exec_pageWriteRow ht, hrefused ha ((hfs.controlApplies off).2 hc)]
    rfl

/-! ### Faults -/

/-- A page fault or an EPT violation, and the event it is recorded as (R197). -/
def Faults (x : Xlat) (e : Event) : Prop := (x = .pageFault ∧ e = .pageFault) ∨ (x = .eptViolation ∧ e = .eptViolation)

/-- A page access that faults ends there, with no other effect than the event (R197, R200). -/
theorem pageStep_faults {env : AccessEnv} {kind : AccessKind} {k : State → Res} {s : State} {e : Event}
    (hl : env.linear = true) (h : Faults env.xlat e) :
    pageStep env kind k s = .abort (emit e (beginAccess false (beginAccess env.cont s))) := by
  obtain ⟨hx, rfl⟩ | ⟨hx, rfl⟩ := h <;>
  · rw [pageStep, if_neg (by simp [hl]), hx]
    rfl

/-- Every row of format PAGE is one access of the page. -/
theorem pageRow_eq {i : Instr} {s : State} {env : AccessEnv} {off : PageOff} {n : Nat} {d : List Byte}
    (hr : Running s) (hc : s.vmcs.ctl.virtApicAccesses = true)
    (hi : i = .pageRead off n env ∨ i = .pageFetch off n env ∨ i = .pageWriteTpr d env ∨
      i = .pageWriteEoi d env ∨ i = .pageWriteIcrLo d env ∨ i = .pageWriteOther off d env) :
    ∃ kind k, exec i s = finish (pageStep env kind k s) := by
  obtain rfl | rfl | rfl | rfl | rfl | rfl := hi
  · exact ⟨_, _, page_eq hr hc⟩
  · exact ⟨_, _, page_eq hr hc⟩
  · exact ⟨_, _, page_eq hr hc⟩
  · exact ⟨_, _, page_eq hr hc⟩
  · exact ⟨_, _, page_eq hr hc⟩
  · exact ⟨_, _, page_eq hr hc⟩

/-- An access that faults, first of the accesses of an iteration, ends the iteration. -/
theorem exec_iteration_faults {s u : State} {it : RepIter} {before : List LinearAccess} {a : LinearAccess}
    {after : List LinearAccess} {e : Event} (hr : Running s) (has : it.accs = before ++ a :: after)
    (hu : AccessesReach before s u) (h : Faults (accessXlat a) e) :
    exec (.repStringIteration it) s = .next (emit e (beginAccess false u)) := by
  obtain ⟨hpf, hev⟩ := faultingAccess_aborts a u
  have ha : linearAccess a u = .abort (emit e (beginAccess false u)) := by
    obtain ⟨hx, rfl⟩ | ⟨hx, rfl⟩ := h
    · exact hpf hx
    · exact hev hx
  obtain ⟨-, habort, -⟩ := linearAccesses_ended (a := a) (after := after) hu
  exact exec_iteration_aborts hr (by rw [has]; exact habort _ ha)

/-- Accesses that neither exit nor trigger anything go on, and leave their stores and paging events. -/
theorem quietAccesses_reach {s : State} {before : List LinearAccess} (hr : Running s)
    (h : ∀ b ∈ before, QuietAccess s b) :
    ∃ u, AccessesReach before s u ∧ SameInterruptStatus s u ∧ u.wroteVirt = false ∧
      u.mem = before.foldl storeAccess s.mem ∧ u.history = s.history ++ before.map (pagingEvent s) := by
  obtain ⟨u, hu, -, hafter, hw, -⟩ := quietAccesses_first hr.placed h
  exact ⟨u, hu, hafter.status, hw, hafter.mem, hafter.events⟩

/-- Settles O51: the rows of format PAGE, and an iteration after whatever accesses went on. -/
theorem faultsComeFirst : Obligations.FaultsComeFirst := by
  refine ⟨fun i s env off n d hr hc hl hi => ?_, fun s it before a after e hr has hq he => ?_,
    fun s u it before a after e hr has hu he => ?_⟩
  · obtain ⟨kind, k, hexec⟩ := pageRow_eq hr hc hi
    have fault (e : Event) (h : Faults env.xlat e) :
        ∃ t, exec i s = .next t ∧ Still s t ∧ t.mem = s.mem ∧ t.loaded = s.loaded ∧ t.ip = s.ip ∧
          t.history = s.history ++ [e] := by
      refine ⟨emit e (beginAccess false (beginAccess env.cont s)), ?_, ⟨hr.guest, rfl, rfl⟩, rfl, rfl, rfl, rfl⟩
      rw [hexec, pageStep_faults hl h, finish]
    exact ⟨fun hx => fault _ (.inl ⟨hx, rfl⟩), fun hx => fault _ (.inr ⟨hx, rfl⟩)⟩
  · obtain ⟨u, hu, hst, -, hmem, hhist⟩ := quietAccesses_reach hr hq
    have hf := hu.foot
    refine ⟨_, exec_iteration_faults hr has hu he, hf.still hr.guest, hf.gpr, hf.ip, hmem, ?_, hst,
      hf.sameProcessorState⟩
    rw [emit_history, beginAccess_history, hhist]
  · have hf := hu.foot
    exact ⟨_, exec_iteration_faults hr has hu he, hf.still hr.guest, hf.gpr, hf.ip, rfl, rfl, ⟨rfl, rfl, rfl⟩,
      hf.sameProcessorState⟩

end Sys2Proof.Machine
end

section
/-! Proofs about string iterations that leave the guest (R200 to R203, R131). -/

namespace Sys2Proof.Machine

/-- The paging event of an access that is not virtualized is that of its kind. -/
theorem UnvirtualizedAccess.event {s : State} {wrote : Bool} {off : PageOff} {kind : AccessKind} {a : LinearAccess}
    (h : UnvirtualizedAccess s wrote off kind a) :
    pagingEvent s a = .pagingFlagsSet s.cr0Pg (decide (kind = .write)) := by
  obtain ⟨-, -, h⟩ := h
  cases a with
  | read | fetch | write =>
    obtain ⟨rfl, -⟩ := h
    rfl

/-- An access that is not virtualized, after whatever accesses went on: the iteration exits there, like a fault. -/
theorem exec_iteration_unvirtualized {s u : State} {it : RepIter} {before : List LinearAccess} {a : LinearAccess}
    {after : List LinearAccess} {off : PageOff} {kind : AccessKind} (hr : Running s)
    (has : it.accs = before ++ a :: after) (hu : AccessesReach before s u)
    (h : UnvirtualizedAccess s u.wroteVirt off kind a) :
    ∃ t, exec (.repStringIteration it) s = .next t ∧ Exited (.apicAccess off kind) s.ip t ∧ t.gpr = s.gpr ∧
      t.mem = u.mem ∧ t.history = u.history ++ [pagingEvent s a] ∧ SameInterruptStatus u t ∧
      SameProcessorState s t := by
  have hf := hu.foot
  obtain ⟨hexit, -⟩ := linearAccesses_ended (a := a) (after := after) hu
  have hacc := hexit _ _ (unvirtualizedAccess_exits hf h)
  rw [← has] at hacc
  refine ⟨_, exec_iteration_exits hr hacc, ?_, hf.gpr, rfl, ?_, ⟨rfl, rfl, rfl⟩, hf.sameProcessorState⟩
  · rw [← hf.ip]
    exact exited_takeVmExit (.apicAccess off kind) (setPagingFlags kind u)
  · rw [h.event, ← hf.cr0Pg]
    rfl

/-- A write that APIC-register virtualization directs, after whatever accesses went on: its bytes stand on the
virtual-APIC page, and the exit comes after the iteration (log 42). -/
theorem exec_iteration_directed {s u : State} {it : RepIter} {before : List LinearAccess} {a : LinearAccess}
    {after : List LinearAccess} {off : PageOff} {d : List Byte} (hr : Running s) (has : it.accs = before ++ a :: after)
    (hu : AccessesReach before s u) (hw : TreatedWrite s off d a) (ha : s.vmcs.ctl.apicRegVirt = true)
    (htr : ¬TriggerOn s off d.length) (hd : DirectedWrite s off.toNat d.length) :
    ∃ t, exec (.repStringIteration it) s = .next t ∧ Exited (.apicWrite off) s.nextIp t ∧ ReflectsIteration it s t ∧
      t.mem.readBytes (vapicAt s off.toNat) d.length = d ∧ MemoryOutside [(vapicAt s off.toNat, d.length)] u t := by
  have hf : Foot s (setPagingFlags .write u) := hu.foot.trans (foot_setPagingFlags .write u)
  have hv : Foot s (virtualWrite off.toNat d (setPagingFlags .write u)) := hf.trans (foot_virtualWrite _ _ _)
  obtain ⟨-, hdefault⟩ := pageWrite_untaken (s := setPagingFlags .write u) (d := d)
    (fun h => htr ((hf.triggerOn off d.length).1 h))
  have hwrite : linearAccess a u = .exit (.apicWrite off) (virtualWrite off.toNat d (setPagingFlags .write u)) := by
    rw [treatedWrite_eq hu.foot hw, hdefault (.inl (by rw [hf.vmcs, ha]))]
    exact pageWriteDefault_directed (hf.vapicPlaced.trans hr.placed) (by rw [hf.vmcs, ha])
      ((hf.directedWrite _ _).2 hd)
  obtain ⟨hexit, -⟩ := linearAccesses_ended (a := a) (after := after) hu
  have hacc := hexit _ _ hwrite
  rw [← has] at hacc
  refine ⟨_, exec_iteration_exits hr hacc, ?_, (reflects_completeIteration it hv).1, ?_, fun x hx => ?_⟩
  · rw [← hv.nextIp]
    exact exited_takeVmExit (.apicWrite off) (completeIteration it (virtualWrite off.toNat d (setPagingFlags .write u)))
  · rw [← hf.vapicAt]
    exact readBytes_virtualWrite off.toNat d (setPagingFlags .write u)
  · rw [← hf.vapicAt] at hx
    exact read_virtualWrite off.toNat d (setPagingFlags .write u) (hx _ (List.mem_singleton_self _))

/-- Settles O53: after whatever accesses went on, and so after quiet ones. -/
theorem stringIterationExits : Obligations.StringIterationExits := by
  intro s it hr
  refine ⟨fun before a after off kind has hq h => ?_, fun before a off d has hq hw ha htr hd => ?_,
    fun before u a after has hu => ⟨fun off kind h => exec_iteration_unvirtualized hr has hu h,
      fun off d hw ha htr hd => exec_iteration_directed hr has hu hw ha htr hd⟩⟩
  · obtain ⟨u, hu, ⟨hrvi, hsvi, hpend⟩, hwrote, hmem, hhist⟩ := quietAccesses_reach hr hq
    rw [← hwrote] at h
    obtain ⟨t, hn, he, hg, hm, hh, ⟨h1, h2, h3⟩, hp⟩ := exec_iteration_unvirtualized hr has hu h
    refine ⟨t, hn, he, hg, hm.trans hmem, ?_, ⟨h1.trans hrvi, h2.trans hsvi, h3.trans hpend⟩, hp⟩
    rw [hh, hhist, List.map_append, List.append_assoc]
    rfl
  · obtain ⟨u, hu, -, -, hmem, -⟩ := quietAccesses_reach hr hq
    obtain ⟨t, hn, he, hi, hb, hout⟩ := exec_iteration_directed hr has hu hw ha htr hd
    refine ⟨t, hn, he, hi, hb, fun x hx => (hout x hx).trans ?_⟩
    rw [hmem]
    rfl

end Sys2Proof.Machine
end

section
/-! Rules for frames of memory: what an operation on the virtual-APIC page stores to, lifted through the shapes in which
it is run. -/

namespace Sys2Proof.Machine

theorem MemoryOutside.of_mem {l : List (Nat × Nat)} {s t : State} (h : t.mem = s.mem) : MemoryOutside l s t :=
  fun a _ => congrArg (Memory.read · a) h

theorem MemoryOutside.trans {l : List (Nat × Nat)} {s u t : State} (h : MemoryOutside l s u)
    (k : MemoryOutside l u t) : MemoryOutside l s t := fun a ha => (k a ha).trans (h a ha)

theorem MemoryOutside.mono {l l' : List (Nat × Nat)} {s t : State} (h : MemoryOutside l s t) (hl : l ⊆ l') :
    MemoryOutside l' s t := fun a ha => h a fun r hr => ha r (hl hr)

/-- A frame that is known byte by byte. -/
theorem Res.All.outside {l : List (Nat × Nat)} {s : State} {r : Res}
    (h : ∀ a, (∀ x ∈ l, a < x.1 ∨ x.1 + x.2 ≤ a) → r.All fun t => t.mem.read a = s.mem.read a) :
    r.All (MemoryOutside l s) := by
  cases r with
  | done | exit | abort => exact h
  | refuse => trivial

/-- Completion and a VM exit store nothing. -/
theorem instruction_outside {l : List (Nat × Nat)} {c : Bool} {k : State → Res} {s t : State}
    (h : instruction c k s = .next t) (hk : c = true → (k s).All (MemoryOutside l s)) : MemoryOutside l s t :=
  instruction_next_all h hk (fun _ hu => hu) fun _ _ hu => hu

theorem inGuest_outside_all {l : List (Nat × Nat)} {k : State → Res} {s t : State} (h : inGuest k s = .next t)
    (hk : (k s).All (MemoryOutside l s)) : MemoryOutside l s t :=
  inGuest_next_all h hk fun _ _ hu => hu

/-! ### The virtualization operations -/

theorem outside_tprVirtualization (s : State) :
    (tprVirtualization s).All (MemoryOutside [(vapicAt s offPpr, 4)] s) :=
  .outside fun _ ha => (read_tprVirtualization s (ha _ (List.mem_singleton_self _))).imp fun _ h => h.1

theorem outside_eoiVirtualization (s : State) :
    (eoiVirtualization s).All (MemoryOutside [(vapicAt s (fieldOff offIsr s.svi), 4), (vapicAt s offPpr, 4)] s) :=
  .outside fun _ ha => (read_eoiVirtualization s (ha _ (.tail _ (.head _))) (ha _ (.head _))).imp fun _ h => h.1

theorem outside_selfIpi (v : IntVector) (s : State) :
    MemoryOutside [(vapicAt s (fieldOff offIrr v), 4)] s (selfIpiVirtualization v s) :=
  fun _ ha => read_selfIpi v s (ha _ (List.mem_singleton_self _))

theorem outside_deliver (s : State) :
    MemoryOutside [(vapicAt s (fieldOff offIsr s.rvi), 4), (vapicAt s offPpr, 4),
      (vapicAt s (fieldOff offIrr s.rvi), 4)] s (deliver s) :=
  fun _ ha => read_deliver s (ha _ (.head _)) (ha _ (.tail _ (.head _))) (ha _ (.tail _ (.tail _ (.head _))))

theorem outside_writeTpr (form : TprForm) (x : BitVec 64) (s : State) :
    (writeTpr form x s).All (MemoryOutside [(vapicAt s offTpr, 4), (vapicAt s offPpr, 4)] s) :=
  (outside_tprVirtualization (setVapic32 offTpr (Config.tprWriteValue form x) s)).imp fun _ hu =>
    ((memoryOutside_setVapic32 offTpr _ s).mono (by simp)).trans (hu.mono (by simp [vapicAt]))

/-- EOI virtualization after VEOI is stored. -/
theorem outside_writeEoi (x : BitVec 32) (s : State) :
    (eoiVirtualization (setVapic32 offEoi x s)).All (MemoryOutside
      [(vapicAt s offEoi, 4), (vapicAt s (fieldOff offIsr s.svi), 4), (vapicAt s offPpr, 4)] s) :=
  (outside_eoiVirtualization (setVapic32 offEoi x s)).imp fun _ hu =>
    ((memoryOutside_setVapic32 offEoi x s).mono (by simp)).trans (hu.mono (by simp [vapicAt]))

theorem outside_vmEntry (s : State) : MemoryOutside [(vapicAt s offPpr, 4)] s (vmEntry s) := by
  cases hv : s.vmcs.ctl.vid with
  | true =>
    rw [vmEntry_vid hv]
    exact memoryOutside_pprVirtualization (enterGuest s)
  | false =>
    rw [vmEntry_noVid hv]
    exact .of_mem rfl

end Sys2Proof.Machine
end

section
/-! Frames of memory of the operations that are no page writes (R73, R175, R160, R224). -/

namespace Sys2Proof.Machine

/-- Settles O54: the instructions named for their effect are one update, and a read of the page loads bytes. -/
theorem memoryKeptByNonStores : Obligations.MemoryKeptByNonStores := by
  intro i s t hn hi
  have update {f : State → State} (hf : (f s).mem = s.mem) (h : instruction true (fun s => .done (f s)) s = .next t) :
      MemoryOutside [] s t := by
    obtain ⟨-, rfl⟩ := instruction_update h
    exact .of_mem hf
  have load {c : Bool} {kind : AccessKind} {off : PageOff} {n : Nat} {env : AccessEnv}
      (h : inGuest (whenActive (enabledBy c (pageStep env kind (outsideEnclave (pageRead kind off n))))) s = .next t) :
      MemoryOutside [] s t :=
    page_next_all h (fun _ => .of_mem rfl) (pageRead_all (.of_mem rfl) (.of_mem rfl)) (fun _ hu => hu) fun _ _ hu => hu
  obtain ⟨r, rfl⟩ | ⟨a, b, rfl⟩ | ⟨b, rfl⟩ | ⟨b, rfl⟩ | rfl | rfl | ⟨o, n, e, rfl⟩ | ⟨o, n, e, rfl⟩ | rfl := hi
  · exact instruction_outside hn fun _ => onVapicPage_all fun _ => .of_mem rfl
  · exact update (by rfl) hn
  · exact update (by rfl) hn
  · exact update (by rfl) hn
  · exact update (by rfl) hn
  · exact update (by rfl) hn
  · exact load hn
  · exact load hn
  · exact inGuest_outside_all hn (enabledBy_all fun _ => onVapicPage_all fun _ => .of_mem (evaluate_mem s))

/-- Settles O55: each form runs its operation on the virtual-APIC page. -/
theorem memoryFrameRegisterForms : Obligations.MemoryFrameRegisterForms := by
  intro s t
  refine ⟨fun r hn => ?_, fun hn => ?_, fun hn => ?_, fun hn => ?_, fun hn => ?_, fun hn => ?_, fun hn => ?_,
    fun v hn => ?_, fun hn => ?_⟩
  · exact instruction_outside hn fun _ => onVapicPage_all fun _ => outside_writeTpr _ _ s
  · exact instruction_outside hn fun _ => onVapicPage_all fun _ => outside_writeTpr _ _ s
  · exact inGuest_outside_all hn (enabledBy_all fun _ => onVapicPage_all fun _ => outside_tprVirtualization s)
  · exact inGuest_outside_all hn (enabledBy_all fun _ => onVapicPage_all fun _ => memoryOutside_pprVirtualization s)
  · exact instruction_outside hn fun _ => onVapicPage_all fun _ => outside_writeEoi _ s
  · exact inGuest_outside_all hn (enabledBy_all fun _ => onVapicPage_all fun _ => outside_eoiVirtualization s)
  · exact instruction_outside hn fun _ => onVapicPage_all fun _ => outside_selfIpi _ s
  · exact inGuest_outside_all hn (enabledBy_all fun _ => onVapicPage_all fun _ => outside_selfIpi v s)
  · obtain ⟨-, -, -, rfl⟩ := execVmEntry_next hn
    exact outside_vmEntry s

/-- Settles O56: both run an instruction boundary. -/
theorem memoryFrameDelivery : Obligations.MemoryFrameDelivery := by
  intro s t h
  obtain hn | ⟨b, hn⟩ := h
  · exact inGuest_outside_all hn (enabledBy_all fun _ => boundary_all (.of_mem rfl) fun _ => outside_deliver s)
  · exact inGuest_outside_all hn (boundary_all (.of_mem rfl) fun _ => outside_deliver s)

/-! ### IPI virtualization -/

/-- Setting bit `v` of PIR changes the byte that holds the bit: the 32 bytes are stored back. -/
theorem outside_postInPir (p : Nat) (v : IntVector) (s : State) :
    MemoryOutside [(p + v.toNat / 8, 1)] s (postInPir p v s) := by
  intro a ha
  have hav : a ≠ p + v.toNat / 8 := by
    have := ha _ (List.mem_singleton_self _)
    omega
  by_cases hin : p ≤ a ∧ a < p + 32
  · obtain ⟨k, rfl⟩ := Nat.exists_eq_add_of_le hin.1
    refine Memory.read_writeLe_agree (by omega) fun i hi => ?_
    rw [BitVec.toNat_or, Nat.testBit_or, pirAt, Memory.toNat_read256, BitVec.testBit_toNat, BitVec.getLsbD_twoPow]
    have hbit : v.toNat ≠ 8 * k + i := by omega
    simp [hbit]
  · exact Memory.read_writeLe_outside _ _ _ _ _ (by omega)

/-- Setting ON changes the byte that holds it: the 8 bytes are stored back. -/
theorem outside_notifyPid (p : Nat) (s : State) : MemoryOutside [(p + 32, 1)] s (notifyPid p s) := by
  intro a ha
  have hap : a ≠ p + 32 := by
    have := ha _ (List.mem_singleton_self _)
    omega
  have hback : ∀ x : Nat, (∀ i, 8 ≤ i → x.testBit i = (s.mem.readLe (p + 32) 8).testBit i) →
      (s.mem.writeLe (p + 32) 8 x).read a = s.mem.read a := by
    intro x hx
    by_cases hin : p + 32 ≤ a ∧ a < p + 40
    · obtain ⟨k, rfl⟩ := Nat.exists_eq_add_of_le hin.1
      exact Memory.read_writeLe_agree (by omega) fun i _ => hx _ (by omega)
    · exact Memory.read_writeLe_outside _ _ _ _ _ (by omega)
  unfold notifyPid
  simp only
  split
  · refine hback _ fun i hi => ?_
    rw [BitVec.toNat_or, Nat.testBit_or, notifyInfoAt, Memory.toNat_read64, BitVec.testBit_toNat,
      show (1 : BitVec 64) = 1#64 from rfl, BitVec.getLsbD_one]
    simp [show i ≠ 0 by omega]
  · exact hback _ fun i _ => by rw [notifyInfoAt, Memory.toNat_read64]

theorem outside_post (p : Nat) (v : IntVector) (s : State) :
    MemoryOutside [(p + v.toNat / 8, 1), (p + 32, 1)] s (post p v s) :=
  ((outside_postInPir p v s).mono (by simp)).trans ((outside_notifyPid p _).mono (by simp))

/-- IPI virtualization with nobody else acting leaves the state alone, or posts in the descriptor that the table
names. -/
theorem ipiVirtualization_alone {v : IntVector} {a : ApicId} {s : State} (h : Alone s) :
    (ipiVirtualization v a s).All fun t => t = s ∨
      (¬IpiIllegal v a s ∧ PidUsable s (targetPid s a) ∧ t = post (targetPid s a) v s) := by
  have hpid : pidAddr (pidEntry s a) = targetPid s a := by rw [pidAddr_eq, pidEntry_eq]; rfl
  unfold ipiVirtualization
  simp only [hpid]
  split_ifs with hv hl hp hvalid hplaced hapart
  · exact .inl rfl
  · trivial
  · trivial
  · rw [postInterrupt_alone h]
    rw [pidEntryValid_iff, pidEntry_eq] at hvalid
    refine .inr ⟨?_, ⟨by simpa using hplaced, by simpa using hapart⟩, rfl⟩
    simp only [IpiIllegal, not_or, not_not]
    exact ⟨hv, by omega, hvalid⟩
  · exact .inl rfl
  · trivial
  · exact .inl rfl

/-- What IPI virtualization stores: nothing where the pair is illegal, else what posting does. -/
theorem outside_ipiVirtualization {v : IntVector} {a : ApicId} {s : State} (h : Alone s) :
    (ipiVirtualization v a s).All fun t =>
      (IpiIllegal v a s → MemoryOutside [] s t) ∧ MemoryOutside (ipiStores v a s) s t := by
  refine (ipiVirtualization_alone h).imp ?_
  rintro t (rfl | ⟨hlegal, -, rfl⟩)
  · exact ⟨fun _ => .of_mem rfl, .of_mem rfl⟩
  · exact ⟨fun hi => absurd hi hlegal, outside_post _ _ _⟩

/-- Settles O57: the three forms run IPI virtualization. -/
theorem memoryFrameIpi : Obligations.MemoryFrameIpi := by
  intro s t hal
  refine ⟨fun v a h => ?_, fun hn => ?_⟩
  · obtain hn | hn := h
    · exact inGuest_next_all hn (enabledBy_all fun _ => outside_ipiVirtualization hal) fun _ _ hu => hu
    · exact instruction_next_all hn (fun _ => outside_ipiVirtualization hal) (fun _ hu => hu) fun _ _ hu => hu
  · exact instruction_next_all hn (fun _ => outside_ipiVirtualization hal) (fun _ hu => hu) fun _ _ hu => hu

/-! ### Posted-interrupt processing -/

/-- What posted-interrupt processing stores to (R224): PIR and ON of the own descriptor, and VIRR. -/
def postedStores (s : State) : List (Nat × Nat) :=
  (s.vmcs.piDescAddr.toNat, 33) :: (List.range 8).map fun k => (vapicAt s (offIrr + 16 * k), 4)

theorem postedStores_congr {s t : State} (h : t.vmcs = s.vmcs) : postedStores t = postedStores s := by
  simp only [postedStores, vapicAt, h]

theorem outside_processPosted {s : State} (h : Alone s) : (processPosted s).All (MemoryOutside (postedStores s) s) := by
  obtain ⟨m, hdone, -, hout, -⟩ := processPosted_alone h
  rw [hdone]
  intro a ha
  have hirr : (orVirr (s.mem.read256 s.vmcs.piDescAddr.toNat) (setMem m (emit .localApicEoi s))).mem.read a =
      m.read a :=
    read_orFields offIrr _ 8 _ a fun k hk => ha _ (.tail _ (List.mem_map.2 ⟨k, List.mem_range.2 hk, rfl⟩))
  rw [posted, afterPosted_mem, acceptPosted_mem, hirr]
  exact hout a (ha _ (.head _))

theorem aexBefore_mem (x : Bool) (s : State) : (aexBefore x s).mem = s.mem := by unfold aexBefore; split <;> simp

theorem aexBefore_agents (x : Bool) (s : State) : (aexBefore x s).agents = s.agents := by
  unfold aexBefore; split <;> simp

theorem outside_interruptExit (l : List (Nat × Nat)) (pv : IntVector) (s : State) :
    (interruptExit pv s).All (MemoryOutside l s) := .of_mem (enclaveExit_mem s)

theorem outside_postedInterruptProcessing (pv : IntVector) (x : Bool) {s : State} (h : Alone s) :
    (postedInterruptProcessing pv x s).All (MemoryOutside (postedStores s) s) := by
  have hack : MemoryOutside (postedStores s) s (emit (.localApicAck pv) (aexBefore x s)) := .of_mem (aexBefore_mem x s)
  have hvmcs : (emit (.localApicAck pv) (aexBefore x s)).vmcs = s.vmcs := (wideFoot_aexBefore x s).vmcs
  have hal : Alone (emit (.localApicAck pv) (aexBefore x s)) := (aexBefore_agents x s).trans h
  unfold postedInterruptProcessing
  simp only
  split_ifs
  · exact (outside_interruptExit _ pv _).imp fun _ hu => hack.trans hu
  · trivial
  · refine onVapicPage_all fun _ => (outside_processPosted hal).imp fun _ hu => ?_
    rw [postedStores_congr hvmcs] at hu
    exact hack.trans hu
  · trivial

theorem outside_externalInterrupt (pv : IntVector) (x : Bool) {s : State} (h : Alone s) :
    (externalInterrupt pv x s).All (MemoryOutside (postedStores s) s) := by
  unfold externalInterrupt
  split_ifs
  · trivial
  · exact outside_postedInterruptProcessing pv x h
  · exact outside_interruptExit _ pv s

theorem alone_deliver {s : State} (h : Alone s) : Alone (deliver s) := by
  simpa [Alone, deliver, acceptVector] using h

/-- The field of VIRR that holds the bit of a vector is one of the eight. -/
theorem irrField_mem_postedStores (v : IntVector) (s : State) :
    (vapicAt s (fieldOff offIrr v), 4) ∈ postedStores s := by
  rw [fieldOff_irr]
  exact .tail _ (List.mem_map.2 ⟨v.toNat / 32, List.mem_range.2 (by have := v.isLt; omega), rfl⟩)

/-- Settles O58: an external interrupt is handled in the state before it, or in the one that a delivery leaves. -/
theorem memoryFramePosted : Obligations.MemoryFramePosted := by
  intro s t pv x hal
  refine ⟨fun hn => ?_, fun hn => ?_⟩
  · exact inGuest_outside_all hn (enabledBy_all fun _ => interruptible_all (outside_postedInterruptProcessing pv x hal))
  · have hposted : postedStores s ⊆ (s.vmcs.piDescAddr.toNat, 33) :: (vapicAt s (fieldOff offIsr s.rvi), 4) ::
        (vapicAt s offPpr, 4) :: (List.range 8).map fun k => (vapicAt s (offIrr + 16 * k), 4) :=
      List.cons_subset_cons _ fun _ hr => .tail _ (.tail _ hr)
    have hdeliver := (outside_deliver s).mono (List.cons_subset.2 ⟨.tail _ (.head _), List.cons_subset.2
      ⟨.tail _ (.tail _ (.head _)), List.cons_subset.2 ⟨hposted (irrField_mem_postedStores s.rvi s),
        List.nil_subset _⟩⟩⟩)
    refine inGuest_outside_all hn (interruptible_all ?_)
    unfold afterDelivery
    split
    · refine onVapicPage_all fun _ => ?_
      split
      · exact hdeliver
      · refine (outside_externalInterrupt pv x (alone_deliver hal)).imp fun _ hu => hdeliver.trans ?_
        rw [postedStores_congr (wideFoot_deliver s).vmcs] at hu
        exact hu.mono hposted
    · exact (outside_externalInterrupt pv x hal).imp fun _ hu => hu.mono hposted

end Sys2Proof.Machine
end

section
/-! Frames of memory of the writes to the APIC-access page (R128 to R131, R192 to R194). -/

namespace Sys2Proof.Machine

/-! ### The ranges -/

theorem pageStores_tpr (n : Nat) (s t : State) :
    pageStores 0x080 n s t = [(vapicAt s offTpr, n), (vapicAt s offPpr, 4)] := by
  rw [pageStores, if_pos rfl]; rfl

theorem pageStores_eoi (n : Nat) (s t : State) : pageStores 0x0B0 n s t =
    [(vapicAt s offEoi, n), (vapicAt s (fieldOff offIsr s.svi), 4), (vapicAt s offPpr, 4)] := by
  rw [pageStores, if_neg (by decide), if_pos rfl]; rfl

/-- The ranges are read off the state before by its memory, its VMCS and SVI. -/
theorem pageStores_congr {s s' : State} (hm : s'.mem = s.mem) (hv : s'.vmcs = s.vmcs) (hs : s'.svi = s.svi)
    (off : PageOff) (n : Nat) (t : State) : pageStores off n s' t = pageStores off n s t := by
  simp only [pageStores, ipiStores, targetPid, vapicAt, vicrHi, vapic32, hm, hv, hs]

/-- The state after counts by its memory and the address of the virtual-APIC page. -/
theorem outside_pageStores_congr {l : List (Nat × Nat)} {off : PageOff} {n : Nat} {s s' t t' : State}
    (hm : t'.mem = t.mem) (hv : t'.vmcs.vapicAddr = t.vmcs.vapicAddr)
    (h : MemoryOutside (l ++ pageStores off n s' t) s t) : MemoryOutside (l ++ pageStores off n s' t') s t' := by
  have hlo : vicrLo t' = vicrLo t := by rw [vicrLo, vicrLo, vapic32, vapic32, vapicAt, vapicAt, hm, hv]
  intro a ha
  rw [hm]
  refine h a fun r hr => ha r ?_
  simpa only [pageStores, hlo] using hr

/-- A field apart from all that was stored reads as before. -/
theorem MemoryOutside.vapic32 {l : List (Nat × Nat)} {s t : State} {off : Nat} (h : MemoryOutside l s t)
    (hv : t.vmcs = s.vmcs) (hl : ∀ r ∈ l, vapicAt s off + 4 ≤ r.1 ∨ r.1 + r.2 ≤ vapicAt s off) :
    vapic32 t off = vapic32 s off := by
  rw [Machine.vapic32, Machine.vapic32, vapicAt, hv, ← vapicAt, Memory.read32, Memory.read32, Memory.readLe_congr]
  intro a h1 h2
  exact h a fun r hr => by have := hl r hr; omega

/-! ### The rows -/

theorem outside_virtualWrite (off : Nat) (d : List Byte) (s : State) :
    MemoryOutside [(vapicAt s off, d.length)] s (virtualWrite off d s) :=
  fun _ ha => read_virtualWrite off d s (ha _ (List.mem_singleton_self _))

theorem outside_pageWriteDefault (off : PageOff) (d : List Byte) (s : State) :
    (pageWriteDefault off d s).All (MemoryOutside [(vapicAt s off.toNat, d.length)] s) :=
  pageWriteDefault_all (.of_mem rfl) fun _ => outside_virtualWrite _ d s

theorem outside_pageWriteTpr (d : List Byte) (s : State) :
    (pageWriteTpr d s).All (MemoryOutside [(vapicAt s offTpr, d.length), (vapicAt s offPpr, 4)] s) := by
  unfold pageWriteTpr
  split
  · exact onVapicPage_all fun _ => (outside_tprVirtualization (virtualWrite offTpr d s)).imp fun _ hu =>
      ((outside_virtualWrite offTpr d s).mono (by simp)).trans (hu.mono (by simp [vapicAt]))
  · exact (outside_pageWriteDefault 0x080 d s).imp fun _ hu => hu.mono (by simp [offTpr])

theorem outside_pageWriteEoi (d : List Byte) (s : State) :
    (pageWriteEoi d s).All (MemoryOutside
      [(vapicAt s offEoi, d.length), (vapicAt s (fieldOff offIsr s.svi), 4), (vapicAt s offPpr, 4)] s) := by
  unfold pageWriteEoi
  split
  · exact onVapicPage_all fun _ => (outside_eoiVirtualization (virtualWrite offEoi d s)).imp fun _ hu =>
      ((outside_virtualWrite offEoi d s).mono (by simp)).trans (hu.mono (by simp [vapicAt]))
  · exact pageWriteUntaken_all ((outside_pageWriteDefault 0x0B0 d s).imp fun _ hu => hu.mono (by simp [offEoi]))

theorem outside_pageWriteOther (off : PageOff) (d : List Byte) (s : State) :
    (pageWriteOther off d s).All (MemoryOutside [(vapicAt s off.toNat, d.length)] s) :=
  pageWriteUntaken_all (outside_pageWriteDefault off d s)

/-- What the virtualization at 0x300 stores to, as the open dispatch of VICR_LO selects (R130). -/
def icrStores (lo : BitVec 32) (s : State) : List (Nat × Nat) :=
  match Config.icrPageDispatch lo (vicrHi s) s.vmcs.ctl with
  | .selfIpi v => [(vapicAt s (fieldOff offIrr v), 4)]
  | .ipi v a => ipiStores v a s
  | .exit => []

theorem pageStores_icr (n : Nat) (s t : State) :
    pageStores 0x300 n s t = (vapicAt s offIcrLo, n) :: icrStores (vicrLo t) s := by
  rw [pageStores, if_neg (by decide), if_neg (by decide), if_pos rfl]; rfl

theorem vicrLo_selfIpi (v : IntVector) (s : State) : vicrLo (selfIpiVirtualization v s) = vicrLo s := by
  refine (outside_selfIpi v s).vapic32 (foot_selfIpi v s).vmcs fun r hr => ?_
  have := fieldOff_irr_range v
  rw [List.mem_singleton.1 hr]
  simp only [vapicAt, offIcrLo]
  omega

/-- A descriptor that is apart from the virtual-APIC page can be posted in without a change of VICR_LO. -/
theorem vicrLo_post {p : Nat} (v : IntVector) {s : State}
    (hp : p + 64 ≤ s.vmcs.vapicAddr.toNat ∨ s.vmcs.vapicAddr.toNat + 4096 ≤ p) :
    vicrLo (post p v s) = vicrLo s := by
  refine (outside_post p v s).vapic32 (foot_post p v s).vmcs fun r hr => ?_
  have := v.isLt
  simp only [List.mem_cons, List.not_mem_nil, or_false] at hr
  simp only [vapicAt, offIcrLo]
  obtain rfl | rfl := hr <;> simp only <;> omega

/-- A virtualized write to VICR_LO leaves the descriptor of a legal pair where it is. -/
theorem Wrote.targetPid {d : List Byte} {s w : State} (W : Wrote offIcrLo d s w) (hl : d.length ≤ 4)
    (hap : regionsDisjoint (vmcsRegions s.vmcs) = true) (hi : s.vmcs.ctl.ipiVirt = true) {v : IntVector} {a : ApicId}
    (hlegal : ¬IpiIllegal v a w) : targetPid w a = targetPid s a := by
  rw [W.illegal hl hap hi] at hlegal
  simp only [IpiIllegal, not_or] at hlegal
  rw [Machine.targetPid, Machine.targetPid, W.foot.vmcs, W.table hl hap hi a (by omega)]

/-- What follows the store of VICR_LO stores where the dispatch of VICR_LO as stored has it. -/
theorem outside_icrVirtualization {d : List Byte} {s w : State} (W : Wrote offIcrLo d s w) (hl : d.length ≤ 4)
    (hal : Alone s) (hap : regionsDisjoint (vmcsRegions s.vmcs) = true) :
    (icrVirtualization w).All fun t =>
      MemoryOutside ((vapicAt s offIcrLo, d.length) :: icrStores (vicrLo t) s) s t := by
  have hhi : vicrHi w = vicrHi s := W.other _ (by simp only [offIcrHi, offIcrLo]; omega)
  have hstored : ∀ l, MemoryOutside ((vapicAt s offIcrLo, d.length) :: l) s w :=
    fun l a ha => W.frame a (ha _ (.head _))
  have hva : ∀ o, vapicAt w o = vapicAt s o := W.foot.vapicAt
  unfold icrVirtualization icrAction
  rw [hhi, W.foot.vmcs]
  cases hd : Config.icrPageDispatch (vicrLo w) (vicrHi s) s.vmcs.ctl with
  | exit => exact hstored _
  | selfIpi v =>
    by_cases hc : s.vmcs.ctl.vid = true
    · simp only [if_pos hc]
      have hself := outside_selfIpi v w
      have hlist : icrStores (vicrLo w) s = [(vapicAt s (fieldOff offIrr v), 4)] := by rw [icrStores, hd]
      show MemoryOutside _ _ _
      rw [vicrLo_selfIpi, hlist]
      rw [hva] at hself
      exact (hstored _).trans (hself.mono (by simp))
    · simp only [if_neg hc]
      exact hstored _
  | ipi v a =>
    by_cases hi : s.vmcs.ctl.ipiVirt = true
    · simp only [if_pos hi]
      refine (ipiVirtualization_alone (W.agents.trans hal)).imp ?_
      rintro t (rfl | ⟨hlegal, husable, rfl⟩)
      · exact hstored _
      · have hpid := W.targetPid hl hap hi hlegal
        have hapart := pidApart_vapic husable.2 (usesVapic_of_ipiVirt (W.foot.vmcs ▸ hi))
        have hpost := outside_post (targetPid w a) v w
        have hlist : icrStores (vicrLo w) s = ipiStores v a s := by rw [icrStores, hd]
        rw [vicrLo_post v hapart, hlist]
        rw [hpid] at hpost ⊢
        exact (hstored _).trans (hpost.mono (List.subset_cons_self _ _))
    · simp only [if_neg hi]
      exact hstored _

theorem outside_pageWriteIcrLo {d : List Byte} {s : State} (hal : Alone s)
    (hap : regionsDisjoint (vmcsRegions s.vmcs) = true) :
    (pageWriteIcrLo d s).All fun t =>
      MemoryOutside ((vapicAt s offIcrLo, d.length) :: icrStores (vicrLo t) s) s t := by
  unfold pageWriteIcrLo
  split
  · next hq =>
    have hl := qualifies_le (Bool.and_eq_true_iff.1 hq).2
    exact onVapicPage_all fun _ => outside_icrVirtualization (wrote_virtualWrite offIcrLo d s) hl hal hap
  · exact pageWriteUntaken_all ((outside_pageWriteDefault 0x300 d s).imp fun _ hu => hu.mono (by simp [offIcrLo]))

/-- A write of the page stores where its offset has it. -/
theorem outside_pageWrite (off : PageOff) (d : List Byte) {s : State}
    (hi : off = 0x300 → Alone s ∧ regionsDisjoint (vmcsRegions s.vmcs) = true) :
    (pageWrite off d s).All fun t => MemoryOutside (pageStores off d.length s t) s t := by
  unfold pageWrite
  split_ifs with h1 h2 h3
  · subst h1
    exact (outside_pageWriteTpr d s).imp fun t ht => by rwa [pageStores_tpr]
  · subst h2
    exact (outside_pageWriteEoi d s).imp fun t ht => by rwa [pageStores_eoi]
  · subst h3
    obtain ⟨hal, hap⟩ := hi rfl
    exact (outside_pageWriteIcrLo hal hap).imp fun t ht => by rwa [pageStores_icr]
  · exact (outside_pageWriteOther off d s).imp fun t ht => ht.mono (by simp [pageStores])

/-! ### The rows as steps -/

theorem outside_plainWrite (pa : PhysAddr) (d : List Byte) (s : State) :
    (plainWrite pa d s).All (MemoryOutside [(pa.toNat, d.length)] s) :=
  plainWrite_all fun _ _ ha => Memory.read_writeBytes_outside _ _ _ _ (ha _ (List.mem_singleton_self _))

/-- A write that the processor may leave untreated goes to the APIC-access page's own memory (log 37). -/
theorem outside_subPage {c : Bool} {off : PageOff} {d : List Byte} {env : AccessEnv} {k : State → Res} {s t : State}
    (hn : inGuest (whenActive (enabledBy c (pageWriteStep off d env k))) s = .next t) (hsub : env.subPage = true) :
    MemoryOutside [((apicPageAddr s off).toNat, d.length)] s t :=
  pageWrite_next_all hn (fun _ => .of_mem rfl) (fun _ => outside_plainWrite _ d (treatedState .write env s))
    (fun h => absurd (hsub.symm.trans h) (by decide)) (fun _ hu => hu) fun _ _ hu => hu

/-- A write that is treated stores what its treatment stores. -/
theorem outside_treated {c : Bool} {off : PageOff} {d : List Byte} {env : AccessEnv} {k : State → Res} {s t : State}
    {l : List (Nat × Nat)} (hn : inGuest (whenActive (enabledBy c (pageWriteStep off d env k))) s = .next t)
    (hsub : env.subPage = false) (hk : (k (treatedState .write env s)).All (MemoryOutside l s)) : MemoryOutside l s t :=
  pageWrite_next_all hn (fun _ => .of_mem rfl) (fun h => absurd (hsub.symm.trans h) (by decide)) (fun _ => hk)
    (fun _ hu => hu) fun _ _ hu => hu

/-- Settles O59: each row runs its write from the state in which the dirty flags are set. -/
theorem memoryFramePageWrites : Obligations.MemoryFramePageWrites := by
  intro s t d env
  refine ⟨fun hsub off h => ?_, fun hsub => ⟨fun hn => ?_, fun hn => ?_, fun off hn => ?_, fun hal hap hn => ?_⟩⟩
  · obtain hn | ⟨rfl, hn⟩ | ⟨rfl, hn⟩ | ⟨rfl, hn⟩ := h <;>
      exact outside_subPage hn hsub
  · exact outside_treated hn hsub (outside_pageWriteTpr d (treatedState .write env s))
  · exact outside_treated hn hsub (outside_pageWriteEoi d (treatedState .write env s))
  · exact outside_treated hn hsub (outside_pageWriteOther off d (treatedState .write env s))
  · have hframe : MemoryOutside ([] ++ pageStores 0x300 d.length s t) s t := by
      refine pageWrite_next_all (P := fun t => MemoryOutside ([] ++ pageStores 0x300 d.length s t) s t) hn
        (fun _ => .of_mem rfl) (fun h => absurd (hsub.symm.trans h) (by decide)) (fun _ => ?_)
        (fun _ => outside_pageStores_congr rfl rfl) fun _ _ => outside_pageStores_congr rfl rfl
      refine (outside_pageWriteIcrLo (s := treatedState .write env s) hal hap).imp fun u hu => ?_
      rw [← pageStores_icr] at hu
      rw [← pageStores_congr (s := s) (s' := treatedState .write env s) rfl rfl rfl]
      exact hu
    rw [List.nil_append, pageStores_icr] at hframe
    exact hframe

end Sys2Proof.Machine
end

section
/-! Frames of memory of string iterations (R138, R192, R200). -/

namespace Sys2Proof.Machine

/-- How accesses may leave an iteration: they go on with `D`, or one ends the iteration with `X`. -/
def Res.Leaves (r : Res) (D X : State → Prop) : Prop :=
  match r with
  | .done u => D u
  | .exit _ u => X u
  | .abort u => X u
  | .refuse _ => True

section
variable {D X : State → Prop} {k : State → Res} {s : State}

theorem Res.Leaves.all {P : State → Prop} {r : Res} (h : r.Leaves D X) (hd : ∀ u, D u → P u) (hx : ∀ u, X u → P u) :
    r.All P := by
  cases r with
  | done u => exact hd u h
  | exit e u | abort u => exact hx u h
  | refuse => trivial

theorem Res.Leaves.andThen {D' X' : State → Prop} {r : Res} (h : r.Leaves D X) (hd : ∀ u, D u → (k u).Leaves D' X')
    (hx : ∀ u, X u → X' u) : (r.andThen k).Leaves D' X' := by
  cases r with
  | done u => exact hd u h
  | exit e u | abort u => exact hx u h
  | refuse => trivial

theorem Res.Leaves.andThen_all {P : State → Prop} {r : Res} (h : r.Leaves D X) (hd : ∀ u, D u → (k u).All P)
    (hx : ∀ u, X u → P u) : (r.andThen k).All P := by
  cases r with
  | done u => exact hd u h
  | exit e u | abort u => exact hx u h
  | refuse => trivial

theorem translated_leaves {x : Xlat} {kind : AccessKind} (he : ∀ e, X (emit e (beginAccess false s)))
    (hk : (k (setPagingFlags kind s)).Leaves D X) : (translated x kind k s).Leaves D X := by
  cases x with
  | ok => exact hk
  | pageFault | eptViolation => exact he _

theorem special_leaves {pa : PhysAddr} {n : Nat} {f : State → Res}
    (hf : s.vmcs.ctl.virtApicAccesses = true → onApicPage s pa = true → (f s).Leaves D X) (hg : (k s).Leaves D X) :
    (special pa n f k s).Leaves D X := by
  unfold special outsideEnclave
  split_ifs with hc ho
  · trivial
  · exact hf hc ho
  · trivial
  · exact hg
  · exact hg

theorem pageRead_leaves {kind : AccessKind} {off : PageOff} {n : Nat} (hd : D (virtualRead off.toNat n s)) (hx : X s) :
    (pageRead kind off n s).Leaves D X := by
  unfold pageRead onVapicPage
  split_ifs
  · exact hx
  · exact hd
  · trivial
  · exact hx

theorem plainRead_leaves {pa : PhysAddr} {n : Nat} (hd : D { s with loaded := s.mem.readBytes pa.toNat n }) :
    (plainRead pa n s).Leaves D X := by
  unfold plainRead
  split
  · exact hd
  · trivial

theorem plainWrite_leaves {pa : PhysAddr} {d : List Byte} (hd : D (setMem (s.mem.writeBytes pa.toNat d) s)) :
    (plainWrite pa d s).Leaves D X := by
  unfold plainWrite
  split_ifs
  · trivial
  · trivial
  · trivial
  · trivial
  · exact hd

end

/-- An access that is no treated write goes on with its store, or ends the iteration without one. -/
theorem linearAccess_leaves {a : LinearAccess} {u : State} (h : ¬WritesPage u a) :
    (linearAccess a u).Leaves (After [a] u) fun w => w.mem = u.mem := by
  cases a with
  | read pa n x | fetch pa n x =>
    exact translated_leaves (fun _ => rfl) (special_leaves
      (fun _ _ => pageRead_leaves ⟨rfl, ⟨rfl, rfl, rfl⟩, rfl, rfl, rfl, rfl⟩ rfl)
      (plainRead_leaves ⟨rfl, ⟨rfl, rfl, rfl⟩, rfl, rfl, rfl, rfl⟩))
  | write pa d x sub =>
    refine translated_leaves (fun _ => rfl) ?_
    have hplain : (plainWrite pa d (setPagingFlags .write u)).Leaves (After [.write pa d x sub] u)
        fun w => w.mem = u.mem :=
      plainWrite_leaves ⟨rfl, ⟨rfl, rfl, rfl⟩, rfl, rfl, rfl, rfl⟩
    cases sub with
    | true => exact hplain
    | false => exact special_leaves (fun hc ho => absurd ⟨hc, rfl, ho⟩ h) hplain

theorem Foot.writesPage {s u : State} (h : Foot s u) (a : LinearAccess) : WritesPage u a ↔ WritesPage s a := by
  cases a with
  | read | fetch => exact Iff.rfl
  | write pa d x sub => rw [WritesPage, WritesPage, h.vmcs, h.onApicPage]

theorem storesOf_append (as bs : List LinearAccess) : storesOf (as ++ bs) = storesOf as ++ storesOf bs := by
  induction as with
  | nil => rfl
  | cons a as ih => cases a <;> simp [storesOf, ih]

/-- The stores of accesses that are no treated writes go where they say. -/
theorem read_foldl_storeAccess (as : List LinearAccess) (m : Memory) {x : Nat}
    (h : ∀ r ∈ storesOf as, x < r.1 ∨ r.1 + r.2 ≤ x) : (as.foldl storeAccess m).read x = m.read x := by
  induction as generalizing m with
  | nil => rfl
  | cons a as ih =>
    cases a with
    | read | fetch => exact ih m h
    | write pa d y sub =>
      exact (ih _ fun r hr => h r (.tail _ hr)).trans (Memory.read_writeBytes_outside _ _ _ _ (h _ (.head _)))

theorem After.outside {as : List LinearAccess} {s w : State} (h : After as s w) : MemoryOutside (storesOf as) s w := by
  intro x hx
  rw [h.mem]
  exact read_foldl_storeAccess as s.mem hx

/-- Accesses that are no treated writes go on with their stores, or one ends the iteration after those before it. -/
theorem linearAccesses_leaves {as : List LinearAccess} {s : State} (h : ∀ a ∈ as, ¬WritesPage s a) :
    (linearAccesses as s).Leaves (After as s) (MemoryOutside (storesOf as) s) := by
  induction as generalizing s with
  | nil => exact After.nil s
  | cons a as ih =>
    have hcons : storesOf (a :: as) = storesOf [a] ++ storesOf as := storesOf_append [a] as
    refine (linearAccess_leaves (h a (.head _))).andThen (fun u hu => ?_) fun u hu => .of_mem hu
    have htail := ih (s := u) fun b hb hw => h b (.tail _ hb) ((hu.foot.writesPage b).1 hw)
    cases hr : linearAccesses as u with
    | done w =>
      rw [hr] at htail
      exact hu.append htail
    | exit e w | abort w =>
      rw [hr] at htail
      show MemoryOutside (storesOf (a :: as)) s w
      rw [hcons]
      exact (hu.outside.mono (List.subset_append_left _ _)).trans (htail.mono (List.subset_append_right _ _))
    | refuse => trivial

/-- A treated write stores where a write of the page does. -/
theorem outside_treatedWrite {pa : PhysAddr} {d : List Byte} {x : Xlat} {u : State}
    (hw : WritesPage u (.write pa d x false))
    (hi : pageOff pa = 0x300 → Alone u ∧ regionsDisjoint (vmcsRegions u.vmcs) = true) :
    (linearAccess (.write pa d x false) u).All fun t => MemoryOutside (pageStores (pageOff pa) d.length u t) u t := by
  obtain ⟨hc, -, ho⟩ := hw
  refine translated_all (fun _ => .of_mem rfl) ?_
  have hpage := outside_pageWrite (pageOff pa) d (s := setPagingFlags .write u) hi
  have honly : special pa d.length (pageWrite (pageOff pa) d) (plainWrite pa d) (setPagingFlags .write u) =
      outsideEnclave (pageWrite (pageOff pa) d) (setPagingFlags .write u) := (if_pos hc).trans (if_pos ho)
  rw [if_neg (by decide), honly]
  refine outsideEnclave_all fun _ => hpage.imp fun t ht => ?_
  rw [← pageStores_congr (s := u) (s' := setPagingFlags .write u) rfl rfl rfl]
  exact ht

/-- Settles O60: the accesses before a treated write leave the state that its ranges are read off. -/
theorem memoryFrameStringIteration : Obligations.MemoryFrameStringIteration := by
  intro s t it hn
  refine ⟨fun h => ?_, fun before pa d x has hbefore hw hi => ?_⟩
  · have haccs : (linearAccesses it.accs (beginAccess false s)).All (MemoryOutside (storesOf it.accs) s) :=
      (linearAccesses_leaves (s := beginAccess false s) h).all (fun _ hu => hu.outside) fun _ hu => hu
    exact inGuest_outside_all hn (whenActive_all fun _ => repIteration_all haccs fun _ hu => hu)
  · have haccs : (linearAccesses it.accs (beginAccess false s)).All fun t =>
        MemoryOutside (storesOf before ++ pageStores (pageOff pa) d.length (afterAccesses before it.accs s) t) s t := by
      rw [has, linearAccesses_append]
      refine (linearAccesses_leaves (s := beginAccess false s) hbefore).andThen_all (fun u hu => ?_) fun u hu =>
        hu.mono (List.subset_append_left _ _)
      have hwrite := outside_treatedWrite ((hu.foot.writesPage (.write pa d x false)).2 hw) fun ho => by
        obtain ⟨hal, hap⟩ := hi ho
        exact ⟨hu.agents.trans hal, by rwa [hu.foot.vmcs]⟩
      rw [linearAccesses_single]
      refine hwrite.imp fun t ht => ?_
      rw [← pageStores_congr (s := afterAccesses before _ s) (s' := u) hu.mem hu.foot.vmcs hu.status.2.1]
      exact (hu.outside.mono (List.subset_append_left _ _)).trans (ht.mono (List.subset_append_right _ _))
    exact inGuest_next_all
      (P := fun t => MemoryOutside
        (storesOf before ++ pageStores (pageOff pa) d.length (afterAccesses before it.accs s) t) s t) hn
      (whenActive_all fun _ => repIteration_all haccs fun _ => outside_pageStores_congr rfl rfl)
      fun _ _ => outside_pageStores_congr rfl rfl

end Sys2Proof.Machine
end
